-- ==== Sys2Proof/Word.lean ====
section
/-!
DEFINITION. The word types of the manual (R6, R7): bits are numbered from the least significant.
-/

namespace Sys2Proof

/-- A byte is 8 bits (R7). -/
abbrev Byte := BitVec 8

/-- A half is 16 bits (R7). -/
abbrev Half := BitVec 16

/-- A word is 32 bits (R7); an instruction word is one word. -/
abbrev Word := BitVec 32

/-- A dword is 64 bits (R7). -/
abbrev Dword := BitVec 64

/-- A 7-bit register field of an instruction word (R115). -/
abbrev Reg := BitVec 7

end Sys2Proof
end

