-- ==== Sys2Proof/Syntax.lean ====
section
/-!
DEFINITION. The instruction set: one constructor per row of the opcode table, with the named field values of R121, R120,
R129 to R147 as closed types. A register field stays the 7-bit field of the word (R115); which registers it names is read
under the course's windows.
-/

namespace Sys2Proof

/-- UK: what an unknown trit does in a branch (R120). -/
inductive Uk where
  | f | t | w | x
  deriving DecidableEq, Repr

/-- COND of the compares (R121). -/
inductive Cond where
  | eq | ne | lt | le
  deriving DecidableEq, Repr

/-- ICOND of the immediate compares (R121). -/
inductive ICond where
  | eq | ne | lt | le | gt | ge
  deriving DecidableEq, Repr

/-- SC: the scopes (R121, R327). -/
inductive Sc where
  | crs | wal | par | isl | dev | sys
  deriving DecidableEq, Repr

/-- ORD of an atomic (R121, R269). -/
inductive Ord4 where
  | rlx | acq | rel | ar
  deriving DecidableEq, Repr

/-- KIND of a fence (R121, R276). -/
inductive FKind where
  | acq | rel | ar | tot
  deriving DecidableEq, Repr

/-- VT: the value types of the vx and vc classes (R121). -/
inductive Vt where
  | i32 | n32 | f32 | f16 | bf16 | i16 | n16 | f64
  deriving DecidableEq, Repr

/-- RND of vx.cvt: the mode RM, or a mode of its own (R121, R65). -/
inductive Rnd where
  | rm | rn | rz | rd | ru
  deriving DecidableEq, Repr

/-- SEG: the segment size of the reductions (R121). -/
inductive Seg where
  | seg4 | seg8 | seg16 | seg32 | seg64
  deriving DecidableEq, Repr

/-- TY of the scalar class si (R129). -/
inductive STy where
  | i64 | n64 | b64
  deriving DecidableEq, Repr

/-- TY of the vector class vi (R132). -/
inductive VTy where
  | i32 | n32 | b32 | i16
  deriving DecidableEq, Repr

/-- TY of the vector class vf (R133). -/
inductive FTy where
  | f32 | f16 | bf16
  deriving DecidableEq, Repr

/-- The access sizes of the memory forms (R137, R138). -/
inductive MSz where
  | b16 | b32 | b64 | b128
  deriving DecidableEq, Repr

/-- The six types of at.add (R139). -/
inductive AtTy where
  | i32 | n32 | b32 | i64 | n64 | b64
  deriving DecidableEq, Repr

/-- The six types of at.min and at.max (R139). -/
inductive AtMm where
  | i32 | n32 | f32 | i64 | n64 | f64
  deriving DecidableEq, Repr

/-- LVL: the level of a lock name (R146). -/
inductive Lvl where
  | tensor | tile | line
  deriving DecidableEq, Repr

/-- MODE: the lock modes (R146, R403). -/
inductive LMode where
  | is | ix | s | six | i | x
  deriving DecidableEq, Repr

/-- Where a corrected error was counted (R484): a DRAM row of an island's under-stack, or an SRAM bank of a core. -/
inductive ErrSite where
  | row (island row : Nat)
  | bank (core bank : Nat)
  deriving DecidableEq, Repr


/-- Every row of the opcode table: the 202 instruction words of R112 to R147, with the fields of their encodings as
arguments, then the 67 steps of the other agents (engines, memory path, dispatcher, Mortar, pager, firmware, host), with
the data each step needs. No word decodes to one of the latter. -/
inductive Instr where
  /-- R178. Raises the breakpoint trap 0x0A in the issuing fragment, with TPC at the brk word and the code in CAUSE.ARG. -/
  | sysBrk (code : BitVec 21)
  /-- R178. Raises the software trap 0x0B, with TPC at the word + 4 and the code in CAUSE.ARG. -/
  | sysTrap (code : BitVec 21)
  /-- R180. Clears the handler flag and resumes at TPC, or traps 0x01 if the flag is clear. -/
  | sysRft
  /-- R181. Writes the named special register to the destination register. -/
  | sysCsrr (d : Reg) (b : Reg)
  /-- R181. Writes a scalar register's value to a read-write special register under its field rules. -/
  | sysCsrw (a : Reg) (b : Reg)
  /-- R182. Writes the state word of the fragment named by a FID, or 0 if it names no live fragment. -/
  | sysFrinfo (d : Reg) (a : Reg)
  /-- R366. Releases at .dev, then presents a FID or EID for repair, replaying side-log entries, releasing a parked fragment or resuming a stopped operation, and returns a status. -/
  | sysRepair (d : Reg) (a : Reg)
  /-- R185. Per-lane branch taken where the trit is true, with unknown lanes handled by UK, splitting the fragment by destination. -/
  | brT (uk : Uk) (q : BitVec 4) (off : BitVec 18)
  /-- R185. Per-lane branch taken where the trit is false, with unknown lanes handled by UK, splitting the fragment by destination. -/
  | brF (uk : Uk) (q : BitVec 4) (off : BitVec 18)
  /-- R185. Per-lane branch to the target where the trit is known, and to the next word where it is unknown. -/
  | brK (q : BitVec 4) (off : BitVec 18)
  /-- R186. Uniform branch on the Kleene or of the trit over the fragment's lanes, never splitting. -/
  | brAny (uk : Uk) (q : BitVec 4) (off : BitVec 18)
  /-- R186. Uniform branch on the Kleene and of the trit over the fragment's lanes, never splitting. -/
  | brAll (uk : Uk) (q : BitVec 4) (off : BitVec 18)
  /-- R186. Uniform branch on the Kleene not of the any-vote over the fragment's lanes, never splitting. -/
  | brNone (uk : Uk) (q : BitVec 4) (off : BitVec 18)
  /-- R189. Moves the whole fragment to a PC-relative target. -/
  | jmpJ (off : BitVec 17)
  /-- R189. Writes each lane's link word index and moves the fragment to a PC-relative target. -/
  | jmpCall (d : Reg) (off : BitVec 17)
  /-- R191. Pushes a join entry of the join address and the fragment's lanes onto the join stack, or traps 0x09 on a full stack. -/
  | jmpJoinat (off : BitVec 17)
  /-- R192. Waits at a matching join until every lane of the entry arrives, then merges and pops, or acts as nop on a mismatch. -/
  | jmpJoin
  /-- R189. Per-lane register jump to a word index in the code region, splitting by destination. -/
  | jmpJx (a : Reg)
  /-- R189. Per-lane register call that writes links for lanes with a present target and splits by destination. -/
  | jmpCalx (d : Reg) (a : Reg)
  /-- R189. Per-lane return through the link register, splitting by destination. -/
  | jmpRet (a : Reg)
  /-- R195. Sets the course's vector and scalar window bases WV and WS. -/
  | ctlWin (ws : BitVec 6) (wv : BitVec 6)
  /-- R196. Resets the wall's watchdog and sets the fragment's READY time to the current cycle. -/
  | ctlYield
  /-- R197. Moves the fragment's lanes to EXITED, and begins the course's drain when no lane remains live. -/
  | ctlExit
  /-- R198. Has no effect. -/
  | ctlNop
  /-- R199. Passes the course pair's issue-priority token to the other course of the pair if it is of the same wall. -/
  | ctlPrio
  /-- R202. Scalar add, saturating in typed forms and modular in b64. -/
  | siAdd (ty : STy) (d : Reg) (a : Reg) (b : Reg)
  /-- R202. Scalar subtract, saturating in typed forms and modular in b64. -/
  | siSub (ty : STy) (d : Reg) (a : Reg) (b : Reg)
  /-- R202. Scalar multiply, saturating in typed forms and modular in b64. -/
  | siMul (ty : STy) (d : Reg) (a : Reg) (b : Reg)
  /-- R202. High 64 bits of the exact 128-bit scalar product. -/
  | siMulh (ty : STy) (d : Reg) (a : Reg) (b : Reg)
  /-- R202. Scalar division with the special results of R53 and R54. -/
  | siDiv (ty : STy) (d : Reg) (a : Reg) (b : Reg)
  /-- R202. Scalar remainder with the special results of R53 and R54. -/
  | siRem (ty : STy) (d : Reg) (a : Reg) (b : Reg)
  /-- R202. Scalar minimum by signed value, unsigned value or pattern. -/
  | siMin (ty : STy) (d : Reg) (a : Reg) (b : Reg)
  /-- R202. Scalar maximum by signed value, unsigned value or pattern. -/
  | siMax (ty : STy) (d : Reg) (a : Reg) (b : Reg)
  /-- R202. Copies one scalar register to another. -/
  | siMov (d : Reg) (a : Reg)
  /-- R203. Scalar compare under COND = FN - 10, writing the trit to every lane of the fragment. -/
  | siCmp (cond : Cond) (ty : STy) (d : Reg) (a : Reg) (b : Reg)
  /-- R202. Scalar bitwise and. -/
  | siAnd (d : Reg) (a : Reg) (b : Reg)
  /-- R202. Scalar bitwise or. -/
  | siOr (d : Reg) (a : Reg) (b : Reg)
  /-- R202. Scalar bitwise exclusive or. -/
  | siXor (d : Reg) (a : Reg) (b : Reg)
  /-- R202. Scalar shift left by sB[5:0]. -/
  | siShl (d : Reg) (a : Reg) (b : Reg)
  /-- R202. Scalar logical shift right by sB[5:0]. -/
  | siShr (d : Reg) (a : Reg) (b : Reg)
  /-- R202. Scalar arithmetic shift right by sB[5:0]. -/
  | siSra (d : Reg) (a : Reg) (b : Reg)
  /-- R204. Scalar add of a sign-extended immediate, modulo 2^64. -/
  | siiAddi (d : Reg) (a : Reg) (imm : BitVec 10)
  /-- R204. Scalar and with an immediate. -/
  | siiAndi (d : Reg) (a : Reg) (imm : BitVec 10)
  /-- R204. Scalar or with an immediate. -/
  | siiOri (d : Reg) (a : Reg) (imm : BitVec 10)
  /-- R204. Scalar exclusive or with an immediate. -/
  | siiXori (d : Reg) (a : Reg) (imm : BitVec 10)
  /-- R204. Scalar shift left by an immediate 0-63. -/
  | siiShli (d : Reg) (a : Reg) (imm : BitVec 10)
  /-- R204. Scalar logical shift right by an immediate 0-63. -/
  | siiShri (d : Reg) (a : Reg) (imm : BitVec 10)
  /-- R204. Compares a scalar with a 6-bit immediate under ICOND and writes the trit to every lane of the fragment. -/
  | siiCmpi (cond : ICond) (uns : Bool) (d : Reg) (a : Reg) (imm : BitVec 6)
  /-- R204. Writes a sign-extended immediate to a scalar register. -/
  | siiMovi (d : Reg) (imm : BitVec 10)
  /-- R205. Writes the sign-extended 19-bit immediate shifted left by 13 to a scalar register. -/
  | sluHi (d : Reg) (imm : BitVec 19)
  /-- R205. Writes the word address plus the immediate times 4 to a scalar register. -/
  | sluPc (d : Reg) (imm : BitVec 19)
  /-- R218. Per-lane integer add, saturating in typed forms and modular in b32. -/
  | viAdd (ty : VTy) (d : Reg) (a : Reg) (b : Reg)
  /-- R218. Per-lane integer subtract. -/
  | viSub (ty : VTy) (d : Reg) (a : Reg) (b : Reg)
  /-- R218. Per-lane integer multiply. -/
  | viMul (ty : VTy) (d : Reg) (a : Reg) (b : Reg)
  /-- R218. Per-lane high 32 bits of the exact 64-bit product. -/
  | viMulh (ty : VTy) (d : Reg) (a : Reg) (b : Reg)
  /-- R218. Per-lane vD <- d*a + b, formed exactly and saturated once. -/
  | viMad (ty : VTy) (d : Reg) (a : Reg) (b : Reg)
  /-- R218. Per-lane integer division. -/
  | viDiv (ty : VTy) (d : Reg) (a : Reg) (b : Reg)
  /-- R218. Per-lane integer remainder. -/
  | viRem (ty : VTy) (d : Reg) (a : Reg) (b : Reg)
  /-- R218. Per-lane integer minimum. -/
  | viMin (ty : VTy) (d : Reg) (a : Reg) (b : Reg)
  /-- R218. Per-lane integer maximum. -/
  | viMax (ty : VTy) (d : Reg) (a : Reg) (b : Reg)
  /-- R218. Per-lane exact absolute value. -/
  | viAbs (ty : VTy) (d : Reg) (a : Reg)
  /-- R218. Per-lane exact negation. -/
  | viNeg (ty : VTy) (d : Reg) (a : Reg)
  /-- R218. Per-lane count of leading zero bits. -/
  | viClz (d : Reg) (a : Reg)
  /-- R218. Per-lane count of set bits. -/
  | viPopc (d : Reg) (a : Reg)
  /-- R218. Per-lane copy of a vector register's bits. -/
  | viMov (d : Reg) (a : Reg)
  /-- R218. Per-lane integer compare under COND = FN - 10, writing a trit. -/
  | viCmp (cond : Cond) (ty : VTy) (d : Reg) (a : Reg) (b : Reg)
  /-- R218. Per-lane bitwise and. -/
  | viAnd (d : Reg) (a : Reg) (b : Reg)
  /-- R218. Per-lane bitwise or. -/
  | viOr (d : Reg) (a : Reg) (b : Reg)
  /-- R218. Per-lane bitwise exclusive or. -/
  | viXor (d : Reg) (a : Reg) (b : Reg)
  /-- R218. Per-lane shift left by b[4:0]. -/
  | viShl (d : Reg) (a : Reg) (b : Reg)
  /-- R218. Per-lane logical shift right by b[4:0]. -/
  | viShr (d : Reg) (a : Reg) (b : Reg)
  /-- R218. Per-lane arithmetic shift right by b[4:0]. -/
  | viSra (d : Reg) (a : Reg) (b : Reg)
  /-- R220. Per-lane add of an immediate, modulo 2^32. -/
  | viiAddi (d : Reg) (a : Reg) (imm : BitVec 10)
  /-- R220. Per-lane and with an immediate. -/
  | viiAndi (d : Reg) (a : Reg) (imm : BitVec 10)
  /-- R220. Per-lane or with an immediate. -/
  | viiOri (d : Reg) (a : Reg) (imm : BitVec 10)
  /-- R220. Per-lane exclusive or with an immediate. -/
  | viiXori (d : Reg) (a : Reg) (imm : BitVec 10)
  /-- R220. Per-lane shift left by an immediate 0-31. -/
  | viiShli (d : Reg) (a : Reg) (imm : BitVec 10)
  /-- R220. Per-lane logical shift right by an immediate 0-31. -/
  | viiShri (d : Reg) (a : Reg) (imm : BitVec 10)
  /-- R220. Per-lane compare with a 6-bit immediate under ICOND, writing a trit. -/
  | viiCmpi (cond : ICond) (uns : Bool) (d : Reg) (a : Reg) (imm : BitVec 6)
  /-- R220. Per-lane write of a sign-extended immediate. -/
  | viiMovi (d : Reg) (imm : BitVec 10)
  /-- R222. Per-lane floating add, rounded under RM. -/
  | vfAdd (ty : FTy) (d : Reg) (a : Reg) (b : Reg)
  /-- R222. Per-lane floating subtract, rounded under RM. -/
  | vfSub (ty : FTy) (d : Reg) (a : Reg) (b : Reg)
  /-- R222. Per-lane floating multiply, rounded under RM. -/
  | vfMul (ty : FTy) (d : Reg) (a : Reg) (b : Reg)
  /-- R222. Per-lane fused vD <- d*a + b with one rounding. -/
  | vfFma (ty : FTy) (d : Reg) (a : Reg) (b : Reg)
  /-- R222. Per-lane floating division, rounded under RM. -/
  | vfDiv (ty : FTy) (d : Reg) (a : Reg) (b : Reg)
  /-- R222. Per-lane floating minimum under R62. -/
  | vfMin (ty : FTy) (d : Reg) (a : Reg) (b : Reg)
  /-- R222. Per-lane floating maximum under R62. -/
  | vfMax (ty : FTy) (d : Reg) (a : Reg) (b : Reg)
  /-- R223. Per-lane floating absolute value. -/
  | vfAbs (ty : FTy) (d : Reg) (a : Reg)
  /-- R223. Per-lane floating negation. -/
  | vfNeg (ty : FTy) (d : Reg) (a : Reg)
  /-- R223. Per-lane correctly rounded reciprocal. -/
  | vfRcp (ty : FTy) (d : Reg) (a : Reg)
  /-- R223. Per-lane correctly rounded reciprocal square root. -/
  | vfRsq (ty : FTy) (d : Reg) (a : Reg)
  /-- R223. Per-lane correctly rounded square root. -/
  | vfSqrt (ty : FTy) (d : Reg) (a : Reg)
  /-- R223. Per-lane correctly rounded 2^a. -/
  | vfExp2 (ty : FTy) (d : Reg) (a : Reg)
  /-- R223. Per-lane correctly rounded log2 a. -/
  | vfLog2 (ty : FTy) (d : Reg) (a : Reg)
  /-- R223. Per-lane exact floor. -/
  | vfFloor (ty : FTy) (d : Reg) (a : Reg)
  /-- R223. Per-lane copy of all 32 bits. -/
  | vfMov (ty : FTy) (d : Reg) (a : Reg)
  /-- R224. Per-lane f32 compare under COND = FN - 8, writing a trit. -/
  | vfCmp (cond : Cond) (d : Reg) (a : Reg) (b : Reg)
  /-- R226. Per-lane f64 add on register pairs. -/
  | vdAdd (d : Reg) (a : Reg) (b : Reg)
  /-- R226. Per-lane f64 subtract on register pairs. -/
  | vdSub (d : Reg) (a : Reg) (b : Reg)
  /-- R226. Per-lane f64 multiply on register pairs. -/
  | vdMul (d : Reg) (a : Reg) (b : Reg)
  /-- R226. Per-lane f64 fused multiply-add on register pairs. -/
  | vdFma (d : Reg) (a : Reg) (b : Reg)
  /-- R226. Per-lane f64 division on register pairs. -/
  | vdDiv (d : Reg) (a : Reg) (b : Reg)
  /-- R226. Per-lane f64 square root on register pairs. -/
  | vdSqrt (d : Reg) (a : Reg)
  /-- R226. Per-lane f64 minimum. -/
  | vdMin (d : Reg) (a : Reg) (b : Reg)
  /-- R226. Per-lane f64 maximum. -/
  | vdMax (d : Reg) (a : Reg) (b : Reg)
  /-- R226. Per-lane f64 compare under COND = OP - 0x08, writing a trit. -/
  | vdCmp (cond : Cond) (d : Reg) (a : Reg) (b : Reg)
  /-- R228. Writes true where the operand is the absent code of VT and false elsewhere. -/
  | vxIsabs (vt : Vt) (d : Reg) (a : Reg)
  /-- R228. Replaces an absent operand with the fallback operand. -/
  | vxOra (vt : Vt) (d : Reg) (a : Reg) (b : Reg)
  /-- R228. Writes absent where the trit is true or unknown and copies the source where false. -/
  | vxMkabs (vt : Vt) (d : Reg) (a : Reg) (b : Reg)
  /-- R228. Keeps vD where the trit is true, takes vA where false, writes absent where unknown. -/
  | vxSel (vt : Vt) (d : Reg) (a : Reg) (b : Reg)
  /-- R231. Converts one value from FROM to TO under the rounding mode and R66. -/
  | vxCvt (rnd : Rnd) (d : Reg) (a : Reg) (h : Bool) (src : Vt) (dst : Vt)
  /-- R229. Kleene and of two trits. -/
  | vxQand (d : Reg) (a : Reg) (b : Reg)
  /-- R229. Kleene or of two trits. -/
  | vxQor (d : Reg) (a : Reg) (b : Reg)
  /-- R229. Kleene not of a trit. -/
  | vxQnot (d : Reg) (a : Reg)
  /-- R229. Kleene exclusive or of two trits. -/
  | vxQxor (d : Reg) (a : Reg) (b : Reg)
  /-- R229. Copies a trit, writing 0b11 as unknown. -/
  | vxQmov (d : Reg) (a : Reg)
  /-- R229. Sets a trit to the code 0-2. -/
  | vxQset (d : Reg) (code : Reg)
  /-- R230. Packs eight trits into the low 16 bits of a vector register. -/
  | vxQpack (d : Reg) (a : Reg)
  /-- R230. Unpacks eight trits from the low 16 bits of a vector register. -/
  | vxQunpack (d : Reg) (a : Reg)
  /-- R234. Segmented sum over the fragment's lanes, skipping absent and writing the kept count. -/
  | vcRedAdd (d : Reg) (a : Reg) (vt : Vt) (seg : Seg)
  /-- R234. Segmented minimum with kept count. -/
  | vcRedMin (d : Reg) (a : Reg) (vt : Vt) (seg : Seg)
  /-- R234. Segmented maximum with kept count. -/
  | vcRedMax (d : Reg) (a : Reg) (vt : Vt) (seg : Seg)
  /-- R235. Segmented inclusive sum scan with per-lane kept counts. -/
  | vcScanAdd (d : Reg) (a : Reg) (vt : Vt) (seg : Seg)
  /-- R235. Segmented inclusive minimum scan. -/
  | vcScanMin (d : Reg) (a : Reg) (vt : Vt) (seg : Seg)
  /-- R235. Segmented inclusive maximum scan. -/
  | vcScanMax (d : Reg) (a : Reg) (vt : Vt) (seg : Seg)
  /-- R236. Ranks each segment's present elements and writes the k highest values and positions. -/
  | vcTopk (k : BitVec 3) (d : Reg) (a : Reg) (vt : Vt) (seg : Seg)
  /-- R237. Maps flattened positions onto ragged rows, writing row and offset per lane. -/
  | vcRebal (d : Reg) (a : Reg) (b : Reg)
  /-- R238. Writes true for lanes whose 64-bit address an earlier lane of the fragment holds. -/
  | vcConflict (d : Reg) (a : Reg)
  /-- R239. Copies bits from the lane named per lane by vB. -/
  | vcShflIdx (d : Reg) (a : Reg) (b : Reg)
  /-- R239. Copies bits from lane L - sB. -/
  | vcShflUp (d : Reg) (a : Reg) (b : Reg)
  /-- R239. Copies bits from lane L + sB. -/
  | vcShflDown (d : Reg) (a : Reg) (b : Reg)
  /-- R239. Copies bits from lane L xor sB. -/
  | vcShflXor (d : Reg) (a : Reg) (b : Reg)
  /-- R241. Writes the Kleene or of a trit over the fragment to every lane. -/
  | vcVoteAny (d : Reg) (a : Reg)
  /-- R241. Writes the Kleene and of a trit over the fragment to every lane. -/
  | vcVoteAll (d : Reg) (a : Reg)
  /-- R241. Writes the Kleene not of the any-vote to every lane. -/
  | vcVoteNone (d : Reg) (a : Reg)
  /-- R240. Broadcasts lane t's register to every lane of the fragment. -/
  | vcBcast (d : Reg) (a : Reg) (b : Reg)
  /-- R240. Writes sA[31:0] into vD of lane t only. -/
  | vcWrlane (d : Reg) (a : Reg) (b : Reg)
  /-- R252. Row or per-lane load from global memory of 16 to 128 bits, parking faulting lanes. -/
  | ldG (sz : MSz) (d : Reg) (a : Reg) (off : BitVec 9)
  /-- R252. Row or per-lane load from the wall's stash window. -/
  | ldS (sz : MSz) (d : Reg) (a : Reg) (off : BitVec 9)
  /-- R254. Load through the non-coherent constant cache. -/
  | ldC (wide : Bool) (d : Reg) (a : Reg) (off : BitVec 9)
  /-- R255. Once-per-course load of a word or dword into a scalar register. -/
  | ldK (wide : Bool) (d : Reg) (a : Reg) (off : BitVec 9)
  /-- R208. Loads a stack slot row per lane, or traps 0x05 outside the stack limit. -/
  | ldStk (d : Reg) (off : BitVec 9)
  /-- R252. Row or per-lane store to global memory, with faulting lanes entering the side log. -/
  | stG (sz : MSz) (d : Reg) (a : Reg) (off : BitVec 9)
  /-- R252. Row or per-lane store to the stash window. -/
  | stS (sz : MSz) (d : Reg) (a : Reg) (off : BitVec 9)
  /-- R255. Once-per-course store of a scalar word or dword. -/
  | stK (wide : Bool) (d : Reg) (a : Reg) (off : BitVec 9)
  /-- R208. Stores a stack slot row per lane, or traps 0x05 outside the stack limit. -/
  | stStk (d : Reg) (off : BitVec 9)
  /-- R258. Indexed per-lane load from global memory, absent index making no access. -/
  | ldxG (sz : MSz) (d : Reg) (a : Reg) (b : Reg)
  /-- R258. Indexed per-lane load from stash. -/
  | ldxS (sz : MSz) (d : Reg) (a : Reg) (b : Reg)
  /-- R258. Indexed per-lane store to global memory. -/
  | stxG (sz : MSz) (d : Reg) (a : Reg) (b : Reg)
  /-- R258. Indexed per-lane store to stash. -/
  | stxS (sz : MSz) (d : Reg) (a : Reg) (b : Reg)
  /-- R265. Indivisible atomic add per address, lanes served in ascending order, returning old values. -/
  | atAdd (ty : AtTy) (d : Reg) (a : Reg) (sc : Sc) (ord : Ord4)
  /-- R266. Atomic floating add rounded to nearest even. -/
  | atFadd (wide : Bool) (d : Reg) (a : Reg) (sc : Sc) (ord : Ord4)
  /-- R266. Atomic minimum. -/
  | atMin (ty : AtMm) (d : Reg) (a : Reg) (sc : Sc) (ord : Ord4)
  /-- R266. Atomic maximum, OP 0x0E-0x13 by type. -/
  | atMax (ty : AtMm) (d : Reg) (a : Reg) (sc : Sc) (ord : Ord4)
  /-- R266. Atomic bitwise and. -/
  | atAnd (wide : Bool) (d : Reg) (a : Reg) (sc : Sc) (ord : Ord4)
  /-- R266. Atomic bitwise or. -/
  | atOr (wide : Bool) (d : Reg) (a : Reg) (sc : Sc) (ord : Ord4)
  /-- R266. Atomic bitwise exclusive or. -/
  | atXor (wide : Bool) (d : Reg) (a : Reg) (sc : Sc) (ord : Ord4)
  /-- R266. Atomic exchange. -/
  | atXchg (wide : Bool) (d : Reg) (a : Reg) (sc : Sc) (ord : Ord4)
  /-- R267. Atomic compare-and-swap on exact patterns. -/
  | atCas (wide : Bool) (d : Reg) (a : Reg) (sc : Sc) (ord : Ord4)
  /-- R268. Atomic slot reservation granting contiguous ranges under a capacity. -/
  | atSlot (wide : Bool) (d : Reg) (a : Reg) (sc : Sc) (ord : Ord4)
  /-- R272. Arrives at a wall barrier or stash barrier object and waits for its completion. -/
  | synBar (reg : Reg) (obj : Bool) (bar : BitVec 4)
  /-- R272. Releases at wal and records the fragment's lanes as arrived, or arrives at a stash barrier object. -/
  | synArrive (reg : Reg) (obj : Bool) (bar : BitVec 4)
  /-- R272. Waits for the barrier or object phase to complete, then acquires at wal. -/
  | synBwait (reg : Reg) (obj : Bool) (bar : BitVec 4)
  /-- R276. Waits until the course's outstanding counters meet the fence kind at its scope. -/
  | synFence (sc : Sc) (kind : FKind)
  /-- R277. Waits until LDC, STC and TLC are at or below the given bounds. -/
  | synWaitc (loads : BitVec 3) (stores : BitVec 3) (tiles : BitVec 3)
  /-- R279. Waits on a condition monitor until a memory word equals or differs from a comparand. -/
  | synWaitcmp (wide : Bool) (ne : Bool) (d : Reg) (a : Reg) (b : Reg)
  /-- R281. Releases at SC and adds to a signal indivisibly. -/
  | synSigadd (sc : Sc) (d : Reg) (a : Reg) (b : Reg)
  /-- R282. Waits until a signal is at or below a bound, acquiring at SC. -/
  | synSigwait (sc : Sc) (d : Reg) (a : Reg) (b : Reg)
  /-- R285. Releases at .dev and copies a stash record to the tail of a work queue. -/
  | wqPush (d : Reg) (a : Reg) (b : Reg)
  /-- R286. Takes the oldest entry of a work queue or its steal ring, waiting if all are empty. -/
  | wqPop (d : Reg) (a : Reg) (b : Reg)
  /-- R286. Pops as wq.pop but returns all ones instead of waiting. -/
  | wqTrypop (d : Reg) (a : Reg) (b : Reg)
  /-- R285. Releases at .dev and copies a stash launch record to a launch queue. -/
  | wqLaunch (d : Reg) (a : Reg) (b : Reg)
  /-- R295. Writes FMT if valid, or takes the layout-mismatch trap. -/
  | tlSetfmt (a : Reg)
  /-- R311. Accepts a drain converting a z tile to a target format in global memory or stash, with optional absolute-maximum atomic. -/
  | tlDrain (d : Reg) (a : Reg)
  /-- R307. Accepts a fill of a z tile with the accumulator's absent code. -/
  | tlZero (d : Reg)
  /-- R307. Accepts a load of 16 KiB of global memory into a z tile, pinning its pages. -/
  | tlLoad (d : Reg) (a : Reg)
  /-- R303. Accepts 1-8 matrix K-steps from register A slices or the latch and stash B rows into a z tile. -/
  | tlMma (reuse : Bool) (kc : Bool) (kn : BitVec 3) (d : Reg) (a : Reg) (b : Reg)
  /-- R314. Accepts a strided copy from global memory to stash. -/
  | cpyG2s (d : Reg) (a : Reg) (b : Reg)
  /-- R314. Accepts a strided copy from stash to global memory. -/
  | cpyS2g (d : Reg) (a : Reg) (b : Reg)
  /-- R314. Accepts a strided copy between global locations. -/
  | cpyG2g (d : Reg) (a : Reg) (b : Reg)
  /-- R316. Closes pending copies into the next numbered batch, optionally naming a stash barrier object. -/
  | cpyBatch (d : Reg) (a : Reg)
  /-- R317. Waits until every closed batch at or below a number is complete. -/
  | cpyWait (a : Reg)
  /-- R261. Binds a stash range to global memory, pinning its pages and waiting until done. -/
  | cpyBind (d : Reg) (a : Reg) (b : Reg)
  /-- R263. Writes back dirty lines of a bound region, releases pins and makes it plain stash. -/
  | cpyUnbind (a : Reg)
  /-- R386. Accepts a gather of 64 token rows through a block map into stash. -/
  | kvGather (d : Reg) (a : Reg) (b : Reg)
  /-- R389. Per lane appends a stash row to a sequence, taking free blocks and parking on shared or missing blocks. -/
  | kvAppend (a : Reg) (b : Reg)
  /-- R392. Makes a destination map share a source sequence's blocks, raising their reference counts. -/
  | kvFork (d : Reg) (a : Reg)
  /-- R393. Releases every block of a map, pushing blocks whose count reaches 0 to the free queue. -/
  | kvDrop (a : Reg)
  /-- R321. Accepts a transform run transposing a source layout into a destination layout. -/
  | xfRunTranspose (a : Reg) (b : Reg)
  /-- R321. Accepts a transform run requantising a source layout into a destination format. -/
  | xfRunRequant (a : Reg) (b : Reg)
  /-- R458. Accepts a run compacting a dense tensor into a compressed buffer of present blocks. -/
  | xfRunCompact (a : Reg) (b : Reg)
  /-- R459. Accepts a run expanding a compressed buffer into a dense tensor. -/
  | xfRunExpand (a : Reg) (b : Reg)
  /-- R324. Stops and completes as cancelled every incomplete run of the course with a matching handle. -/
  | xfCancel (a : Reg)
  /-- R421. Requests a lock per lane, granting, refusing, or queueing and parking with 0x30. -/
  | lkAcq (d : Reg) (a : Reg) (tryOnly : Bool) (lvl : Lvl) (mode : LMode)
  /-- R422. Releases at .dev and lowers the wall's hold count of a mode on a lock, rescanning its queue. -/
  | lkRel (a : Reg) (lvl : Lvl) (mode : LMode)
  /-- R423. Releases every holding and request of the wall and ends a pending wound. -/
  | lkRelall
  /-- R424. Requests conversion of a tile or tensor lock, folding lower locks on grant. -/
  | lkEsc (d : Reg) (a : Reg) (lvl : Lvl) (mode : LMode)
  /-- R425. Writes a snapshot word of a lock's holdings per lane. -/
  | lkQuery (d : Reg) (a : Reg) (lvl : Lvl)
  /-- R441. Pins resident experts per lane and returns frame addresses, or starts a fetch and parks with 0x31. -/
  | exAcq (d : Reg) (a : Reg) (tryOnly : Bool)
  /-- R442. Waits for the course's reads to finish, then lowers expert pin counts. -/
  | exRel (a : Reg)
  /-- R443. Starts hint fetches of absent experts and refreshes LASTUSE of resident ones. -/
  | exHint (a : Reg)
  /-- R444. Writes a status word of an expert residency entry. -/
  | exStat (d : Reg) (a : Reg)
  /-- R279. A monitor on a line outside the package fires every 1,024 cycles. -/
  | monitorPeriodicFire (line : Nat)
  /-- R96. The hardware merges two READY fragments with equal PCs and identical join stacks. -/
  | fragmentMerge (cid : Nat) (one : Nat) (two : Nat)
  /-- R101. A freed shared entry is given to a spilled READY fragment, exchanging with a resident waiting one if needed. -/
  | fragmentRefill (core : Nat)
  /-- R250. A load's destinations are written and LDC is lowered. -/
  | loadComplete (op : Nat)
  /-- R250. A store's writes are performed at device scope and STC is lowered. -/
  | storePerformed (op : Nat)
  /-- R291. The sequencer finishes a tile operation on its tile and lowers TLC. -/
  | tileOperationComplete (op : Nat)
  /-- R315. A copy engine operation has written or performed every destination byte. -/
  | copyComplete (op : Nat)
  /-- R322. A transform run has performed every destination byte and arrives at its object. -/
  | xfRunComplete (op : Nat)
  /-- R387. A gather has written all 64 rows and arrives at its object. -/
  | gatherComplete (op : Nat)
  /-- R367. An xf.run or kv.gather meets a translation fault, stops at its step boundary, saves state and forms a record. -/
  | engineOperationFault (op : Nat)
  /-- R355. A merge-table entry starts its walk when fewer than 512 walks are in flight. -/
  | pageWalkStart (island : Nat) (ctx : Nat) (unit : Nat)
  /-- R353. A walk ends as translated, not present, copy-on-write or access violation, serving waiting requests. -/
  | pageWalkComplete (island : Nat) (ctx : Nat) (unit : Nat)
  /-- R364. A held fault record is written to the ring, TAIL advanced and SIG decremented when there is room. -/
  | faultRecordWrite (core : Nat)
  /-- R77. The dispatcher reads a head record's predecessor signal as an acquire, re-reading after writes to its line. -/
  | predecessorRead (queue : Nat)
  /-- R32. The dispatcher changes an empty core's stash split, writing back the removed L1 part. -/
  | splitChange (core : Nat) (queue : Nat)
  /-- R39. The dispatcher places a wall all at once on a core or twin with room, claiming its resources. -/
  | wallPlace (queue : Nat) (core : Nat)
  /-- R197. An exited course's outstanding operations complete and it releases its resources. -/
  | courseDrain (cid : Nat)
  /-- R373. A priority-0 record halts the resident context's fragments and engines and saves it to the shadow region. -/
  | preemption (part : Nat) (queue : Nat)
  /-- R375. A saved context is restored to its cores and resumes. -/
  | contextRestore (part : Nat)
  /-- R110. A wall's watchdog passes its budget, recording READY fragments and faulting the context. -/
  | watchdogExpiry (age : Nat)
  /-- R415. A wounded wall's grace timer passes the grace and the context takes a context-fatal fault. -/
  | woundGraceExpiry (age : Nat)
  /-- R434. The pager obtains a frame, evicting a victim if needed, and starts a fetch into it. -/
  | expertFetchStart (ctx : Nat) (id : Nat)
  /-- R437. A fetch succeeds, making the entry RESIDENT, or fails, making it FAILED. -/
  | expertFetchComplete (ctx : Nat) (id : Nat) (ok : Bool)
  /-- R340. An island applies a write from another island once its vector clock permits. -/
  | writeApply (write : Nat) (island : Nat)
  /-- R449. The home slice writes a line back, choosing its compression tag afresh. -/
  | lineWriteBack (line : Nat)
  /-- R485. An uncorrectable error in a line marks it and faults the contexts accessing it. -/
  | memoryErrorUncorrectable (line : Nat) (ctx : Nat)
  /-- R484. A corrected error is counted and may retire a DRAM row or disable an SRAM bank. -/
  | correctedError (site : ErrSite)
  /-- R477. The remote home slice acknowledges a posted reduction and STC is lowered. -/
  | postedReductionAck (op : Nat)
  /-- R475. An atomic arriving from another device through the strait switch is executed at the home slice. -/
  | outerStraitAtomic (op : BitVec 6) (pa : Nat) (x : BitVec 64) (y : BitVec 64)
  /-- R474. A CXL back-invalidation removes the caching slice's copy of a C = 1 line. -/
  | cxlBackInvalidation (line : Nat)
  /-- R464. A host read through BAR4 or CXL.mem served by the home slice at sys. -/
  | hostRead (pa : Nat) (len : Nat)
  /-- R464. A host write through BAR4 or CXL.mem served by the home slice at sys, or dropped. -/
  | hostWrite (pa : Nat) (bytes : List (BitVec 8))
  /-- R471. A host write stages bytes of a record per port and per queue. -/
  | queueWindowStage (port : Nat) (queue : Nat) (off : Nat) (bytes : List (BitVec 8))
  /-- R471. A host write to offset 0x40 pushes the staged record as a release at sys. -/
  | queueWindowPush (port : Nat) (queue : Nat)
  /-- R466. Writing 1 to STATUS.FAULTPEND clears it. -/
  | statusWrite (value : BitVec 64)
  /-- R489. A host write to a device-wide event counter clears it to 0. -/
  | eventCounterClear (n : Nat)
  /-- R467. A host write to a control register with no behaviour of its own, such as CMD staging. -/
  | registerWrite (off : Nat) (value : BitVec 64)
  /-- R479. Power-on or fundamental reset clears state and the boot ROM measures and starts firmware. -/
  | powerOnReset (wellFormedImage : Bool)
  /-- R479. A function-level reset destroys every context and leaves memory. -/
  | functionLevelReset (port : Nat)
  /-- R490. A PCIe port trains and negotiates PCIe or CXL mode. -/
  | portLinkTraining (port : Nat) (cxl : Bool)
  /-- R124. A fragment issues a word whose class, OP or fields are unassigned, such as the all-zero or all-ones word, and takes trap 0x01 at that word. -/
  | illegalInstruction (word : BitVec 32)
  /-- R490. A PCIe port's link is lost, so its PORTMODE field reads link down and windows that need CXL on that port become unmapped. -/
  | portLinkDown (port : Nat)
  /-- R473. A plain read or write from another device arrives through the strait switch and is served by the home slice. -/
  | outerStraitAccess (write : Bool) (pa : Nat) (bytes : List (BitVec 8)) (len : Nat)
  /-- R483. SPDM request answered with the supported version. -/
  | getVersion (port : Nat)
  /-- R483. SPDM request answered with the device's capabilities. -/
  | getCapabilities (port : Nat)
  /-- R483. SPDM request negotiating SHA-384 and brainpoolP384r1. -/
  | negotiateAlgorithms (port : Nat) (hash384 : Bool) (brainpool384 : Bool)
  /-- R483. SPDM request answered with certificate digests. -/
  | getDigests (port : Nat)
  /-- R483. SPDM request answered with the slot 0 certificate chain. -/
  | getCertificate (port : Nat) (slot : Nat) (off : Nat) (len : Nat)
  /-- R483. SPDM request answered with a signed challenge response. -/
  | challenge (port : Nat) (nonce : Nat)
  /-- R483. SPDM request answered with the three measurement blocks. -/
  | getMeasurements (port : Nat) (nonce : Nat)
  /-- R483. Any other SPDM request receives ERROR with UnsupportedRequest. -/
  | unsupportedRequest (port : Nat) (code : Nat)
  /-- R414. A marked fragment takes the wound trap 0x08 instead of issuing its next instruction. -/
  | woundTrap
  /-- R469. Creates a context from its descriptor, pinning spill and counter pages. -/
  | ctxCreate
  /-- R467. Faults, unbinds and unpins a context, unconfigures its queues and forgets it. -/
  | ctxDestroy
  /-- R467. Configures a queue's context, kind, capacity, successor and pinned ring. -/
  | queueConfig
  /-- R430. Writes an expert residency entry's static fields, or refuses. -/
  | ertWrite
  /-- R357. Completes when no core can use a removed translation and no pin overlaps the range. -/
  | invalidate
  /-- R468. Host repair of a FID or EID with a release at sys, status in RESULT. -/
  | repair
  /-- R472. Binds or unbinds a signal's physical location to an MSI-X vector. -/
  | irqBind
  /-- R473. Writes a window table entry mapping physical addresses outside the package. -/
  | window
  /-- R480. Sets a partition's twins from a bitmap. -/
  | partSet
  /-- R467. Registers an NVMe namespace and creates firmware queue pairs. -/
  | flash
  /-- R482. Loads a firmware policy item, or refuses an out-of-range value. -/
  | policy
  /-- R479. Firmware trains the under-stack, loads policy, applies held POLICY commands and sets READY. -/
  | firmwareBringUp
  /-- R358. A fragment's instruction fetch fails translation, so the fragment parks as one group at the word, or takes trap 0x0C for an access violation. -/
  | instructionFetchFault
  /-- R467. A doorbell write starts a command whose code is not assigned, and CMDSTAT reports ERR 1. -/
  | unknownCommand
  /-- R481. Package power reaches the firmware power limit, the package becomes capped, and partitions' issue rates are scaled by their scheduling weights. -/
  | packageCapped
  deriving DecidableEq, Repr

end Sys2Proof
end

