-- ==== Sys2Proof/Machine/Kinds.lean ====
section
/-!
DEFINITION. The operand kinds of R117, the operands of every instruction word (R125 to R147), and the legality checks of
R124 that need nothing but the word. The same list of operands serves the register-cap check (R118) and the interlock of
pending results (R212).
-/

namespace Sys2Proof

/-- One operand field with its kind (R117). `vA f n` is the matrix A group of n K-steps (R296). -/
inductive Operand where
  | v (f : Reg) | vp (f : Reg) | v4 (f : Reg) | vA (f : Reg) (steps : Nat)
  | s (f : Reg) | sp (f : Reg) | sOr0 (f : Reg)
  | q (f : Reg) | z (f : Reg)
  deriving DecidableEq, Repr

/-- A field of kind s or v names a scalar exactly when its bit 6 is set (R115). -/
def isS (f : Reg) : Bool := f.getLsbD 6

/-- The legal field values of each kind (R117). -/
def Operand.legal : Operand → Bool
  | .v f => !isS f
  | .vp f => !isS f && f.toNat % 2 == 0
  | .v4 f => !isS f && f.toNat % 4 == 0
  | .vA f _ => !isS f
  | .s f => isS f
  | .sp f => isS f && f.toNat % 2 == 0
  | .sOr0 f => isS f || f == 0
  | .q f => f.toNat < 16
  | .z f => f.toNat < 8

/-- The size of the matrix A group of one K-step, 512 ÷ width (R117, R296). -/
def groupA (width : Nat) : Nat := 512 / width

/-- The vector registers an operand names, as first field value and count (R117). -/
def Operand.vregs (width : Nat) : Operand → Option (Nat × Nat)
  | .v f => some (f.toNat, 1)
  | .vp f => some (f.toNat, 2)
  | .v4 f => some (f.toNat, 4)
  | .vA f n => some (f.toNat, groupA width * n)
  | _ => none

/-- The scalar registers an operand names, as first field value and count (R117). -/
def Operand.sregs : Operand → Option (Nat × Nat)
  | .s f => some (f.toNat, 1)
  | .sp f => some (f.toNat, 2)
  | .sOr0 f => if f == 0 then none else some (f.toNat, 1)
  | _ => none

/-- The data operand of a memory form, by access size (R137, R138). -/
def dataOperand : MSz → Reg → Operand
  | .b16, f => .v f
  | .b32, f => .v f
  | .b64, f => .vp f
  | .b128, f => .v4 f

/-- A v operand, or a pair for a 64-bit form (R121, R139). -/
def vOrVp (wide : Bool) (f : Reg) : Operand := if wide then .vp f else .v f

/-- An address field: an s base, or a vp base of one 64-bit address per lane (R137, R139). -/
def sOrVp (f : Reg) : Operand := if isS f then .s f else .vp f

/-- An s base, or a v base of one 32-bit stash address per lane (R137). -/
def sOrV (f : Reg) : Operand := if isS f then .s f else .v f

/-- Whether a value type is held in a register pair (R121). -/
def Vt.wide : Vt → Bool
  | .f64 => true
  | _ => false

/-- Whether a value type has two elements to a register (R214). -/
def Vt.packed : Vt → Bool
  | .f16 | .bf16 | .i16 | .n16 => true
  | _ => false

def AtTy.wide : AtTy → Bool
  | .i64 | .n64 | .b64 => true
  | _ => false

def AtMm.wide : AtMm → Bool
  | .i64 | .n64 | .f64 => true
  | _ => false

/-- The special-register numbers whose operand is an s register (R174); %lane, number 0, takes a v register. -/
def csrScalarNumbers : List Nat :=
  [0x01, 0x02, 0x03, 0x04, 0x05, 0x06, 0x07, 0x10, 0x11, 0x12, 0x13, 0x20, 0x21, 0x22, 0x23, 0x24]

/-- The special registers that sys.csrw may write: RM, TPC, TVEC (R174). -/
def csrWritable : List Nat := [0x12, 0x21, 0x24]

/-- The lanes of a segment (R121). -/
def Seg.size : Seg → Nat
  | .seg4 => 4 | .seg8 => 8 | .seg16 => 16 | .seg32 => 32 | .seg64 => 64

/-- The operands of the three-register vector forms. -/
def vvv (d a b : Reg) : List Operand := [.v d, .v a, .v b]
def vv (d a : Reg) : List Operand := [.v d, .v a]
def sss (d a b : Reg) : List Operand := [.s d, .s a, .s b]
def ppp (d a b : Reg) : List Operand := [.vp d, .vp a, .vp b]
/-- The operands of vc.red and vc.scan (R242). -/
def redOps (d a : Reg) (vt : Vt) : List Operand := if vt.wide then [.v4 d, .vp a] else [.vp d, .v a]
/-- The operands of syn.bar, syn.arrive and syn.bwait (R140). -/
def barOps (reg : Reg) (obj : Bool) : List Operand := if obj then [.s reg] else []

/-- The operands of each instruction, as the class tables of R125 to R147 give them. -/
def Instr.operands : Instr → List Operand
  | .sysCsrr d b => if b == 0 then [.v d] else [.s d]
  | .sysCsrw a _ => [.s a]
  | .sysFrinfo d a | .sysRepair d a => [.s d, .s a]
  | .jmpCall d _ => [.v d]
  | .jmpJx a | .jmpRet a => [.v a]
  | .jmpCalx d a => vv d a
  | .siAdd _ d a b | .siSub _ d a b | .siMul _ d a b | .siMulh _ d a b | .siDiv _ d a b | .siRem _ d a b
  | .siMin _ d a b | .siMax _ d a b | .siAnd d a b | .siOr d a b | .siXor d a b | .siShl d a b | .siShr d a b
  | .siSra d a b => sss d a b
  | .siMov d a => [.s d, .s a]
  | .siCmp _ _ d a b => [.q d, .s a, .s b]
  | .siiAddi d a _ | .siiAndi d a _ | .siiOri d a _ | .siiXori d a _ | .siiShli d a _ | .siiShri d a _ => [.s d, .s a]
  | .siiCmpi _ _ d a _ => [.q d, .s a]
  | .siiMovi d _ | .sluHi d _ | .sluPc d _ => [.s d]
  | .viAdd _ d a b | .viSub _ d a b | .viMul _ d a b | .viMulh _ d a b | .viMad _ d a b | .viDiv _ d a b
  | .viRem _ d a b | .viMin _ d a b | .viMax _ d a b | .viAnd d a b | .viOr d a b | .viXor d a b | .viShl d a b
  | .viShr d a b | .viSra d a b => vvv d a b
  | .viAbs _ d a | .viNeg _ d a | .viClz d a | .viPopc d a | .viMov d a => vv d a
  | .viCmp _ _ d a b | .vfCmp _ d a b => [.q d, .v a, .v b]
  | .viiAddi d a _ | .viiAndi d a _ | .viiOri d a _ | .viiXori d a _ | .viiShli d a _ | .viiShri d a _ => vv d a
  | .viiCmpi _ _ d a _ => [.q d, .v a]
  | .viiMovi d _ => [.v d]
  | .vfAdd _ d a b | .vfSub _ d a b | .vfMul _ d a b | .vfFma _ d a b | .vfDiv _ d a b | .vfMin _ d a b
  | .vfMax _ d a b => vvv d a b
  | .vfAbs _ d a | .vfNeg _ d a | .vfRcp _ d a | .vfRsq _ d a | .vfSqrt _ d a | .vfExp2 _ d a | .vfLog2 _ d a
  | .vfFloor _ d a | .vfMov _ d a => vv d a
  | .vdAdd d a b | .vdSub d a b | .vdMul d a b | .vdFma d a b | .vdDiv d a b | .vdMin d a b | .vdMax d a b => ppp d a b
  | .vdSqrt d a => [.vp d, .vp a]
  | .vdCmp _ d a b => [.q d, .vp a, .vp b]
  | .vxIsabs vt d a => [.q d, vOrVp vt.wide a]
  | .vxOra vt d a b => [vOrVp vt.wide d, vOrVp vt.wide a, vOrVp vt.wide b]
  | .vxMkabs vt d a b | .vxSel vt d a b => [vOrVp vt.wide d, vOrVp vt.wide a, .q b]
  | .vxCvt _ d a _ src dst => [vOrVp dst.wide d, vOrVp src.wide a]
  | .vxQand d a b | .vxQor d a b | .vxQxor d a b => [.q d, .q a, .q b]
  | .vxQnot d a | .vxQmov d a => [.q d, .q a]
  | .vxQset d _ => [.q d]
  | .vxQpack d _ => [.v d]
  | .vxQunpack _ a => [.v a]
  | .vcRedAdd d a vt _ | .vcRedMin d a vt _ | .vcRedMax d a vt _ | .vcScanAdd d a vt _ | .vcScanMin d a vt _
  | .vcScanMax d a vt _ => redOps d a vt
  | .vcTopk _ d a _ _ => [.vp d, .v a]
  | .vcRebal d a b => [.vp d, .v a, .s b]
  | .vcConflict d a => [.q d, .vp a]
  | .vcShflIdx d a b => vvv d a b
  | .vcShflUp d a b | .vcShflDown d a b | .vcShflXor d a b | .vcBcast d a b => [.v d, .v a, .s b]
  | .vcVoteAny d a | .vcVoteAll d a | .vcVoteNone d a => [.q d, .q a]
  | .vcWrlane d a b => [.v d, .s a, .s b]
  | .ldG sz d a _ | .stG sz d a _ => [dataOperand sz d, sOrVp a]
  | .ldS sz d a _ | .stS sz d a _ => [dataOperand sz d, sOrV a]
  | .ldC wide d a _ => [vOrVp wide d, sOrVp a]
  | .ldK _ d a _ | .stK _ d a _ => [.s d, .s a]
  | .ldStk d _ | .stStk d _ => [.v d]
  | .ldxG sz d a b | .ldxS sz d a b | .stxG sz d a b | .stxS sz d a b => [dataOperand sz d, .s a, .v b]
  | .atAdd ty d a _ _ => [vOrVp ty.wide d, sOrVp a]
  | .atMin ty d a _ _ | .atMax ty d a _ _ => [vOrVp ty.wide d, sOrVp a]
  | .atFadd w d a _ _ | .atAnd w d a _ _ | .atOr w d a _ _ | .atXor w d a _ _ | .atXchg w d a _ _
  | .atSlot w d a _ _ => [vOrVp w d, sOrVp a]
  | .atCas w d a _ _ => [if w then .v4 d else .vp d, sOrVp a]
  | .synBar reg obj _ | .synArrive reg obj _ | .synBwait reg obj _ => barOps reg obj
  | .synWaitcmp _ _ d a b => sss d a b
  | .synSigadd _ d a b | .synSigwait _ d a b => [.sOr0 d, .s a, .s b]
  | .wqPush d a b | .wqPop d a b | .wqTrypop d a b | .wqLaunch d a b => sss d a b
  | .tlSetfmt a => [.s a]
  | .tlDrain d a => [.z d, .sp a]
  | .tlZero d => [.z d]
  | .tlLoad d a => [.z d, .s a]
  | .tlMma _ _ kn d a b => [.z d, .vA a (kn.toNat + 1), .sp b]
  | .cpyG2s d a b | .cpyS2g d a b | .cpyG2g d a b | .cpyBind d a b => sss d a b
  | .cpyBatch d a => [.sOr0 d, .sOr0 a]
  | .cpyWait a | .cpyUnbind a => [.s a]
  | .kvGather d a b => sss d a b
  | .kvAppend a b => [.vp a, .vp b]
  | .kvFork d a => [.s d, .s a]
  | .kvDrop a => [.s a]
  | .xfRunTranspose a b | .xfRunRequant a b | .xfRunCompact a b | .xfRunExpand a b => [.s a, .s b]
  | .xfCancel a => [.s a]
  | .lkAcq d a _ _ _ | .lkEsc d a _ _ => [.q d, sOrVp a]
  | .lkRel a _ _ => [sOrVp a]
  | .lkQuery d a _ => [.v d, sOrVp a]
  | .exAcq d a _ => [.vp d, .v a]
  | .exRel a => [.v a]
  | .exHint a => [sOrV a]
  | .exStat d a => [.s d, .s a]
  | _ => []

/-- vi types legal for the operations of FN 3, 5, 6, 10 to 13 (R132). -/
def VTy.not16 : VTy → Bool
  | .i16 => false
  | _ => true

/-- vi types legal for abs and neg (R132). -/
def VTy.signed : VTy → Bool
  | .i32 | .i16 => true
  | _ => false

/-- Memory sizes legal in ldx and stx (R138). -/
def MSz.indexed : MSz → Bool
  | .b128 => false
  | _ => true

/-- The scopes a total fence may name (R140, R275). -/
def Sc.atLeastDev : Sc → Bool
  | .dev | .sys => true
  | _ => false

/-- The checks of R124 on one word beyond the operand kinds: field ranges and combinations (R125 to R147, R184, R195, R204,
R216, R256, R270, R271, R275, R296, R420). -/
def Instr.fieldsLegal : Instr → Bool
  | .sysCsrr _ b => b == 0 || csrScalarNumbers.contains b.toNat
  | .sysCsrw _ b => csrWritable.contains b.toNat
  | .ctlWin ws wv => ws.toNat ≤ 40 && wv.toNat ≤ 24
  | .siiShli _ _ imm | .siiShri _ _ imm => imm.toNat < 64
  | .viiShli _ _ imm | .viiShri _ _ imm => imm.toNat < 32
  | .viMulh ty _ _ _ | .viDiv ty _ _ _ | .viRem ty _ _ _ => ty.not16
  | .viCmp _ ty _ _ _ => ty.not16
  | .viAbs ty _ _ | .viNeg ty _ _ => ty.signed
  | .vxCvt _ _ _ h src dst => src != dst && (!h || src.packed || dst.packed)
  | .vxQset _ code => code.toNat ≤ 2
  | .vxQpack _ a => a == 0 || a == 8
  | .vxQunpack d _ => d == 0 || d == 8
  | .vcTopk _ _ _ vt _ => !vt.wide
  | .ldxG sz _ _ _ | .ldxS sz _ _ _ | .stxG sz _ _ _ | .stxS sz _ _ _ => sz.indexed
  | .synBar reg obj bar | .synArrive reg obj bar | .synBwait reg obj bar => if obj then bar == 0 else reg == 0
  | .synFence sc kind => kind != .tot || sc.atLeastDev
  | .tlMma _ kc _ d _ _ => !kc || d.toNat % 2 == 0
  | .lkEsc _ _ lvl mode => lvl != .line && (mode == .s || mode == .i || mode == .x)
  | _ => true

/-- Whether a row of the opcode table is an instruction word; the others are steps of agents (file 95). -/
def Instr.isWord : Instr → Bool
  | .woundTrap | .monitorPeriodicFire _ | .fragmentMerge _ _ _ | .fragmentRefill _ | .loadComplete _ | .storePerformed _
  | .tileOperationComplete _ | .copyComplete _ | .xfRunComplete _ | .gatherComplete _ | .engineOperationFault _
  | .pageWalkStart _ _ _ | .pageWalkComplete _ _ _ | .faultRecordWrite _ | .predecessorRead _ | .splitChange _ _
  | .wallPlace _ _ | .courseDrain _ | .preemption _ _ | .contextRestore _ | .watchdogExpiry _ | .woundGraceExpiry _
  | .expertFetchStart _ _ | .expertFetchComplete _ _ _ | .writeApply _ _ | .lineWriteBack _
  | .memoryErrorUncorrectable _ _ | .correctedError _ | .postedReductionAck _ | .outerStraitAtomic _ _ _ _
  | .cxlBackInvalidation _ | .hostRead _ _ | .hostWrite _ _ | .queueWindowStage _ _ _ _ | .queueWindowPush _ _
  | .statusWrite _ | .eventCounterClear _ | .registerWrite _ _ | .ctxCreate | .ctxDestroy | .queueConfig | .ertWrite
  | .invalidate | .repair | .irqBind | .window | .partSet | .flash | .policy | .getVersion _ | .getCapabilities _
  | .negotiateAlgorithms _ _ _ | .getDigests _ | .getCertificate _ _ _ _ | .challenge _ _ | .getMeasurements _ _
  | .unsupportedRequest _ _ | .powerOnReset _ | .firmwareBringUp | .functionLevelReset _ | .portLinkTraining _ _
  | .illegalInstruction _ | .instructionFetchFault | .unknownCommand | .portLinkDown _ | .outerStraitAccess _ _ _ _
  | .packageCapped => false
  | _ => true

/-- The whole of the static legality of a word (R124): an instruction word whose operands are of their kinds and whose
fields lie in their ranges. -/
def Instr.legal (i : Instr) : Bool := i.isWord && i.operands.all Operand.legal && i.fieldsLegal

/-- The checks that depend on the course width, made at issue (R124, R216, R296). -/
def Instr.issueLegal (width : Nat) : Instr → Bool
  | .vcRedAdd _ _ _ g | .vcRedMin _ _ _ g | .vcRedMax _ _ _ g | .vcScanAdd _ _ _ g | .vcScanMin _ _ _ g
  | .vcScanMax _ _ _ g => g.size ≤ width
  | .vcTopk k _ _ _ g => g.size ≤ width && k.toNat + 1 ≤ g.size
  | .tlMma _ _ kn _ a _ =>
    a.toNat % groupA width == 0 && a.toNat + groupA width * (kn.toNat + 1) ≤ 64
  | _ => true

end Sys2Proof
end

