-- ==== Sys2Proof/WellFormed.lean ====
section
/-!
DEFINITION. A well-formed instruction: one that a legal word encodes (R124). The check itself is Instr.legal.
-/

namespace Sys2Proof

/-- The instruction is a legal instruction word: operand kinds, field ranges and combinations (R117, R124). -/
abbrev Instr.WellFormed (i : Instr) : Prop := i.legal = true

end Sys2Proof
end

