-- ==== Sys2Proof/Decode.lean ====
section
/-!
DEFINITION. The instruction word: its seven formats (R113), the decoder of R122 to R147, total on every word and rejecting
by name (R124), and the encoder written from the same tables.
-/

namespace Sys2Proof

/-- Why a word is no instruction (R124). -/
inductive Reject where
  /-- The class is unassigned (R123). -/
  | unassignedClass
  /-- The OP value, or its FN part, is unassigned in the class. -/
  | unassignedOp
  /-- A field value is listed as unassigned (R121), or an OP and type combination is not marked legal. -/
  | unassignedValue
  /-- A field that must be zero is not zero. -/
  | reservedNotZero
  /-- A register field holds a value that its kind does not allow, or a field lies outside its range (R117). -/
  | illegalOperand
  deriving DecidableEq, Repr

/-! Field values (R120, R121, R129, R132, R133, R137, R139, R146). -/

def Uk.bits : Uk → BitVec 2
  | .f => 0
  | .t => 1
  | .w => 2
  | .x => 3
def Uk.ofBits (b : BitVec 2) : Option Uk :=
  match b.toNat with
  | 0 => some .f
  | 1 => some .t
  | 2 => some .w
  | 3 => some .x
  | _ => none

def Cond.bits : Cond → BitVec 2
  | .eq => 0
  | .ne => 1
  | .lt => 2
  | .le => 3
def Cond.ofBits (b : BitVec 2) : Option Cond :=
  match b.toNat with
  | 0 => some .eq
  | 1 => some .ne
  | 2 => some .lt
  | 3 => some .le
  | _ => none

def ICond.bits : ICond → BitVec 3
  | .eq => 0
  | .ne => 1
  | .lt => 2
  | .le => 3
  | .gt => 4
  | .ge => 5
def ICond.ofBits (b : BitVec 3) : Option ICond :=
  match b.toNat with
  | 0 => some .eq
  | 1 => some .ne
  | 2 => some .lt
  | 3 => some .le
  | 4 => some .gt
  | 5 => some .ge
  | _ => none

def Sc.bits : Sc → BitVec 3
  | .crs => 0
  | .wal => 1
  | .par => 2
  | .isl => 3
  | .dev => 4
  | .sys => 5
def Sc.ofBits (b : BitVec 3) : Option Sc :=
  match b.toNat with
  | 0 => some .crs
  | 1 => some .wal
  | 2 => some .par
  | 3 => some .isl
  | 4 => some .dev
  | 5 => some .sys
  | _ => none

def Ord4.bits : Ord4 → BitVec 2
  | .rlx => 0
  | .acq => 1
  | .rel => 2
  | .ar => 3
def Ord4.ofBits (b : BitVec 2) : Option Ord4 :=
  match b.toNat with
  | 0 => some .rlx
  | 1 => some .acq
  | 2 => some .rel
  | 3 => some .ar
  | _ => none

def FKind.bits : FKind → BitVec 2
  | .acq => 0
  | .rel => 1
  | .ar => 2
  | .tot => 3
def FKind.ofBits (b : BitVec 2) : Option FKind :=
  match b.toNat with
  | 0 => some .acq
  | 1 => some .rel
  | 2 => some .ar
  | 3 => some .tot
  | _ => none

def Vt.bits : Vt → BitVec 3
  | .i32 => 0
  | .n32 => 1
  | .f32 => 2
  | .f16 => 3
  | .bf16 => 4
  | .i16 => 5
  | .n16 => 6
  | .f64 => 7
def Vt.ofBits (b : BitVec 3) : Option Vt :=
  match b.toNat with
  | 0 => some .i32
  | 1 => some .n32
  | 2 => some .f32
  | 3 => some .f16
  | 4 => some .bf16
  | 5 => some .i16
  | 6 => some .n16
  | 7 => some .f64
  | _ => none

def Seg.bits : Seg → BitVec 3
  | .seg4 => 0
  | .seg8 => 1
  | .seg16 => 2
  | .seg32 => 3
  | .seg64 => 4
def Seg.ofBits (b : BitVec 3) : Option Seg :=
  match b.toNat with
  | 0 => some .seg4
  | 1 => some .seg8
  | 2 => some .seg16
  | 3 => some .seg32
  | 4 => some .seg64
  | _ => none

def STy.bits : STy → BitVec 2
  | .i64 => 0
  | .n64 => 1
  | .b64 => 2
def STy.ofBits (b : BitVec 2) : Option STy :=
  match b.toNat with
  | 0 => some .i64
  | 1 => some .n64
  | 2 => some .b64
  | _ => none

def VTy.bits : VTy → BitVec 2
  | .i32 => 0
  | .n32 => 1
  | .b32 => 2
  | .i16 => 3
def VTy.ofBits (b : BitVec 2) : Option VTy :=
  match b.toNat with
  | 0 => some .i32
  | 1 => some .n32
  | 2 => some .b32
  | 3 => some .i16
  | _ => none

def FTy.bits : FTy → BitVec 2
  | .f32 => 0
  | .f16 => 1
  | .bf16 => 2
def FTy.ofBits (b : BitVec 2) : Option FTy :=
  match b.toNat with
  | 0 => some .f32
  | 1 => some .f16
  | 2 => some .bf16
  | _ => none

def MSz.bits : MSz → BitVec 2
  | .b16 => 0
  | .b32 => 1
  | .b64 => 2
  | .b128 => 3
def MSz.ofBits (b : BitVec 2) : Option MSz :=
  match b.toNat with
  | 0 => some .b16
  | 1 => some .b32
  | 2 => some .b64
  | 3 => some .b128
  | _ => none

def AtTy.bits : AtTy → BitVec 3
  | .i32 => 0
  | .n32 => 1
  | .b32 => 2
  | .i64 => 3
  | .n64 => 4
  | .b64 => 5
def AtTy.ofBits (b : BitVec 3) : Option AtTy :=
  match b.toNat with
  | 0 => some .i32
  | 1 => some .n32
  | 2 => some .b32
  | 3 => some .i64
  | 4 => some .n64
  | 5 => some .b64
  | _ => none

def AtMm.bits : AtMm → BitVec 3
  | .i32 => 0
  | .n32 => 1
  | .f32 => 2
  | .i64 => 3
  | .n64 => 4
  | .f64 => 5
def AtMm.ofBits (b : BitVec 3) : Option AtMm :=
  match b.toNat with
  | 0 => some .i32
  | 1 => some .n32
  | 2 => some .f32
  | 3 => some .i64
  | 4 => some .n64
  | 5 => some .f64
  | _ => none

def Lvl.bits : Lvl → BitVec 2
  | .tensor => 0
  | .tile => 1
  | .line => 2
def Lvl.ofBits (b : BitVec 2) : Option Lvl :=
  match b.toNat with
  | 0 => some .tensor
  | 1 => some .tile
  | 2 => some .line
  | _ => none

def LMode.bits : LMode → BitVec 3
  | .is => 0
  | .ix => 1
  | .s => 2
  | .six => 3
  | .i => 4
  | .x => 5
def LMode.ofBits (b : BitVec 3) : Option LMode :=
  match b.toNat with
  | 0 => some .is
  | 1 => some .ix
  | 2 => some .s
  | 3 => some .six
  | 4 => some .i
  | 5 => some .x
  | _ => none
/-- RND (R121): 000 takes the mode RM, 100 to 111 name one, and 001 to 011 are unassigned. -/
def Rnd.bits : Rnd → BitVec 3
  | .rm => 0 | .rn => 4 | .rz => 5 | .rd => 6 | .ru => 7
def Rnd.ofBits (b : BitVec 3) : Option Rnd :=
  match b.toNat with
  | 0 => some .rm
  | 4 => some .rn
  | 5 => some .rz
  | 6 => some .rd
  | 7 => some .ru
  | _ => none

def flag (b : Bool) : BitVec 1 := BitVec.ofBool b

/-! Fields of a word by format (R113). -/

def fCls (w : Word) : BitVec 5 := w.extractLsb' 27 5
def rOp (w : Word) : BitVec 6 := w.extractLsb' 21 6
def rFn (w : Word) : BitVec 4 := w.extractLsb' 23 4
def rTy (w : Word) : BitVec 2 := w.extractLsb' 21 2
def rHi (w : Word) : BitVec 3 := w.extractLsb' 24 3
def rLo (w : Word) : BitVec 3 := w.extractLsb' 21 3
def rD (w : Word) : Reg := w.extractLsb' 14 7
def rA (w : Word) : Reg := w.extractLsb' 7 7
def rB (w : Word) : Reg := w.extractLsb' 0 7
def iD (w : Word) : Reg := w.extractLsb' 17 7
def iA (w : Word) : Reg := w.extractLsb' 10 7
def iImm (w : Word) : BitVec 10 := w.extractLsb' 0 10
def mOp (w : Word) : BitVec 4 := w.extractLsb' 23 4
def mD (w : Word) : Reg := w.extractLsb' 16 7
def mA (w : Word) : Reg := w.extractLsb' 9 7
def mOff (w : Word) : BitVec 9 := w.extractLsb' 0 9
def jUk (w : Word) : BitVec 2 := w.extractLsb' 22 2
def jQ (w : Word) : BitVec 4 := w.extractLsb' 18 4
def jOff (w : Word) : BitVec 18 := w.extractLsb' 0 18
def lOff (w : Word) : BitVec 17 := w.extractLsb' 0 17
def uOp (w : Word) : BitVec 1 := w.extractLsb' 26 1
def uD (w : Word) : Reg := w.extractLsb' 19 7
def uImm (w : Word) : BitVec 19 := w.extractLsb' 0 19
def wImm (w : Word) : BitVec 21 := w.extractLsb' 0 21

/-! Packing a word by format (R113). -/

def packR (c : BitVec 5) (op : BitVec 6) (d a b : Reg) : Word := c ++ op ++ d ++ a ++ b
def packI (c : BitVec 5) (op : BitVec 3) (d a : Reg) (imm : BitVec 10) : Word := c ++ op ++ d ++ a ++ imm
def packM (c : BitVec 5) (op : BitVec 4) (d a : Reg) (off : BitVec 9) : Word := c ++ op ++ d ++ a ++ off
def packJ (op : BitVec 3) (uk : BitVec 2) (q : BitVec 4) (off : BitVec 18) : Word := (0x02 : BitVec 5) ++ op ++ uk ++ q ++ off
def packL (op : BitVec 3) (d : Reg) (off : BitVec 17) : Word := (0x03 : BitVec 5) ++ op ++ d ++ off
def packU (op : BitVec 1) (d : Reg) (imm : BitVec 19) : Word := (0x07 : BitVec 5) ++ op ++ d ++ imm
def packW (c : BitVec 5) (op : BitVec 6) (imm : BitVec 21) : Word := c ++ op ++ imm

/-! Helpers of the decoder. -/

/-- A result under a field that must be zero (R124). -/
def ifZero {n : Nat} (f : BitVec n) (i : Except Reject Instr) : Except Reject Instr :=
  if f == 0 then i else .error .reservedNotZero

/-- A result that needs an assigned field value (R121). -/
def withVal {α : Type} (v : Option α) (k : α → Except Reject Instr) : Except Reject Instr :=
  match v with
  | some x => k x
  | none => .error .unassignedValue

/-- A form of one legal type only (R129, R132). -/
def ifType (ok : Bool) (i : Instr) : Except Reject Instr := if ok then .ok i else .error .unassignedValue

/-! One decoder per class (R125 to R147). -/

def decodeSys (w : Word) : Except Reject Instr :=
  match (rOp w).toNat with
  | 0x00 => .ok (.sysBrk (wImm w))
  | 0x01 => .ok (.sysTrap (wImm w))
  | 0x02 => ifZero (wImm w) (.ok .sysRft)
  | 0x10 => ifZero (rA w) (.ok (.sysCsrr (rD w) (rB w)))
  | 0x11 => ifZero (rD w) (.ok (.sysCsrw (rA w) (rB w)))
  | 0x12 => ifZero (rB w) (.ok (.sysFrinfo (rD w) (rA w)))
  | 0x13 => ifZero (rB w) (.ok (.sysRepair (rD w) (rA w)))
  | _ => .error .unassignedOp

def decodeBr (w : Word) : Except Reject Instr :=
  withVal (Uk.ofBits (jUk w)) fun uk =>
  match (rHi w).toNat with
  | 0 => .ok (.brT uk (jQ w) (jOff w))
  | 1 => .ok (.brF uk (jQ w) (jOff w))
  | 2 => ifZero (jUk w) (.ok (.brK (jQ w) (jOff w)))
  | 3 => .ok (.brAny uk (jQ w) (jOff w))
  | 4 => .ok (.brAll uk (jQ w) (jOff w))
  | 5 => .ok (.brNone uk (jQ w) (jOff w))
  | _ => .error .unassignedOp

def decodeJmp (w : Word) : Except Reject Instr :=
  match (rHi w).toNat with
  | 0 => ifZero (iD w) (.ok (.jmpJ (lOff w)))
  | 1 => .ok (.jmpCall (iD w) (lOff w))
  | 2 => ifZero (iD w) (.ok (.jmpJoinat (lOff w)))
  | 3 => ifZero (iD w) (ifZero (lOff w) (.ok .jmpJoin))
  | 7 => match (rLo w).toNat with
    | 0 => ifZero (rD w) (ifZero (rB w) (.ok (.jmpJx (rA w))))
    | 1 => ifZero (rB w) (.ok (.jmpCalx (rD w) (rA w)))
    | 2 => ifZero (rD w) (ifZero (rB w) (.ok (.jmpRet (rA w))))
    | _ => .error .unassignedOp
  | _ => .error .unassignedOp

def decodeCtl (w : Word) : Except Reject Instr :=
  match (rOp w).toNat with
  | 0x00 => ifZero (w.extractLsb' 12 9) (.ok (.ctlWin (w.extractLsb' 6 6) (w.extractLsb' 0 6)))
  | 0x01 => ifZero (wImm w) (.ok .ctlYield)
  | 0x02 => ifZero (wImm w) (.ok .ctlExit)
  | 0x03 => ifZero (wImm w) (.ok .ctlNop)
  | 0x04 => ifZero (wImm w) (.ok .ctlPrio)
  | _ => .error .unassignedOp

def decodeSi (w : Word) : Except Reject Instr :=
  let d := rD w
  let a := rA w
  let b := rB w
  let typed (k : STy → Instr) := withVal (STy.ofBits (rTy w)) fun ty => .ok (k ty)
  match (rFn w).toNat with
  | 0 => typed (.siAdd · d a b)
  | 1 => typed (.siSub · d a b)
  | 2 => typed (.siMul · d a b)
  | 3 => typed (.siMulh · d a b)
  | 5 => typed (.siDiv · d a b)
  | 6 => typed (.siRem · d a b)
  | 7 => typed (.siMin · d a b)
  | 8 => typed (.siMax · d a b)
  | 9 => if rTy w == 2 then ifZero b (.ok (.siMov d a)) else .error .unassignedValue
  | 10 => typed (.siCmp .eq · d a b)
  | 11 => typed (.siCmp .ne · d a b)
  | 12 => typed (.siCmp .lt · d a b)
  | 13 => typed (.siCmp .le · d a b)
  | 14 => match (rTy w).toNat with
    | 0 => .ok (.siAnd d a b)
    | 1 => .ok (.siOr d a b)
    | 2 => .ok (.siXor d a b)
    | _ => .error .unassignedValue
  | 15 => match (rTy w).toNat with
    | 0 => .ok (.siShl d a b)
    | 1 => .ok (.siShr d a b)
    | 2 => .ok (.siSra d a b)
    | _ => .error .unassignedValue
  | _ => .error .unassignedOp

def decodeSii (w : Word) : Except Reject Instr :=
  let d := iD w
  let a := iA w
  let m := iImm w
  match (rHi w).toNat with
  | 0 => .ok (.siiAddi d a m)
  | 1 => .ok (.siiAndi d a m)
  | 2 => .ok (.siiOri d a m)
  | 3 => .ok (.siiXori d a m)
  | 4 => .ok (.siiShli d a m)
  | 5 => .ok (.siiShri d a m)
  | 6 => withVal (ICond.ofBits (w.extractLsb' 7 3)) fun c => .ok (.siiCmpi c (w.getLsbD 6) d a (w.extractLsb' 0 6))
  | _ => ifZero a (.ok (.siiMovi d m))

def decodeSlu (w : Word) : Except Reject Instr :=
  if uOp w == 0 then .ok (.sluHi (uD w) (uImm w)) else .ok (.sluPc (uD w) (uImm w))

def decodeVi (w : Word) : Except Reject Instr :=
  let d := rD w
  let a := rA w
  let b := rB w
  let typed (k : VTy → Instr) := withVal (VTy.ofBits (rTy w)) fun ty => .ok (k ty)
  match (rFn w).toNat with
  | 0 => typed (.viAdd · d a b)
  | 1 => typed (.viSub · d a b)
  | 2 => typed (.viMul · d a b)
  | 3 => typed (.viMulh · d a b)
  | 4 => typed (.viMad · d a b)
  | 5 => typed (.viDiv · d a b)
  | 6 => typed (.viRem · d a b)
  | 7 => typed (.viMin · d a b)
  | 8 => typed (.viMax · d a b)
  | 9 => match b.toNat with
    | 0 => typed (.viAbs · d a)
    | 1 => typed (.viNeg · d a)
    | 2 => ifType (rTy w == 2) (.viClz d a)
    | 3 => ifType (rTy w == 2) (.viPopc d a)
    | 4 => ifType (rTy w == 2) (.viMov d a)
    | _ => .error .unassignedValue
  | 10 => typed (.viCmp .eq · d a b)
  | 11 => typed (.viCmp .ne · d a b)
  | 12 => typed (.viCmp .lt · d a b)
  | 13 => typed (.viCmp .le · d a b)
  | 14 => match (rTy w).toNat with
    | 0 => .ok (.viAnd d a b)
    | 1 => .ok (.viOr d a b)
    | 2 => .ok (.viXor d a b)
    | _ => .error .unassignedValue
  | _ => match (rTy w).toNat with
    | 0 => .ok (.viShl d a b)
    | 1 => .ok (.viShr d a b)
    | 2 => .ok (.viSra d a b)
    | _ => .error .unassignedValue

def decodeVii (w : Word) : Except Reject Instr :=
  let d := iD w
  let a := iA w
  let m := iImm w
  match (rHi w).toNat with
  | 0 => .ok (.viiAddi d a m)
  | 1 => .ok (.viiAndi d a m)
  | 2 => .ok (.viiOri d a m)
  | 3 => .ok (.viiXori d a m)
  | 4 => .ok (.viiShli d a m)
  | 5 => .ok (.viiShri d a m)
  | 6 => withVal (ICond.ofBits (w.extractLsb' 7 3)) fun c => .ok (.viiCmpi c (w.getLsbD 6) d a (w.extractLsb' 0 6))
  | _ => ifZero a (.ok (.viiMovi d m))

def decodeVf (w : Word) : Except Reject Instr :=
  let d := rD w
  let a := rA w
  let b := rB w
  let typed (k : FTy → Instr) := withVal (FTy.ofBits (rTy w)) fun ty => .ok (k ty)
  match (rFn w).toNat with
  | 0 => typed (.vfAdd · d a b)
  | 1 => typed (.vfSub · d a b)
  | 2 => typed (.vfMul · d a b)
  | 3 => typed (.vfFma · d a b)
  | 4 => typed (.vfDiv · d a b)
  | 5 => typed (.vfMin · d a b)
  | 6 => typed (.vfMax · d a b)
  | 7 => match b.toNat with
    | 0 => typed (.vfAbs · d a)
    | 1 => typed (.vfNeg · d a)
    | 2 => typed (.vfRcp · d a)
    | 3 => typed (.vfRsq · d a)
    | 4 => typed (.vfSqrt · d a)
    | 5 => typed (.vfExp2 · d a)
    | 6 => typed (.vfLog2 · d a)
    | 7 => typed (.vfFloor · d a)
    | 8 => typed (.vfMov · d a)
    | _ => .error .unassignedValue
  | 8 => ifType (rTy w == 0) (.vfCmp .eq d a b)
  | 9 => ifType (rTy w == 0) (.vfCmp .ne d a b)
  | 10 => ifType (rTy w == 0) (.vfCmp .lt d a b)
  | 11 => ifType (rTy w == 0) (.vfCmp .le d a b)
  | _ => .error .unassignedOp

def decodeVd (w : Word) : Except Reject Instr :=
  let d := rD w
  let a := rA w
  let b := rB w
  match (rOp w).toNat with
  | 0x00 => .ok (.vdAdd d a b)
  | 0x01 => .ok (.vdSub d a b)
  | 0x02 => .ok (.vdMul d a b)
  | 0x03 => .ok (.vdFma d a b)
  | 0x04 => .ok (.vdDiv d a b)
  | 0x05 => ifZero b (.ok (.vdSqrt d a))
  | 0x06 => .ok (.vdMin d a b)
  | 0x07 => .ok (.vdMax d a b)
  | 0x08 => .ok (.vdCmp .eq d a b)
  | 0x09 => .ok (.vdCmp .ne d a b)
  | 0x0A => .ok (.vdCmp .lt d a b)
  | 0x0B => .ok (.vdCmp .le d a b)
  | _ => .error .unassignedOp

def decodeVx (w : Word) : Except Reject Instr :=
  let d := rD w
  let a := rA w
  let b := rB w
  let vt (k : Vt → Instr) : Except Reject Instr := withVal (Vt.ofBits (rLo w)) fun t => .ok (k t)
  match (rHi w).toNat with
  | 0 => ifZero b (vt (.vxIsabs · d a))
  | 1 => vt (.vxOra · d a b)
  | 2 => vt (.vxMkabs · d a b)
  | 3 => vt (.vxSel · d a b)
  | 4 => withVal (Rnd.ofBits (rLo w)) fun r =>
    withVal (Vt.ofBits (w.extractLsb' 3 3)) fun src =>
    withVal (Vt.ofBits (w.extractLsb' 0 3)) fun dst => .ok (.vxCvt r d a (w.getLsbD 6) src dst)
  | 5 => match (rLo w).toNat with
    | 0 => .ok (.vxQand d a b)
    | 1 => .ok (.vxQor d a b)
    | 2 => ifZero b (.ok (.vxQnot d a))
    | 3 => .ok (.vxQxor d a b)
    | 4 => ifZero b (.ok (.vxQmov d a))
    | 5 => ifZero a (.ok (.vxQset d b))
    | 6 => ifZero b (.ok (.vxQpack d a))
    | _ => ifZero b (.ok (.vxQunpack d a))
  | _ => .error .unassignedOp

/-- The modifier of red, scan and topk: VT in B[6:4], 0 in B[3], SEG in B[2:0] (R136). -/
def decodeSeg (w : Word) (k : Vt → Seg → Instr) : Except Reject Instr :=
  ifZero (w.extractLsb' 3 1) <|
  withVal (Vt.ofBits (w.extractLsb' 4 3)) fun t => withVal (Seg.ofBits (w.extractLsb' 0 3)) fun g => .ok (k t g)

def decodeVc (w : Word) : Except Reject Instr :=
  let d := rD w
  let a := rA w
  let b := rB w
  match (rHi w).toNat with
  | 0 => match (rLo w).toNat with
    | 0 => decodeSeg w (.vcRedAdd d a)
    | 1 => decodeSeg w (.vcRedMin d a)
    | 2 => decodeSeg w (.vcRedMax d a)
    | _ => .error .unassignedOp
  | 1 => match (rLo w).toNat with
    | 0 => decodeSeg w (.vcScanAdd d a)
    | 1 => decodeSeg w (.vcScanMin d a)
    | 2 => decodeSeg w (.vcScanMax d a)
    | _ => .error .unassignedOp
  | 2 => decodeSeg w (.vcTopk (rLo w) d a)
  | 3 => if rLo w == 0 then .ok (.vcRebal d a b) else .error .unassignedOp
  | 4 => if rLo w == 0 then ifZero b (.ok (.vcConflict d a)) else .error .unassignedOp
  | 5 => match (rLo w).toNat with
    | 0 => .ok (.vcShflIdx d a b)
    | 1 => .ok (.vcShflUp d a b)
    | 2 => .ok (.vcShflDown d a b)
    | 3 => .ok (.vcShflXor d a b)
    | _ => .error .unassignedOp
  | 6 => match (rLo w).toNat with
    | 0 => ifZero b (.ok (.vcVoteAny d a))
    | 1 => ifZero b (.ok (.vcVoteAll d a))
    | 2 => ifZero b (.ok (.vcVoteNone d a))
    | _ => .error .unassignedOp
  | _ => match (rLo w).toNat with
    | 0 => .ok (.vcBcast d a b)
    | 1 => .ok (.vcWrlane d a b)
    | _ => .error .unassignedOp

def decodeLd (w : Word) : Except Reject Instr :=
  let d := mD w
  let a := mA w
  let o := mOff w
  match (mOp w).toNat with
  | 0x0 => .ok (.ldG .b16 d a o)
  | 0x1 => .ok (.ldG .b32 d a o)
  | 0x2 => .ok (.ldG .b64 d a o)
  | 0x3 => .ok (.ldG .b128 d a o)
  | 0x4 => .ok (.ldS .b16 d a o)
  | 0x5 => .ok (.ldS .b32 d a o)
  | 0x6 => .ok (.ldS .b64 d a o)
  | 0x7 => .ok (.ldS .b128 d a o)
  | 0x8 => .ok (.ldC false d a o)
  | 0x9 => .ok (.ldC true d a o)
  | 0xA => .ok (.ldK false d a o)
  | 0xB => .ok (.ldK true d a o)
  | 0xC => ifZero a (.ok (.ldStk d o))
  | _ => .error .unassignedOp

def decodeSt (w : Word) : Except Reject Instr :=
  let d := mD w
  let a := mA w
  let o := mOff w
  match (mOp w).toNat with
  | 0x0 => .ok (.stG .b16 d a o)
  | 0x1 => .ok (.stG .b32 d a o)
  | 0x2 => .ok (.stG .b64 d a o)
  | 0x3 => .ok (.stG .b128 d a o)
  | 0x4 => .ok (.stS .b16 d a o)
  | 0x5 => .ok (.stS .b32 d a o)
  | 0x6 => .ok (.stS .b64 d a o)
  | 0x7 => .ok (.stS .b128 d a o)
  | 0xA => .ok (.stK false d a o)
  | 0xB => .ok (.stK true d a o)
  | 0xC => ifZero a (.ok (.stStk d o))
  | _ => .error .unassignedOp

def decodeLdx (w : Word) : Except Reject Instr :=
  match (rOp w).toNat with
  | 0x00 => .ok (.ldxG .b16 (rD w) (rA w) (rB w))
  | 0x01 => .ok (.ldxG .b32 (rD w) (rA w) (rB w))
  | 0x02 => .ok (.ldxG .b64 (rD w) (rA w) (rB w))
  | 0x04 => .ok (.ldxS .b16 (rD w) (rA w) (rB w))
  | 0x05 => .ok (.ldxS .b32 (rD w) (rA w) (rB w))
  | 0x06 => .ok (.ldxS .b64 (rD w) (rA w) (rB w))
  | _ => .error .unassignedOp

def decodeStx (w : Word) : Except Reject Instr :=
  match (rOp w).toNat with
  | 0x00 => .ok (.stxG .b16 (rD w) (rA w) (rB w))
  | 0x01 => .ok (.stxG .b32 (rD w) (rA w) (rB w))
  | 0x02 => .ok (.stxG .b64 (rD w) (rA w) (rB w))
  | 0x04 => .ok (.stxS .b16 (rD w) (rA w) (rB w))
  | 0x05 => .ok (.stxS .b32 (rD w) (rA w) (rB w))
  | 0x06 => .ok (.stxS .b64 (rD w) (rA w) (rB w))
  | _ => .error .unassignedOp

def decodeAt (w : Word) : Except Reject Instr :=
  let d := rD w
  let a := rA w
  ifZero (w.extractLsb' 0 2) <|
  withVal (Sc.ofBits (w.extractLsb' 4 3)) fun sc =>
  withVal (Ord4.ofBits (w.extractLsb' 2 2)) fun od =>
  let wide := w.getLsbD 21
  match (rOp w).toNat with
  | 0x00 => .ok (.atAdd .i32 d a sc od)
  | 0x01 => .ok (.atAdd .n32 d a sc od)
  | 0x02 => .ok (.atAdd .b32 d a sc od)
  | 0x03 => .ok (.atAdd .i64 d a sc od)
  | 0x04 => .ok (.atAdd .n64 d a sc od)
  | 0x05 => .ok (.atAdd .b64 d a sc od)
  | 0x06 | 0x07 => .ok (.atFadd wide d a sc od)
  | 0x08 => .ok (.atMin .i32 d a sc od)
  | 0x09 => .ok (.atMin .n32 d a sc od)
  | 0x0A => .ok (.atMin .f32 d a sc od)
  | 0x0B => .ok (.atMin .i64 d a sc od)
  | 0x0C => .ok (.atMin .n64 d a sc od)
  | 0x0D => .ok (.atMin .f64 d a sc od)
  | 0x0E => .ok (.atMax .i32 d a sc od)
  | 0x0F => .ok (.atMax .n32 d a sc od)
  | 0x10 => .ok (.atMax .f32 d a sc od)
  | 0x11 => .ok (.atMax .i64 d a sc od)
  | 0x12 => .ok (.atMax .n64 d a sc od)
  | 0x13 => .ok (.atMax .f64 d a sc od)
  | 0x14 | 0x15 => .ok (.atAnd wide d a sc od)
  | 0x16 | 0x17 => .ok (.atOr wide d a sc od)
  | 0x18 | 0x19 => .ok (.atXor wide d a sc od)
  | 0x1A | 0x1B => .ok (.atXchg wide d a sc od)
  | 0x1C | 0x1D => .ok (.atCas wide d a sc od)
  | 0x1E | 0x1F => .ok (.atSlot wide d a sc od)
  | _ => .error .unassignedOp

def decodeSyn (w : Word) : Except Reject Instr :=
  let bar (k : Reg → Bool → BitVec 4 → Instr) : Except Reject Instr :=
    ifZero (w.extractLsb' 12 9) (.ok (k (w.extractLsb' 5 7) (w.getLsbD 4) (w.extractLsb' 0 4)))
  match (rHi w).toNat with
  | 0 => match (rLo w).toNat with
    | 0 => bar .synBar
    | 1 => bar .synArrive
    | 2 => bar .synBwait
    | 3 => ifZero (w.extractLsb' 5 16) <|
      withVal (Sc.ofBits (w.extractLsb' 2 3)) fun sc =>
      withVal (FKind.ofBits (w.extractLsb' 0 2)) fun k => .ok (.synFence sc k)
    | 4 => ifZero (w.extractLsb' 9 12)
        (.ok (.synWaitc (w.extractLsb' 6 3) (w.extractLsb' 3 3) (w.extractLsb' 0 3)))
    | _ => .error .unassignedOp
  | 1 => match (rLo w).toNat with
    | 0 => .ok (.synWaitcmp false false (rD w) (rA w) (rB w))
    | 1 => .ok (.synWaitcmp false true (rD w) (rA w) (rB w))
    | 2 => .ok (.synWaitcmp true false (rD w) (rA w) (rB w))
    | 3 => .ok (.synWaitcmp true true (rD w) (rA w) (rB w))
    | _ => .error .unassignedOp
  | 2 => withVal (Sc.ofBits (rLo w)) fun sc => .ok (.synSigadd sc (rD w) (rA w) (rB w))
  | 3 => withVal (Sc.ofBits (rLo w)) fun sc => .ok (.synSigwait sc (rD w) (rA w) (rB w))
  | _ => .error .unassignedOp

def decodeWq (w : Word) : Except Reject Instr :=
  match (rOp w).toNat with
  | 0x00 => .ok (.wqPush (rD w) (rA w) (rB w))
  | 0x01 => .ok (.wqPop (rD w) (rA w) (rB w))
  | 0x02 => .ok (.wqTrypop (rD w) (rA w) (rB w))
  | 0x03 => .ok (.wqLaunch (rD w) (rA w) (rB w))
  | _ => .error .unassignedOp

def decodeTl (w : Word) : Except Reject Instr :=
  if w.getLsbD 26 then .ok (.tlMma (w.getLsbD 25) (w.getLsbD 24) (rLo w) (rD w) (rA w) (rB w)) else
  match (rOp w).toNat with
  | 0x00 => ifZero (rD w) (ifZero (rB w) (.ok (.tlSetfmt (rA w))))
  | 0x01 => ifZero (rB w) (.ok (.tlDrain (rD w) (rA w)))
  | 0x02 => ifZero (rA w) (ifZero (rB w) (.ok (.tlZero (rD w))))
  | 0x03 => ifZero (rB w) (.ok (.tlLoad (rD w) (rA w)))
  | _ => .error .unassignedOp

def decodeCpy (w : Word) : Except Reject Instr :=
  match (rOp w).toNat with
  | 0x00 => .ok (.cpyG2s (rD w) (rA w) (rB w))
  | 0x01 => .ok (.cpyS2g (rD w) (rA w) (rB w))
  | 0x02 => .ok (.cpyG2g (rD w) (rA w) (rB w))
  | 0x03 => ifZero (rB w) (.ok (.cpyBatch (rD w) (rA w)))
  | 0x04 => ifZero (rD w) (ifZero (rB w) (.ok (.cpyWait (rA w))))
  | 0x05 => .ok (.cpyBind (rD w) (rA w) (rB w))
  | 0x06 => ifZero (rD w) (ifZero (rB w) (.ok (.cpyUnbind (rA w))))
  | _ => .error .unassignedOp

def decodeKv (w : Word) : Except Reject Instr :=
  match (rOp w).toNat with
  | 0x00 => .ok (.kvGather (rD w) (rA w) (rB w))
  | 0x01 => ifZero (rD w) (.ok (.kvAppend (rA w) (rB w)))
  | 0x02 => ifZero (rB w) (.ok (.kvFork (rD w) (rA w)))
  | 0x03 => ifZero (rD w) (ifZero (rB w) (.ok (.kvDrop (rA w))))
  | _ => .error .unassignedOp

def decodeXf (w : Word) : Except Reject Instr :=
  ifZero (rD w) <|
  match (rOp w).toNat with
  | 0x00 => .ok (.xfRunTranspose (rA w) (rB w))
  | 0x01 => .ok (.xfRunRequant (rA w) (rB w))
  | 0x02 => .ok (.xfRunCompact (rA w) (rB w))
  | 0x03 => .ok (.xfRunExpand (rA w) (rB w))
  | 0x08 => ifZero (rB w) (.ok (.xfCancel (rA w)))
  | _ => .error .unassignedOp

def decodeLk (w : Word) : Except Reject Instr :=
  ifZero (w.extractLsb' 6 1) <|
  match (rOp w).toNat with
  | 0x00 => withVal (Lvl.ofBits (w.extractLsb' 3 2)) fun l => withVal (LMode.ofBits (w.extractLsb' 0 3)) fun m =>
    .ok (.lkAcq (rD w) (rA w) (w.getLsbD 5) l m)
  | 0x01 => ifZero (rD w) <| ifZero (w.extractLsb' 5 1) <|
    withVal (Lvl.ofBits (w.extractLsb' 3 2)) fun l => withVal (LMode.ofBits (w.extractLsb' 0 3)) fun m =>
    .ok (.lkRel (rA w) l m)
  | 0x02 => ifZero (rD w) (ifZero (rA w) (ifZero (rB w) (.ok .lkRelall)))
  | 0x03 => ifZero (w.extractLsb' 5 1) <|
    withVal (Lvl.ofBits (w.extractLsb' 3 2)) fun l => withVal (LMode.ofBits (w.extractLsb' 0 3)) fun m =>
    .ok (.lkEsc (rD w) (rA w) l m)
  | 0x04 => ifZero (w.extractLsb' 5 1) <| ifZero (w.extractLsb' 0 3) <|
    withVal (Lvl.ofBits (w.extractLsb' 3 2)) fun l => .ok (.lkQuery (rD w) (rA w) l)
  | _ => .error .unassignedOp

def decodeEx (w : Word) : Except Reject Instr :=
  match (rOp w).toNat with
  | 0x00 => ifZero (w.extractLsb' 1 6) (.ok (.exAcq (rD w) (rA w) (w.getLsbD 0)))
  | 0x01 => ifZero (rD w) (ifZero (rB w) (.ok (.exRel (rA w))))
  | 0x02 => ifZero (rD w) (ifZero (rB w) (.ok (.exHint (rA w))))
  | 0x03 => ifZero (rB w) (.ok (.exStat (rD w) (rA w)))
  | _ => .error .unassignedOp

/-- The class map of R123. -/
def decodeClass (w : Word) : Except Reject Instr :=
  match (fCls w).toNat with
  | 0x01 => decodeSys w
  | 0x02 => decodeBr w
  | 0x03 => decodeJmp w
  | 0x04 => decodeCtl w
  | 0x05 => decodeSi w
  | 0x06 => decodeSii w
  | 0x07 => decodeSlu w
  | 0x08 => decodeVi w
  | 0x09 => decodeVii w
  | 0x0A => decodeVf w
  | 0x0B => decodeVd w
  | 0x0C => decodeVx w
  | 0x0D => decodeVc w
  | 0x0E => decodeLd w
  | 0x0F => decodeSt w
  | 0x10 => decodeLdx w
  | 0x11 => decodeStx w
  | 0x12 => decodeAt w
  | 0x13 => decodeSyn w
  | 0x14 => decodeWq w
  | 0x15 => decodeTl w
  | 0x16 => decodeCpy w
  | 0x17 => decodeKv w
  | 0x18 => decodeXf w
  | 0x19 => decodeLk w
  | 0x1A => decodeEx w
  | _ => .error .unassignedClass

/-- The decoder: the class tables, then the operand kinds and ranges (R124). -/
def decode (w : Word) : Except Reject Instr :=
  match decodeClass w with
  | .ok i => if i.legal then .ok i else .error .illegalOperand
  | .error r => .error r

/-- An instruction word from its four bytes, stored little-endian (R112), the first at the lowest address. -/
def wordOfBytes (bs : List Byte) : Word :=
  bs.getD 3 0 ++ bs.getD 2 0 ++ bs.getD 1 0 ++ bs.getD 0 0

/-- The bytes of a word in memory order (R6). -/
def bytesOfWord (w : Word) : List Byte :=
  [w.extractLsb' 0 8, w.extractLsb' 8 8, w.extractLsb' 16 8, w.extractLsb' 24 8]

/-- The decoder on the bytes at an instruction's address. -/
def decodeBytes (bs : List Byte) : Except Reject Instr := decode (wordOfBytes bs)

/-! The encoder, from the same tables. -/

/-- OP of a class that splits it into FN and TY (R129, R132, R133). -/
def opFn (fn : BitVec 4) (ty : BitVec 2) : BitVec 6 := fn ++ ty
/-- OP of a class that splits it into OP[26:24] and OP[23:21] (R135, R136, R140, R142). -/
def opHL (hi lo : BitVec 3) : BitVec 6 := hi ++ lo
/-- OP of an atomic of two widths (R139): the low bit is the width. -/
def opW (hi : BitVec 5) (wide : Bool) : BitVec 6 := hi ++ flag wide
def modSeg (vt : Vt) (g : Seg) : Reg := vt.bits ++ (0 : BitVec 1) ++ g.bits
def modAt (sc : Sc) (od : Ord4) : Reg := sc.bits ++ od.bits ++ (0 : BitVec 2)
def modLk (t : Bool) (l : Lvl) (m : BitVec 3) : Reg := (0 : BitVec 1) ++ flag t ++ l.bits ++ m
def modCvt (h : Bool) (src dst : Vt) : Reg := flag h ++ src.bits ++ dst.bits
def immCmpi (c : ICond) (uns : Bool) (m : BitVec 6) : BitVec 10 := c.bits ++ flag uns ++ m
def immBar (reg : Reg) (obj : Bool) (bar : BitVec 4) : BitVec 21 := (0 : BitVec 9) ++ reg ++ flag obj ++ bar
def Cond.fn (base : BitVec 4) (c : Cond) : BitVec 4 := base + c.bits.setWidth 4
def ldOp (kind : BitVec 2) (sz : MSz) : BitVec 4 := kind ++ sz.bits
def ldOpW (kind : BitVec 3) (wide : Bool) : BitVec 4 := kind ++ flag wide
def ldxOp (kind : BitVec 4) (sz : MSz) : BitVec 6 := kind ++ sz.bits
def AtMm.maxOp (t : AtMm) : BitVec 6 := 0x0E + t.bits.setWidth 6

/-- The word of an instruction; 0 for a row that has no word. -/
def encode : Instr → Word
  | .sysBrk c => packW 0x01 0x00 c
  | .sysTrap c => packW 0x01 0x01 c
  | .sysRft => packW 0x01 0x02 0
  | .sysCsrr d b => packR 0x01 0x10 d 0 b
  | .sysCsrw a b => packR 0x01 0x11 0 a b
  | .sysFrinfo d a => packR 0x01 0x12 d a 0
  | .sysRepair d a => packR 0x01 0x13 d a 0
  | .brT uk q o => packJ 0 uk.bits q o
  | .brF uk q o => packJ 1 uk.bits q o
  | .brK q o => packJ 2 0 q o
  | .brAny uk q o => packJ 3 uk.bits q o
  | .brAll uk q o => packJ 4 uk.bits q o
  | .brNone uk q o => packJ 5 uk.bits q o
  | .jmpJ o => packL 0 0 o
  | .jmpCall d o => packL 1 d o
  | .jmpJoinat o => packL 2 0 o
  | .jmpJoin => packL 3 0 0
  | .jmpJx a => packR 0x03 (opHL 7 0) 0 a 0
  | .jmpCalx d a => packR 0x03 (opHL 7 1) d a 0
  | .jmpRet a => packR 0x03 (opHL 7 2) 0 a 0
  | .ctlWin ws wv => packW 0x04 0x00 ((0 : BitVec 9) ++ ws ++ wv)
  | .ctlYield => packW 0x04 0x01 0
  | .ctlExit => packW 0x04 0x02 0
  | .ctlNop => packW 0x04 0x03 0
  | .ctlPrio => packW 0x04 0x04 0
  | .siAdd t d a b => packR 0x05 (opFn 0 t.bits) d a b
  | .siSub t d a b => packR 0x05 (opFn 1 t.bits) d a b
  | .siMul t d a b => packR 0x05 (opFn 2 t.bits) d a b
  | .siMulh t d a b => packR 0x05 (opFn 3 t.bits) d a b
  | .siDiv t d a b => packR 0x05 (opFn 5 t.bits) d a b
  | .siRem t d a b => packR 0x05 (opFn 6 t.bits) d a b
  | .siMin t d a b => packR 0x05 (opFn 7 t.bits) d a b
  | .siMax t d a b => packR 0x05 (opFn 8 t.bits) d a b
  | .siMov d a => packR 0x05 (opFn 9 2) d a 0
  | .siCmp c t d a b => packR 0x05 (opFn (c.fn 10) t.bits) d a b
  | .siAnd d a b => packR 0x05 (opFn 14 0) d a b
  | .siOr d a b => packR 0x05 (opFn 14 1) d a b
  | .siXor d a b => packR 0x05 (opFn 14 2) d a b
  | .siShl d a b => packR 0x05 (opFn 15 0) d a b
  | .siShr d a b => packR 0x05 (opFn 15 1) d a b
  | .siSra d a b => packR 0x05 (opFn 15 2) d a b
  | .siiAddi d a m => packI 0x06 0 d a m
  | .siiAndi d a m => packI 0x06 1 d a m
  | .siiOri d a m => packI 0x06 2 d a m
  | .siiXori d a m => packI 0x06 3 d a m
  | .siiShli d a m => packI 0x06 4 d a m
  | .siiShri d a m => packI 0x06 5 d a m
  | .siiCmpi c u d a m => packI 0x06 6 d a (immCmpi c u m)
  | .siiMovi d m => packI 0x06 7 d 0 m
  | .sluHi d m => packU 0 d m
  | .sluPc d m => packU 1 d m
  | .viAdd t d a b => packR 0x08 (opFn 0 t.bits) d a b
  | .viSub t d a b => packR 0x08 (opFn 1 t.bits) d a b
  | .viMul t d a b => packR 0x08 (opFn 2 t.bits) d a b
  | .viMulh t d a b => packR 0x08 (opFn 3 t.bits) d a b
  | .viMad t d a b => packR 0x08 (opFn 4 t.bits) d a b
  | .viDiv t d a b => packR 0x08 (opFn 5 t.bits) d a b
  | .viRem t d a b => packR 0x08 (opFn 6 t.bits) d a b
  | .viMin t d a b => packR 0x08 (opFn 7 t.bits) d a b
  | .viMax t d a b => packR 0x08 (opFn 8 t.bits) d a b
  | .viAbs t d a => packR 0x08 (opFn 9 t.bits) d a 0
  | .viNeg t d a => packR 0x08 (opFn 9 t.bits) d a 1
  | .viClz d a => packR 0x08 (opFn 9 2) d a 2
  | .viPopc d a => packR 0x08 (opFn 9 2) d a 3
  | .viMov d a => packR 0x08 (opFn 9 2) d a 4
  | .viCmp c t d a b => packR 0x08 (opFn (c.fn 10) t.bits) d a b
  | .viAnd d a b => packR 0x08 (opFn 14 0) d a b
  | .viOr d a b => packR 0x08 (opFn 14 1) d a b
  | .viXor d a b => packR 0x08 (opFn 14 2) d a b
  | .viShl d a b => packR 0x08 (opFn 15 0) d a b
  | .viShr d a b => packR 0x08 (opFn 15 1) d a b
  | .viSra d a b => packR 0x08 (opFn 15 2) d a b
  | .viiAddi d a m => packI 0x09 0 d a m
  | .viiAndi d a m => packI 0x09 1 d a m
  | .viiOri d a m => packI 0x09 2 d a m
  | .viiXori d a m => packI 0x09 3 d a m
  | .viiShli d a m => packI 0x09 4 d a m
  | .viiShri d a m => packI 0x09 5 d a m
  | .viiCmpi c u d a m => packI 0x09 6 d a (immCmpi c u m)
  | .viiMovi d m => packI 0x09 7 d 0 m
  | .vfAdd t d a b => packR 0x0A (opFn 0 t.bits) d a b
  | .vfSub t d a b => packR 0x0A (opFn 1 t.bits) d a b
  | .vfMul t d a b => packR 0x0A (opFn 2 t.bits) d a b
  | .vfFma t d a b => packR 0x0A (opFn 3 t.bits) d a b
  | .vfDiv t d a b => packR 0x0A (opFn 4 t.bits) d a b
  | .vfMin t d a b => packR 0x0A (opFn 5 t.bits) d a b
  | .vfMax t d a b => packR 0x0A (opFn 6 t.bits) d a b
  | .vfAbs t d a => packR 0x0A (opFn 7 t.bits) d a 0
  | .vfNeg t d a => packR 0x0A (opFn 7 t.bits) d a 1
  | .vfRcp t d a => packR 0x0A (opFn 7 t.bits) d a 2
  | .vfRsq t d a => packR 0x0A (opFn 7 t.bits) d a 3
  | .vfSqrt t d a => packR 0x0A (opFn 7 t.bits) d a 4
  | .vfExp2 t d a => packR 0x0A (opFn 7 t.bits) d a 5
  | .vfLog2 t d a => packR 0x0A (opFn 7 t.bits) d a 6
  | .vfFloor t d a => packR 0x0A (opFn 7 t.bits) d a 7
  | .vfMov t d a => packR 0x0A (opFn 7 t.bits) d a 8
  | .vfCmp c d a b => packR 0x0A (opFn (c.fn 8) 0) d a b
  | .vdAdd d a b => packR 0x0B 0x00 d a b
  | .vdSub d a b => packR 0x0B 0x01 d a b
  | .vdMul d a b => packR 0x0B 0x02 d a b
  | .vdFma d a b => packR 0x0B 0x03 d a b
  | .vdDiv d a b => packR 0x0B 0x04 d a b
  | .vdSqrt d a => packR 0x0B 0x05 d a 0
  | .vdMin d a b => packR 0x0B 0x06 d a b
  | .vdMax d a b => packR 0x0B 0x07 d a b
  | .vdCmp c d a b => packR 0x0B (0x08 + c.bits.setWidth 6) d a b
  | .vxIsabs t d a => packR 0x0C (opHL 0 t.bits) d a 0
  | .vxOra t d a b => packR 0x0C (opHL 1 t.bits) d a b
  | .vxMkabs t d a b => packR 0x0C (opHL 2 t.bits) d a b
  | .vxSel t d a b => packR 0x0C (opHL 3 t.bits) d a b
  | .vxCvt r d a h src dst => packR 0x0C (opHL 4 r.bits) d a (modCvt h src dst)
  | .vxQand d a b => packR 0x0C (opHL 5 0) d a b
  | .vxQor d a b => packR 0x0C (opHL 5 1) d a b
  | .vxQnot d a => packR 0x0C (opHL 5 2) d a 0
  | .vxQxor d a b => packR 0x0C (opHL 5 3) d a b
  | .vxQmov d a => packR 0x0C (opHL 5 4) d a 0
  | .vxQset d c => packR 0x0C (opHL 5 5) d 0 c
  | .vxQpack d a => packR 0x0C (opHL 5 6) d a 0
  | .vxQunpack d a => packR 0x0C (opHL 5 7) d a 0
  | .vcRedAdd d a t g => packR 0x0D (opHL 0 0) d a (modSeg t g)
  | .vcRedMin d a t g => packR 0x0D (opHL 0 1) d a (modSeg t g)
  | .vcRedMax d a t g => packR 0x0D (opHL 0 2) d a (modSeg t g)
  | .vcScanAdd d a t g => packR 0x0D (opHL 1 0) d a (modSeg t g)
  | .vcScanMin d a t g => packR 0x0D (opHL 1 1) d a (modSeg t g)
  | .vcScanMax d a t g => packR 0x0D (opHL 1 2) d a (modSeg t g)
  | .vcTopk k d a t g => packR 0x0D (opHL 2 k) d a (modSeg t g)
  | .vcRebal d a b => packR 0x0D (opHL 3 0) d a b
  | .vcConflict d a => packR 0x0D (opHL 4 0) d a 0
  | .vcShflIdx d a b => packR 0x0D (opHL 5 0) d a b
  | .vcShflUp d a b => packR 0x0D (opHL 5 1) d a b
  | .vcShflDown d a b => packR 0x0D (opHL 5 2) d a b
  | .vcShflXor d a b => packR 0x0D (opHL 5 3) d a b
  | .vcVoteAny d a => packR 0x0D (opHL 6 0) d a 0
  | .vcVoteAll d a => packR 0x0D (opHL 6 1) d a 0
  | .vcVoteNone d a => packR 0x0D (opHL 6 2) d a 0
  | .vcBcast d a b => packR 0x0D (opHL 7 0) d a b
  | .vcWrlane d a b => packR 0x0D (opHL 7 1) d a b
  | .ldG z d a o => packM 0x0E (ldOp 0 z) d a o
  | .ldS z d a o => packM 0x0E (ldOp 1 z) d a o
  | .ldC w d a o => packM 0x0E (ldOpW 4 w) d a o
  | .ldK w d a o => packM 0x0E (ldOpW 5 w) d a o
  | .ldStk d o => packM 0x0E 0xC d 0 o
  | .stG z d a o => packM 0x0F (ldOp 0 z) d a o
  | .stS z d a o => packM 0x0F (ldOp 1 z) d a o
  | .stK w d a o => packM 0x0F (ldOpW 5 w) d a o
  | .stStk d o => packM 0x0F 0xC d 0 o
  | .ldxG z d a b => packR 0x10 (ldxOp 0 z) d a b
  | .ldxS z d a b => packR 0x10 (ldxOp 1 z) d a b
  | .stxG z d a b => packR 0x11 (ldxOp 0 z) d a b
  | .stxS z d a b => packR 0x11 (ldxOp 1 z) d a b
  | .atAdd t d a s o => packR 0x12 (opHL 0 t.bits) d a (modAt s o)
  | .atFadd w d a s o => packR 0x12 (opW 0x03 w) d a (modAt s o)
  | .atMin t d a s o => packR 0x12 (opHL 1 t.bits) d a (modAt s o)
  | .atMax t d a s o => packR 0x12 t.maxOp d a (modAt s o)
  | .atAnd w d a s o => packR 0x12 (opW 0x0A w) d a (modAt s o)
  | .atOr w d a s o => packR 0x12 (opW 0x0B w) d a (modAt s o)
  | .atXor w d a s o => packR 0x12 (opW 0x0C w) d a (modAt s o)
  | .atXchg w d a s o => packR 0x12 (opW 0x0D w) d a (modAt s o)
  | .atCas w d a s o => packR 0x12 (opW 0x0E w) d a (modAt s o)
  | .atSlot w d a s o => packR 0x12 (opW 0x0F w) d a (modAt s o)
  | .synBar r o b => packW 0x13 0x00 (immBar r o b)
  | .synArrive r o b => packW 0x13 0x01 (immBar r o b)
  | .synBwait r o b => packW 0x13 0x02 (immBar r o b)
  | .synFence s k => packW 0x13 0x03 ((0 : BitVec 16) ++ s.bits ++ k.bits)
  | .synWaitc l s t => packW 0x13 0x04 ((0 : BitVec 12) ++ l ++ s ++ t)
  | .synWaitcmp w n d a b => packR 0x13 ((2 : BitVec 4) ++ flag w ++ flag n) d a b
  | .synSigadd s d a b => packR 0x13 (opHL 2 s.bits) d a b
  | .synSigwait s d a b => packR 0x13 (opHL 3 s.bits) d a b
  | .wqPush d a b => packR 0x14 0x00 d a b
  | .wqPop d a b => packR 0x14 0x01 d a b
  | .wqTrypop d a b => packR 0x14 0x02 d a b
  | .wqLaunch d a b => packR 0x14 0x03 d a b
  | .tlSetfmt a => packR 0x15 0x00 0 a 0
  | .tlDrain d a => packR 0x15 0x01 d a 0
  | .tlZero d => packR 0x15 0x02 d 0 0
  | .tlLoad d a => packR 0x15 0x03 d a 0
  | .tlMma u k n d a b => packR 0x15 ((1 : BitVec 1) ++ flag u ++ flag k ++ n) d a b
  | .cpyG2s d a b => packR 0x16 0x00 d a b
  | .cpyS2g d a b => packR 0x16 0x01 d a b
  | .cpyG2g d a b => packR 0x16 0x02 d a b
  | .cpyBatch d a => packR 0x16 0x03 d a 0
  | .cpyWait a => packR 0x16 0x04 0 a 0
  | .cpyBind d a b => packR 0x16 0x05 d a b
  | .cpyUnbind a => packR 0x16 0x06 0 a 0
  | .kvGather d a b => packR 0x17 0x00 d a b
  | .kvAppend a b => packR 0x17 0x01 0 a b
  | .kvFork d a => packR 0x17 0x02 d a 0
  | .kvDrop a => packR 0x17 0x03 0 a 0
  | .xfRunTranspose a b => packR 0x18 0x00 0 a b
  | .xfRunRequant a b => packR 0x18 0x01 0 a b
  | .xfRunCompact a b => packR 0x18 0x02 0 a b
  | .xfRunExpand a b => packR 0x18 0x03 0 a b
  | .xfCancel a => packR 0x18 0x08 0 a 0
  | .lkAcq d a t l m => packR 0x19 0x00 d a (modLk t l m.bits)
  | .lkRel a l m => packR 0x19 0x01 0 a (modLk false l m.bits)
  | .lkRelall => packR 0x19 0x02 0 0 0
  | .lkEsc d a l m => packR 0x19 0x03 d a (modLk false l m.bits)
  | .lkQuery d a l => packR 0x19 0x04 d a (modLk false l 0)
  | .exAcq d a t => packR 0x1A 0x00 d a ((0 : BitVec 6) ++ flag t)
  | .exRel a => packR 0x1A 0x01 0 a 0
  | .exHint a => packR 0x1A 0x02 0 a 0
  | .exStat d a => packR 0x1A 0x03 d a 0
  | _ => 0

/-- The instruction the decoder reads from an instruction whose bits are w, bit 0 the least significant bit of its one word
(R112): the bytes are laid out little-endian and given to the decoder. -/
def decodeTableWord (nbits w : Nat) : Option Instr :=
  match decodeBytes (bytesOfWord (BitVec.ofNat 32 (w % 2 ^ nbits))) with
  | .ok i => some i
  | .error _ => none

end Sys2Proof
end

