-- ==== Sys2Proof/Config.lean ====
section
/-!
DEFINITION. What the spec leaves open: free values. Each is a constant without a body, applied to the step counter of the
state or to a position, so nothing can evaluate it (log 3). Nothing here is a number the model chose.
-/

namespace Sys2Proof.Config

/-- A byte that the spec leaves undefined: ring entries another agent wrote (R283). By step and position. -/
opaque freeByte : Nat → Nat → Byte

/-- A choice that the spec leaves open: which of the allowed values ld.c returns (R254). By step and position. -/
opaque freeBool : Nat → Nat → Bool

/-- The byte that memory outside the package holds before anything in the model has written it (R473), by location. -/
opaque outsideByte : Nat → Byte

/-- The byte of a flash namespace, by namespace, first block and offset (R478). -/
opaque flashByte : Nat → Nat → Nat → Byte

/-- The fabric device number taken from the strait switch at bring-up (R479, R465). -/
opaque devnum : BitVec 17

/-- The firmware image (R479), byte by byte, and its length. -/
opaque firmwareByte : Nat → Byte
opaque firmwareLength : Nat

/-- The certificate chain of slot 0 (R483), byte by byte, and its length. -/
opaque certByte : Nat → Byte
opaque certLength : Nat

/-- The signature of an SPDM transcript by the device identity key (R483), by step and nonce. -/
opaque signature : Nat → Nat → BitVec 768

/-- The outer-strait port through which a remote device is reached (R19), by its fabric device number; taken modulo the number of
ports. -/
opaque straitPort : Nat → Nat

/-- Spare rows of a DRAM bank (R484), by island and bank, before any is used. -/
opaque spareRows : Nat → Nat → Nat

/-- The DRAM bank of a row (R484). -/
opaque bankOf : Nat → Nat → Nat

end Sys2Proof.Config
end

