-- ==== Sys2Proof/Machine/Maps.lean ====
section
/-!
DEFINITION. Sparse tables keyed by a number: lists of pairs with rising keys, the one form in which the state holds register
files, memories and tables. A key that is not listed has no entry.
-/

namespace Sys2Proof

/-- A sparse table: pairs of a key and a value, keys strictly rising. -/
abbrev Tab (α : Type) := List (Nat × α)

namespace Tab

/-- The entry at a key. -/
def get? {α : Type} : Tab α → Nat → Option α
  | [], _ => none
  | (k, v) :: t, n => if n = k then some v else get? t n

/-- The entry at a key, or a default. -/
def getD {α : Type} (t : Tab α) (n : Nat) (d : α) : α := (get? t n).getD d

/-- Writing an entry keeps the keys rising. -/
def set {α : Type} : Tab α → Nat → α → Tab α
  | [], n, x => [(n, x)]
  | (k, v) :: t, n, x =>
    if n < k then (n, x) :: (k, v) :: t
    else if n = k then (n, x) :: t
    else (k, v) :: set t n x

/-- Removing an entry. -/
def erase {α : Type} : Tab α → Nat → Tab α
  | [], _ => []
  | (k, v) :: t, n => if n = k then t else (k, v) :: erase t n

/-- Changing an entry that exists; a key without one is left alone. -/
def upd {α : Type} : Tab α → Nat → (α → α) → Tab α
  | [], _, _ => []
  | (k, v) :: t, n, f => if n = k then (k, f v) :: t else (k, v) :: upd t n f

/-- Changing every entry. -/
def mapV {α : Type} (g : α → α) : Tab α → Tab α
  | [] => []
  | (k, v) :: t => (k, g v) :: mapV g t

/-- Keys strictly rising from a bound. -/
def sortedFrom {α : Type} : Nat → Tab α → Bool
  | _, [] => true
  | lo, (k, _) :: t => lo ≤ k && sortedFrom (k + 1) t

/-- The canonical form: keys strictly rising. -/
def sorted {α : Type} (t : Tab α) : Bool := sortedFrom 0 t

end Tab

/-- Insertion in order, for sorts on short lists. -/
def insertBy {α : Type} (lt : α → α → Bool) (x : α) : List α → List α
  | [] => [x]
  | y :: ys => if lt x y then x :: y :: ys else y :: insertBy lt x ys

/-- A stable sort: equal elements keep their order. -/
def sortBy {α : Type} (lt : α → α → Bool) (xs : List α) : List α := xs.foldl (fun acc x => insertBy lt x acc) []

/-- The distinct elements of a list, in order of first occurrence. -/
def dedup {α : Type} [DecidableEq α] (xs : List α) : List α :=
  xs.foldl (fun acc x => if acc.contains x then acc else acc ++ [x]) []

/-- The numbers 0 to n − 1 that a 64-bit mask names: the lanes of a lane set (R34, R36). -/
def lanesOf (mask : Dword) : List Nat := (List.range 64).filter fun i => mask.getLsbD i

/-- The mask of a list of lanes. -/
def maskOf (ls : List Nat) : Dword := ls.foldl (fun m i => m ||| (1#64 <<< i)) 0

/-- The bits [hi:lo] of a number (R6). -/
def field (x : Nat) (hi lo : Nat) : Nat := (x >>> lo) % 2 ^ (hi + 1 - lo)

/-- The number whose bytes, from the lowest address, are listed (R6: little-endian). -/
def leNat : List Byte → Nat
  | [] => 0
  | b :: bs => b.toNat + 256 * leNat bs

/-- The n low bytes of a number, from the lowest address (R6). -/
def natLe : Nat → Nat → List Byte
  | 0, _ => []
  | n + 1, x => BitVec.ofNat 8 x :: natLe n (x / 256)

end Sys2Proof
end

