-- ==== Sys2Proof/Machine/Num.lean ====
section
/-!
DEFINITION. The number formats of R43 to R52: their fields and absent codes, values as exact numbers, rounding (R65), the
floating operations of R222 and R223 and the conversions of R66 and R68. A bit pattern is held as the number it reads as.
-/

namespace Sys2Proof

/-- The formats of R43 with an element or a value. -/
inductive Fmt where
  | f64 | f32 | f16 | bf16 | e5m2 | e4m3 | e2m1 | i64 | i32 | i16 | i8 | i4 | n64 | n32 | n16 | q8 | q4
  | b8 | b16 | b32 | b64
  deriving DecidableEq, Repr

/-- Bits of a format (R43). -/
def Fmt.bits : Fmt → Nat
  | .f64 | .i64 | .n64 | .b64 => 64
  | .f32 | .i32 | .n32 | .b32 => 32
  | .f16 | .bf16 | .i16 | .n16 | .b16 => 16
  | .e5m2 | .e4m3 | .i8 | .q8 | .b8 => 8
  | .e2m1 | .i4 | .q4 => 4

/-- The absent code of a format; the b formats have none (R43). -/
def Fmt.absent : Fmt → Option Nat
  | .f64 | .n64 => some (2 ^ 64 - 1)
  | .f32 | .n32 => some (2 ^ 32 - 1)
  | .f16 | .bf16 | .n16 => some (2 ^ 16 - 1)
  | .e5m2 | .e4m3 | .i8 => some 0x80
  | .e2m1 | .i4 => some 8
  | .i64 => some (2 ^ 63)
  | .i32 => some (2 ^ 31)
  | .i16 => some (2 ^ 15)
  | .q8 => some 0xFF
  | .q4 => some 0xF
  | .b8 | .b16 | .b32 | .b64 => none

/-- The absent code, or all ones for a b format (R245). -/
def Fmt.absentCode (f : Fmt) : Nat := f.absent.getD (2 ^ f.bits - 1)

/-- Whether a pattern is the format's absent code. -/
def Fmt.isAbsent (f : Fmt) (x : Nat) : Bool := f.absent == some x

/-- The element format codes of R165. -/
def Fmt.ofCode : Nat → Option Fmt
  | 0 => some .f32 | 1 => some .f16 | 2 => some .bf16 | 3 => some .e5m2 | 4 => some .e4m3 | 5 => some .e2m1
  | 6 => some .i8 | 7 => some .i4 | 8 => some .q8 | 9 => some .q4 | 10 => some .i32 | 11 => some .n32 | 12 => some .i16
  | 13 => some .n16 | 14 => some .f64 | 15 => some .b8 | 16 => some .b16 | 17 => some .b32 | 18 => some .b64
  | _ => none

/-- The format of a value type (R121). -/
def Vt.fmt : Vt → Fmt
  | .i32 => .i32 | .n32 => .n32 | .f32 => .f32 | .f16 => .f16 | .bf16 => .bf16 | .i16 => .i16 | .n16 => .n16 | .f64 => .f64

/-- The binary floating formats. -/
def Fmt.isFloat : Fmt → Bool
  | .f64 | .f32 | .f16 | .bf16 | .e5m2 | .e4m3 | .e2m1 => true
  | _ => false

/-- Mantissa bits (R45). -/
def Fmt.mbits : Fmt → Nat
  | .f64 => 52 | .f32 => 23 | .f16 => 10 | .bf16 => 7 | .e5m2 => 2 | .e4m3 => 3 | .e2m1 => 1
  | _ => 0

/-- Exponent bias (R45). -/
def Fmt.bias : Fmt → Nat
  | .f64 => 1023 | .f32 => 127 | .f16 => 15 | .bf16 => 127 | .e5m2 => 15 | .e4m3 => 7 | .e2m1 => 1
  | _ => 0

/-- The code of the largest finite value, without its sign (R45). -/
def Fmt.maxFinite : Fmt → Nat
  | .f64 => 0x7FEFFFFFFFFFFFFF | .f32 => 0x7F7FFFFF | .f16 => 0x7BFF | .bf16 => 0x7F7F | .e5m2 => 0x7B | .e4m3 => 0x7E
  | .e2m1 => 7
  | _ => 0

/-- The code of +∞, where the format has one (R45). -/
def Fmt.infCode : Fmt → Option Nat
  | .f64 => some 0x7FF0000000000000 | .f32 => some 0x7F800000 | .f16 => some 0x7C00 | .bf16 => some 0x7F80
  | .e5m2 => some 0x7C
  | _ => none

/-- The canonical NaN (R43); E2M1 has none, and a NaN becomes +0 there (R68). -/
def Fmt.nanCode : Fmt → Nat
  | .f64 => 0x7FF8000000000000 | .f32 => 0x7FC00000 | .f16 => 0x7E00 | .bf16 => 0x7FC0 | .e5m2 => 0x7E | .e4m3 => 0x7F
  | _ => 0

/-- The formats that keep negative zero (R46). -/
def Fmt.hasNegZero : Fmt → Bool
  | .f64 | .f32 | .f16 | .bf16 => true
  | _ => false

/-- A value: absent, NaN, an infinity, or the exact number ±m × 2^e; a zero keeps its sign (R45 to R47). -/
inductive Val where
  | absent
  | nan
  | inf (neg : Bool)
  | fin (neg : Bool) (m : Nat) (e : Int)
  deriving DecidableEq, Repr

/-- The value of a floating code (R45 to R48). -/
def Fmt.valF (f : Fmt) (x : Nat) : Val :=
  if f.isAbsent x then .absent else
  let sgn := 2 ^ (f.bits - 1)
  let neg := sgn ≤ x
  let mag := x % sgn
  let big := f.infCode.getD f.maxFinite
  if mag > big then .nan
  else if f.infCode == some mag then .inf neg
  else
    let e := mag >>> f.mbits
    let m := mag % 2 ^ f.mbits
    if e == 0 then .fin neg m (1 - (f.bias : Int) - f.mbits)
    else .fin neg (m + 2 ^ f.mbits) ((e : Int) - f.bias - f.mbits)

/-- The rounding modes of RM (R65). -/
inductive RMode where
  | rn | rz | rd | ru
  deriving DecidableEq, Repr

/-- The mode coded in RM[1:0] (R65). -/
def RMode.ofBits (b : BitVec 2) : RMode :=
  match b.toNat with
  | 0 => .rn
  | 1 => .rz
  | 2 => .rd
  | _ => .ru

/-- The number of significant bits. -/
def bitLen (m : Nat) : Nat := if m = 0 then 0 else Nat.log2 m + 1

/-- Whether a magnitude kept with the given lowest bit, remainder and tail is rounded away from zero (R65). -/
def roundsUp (mode : RMode) (neg odd : Bool) (rem half : Nat) (sticky : Bool) : Bool :=
  match mode with
  | .rn => rem > half || (rem == half && rem != 0 && (sticky || odd))
  | .rz => false
  | .rd => neg && (rem != 0 || sticky)
  | .ru => !neg && (rem != 0 || sticky)

/-- A magnitude m × 2^e, with a non-zero tail below its last bit where `sticky`, as a multiple of 2^q. The half of the
last place is 0 where no bit is cut off. -/
def roundAt (mode : RMode) (neg : Bool) (m : Nat) (e q : Int) (sticky : Bool) : Nat :=
  if q ≤ e then
    let k := m <<< (e - q).toNat
    if roundsUp mode neg (k % 2 == 1) 0 0 sticky then k + 1 else k
  else
    let sh := (q - e).toNat
    let k := m >>> sh
    if roundsUp mode neg (k % 2 == 1) (m % 2 ^ sh) (2 ^ (sh - 1)) sticky then k + 1 else k

/-- The code of an overflowed magnitude (R65): an infinity or the largest finite value, by mode and sign; a format without
infinities saturates (R68). -/
def Fmt.overflow (f : Fmt) (mode : RMode) (neg : Bool) : Nat :=
  let toInf : Bool := match mode with
    | .rn => true
    | .rz => false
    | .rd => neg
    | .ru => !neg
  if toInf then f.infCode.getD f.maxFinite else f.maxFinite

/-- The code of a sign and a magnitude code; a format without negative zero gives +0 (R46, R65). -/
def Fmt.signed (f : Fmt) (neg : Bool) (mag : Nat) : Nat :=
  if neg && (mag != 0 || f.hasNegZero) then mag + 2 ^ (f.bits - 1) else mag

/-- Rounding an exact number (with a tail where `sticky`) once to a floating format (R65, R215). -/
def Fmt.round (f : Fmt) (mode : RMode) (neg : Bool) (m : Nat) (e : Int) (sticky : Bool) : Nat :=
  let emin : Int := 1 - (f.bias : Int) - f.mbits
  let q := max (e + bitLen m - (f.mbits + 1)) emin
  let r := roundAt mode neg m e q sticky
  let mag := if r = 0 then 0 else (q - emin).toNat * 2 ^ f.mbits + r
  if mag > f.maxFinite then f.signed neg (f.overflow mode neg) else f.signed neg mag

/-- The code of a value in a floating format, rounded under a mode. -/
def Fmt.codeF (f : Fmt) (mode : RMode) : Val → Nat
  | .absent => f.absentCode
  | .nan => f.nanCode
  | .inf neg => f.signed neg (f.infCode.getD f.maxFinite)
  | .fin neg m e => f.round mode neg m e false

/-- The code in E5M2, E4M3, E2M1 or a wider target under drain conversion: as codeF to nearest even, but a finite value
above the largest finite value saturates in the 8-bit and 4-bit targets (R68). -/
def Fmt.codeDrain (f : Fmt) : Val → Nat
  | .fin neg m e =>
    let c := f.round .rn neg m e false
    if f.hasNegZero then c
    else if some (c % 2 ^ (f.bits - 1)) == f.infCode then f.signed neg f.maxFinite else c
  | v => f.codeF .rn v

/-! Exact operations on values (R222). The zero sign of an exact zero sum depends on the mode. -/

/-- A finite value as an integer multiple of 2^e0, where e0 is at most its exponent. -/
def scaled (neg : Bool) (m : Nat) (e e0 : Int) : Int :=
  let x : Int := ((m <<< (e - e0).toNat : Nat) : Int)
  if neg then -x else x

/-- Exact sum (R222): ∞ − ∞ is NaN; an exact zero of opposite signs is +0, or −0 under .rd. -/
def Val.add (mode : RMode) : Val → Val → Val
  | .absent, _ => .absent
  | _, .absent => .absent
  | .nan, _ => .nan
  | _, .nan => .nan
  | .inf a, .inf b => if a == b then .inf a else .nan
  | .inf a, _ => .inf a
  | _, .inf b => .inf b
  | .fin s1 m1 e1, .fin s2 m2 e2 =>
    let e0 := min e1 e2
    let x := scaled s1 m1 e1 e0 + scaled s2 m2 e2 e0
    if x = 0 then .fin (if s1 == s2 then s1 else mode == .rd) 0 e0
    else .fin (x < 0) x.natAbs e0

/-- The negated value; absent and NaN stay as they are. -/
def Val.neg : Val → Val
  | .inf s => .inf (!s)
  | .fin s m e => .fin (!s) m e
  | v => v

def Val.abs : Val → Val
  | .inf _ => .inf false
  | .fin _ m e => .fin false m e
  | v => v

def Val.sub (mode : RMode) (a b : Val) : Val := a.add mode b.neg

/-- Exact product (R222): 0 × ∞ is NaN. -/
def Val.mul : Val → Val → Val
  | .absent, _ => .absent
  | _, .absent => .absent
  | .nan, _ => .nan
  | _, .nan => .nan
  | .inf a, .inf b => .inf (a != b)
  | .inf a, .fin b m _ => if m = 0 then .nan else .inf (a != b)
  | .fin a m _, .inf b => if m = 0 then .nan else .inf (a != b)
  | .fin s1 m1 e1, .fin s2 m2 e2 => .fin (s1 != s2) (m1 * m2) (e1 + e2)

/-- Exact d × a + b, the operand of one rounding (R222). A product of 0 and ∞ is NaN whatever b holds. -/
def Val.fma (mode : RMode) (d a b : Val) : Val :=
  match d, a, b with
  | .absent, _, _ => .absent
  | _, .absent, _ => .absent
  | _, _, .absent => .absent
  | _, _, _ => (d.mul a).add mode b

/-- Bits kept below the rounding position by the operations with an infinite expansion. -/
def guardBits : Nat := 140

/-- a ÷ b rounded once (R222); an infinity over ±0 is an infinity (log 104). -/
def Fmt.div (f : Fmt) (mode : RMode) : Val → Val → Nat
  | .absent, _ => f.absentCode
  | _, .absent => f.absentCode
  | .nan, _ => f.nanCode
  | _, .nan => f.nanCode
  | .inf _, .inf _ => f.nanCode
  | .inf a, .fin b _ _ => f.codeF mode (.inf (a != b))
  | .fin a _ _, .inf b => f.codeF mode (.fin (a != b) 0 0)
  | .fin s1 m1 e1, .fin s2 m2 e2 =>
    let s := s1 != s2
    if m2 = 0 then (if m1 = 0 then f.nanCode else f.codeF mode (.inf s))
    else if m1 = 0 then f.codeF mode (.fin s 0 0)
    else
      let k := guardBits + bitLen m2
      let n := m1 <<< k
      f.round mode s (n / m2) (e1 - e2 - k) (n % m2 != 0)

/-- The integer square root, bit by bit from 2^k. -/
def isqrtGo (n : Nat) : Nat → Nat → Nat
  | 0, r => r
  | k + 1, r =>
    let r' := r + 2 ^ k
    isqrtGo n k (if r' * r' ≤ n then r' else r)

/-- The largest r with r × r ≤ n. -/
def isqrt (n : Nat) : Nat := isqrtGo n (bitLen n / 2 + 1) 0

/-- √a rounded once (R223). -/
def Fmt.sqrt (f : Fmt) (mode : RMode) : Val → Nat
  | .absent => f.absentCode
  | .nan => f.nanCode
  | .inf neg => if neg then f.nanCode else f.codeF mode (.inf false)
  | .fin neg m e =>
    if m = 0 then f.codeF mode (.fin neg 0 0)
    else if neg then f.nanCode
    else
      let k : Nat := 2 * guardBits + (if e % 2 = 0 then 0 else 1)
      let n := m <<< k
      let r := isqrt n
      f.round mode false r ((e - k) / 2) (r * r != n)

/-- 1 ÷ a rounded once (R223). -/
def Fmt.rcp (f : Fmt) (mode : RMode) (a : Val) : Nat := f.div mode (.fin false 1 0) a

/-- 1 ÷ √a rounded once (R223): −0 gives −∞. -/
def Fmt.rsq (f : Fmt) (mode : RMode) : Val → Nat
  | .absent => f.absentCode
  | .nan => f.nanCode
  | .inf neg => if neg then f.nanCode else f.codeF mode (.fin false 0 0)
  | .fin neg m e =>
    if m = 0 then f.codeF mode (.inf neg)
    else if neg then f.nanCode
    else
      let m' := if e % 2 = 0 then m else 2 * m
      let e' := if e % 2 = 0 then e else e - 1
      let k := guardBits + bitLen m'
      let r := isqrt (2 ^ (2 * k) / m')
      f.round mode false r (-(k : Int) - e' / 2) (r * r * m' != 2 ^ (2 * k))

/-- Fraction bits of the fixed-point evaluation of exp2. -/
def expBits : Nat := 320

/-- The product of the roots 2^(2^-i) that the fraction's bits select, in fixed point, from the top bit down. -/
def exp2Go (frac : Nat) : Nat → Nat → Nat → Nat
  | 0, _, acc => acc
  | d + 1, root, acc =>
    let root' := isqrt (root <<< expBits)
    exp2Go frac d root' (if frac.testBit d then (acc * root') >>> expBits else acc)

/-- 2^a rounded once (R223). A value beyond ±4096 overflows or underflows in every format of vf; an integer is exact; any
other power is irrational, so its tail is never zero and it is never a tie (log 7). -/
def Fmt.exp2 (f : Fmt) (mode : RMode) : Val → Nat
  | .absent => f.absentCode
  | .nan => f.nanCode
  | .inf neg => f.codeF mode (if neg then .fin false 0 0 else .inf false)
  | .fin neg m e =>
    if m = 0 then f.codeF mode (.fin false 1 0)
    else if e + bitLen m > 12 then f.round mode false (2 ^ 300) (if neg then -8000 else 8000) true
    else if e ≥ 0 then f.round mode false 1 (scaled neg m e 0) false
    else
      let d := (-e).toNat
      let x : Int := if neg then -(m : Int) else m
      let n := x / (2 ^ d : Nat)
      let frac := (x % (2 ^ d : Nat)).toNat
      if frac = 0 then f.round mode false 1 n false
      else f.round mode false (exp2Go frac d (2 ^ (expBits + 1)) (2 ^ expBits)) (n - expBits) true

/-- Fraction bits and working bits of the fixed-point evaluation of log2. -/
def logBits : Nat := 160
def logWork : Nat := 512

/-- The fraction bits of log2 of a number in [1, 2), by repeated squaring. -/
def log2Go : Nat → Nat → Nat → Nat
  | 0, _, acc => acc
  | k + 1, y, acc =>
    let y2 := (y * y) >>> logWork
    if 2 ^ (logWork + 1) ≤ y2 then log2Go k (y2 >>> 1) (2 * acc + 1) else log2Go k y2 (2 * acc)

/-- log2 a rounded once (R223). log2 of a power of two is exact; any other is irrational (log 7). -/
def Fmt.log2 (f : Fmt) (mode : RMode) : Val → Nat
  | .absent => f.absentCode
  | .nan => f.nanCode
  | .inf neg => if neg then f.nanCode else f.codeF mode (.inf false)
  | .fin neg m e =>
    if m = 0 then f.codeF mode (.inf true)
    else if neg then f.nanCode
    else
      let n := bitLen m - 1
      let ex : Int := e + n
      let exact := m == 2 ^ n
      if exact then f.codeF mode (.fin (ex < 0) ex.natAbs 0)
      else
        let l := log2Go logBits ((m <<< logWork) >>> n) 0
        if ex ≥ 0 then f.round mode false (ex.toNat * 2 ^ logBits + l) (-(logBits : Int)) true
        else f.round mode true (ex.natAbs * 2 ^ logBits - l - 1) (-(logBits : Int)) true

/-- The largest integer at most a; exact (R223). -/
def Val.floor : Val → Val
  | .fin neg m e =>
    if m = 0 || e ≥ 0 then .fin neg m e
    else
      let d := (-e).toNat
      if neg then .fin true ((m + 2 ^ d - 1) >>> d) 0 else .fin false (m >>> d) 0
  | v => v

/-- Numeric order of two values that are neither absent nor NaN; the zeros compare equal (R58). -/
def Val.ltNum : Val → Val → Bool
  | .inf a, .inf b => a && !b
  | .inf a, .fin _ _ _ => a
  | .fin _ _ _, .inf b => !b
  | .fin s1 m1 e1, .fin s2 m2 e2 =>
    let e0 := min e1 e2
    scaled s1 m1 e1 e0 < scaled s2 m2 e2 e0
  | _, _ => false

/-- Whether a value is negative, −0 included. -/
def Val.isNeg : Val → Bool
  | .inf s => s
  | .fin s _ _ => s
  | _ => false

/-- The order of minimum and maximum: by value, with −0 below +0 (R62). -/
def Val.ltMin (a b : Val) : Bool := a.ltNum b || (!b.ltNum a && a.isNeg && !b.isNeg)

/-- Floating minimum or maximum (R62): NaN if either is NaN; absent propagates before. -/
def Val.minmax (isMax : Bool) (a b : Val) : Val :=
  match a, b with
  | .absent, _ => .absent
  | _, .absent => .absent
  | .nan, _ => .nan
  | _, .nan => .nan
  | _, _ => if isMax then (if a.ltMin b then b else a) else (if b.ltMin a then b else a)

/-! Integer formats (R52 to R54). -/

/-- Two's complement formats. -/
def Fmt.isSigned : Fmt → Bool
  | .i64 | .i32 | .i16 | .i8 | .i4 => true
  | _ => false

/-- The integer a pattern reads as, before the absent test. -/
def Fmt.toInt (f : Fmt) (x : Nat) : Int :=
  if f.isSigned && 2 ^ (f.bits - 1) ≤ x then (x : Int) - 2 ^ f.bits else x

/-- The value of an integer pattern, none where it is absent. -/
def Fmt.int? (f : Fmt) (x : Nat) : Option Int := if f.isAbsent x then none else some (f.toInt x)

/-- The range of a typed format (R52). -/
def Fmt.maxInt (f : Fmt) : Int := if f.isSigned then 2 ^ (f.bits - 1) - 1 else 2 ^ f.bits - 2
def Fmt.minInt (f : Fmt) : Int := if f.isSigned then -(2 ^ (f.bits - 1) - 1) else 0

/-- The pattern of an integer modulo 2^bits. -/
def Fmt.wrap (f : Fmt) (x : Int) : Nat := (x % (2 ^ f.bits : Nat)).toNat

/-- The pattern of an integer saturated to the range of R52. -/
def Fmt.sat (f : Fmt) (x : Int) : Nat := f.wrap (max f.minInt (min f.maxInt x))

/-- A typed operation of two operands: absent propagates (R59), the exact result is saturated (R53). -/
def Fmt.typed2 (f : Fmt) (op : Int → Int → Int) (x y : Nat) : Nat :=
  match f.int? x, f.int? y with
  | some a, some b => f.sat (op a b)
  | _, _ => f.absentCode

/-- The quotient of a typed division (R53). -/
def typedDiv (f : Fmt) (a b : Int) : Int :=
  if b = 0 then (if a > 0 then f.maxInt else if a < 0 then f.minInt else 0) else a.tdiv b

/-- The remainder of a typed division (R53): x − quotient × y, and x itself for a division by zero. -/
def typedRem (a b : Int) : Int := if b = 0 then a else a.tmod b

/-- Rounding a value to an integer (R66). -/
def Val.toIntR (mode : RMode) : Val → Option Int
  | .fin neg m e =>
    let r : Int := roundAt mode neg m e 0 false
    some (if neg then -r else r)
  | _ => none

/-- The value of a code in any floating or integer format. -/
def Fmt.val (f : Fmt) (x : Nat) : Val :=
  if f.isFloat then f.valF x
  else match f.int? x with
    | none => .absent
    | some i => .fin (i < 0) i.natAbs 0

/-- Conversion between formats (R66). f16 to bf16 and bf16 to f16, which the table leaves out, round like the narrowing ones
(log 99). -/
def convert (src dst : Fmt) (mode : RMode) (x : Nat) : Nat :=
  match src.val x with
  | .absent => dst.absentCode
  | .nan => if dst.isFloat then dst.nanCode else 0
  | .inf neg => if dst.isFloat then dst.codeF mode (.inf neg) else dst.sat (if neg then dst.minInt else dst.maxInt)
  | .fin neg m e =>
    if dst.isFloat then dst.round mode neg m e false
    else match (Val.fin neg m e).toIntR mode with
      | some i => dst.sat i
      | none => 0

/-- Drain conversion to a narrow integer or a floating target (R68). -/
def Fmt.drain (f : Fmt) (v : Val) : Nat :=
  if f.isFloat then f.codeDrain v
  else match v with
    | .absent => f.absentCode
    | .nan => f.sat 0
    | .inf neg => f.sat (if neg then f.minInt else f.maxInt)
    | v => match v.toIntR .rn with
      | some i => f.sat i
      | none => f.absentCode

/-- The exact sum of a list of values, whose first rounding is left to the caller (R67): the zero sign is −0 only when
every term is −0. -/
def exactSum (vs : List Val) : Val :=
  match vs with
  | [] => .absent
  | v :: rest => rest.foldl (fun acc x => acc.add .rn x) v

end Sys2Proof
end

