-- ==== Sys2Proof/Machine/State.lean ====
section
/-!
DEFINITION. The state of the machine: everything the spec gives the device, as plain data. Tables are sparse lists with
rising keys (`Tab`); what an unlisted key reads as is said at each field. The fields of the model's own are `sched`, `steps`
and `issuing` (log 1, log 3).
-/

namespace Sys2Proof.Machine

/-- Why the machine stops. No step of the machine raises it: `step` names a fragment before it runs a word. -/
inductive Fault where
  /-- Raised by the meaning of an instruction word when the state names no live issuing fragment. Safe: a claim about such a
  state is only harder to prove. -/
  | noFragment
  deriving DecidableEq, Repr

/-- Why an instruction has no meaning. -/
inductive Refusal where
  /-- Raised by an arm of the dispatch whose instruction has no meaning yet. Safe: nothing is claimed of it. -/
  | notModelled (mnemonic : String)
  deriving DecidableEq, Repr

/-- The ordering codes (R1). -/
inductive Model where
  | kA | kB | mA
  deriving DecidableEq, Repr

/-- Under-stack layers of each island (R24). -/
def Model.layers : Model → Nat
  | .kA | .mA => 8
  | .kB => 6

/-- A fragment by its course's key and its serial (R36). -/
structure FragRef where
  uid : Nat
  serial : Nat
  deriving DecidableEq, Repr

/-- The kinds of WAITING (R85), with the codes of R182. -/
inductive WaitKind where
  | barrier | join | tile | counter | monitor | queue | batch | signal
  deriving DecidableEq, Repr

/-- What ends a wait. -/
inductive Until where
  /-- Wall barrier b completes (R272). -/
  | wallBarrier (b : Nat)
  /-- The PHASE of the stash object at an offset differs from a token; the flag says that the word is then done (R274). -/
  | phase (off token : Nat) (done : Bool)
  /-- The join of the fragment's top entry completes (R95). -/
  | joined
  /-- Every lane of the course outside the fragment has exited or merged (R102). -/
  | siblings
  /-- LDC, STC and TLC are at or below bounds (R276, R277). -/
  | counters (l s t : Nat)
  /-- Every island's vector clock reaches a recorded one (R341). -/
  | clocks (v : List Nat)
  /-- A side-log entry of a core is replayed (R345). -/
  | entry (core seq : Nat)
  /-- A monitor fires (R279). -/
  | fired
  /-- A push to one of the queues (R84). -/
  | pushed (qs : List Nat)
  /-- Every closed batch numbered at or below n is complete (R317). -/
  | batches (n : Nat)
  /-- Fewer than 64 batches are incomplete (R316). -/
  | batchRoom
  /-- The page-lock table of an island has room for the pages of a context (R308). -/
  | pinRoom (island ctx : Nat) (pages : List (Nat × Nat × Nat))
  /-- The listed operations are complete (R269, R442). -/
  | ops (ids : List Nat)
  deriving DecidableEq, Repr

/-- What a parked fragment is parked on (R88). -/
inductive ParkOn where
  | service
  | lock (lvl : Lvl) (name : Nat)
  | expert (id : Nat)
  deriving DecidableEq, Repr

/-- READY, WAITING and PARKED (R85); ISSUING is the fragment that `issuing` names, MERGED and EXITED fragments are no longer
listed, and SPILLED is a flag beside the state. -/
inductive FState where
  | ready
  | waiting (kind : WaitKind) (til : Until)
  | parked (code : Nat) (on : ParkOn)
  deriving DecidableEq, Repr

/-- An outstanding fault record of a parked fragment: its unit and its lanes (R362). -/
structure OutRec where
  unit : Nat
  lanes : Dword
  deriving DecidableEq, Repr

/-- A walk outcome delivered to the fragment that waited for it, good for its next attempt (R355, R356). -/
structure XOut where
  unit : Nat
  code : Nat
  level : Nat
  write : Bool
  fetch : Bool
  deriving DecidableEq, Repr

/-- A fragment (R36, R85, R174, R190, R207). -/
structure Frag where
  pc : Dword
  lanes : Dword
  state : FState := .ready
  /-- The descriptor is in the save area (R100). -/
  spilled : Bool := false
  /-- Its place among the spills of its course (R101). -/
  spillNo : Nat := 0
  /-- It holds its slot's reserved entry (R99). -/
  reserved : Bool := false
  /-- The join stack, top first: address and lane set (R190). -/
  joins : List (Dword × Dword) := []
  s1 : Dword := 0
  s2 : Dword := 0
  cause : Dword := 0
  tpc : Dword := 0
  faddr : Dword := 0
  flanes : Dword := 0
  /-- The handler flag (R179). -/
  handler : Bool := false
  readyTime : Nat := 0
  /-- The name of the wounding request, where the fragment is marked (R413, R414). -/
  mark : Option Dword := none
  /-- The pending mask of a degraded stall (R90). -/
  pending : Dword := 0
  /-- The lanes that the next execution at an address is for, where it is not all of them (R90). -/
  only : Dword := 0
  onlyPc : Dword := 0
  /-- Lanes with a recorded lock grant (R411). -/
  granted : Dword := 0
  /-- Lanes whose queued lock request met a full count, and which receive FALSE (R407). -/
  denied : Dword := 0
  /-- Lanes with a recorded expert pin, and the expert (R439). -/
  pinned : List (Nat × Nat) := []
  outcomes : List XOut := []
  /-- Units whose translation it awaits (R355). -/
  missing : List Nat := []
  /-- Units for which its next instruction found no merge-table entry (R355). -/
  crowd : List Nat := []
  /-- The sibling that it waited for and that has entered another wait, so its tl word traps (R102). -/
  diverged : Option Nat := none
  /-- The place of its descriptor in the save area of its slot while it is SPILLED (R100). -/
  saveSlot : Nat := 0
  records : List OutRec := []
  /-- What its waiting word recorded when it first ran: the vector clock of a total fence (R341), or the operations that an
  ex.rel waits for (R442). -/
  totV : Option (List Nat) := none
  /-- Its instruction has been held back by 64 unwritten fault records (R364). -/
  held : Bool := false
  /-- Issue slots of its quadrant through which it stayed eligible without issuing (R105). -/
  passed : Nat := 0
  deriving DecidableEq, Repr

/-- A closed or open batch of copies (R316): its number, its incomplete operations and its stash barrier object. -/
structure Batch where
  n : Nat
  ops : List Nat
  obj : Option Nat
  deriving DecidableEq, Repr

/-- A course (R34, R174). The key of its table is a number that no other course has since power-on. -/
structure Course where
  core : Nat
  slot : Nat
  gen : Nat
  age : Nat
  ctx : Nat
  grid : Nat
  index : Nat
  width : Nat
  cap : Nat
  entry : Dword
  stack : Nat
  /-- The context-resident flag: false while its context is swapped out (R108). -/
  resident : Bool := true
  lastSerial : Nat := 0
  /-- Spills so far (R101). -/
  spills : Nat := 0
  /-- s0 to s383 but s1 and s2; an unlisted register was never written (R55). -/
  scal : Tab Dword := []
  /-- v0 to v255 of each lane at 64 × register + lane; an unlisted one was never written (R55). -/
  vec : Tab Word := []
  /-- q0 to q15 of each lane at 64 × trit + lane; an unlisted one was never written (R55, R56). -/
  trit : Tab (BitVec 2) := []
  exited : Dword := 0
  wv : Nat := 0
  ws : Nat := 0
  rm : BitVec 2 := 0
  fmt : BitVec 12 := 0
  tvec : Dword := 0
  ldc : Nat := 0
  stc : Nat := 0
  tlc : Nat := 0
  /-- The number of the last batch (R316). -/
  batchNo : Nat := 0
  /-- Pending copies, and closed batches that are not complete (R316). -/
  copies : List Nat := []
  batches : List Batch := []
  /-- The A latch: slices of 64 rows of 32 bytes; a row of an exited lane is none (R303). -/
  latch : List (List (Option (List Byte))) := []
  /-- The issue-priority token of its pair (R199). -/
  token : Bool := false
  frags : Tab Frag := []
  deriving DecidableEq, Repr

/-- A bound stash region (R261, R262): its range, its global base, the physical addresses and element formats of its 64 KiB
units, the lines filled so far. -/
structure Region where
  off : Nat
  len : Nat
  va : Nat
  units : Tab (Nat × Nat)
  pins : List (Nat × Nat × Nat) := []
  filled : List Nat := []
  deriving DecidableEq, Repr

/-- A pending wound (R413, R415). -/
structure Wound where
  name : Dword
  grace : Nat
  deriving DecidableEq, Repr

/-- A wall (R34, R40). The key of its table is its age (R81). -/
structure Wall where
  ctx : Nat
  grid : Nat
  index : Nat
  prio : Nat
  part : Nat
  /-- The even half's core of a twin, or the wall's core. -/
  core : Nat
  twin : Bool
  courses : Nat
  width : Nat
  cap : Nat
  ztiles : Nat
  /-- Stash bytes on each half. -/
  win : Nat
  resident : Bool := true
  /-- Courses that have drained. -/
  drained : Nat := 0
  /-- Stash bytes; an unlisted byte reads 0xFF (R40). -/
  stash : Tab Byte := []
  /-- Span tags by 4 KiB page; an unlisted page has tag 0 (R300). -/
  tags : Tab Nat := []
  /-- z elements at 32768 × half + 4096 × tile + 64 × i + j; an unlisted one reads 0xFFFF_FFFF (R288). -/
  z : Tab Word := []
  /-- Arrived lanes at 64 × barrier + course; an unlisted one is none (R272). -/
  arrived : Tab Dword := []
  regions : Tab Region := []
  watchdog : Nat := 0
  wound : Option Wound := none
  deriving DecidableEq, Repr

/-- The kernel descriptor as the dispatcher uses it (R163). -/
structure Kernel where
  entry : Dword
  stash : Nat
  stack : Nat
  cap : Nat
  width : Nat
  courses : Nat
  ztiles : Nat
  split : Nat
  deriving DecidableEq, Repr

/-- The fields of a launch record (R74). -/
structure Launch where
  kdesc : Nat
  args : Dword
  grid : Nat
  pred0 : Nat
  pred1 : Nat
  chain : Nat
  comp : Nat
  cscope : Bool
  cirq : Bool
  prio : Nat
  part : Nat
  gridInd : Bool
  reserved : Nat
  deriving DecidableEq, Repr

/-- A grid in flight (R83). -/
structure Grid where
  ctx : Nat
  queue : Nat
  record : Launch
  kernel : Kernel
  count : Nat
  placed : Nat := 0
  drained : Nat := 0
  /-- The physical address of COMP and the element format of its leaf. -/
  comp : Option (Nat × Nat) := none
  /-- The pin of COMP's page, on the island that homes the queue (R83). -/
  pins : List (Nat × Nat × Nat) := []
  deriving DecidableEq, Repr

/-- The head record of a launch queue while the dispatcher works on it (R77, R78). -/
structure Head where
  record : Launch
  /-- Predecessors still to be read, in order. -/
  todo : List Nat
  /-- The next chain block, and the number of blocks read. -/
  chain : Nat
  blocks : Nat := 0
  /-- The grid, once eligible. -/
  grid : Option Nat := none
  /-- It is eligible, but COMP's page is not pinned yet (R83). -/
  waits : Bool := false
  /-- PREEMPT_BLOCKED has risen for it (R372). -/
  blocked : Bool := false
  deriving DecidableEq, Repr

/-- A queue (R73, R283). The entries are kept beside the ring in memory that shows them. -/
structure Queue where
  ctx : Nat
  work : Bool
  cap : Nat
  succ : Nat
  ring : Nat
  units : Tab (Nat × Nat)
  pins : List (Nat × Nat × Nat) := []
  headNo : Nat := 0
  entries : List (List Byte) := []
  head : Option Head := none
  deriving DecidableEq, Repr

/-- An expert entry (R430, R431). -/
structure Expert where
  sizeq : Nat
  cls : Nat
  kind : Nat
  nsid : Nat
  src : Nat
  /-- 0 UNCONF, 1 ABSENT, 2 FETCHING, 3 RESIDENT, 4 FAILED. -/
  st : Nat
  pin : Nat := 0
  frame : Option Nat := none
  /-- Pages of the frame pinned while PIN is above 0 (R432). -/
  pins : List (Nat × Nat × Nat) := []
  lastUse : Nat := 0
  /-- Parked lanes by course, one entry for each parking, in the order in which they parked. -/
  waiters : List (Nat × Dword) := []
  deriving DecidableEq, Repr

/-- A fetch of a pager's queue, not yet in flight (R434, R436). -/
structure Fetch where
  ctx : Nat
  id : Nat
  demand : Bool
  /-- It found no frame and is not retried yet. -/
  blocked : Bool := false
  /-- EX_EVICT_BLOCKED has risen for it. -/
  counted : Bool := false
  deriving DecidableEq, Repr

/-- The fault-queue descriptor as read (R364). -/
structure FaultQ where
  base : Nat
  cap : Nat
  head : Nat
  sig : Nat
  deriving DecidableEq, Repr

/-- A context (R72, R469). -/
structure Ctx where
  root : Nat
  tvec : Dword
  spill : Nat
  fqdesc : Nat
  report : Nat
  counters : Nat
  /-- The physical address of the event-counter page and the element format of its leaf. -/
  countLoc : Option (Nat × Nat) := none
  parts : BitVec 8
  vec : Nat
  nexp : Nat
  nframe : Nat
  framelog : Nat
  arena : Nat
  /-- Records written to the fault queue (R364). -/
  tail : Nat := 0
  ert : Tab Expert := []
  /-- Pages that CTX_CREATE pinned: virtual page, size, physical page (R470, R488). -/
  pins : List (Nat × Nat × Nat) := []
  deriving DecidableEq, Repr

/-- A translation of a core TLB or of an island's L2 TLB (R354 to R356): a page and its physical address. -/
structure Tlb where
  ctx : Nat
  va : Nat
  size : Nat
  loc : Nat
  w : Bool
  x : Bool
  efmt : Nat
  deriving DecidableEq, Repr

/-- A merge-table entry (R355). -/
structure Merge where
  ctx : Nat
  unit : Nat
  walking : Bool := false
  waiters : List (FragRef × Bool × Bool) := []
  deriving DecidableEq, Repr

/-- A page-lock entry (R357). -/
structure Pin where
  ctx : Nat
  vpage : Nat
  size : Nat
  ppage : Nat
  count : Nat
  deriving DecidableEq, Repr

/-- A fault record before it is written (R363); SEQ is its position when it is. -/
structure FaultRec where
  ctx : Nat
  aux : Nat
  pc : Nat
  lanes : Dword
  word : Nat
  write : Bool
  origin : Nat
  code : Nat
  vaddr : Nat
  id : Nat
  time : Nat
  deriving DecidableEq, Repr

/-- Where one access goes: a byte offset of the wall's stash window, or an address of global memory (a location or a physical
address) through a leaf with an element format. -/
inductive Target where
  | stash (off : Nat)
  | mem (loc : Nat) (efmt : Nat)
  deriving DecidableEq, Repr

/-- One piece of one lane's access: the address it names, its target, and its place among the bytes of the lane. -/
structure Piece where
  lane : Nat
  va : Nat
  tgt : Target
  len : Nat
  at' : Nat
  deriving DecidableEq, Repr

/-- A side-log entry (R360): the stores of the lanes of one instruction in one unit, or a reduction. Its header's access size is
the bytes of a lane that it holds, and its EFMT that of the unit's leaf, none where the unit has no leaf (log 109). -/
structure SideEntry where
  seq : Nat
  uid : Nat
  ctx : Nat
  unit : Nat
  word : Nat
  code : Nat
  size : Nat
  efmt : Option Nat
  lanes : Dword
  /-- Address and byte; of the lanes of the store that write one byte, the highest (R252). -/
  cells : List (Nat × Byte)
  /-- The addend of a syn.sigadd. -/
  sig : Option Dword
  /-- The lowest faulting address of its lanes (R363). -/
  vaddr : Nat
  /-- The course's operations below this number are earlier accesses (R330). -/
  op : Nat
  /-- Its replay was asked for while an earlier entry of the course that it overlaps was pending (R345). -/
  due : Bool := false
  deriving DecidableEq, Repr

/-- Where a load writes (R252, R255). -/
inductive Dest where
  /-- Vector registers of the lane from a physical register on; a half write keeps the other element. -/
  | vector (reg : Nat) (size : Nat)
  /-- A physical scalar register. -/
  | scalar (reg : Nat)
  /-- s1 or s2 of a fragment, by its serial and the field value (R207). -/
  | own (serial fld : Nat)
  /-- Nowhere: a reduction (R281). -/
  | nowhere
  deriving DecidableEq, Repr

/-- The operation of an atomic (R266). -/
inductive AtOp where
  | add (f : Fmt) | fadd (f : Fmt) | min (f : Fmt) | max (f : Fmt) | and | or | xor | xchg | cas | slot
  deriving DecidableEq, Repr

/-- One lane of an atomic: its location, its operand, and for cas its new value. -/
structure AtLane where
  lane : Nat
  loc : Nat
  efmt : Nat
  x : Nat
  y : Nat
  deriving DecidableEq, Repr

/-- One K-step of a matrix operation: values of A by row, and of B by row k (R67). -/
structure KStep where
  a : List (List Val)
  b : List (List Val)
  deriving DecidableEq, Repr

/-- A drain's parameters (R309). -/
structure Drain where
  dst : Nat
  absentDst : Bool
  stash : Bool
  span : Nat
  pitch : Nat
  scale : Nat
  tgt : Nat
  amax : Bool
  amOff : Int
  acc32 : Bool
  deriving DecidableEq, Repr

/-- A layout record (R164). -/
structure Layout where
  base : Nat
  scales : Nat
  zeros : Nat
  rows : Nat
  cols : Nat
  stride : Nat
  elem : Nat
  group : Nat
  reserved : Nat
  deriving DecidableEq, Repr

/-- A scale of an element: none, an E8M0 code, or an f16 scale and an i8 zero point (R50, R51). -/
inductive EScale where
  | one
  | block (code : Nat)
  | group (scale zero : Nat)
  deriving DecidableEq, Repr

/-- The changing part of a transform run (R323, R461): the form, the records, the position, the stored blocks passed, the bytes
of lines not written yet, the length of the current run of absent blocks, and the scale registers of source and destination
with the number of the group that each holds. -/
structure Run where
  xop : Nat
  src : Layout
  dst : Layout
  pos : Nat := 0
  count : Nat := 0
  part : List (Nat × Byte) := []
  absent : Nat := 0
  srcSc : Option (Nat × EScale) := none
  dstSc : Option (Nat × EScale) := none
  deriving DecidableEq, Repr

/-- The operands of a gather as read at acceptance, the next row, and the block ids that it has read, by their place in ENTRIES
(R368, R386, R387). -/
structure Gather where
  off : Nat
  span : Nat
  start : Option Nat
  len : Nat
  entries : Nat
  nblk : Nat
  rowBytes : Nat
  elem : Nat
  data : Nat
  row : Nat := 0
  ids : Tab Nat := []
  deriving DecidableEq, Repr

/-- An outstanding operation of a course. -/
inductive Work where
  /-- ld, ldx, ld.stk, ld.k: the pieces, the bytes already sampled, the destinations (R250). -/
  | load (dst : Dest) (lanes : Dword) (pieces : List Piece) (got : Tab (List Byte)) (const : Bool)
  /-- at and syn.sigadd: the locations, the width, the destination, and the lanes that are posted (R265, R281, R477). -/
  | atomic (op : AtOp) (size : Nat) (dst : Dest) (lanes posted : List AtLane)
  /-- st and every other write that STC counts, while its writes are not performed at dev (R250). -/
  | store
  /-- A posted reduction (R477): the form, the locations and the operands. -/
  | posted (op : AtOp) (size : Nat) (lanes : List AtLane)
  | tlZero (z : Nat) (code : Word)
  | tlLoad (z : Nat) (src : Option Nat) (units : Tab (Nat × Nat))
  | tlMma (z : Nat) (kc : Bool) (acc32 : Bool) (steps : List KStep)
  | tlDrain (z : Nat) (d : Drain) (units : Tab (Nat × Nat))
  /-- cpy: destination and source, each stash with a span or global; row length, rows, stride (R314). -/
  | copy (dstS srcS : Bool) (dst src span len rows stride : Nat) (units : Tab (Nat × Nat))
  /-- xf.run: the handle, the object, and the run (R322, R323, R461). -/
  | run (handle : Nat) (obj : Option Nat) (r : Run)
  /-- kv.gather: the object, and the gather (R386, R387). -/
  | gather (obj : Option Nat) (g : Gather)
  deriving DecidableEq, Repr

/-- An operation with its issuer; `seq` is the SEQ of an engine operation (R361). -/
structure Op where
  uid : Nat
  ctx : Nat
  core : Nat
  seq : Nat := 0
  stopped : Bool := false
  /-- It has been held back by 64 unwritten fault records (R364). -/
  held : Bool := false
  /-- It waits for room in the page-lock table, and PIN_WAIT has risen for that (R357, R367). -/
  pinWait : Bool := false
  /-- How far a tile operation or a copy has come: K-steps, rows or bytes of its destination (R292). -/
  done : Nat := 0
  /-- Pages it pins: virtual page, size, physical page (R357). -/
  pins : List (Nat × Nat × Nat) := []
  work : Work
  deriving DecidableEq, Repr

/-- A write (R340): its cells, the element format it carries, the operation it belongs to, its origin, the copy of the
origin's vector clock, and the islands that have applied it. -/
structure Write where
  id : Nat
  uid : Nat
  op : Nat
  cells : List (Nat × Byte)
  efmt : Option Nat
  origin : Nat
  vc : List Nat := [0, 0, 0, 0]
  applied : BitVec 4 := 0
  /-- Vectors that it sends once every island has applied it (R472). -/
  irq : List Nat := []
  deriving DecidableEq, Repr

/-- A condition monitor (R279): line, the slice that holds it (R28, R29), waiter, and the island on which the waiter reads. -/
structure Monitor where
  line : Nat
  slice : Nat × Nat
  who : FragRef
  island : Nat
  setAt : Nat
  deriving DecidableEq, Repr

/-- The six hold counts of a wall on a lock, in the order of the mode codes, and the folded count of each folded mode (R407,
R418). -/
structure Hold where
  age : Nat
  counts : List Nat := [0, 0, 0, 0, 0, 0]
  folds : List (LMode × Nat) := []
  deriving DecidableEq, Repr

/-- A queued or overflowing request: the wall, the name as given, the mode, the course and lane, and what it is (R409, R412). -/
structure Req where
  age : Nat
  full : Dword
  mode : LMode
  conv : Bool
  esc : Bool
  uid : Nat
  lane : Nat
  deriving DecidableEq, Repr

/-- A lock with holders or waiters (R401, R409). -/
structure Lock where
  lvl : Lvl
  name : Nat
  holds : List Hold := []
  queue : List Req := []
  deriving DecidableEq, Repr

/-- A request on the overflow list (R412). -/
structure Over where
  lvl : Lvl
  name : Nat
  req : Req
  deriving DecidableEq, Repr

/-- The line locks a wall held under a tile when an escalation last failed (R417). -/
structure Skip where
  age : Nat
  tile : Nat
  count : Nat
  deriving DecidableEq, Repr

/-- A core (R32, R36, R354, R360, R364). -/
structure Core where
  split : Nat := 0
  /-- Courses that have occupied each slot; an unlisted slot has had none. -/
  gens : Tab Nat := []
  tlb : List Tlb := []
  /-- The constant cache (R254): the bytes of the lines it holds, as read through a leaf of an element format, at
  32 × line + format. -/
  cc : Tab (List Byte) := []
  side : List SideEntry := []
  held : List FaultRec := []
  /-- The next SEQ (R361). -/
  seq : Nat := 0
  degraded : Bool := false
  /-- It has held no wall since, and accepts none (R484). -/
  closed : Bool := false
  deriving DecidableEq, Repr

/-- An island (R355, R357, R412, R436). -/
structure Island where
  /-- The L2 TLB (R355, R356). -/
  l2 : List Tlb := []
  merge : List Merge := []
  pins : List Pin := []
  /-- Fetches waiting in the pager. -/
  fetches : List Fetch := []
  /-- The overflow list of Mortar. -/
  overflow : List Over := []
  deriving DecidableEq, Repr

/-- A partition (R42, R80, R372). -/
structure Part where
  twins : List Nat := []
  occupant : Option Nat := none
  /-- The context saved in its shadow slots. -/
  saved : Option Nat := none
  /-- The context that pre-empted the saved one. -/
  preemptor : Option Nat := none
  deriving DecidableEq, Repr

/-- A window-table entry (R473). -/
structure Window where
  tbase : Nat
  target : Nat
  port : Nat
  c : Bool
  red : Bool
  devnum : Nat
  size : Nat
  base : Nat
  deriving DecidableEq, Repr

/-- The policy items (R481). -/
structure Policy where
  matrix : BitVec 36
  weights : List Nat
  watchdog : Nat
  errCount : Nat
  errWindow : Nat
  pager : List Nat
  grace : Nat
  escalation : Nat
  power : Nat
  deriving DecidableEq, Repr

/-- The default policy (R404, R481). -/
def Policy.default : Policy where
  matrix := 0x100450CF#36
  weights := List.replicate 8 16
  watchdog := 2 ^ 31
  errCount := 32
  errWindow := 3600
  pager := List.replicate 8 1
  grace := 100
  escalation := 64
  power := 2600

/-- A bound signal (R472), at its physical address. -/
structure Irq where
  loc : Nat
  vector : Nat
  ctx : Nat
  pins : List (Nat × Nat × Nat) := []
  deriving DecidableEq, Repr

/-- The staging of a queue window (R471): port, queue, 64 bytes, the status of the last push. -/
structure Stage where
  port : Nat
  queue : Nat
  bytes : List Byte
  deriving DecidableEq, Repr

/-- The last SPDM response (R483): its code and its contents. -/
inductive Spdm where
  | version (major minor : Nat) | capabilities | algorithms (asym hash : Bool) | digests (d : BitVec 384) | certificate (bytes : List Byte)
  | challengeAuth (d : BitVec 384) (sig : BitVec 768) | measurements (m1 m2 : BitVec 384) (devid : Dword) (sig : BitVec 768)
  | error (code : Nat)
  deriving DecidableEq, Repr

/-- Per port: the negotiated algorithms (none before NEGOTIATE_ALGORITHMS) and the last response (R483). -/
structure SpdmPort where
  negotiated : Bool := false
  last : Option Spdm := none
  deriving DecidableEq, Repr

/-- A move of the plain-data schedule: an event, a step of an engine operation (R292), or an issue slot of a quadrant
(log 1). -/
inductive Turn where
  | event (i : Instr)
  | progress (op : Nat)
  | issue (core quad : Nat)
  deriving DecidableEq, Repr

/-- The machine. -/
structure State where
  /-- The moves still to come, in order; empty: the default order (log 1). The model's own. -/
  sched : List Turn
  /-- Steps taken, for the free values (log 3). The model's own. -/
  steps : Nat
  /-- The fragment whose instruction runs (R85, ISSUING). -/
  issuing : Option FragRef
  /-- %clock (R174). -/
  clock : Nat
  model : Model
  /-- The boot ROM has started the firmware: the image's header was well-formed (R479). -/
  started : Bool
  ready : Bool
  faultPend : Bool
  capped : Bool
  devnum : BitVec 17
  /-- PORTMODE of ports 0 and 1 (R490). -/
  portMode : List Nat
  cmd : List Dword
  cmdErr : Nat
  cmdResult : Nat
  /-- The eight dwords of the command that runs (R467, R468); CMDSTAT.BUSY reads 1 while there is one. -/
  running : Option (List Dword)
  /-- POLICY commands accepted before READY (R468): item and value. -/
  heldPolicy : List (Nat × Dword)
  policy : Policy
  /-- The 64 windows; an unlisted one is invalid (R473). -/
  windows : Tab Window
  /-- Namespaces registered by FLASH (R467): namespace, port, controller, LBA size. -/
  flash : List (Nat × Nat × Nat × Nat)
  irqs : List Irq
  stages : List Stage
  /-- The status of the last push from each port (R471). -/
  pushStatus : List Nat
  /-- MSI-X vectors sent, oldest first (R472). -/
  sent : List Nat
  /-- Device-wide counters 0 to 5; an unlisted one is 0 (R489). -/
  counters : Tab Nat
  /-- The last value a host read received (R464). -/
  hostRead : List Byte
  spdm : List SpdmPort
  /-- Uncorrectable marks by line (R485). -/
  marks : List Nat
  /-- Uncorrectable errors that a fill has found and that are not yet reported (R449, R485): the line and the context of the
  access, or 256 for an access of no context. -/
  found : List (Nat × Nat)
  /-- Corrected errors counted in the window (R484): site, time. -/
  errors : List (ErrSite × Nat)
  /-- Rows retired (R484): island, row. -/
  retired : List (Nat × Nat)
  /-- SRAM banks disabled (R484): core, bank. -/
  banks : List (Nat × Nat)
  /-- Under-stack bytes by physical address, as every island sees them; an unlisted byte is 0x00 (R479). -/
  mem : Tab Byte
  /-- Memory outside the package; an unlisted byte is `Config.outsideByte` (log 5). -/
  outside : Tab Byte
  /-- The element format of each line, of the last write that every island has applied; an unlisted line has 31 (R450,
  R479). -/
  efmt : Tab Nat
  /-- The tag of each line; an unlisted line has 1 (R447, R479). -/
  lineTag : Tab Nat
  /-- Lines outside the package that the caching slices hold (R474). -/
  cached : List Nat
  /-- Writes that no island has applied yet, in order of acceptance. -/
  stores : List Write
  /-- Writes that some but not every island has applied, in coherence order (R332, R340). -/
  writes : List Write
  nextWrite : Nat
  /-- Counter j of island i at 4 × i + j; an unlisted one is 0 (R340). -/
  clocks : Tab Nat
  monitors : List Monitor
  cores : Tab Core
  islands : Tab Island
  parts : Tab Part
  ctxs : Tab Ctx
  queues : Tab Queue
  grids : Tab Grid
  nextGrid : Nat
  walls : Tab Wall
  courses : Tab Course
  nextCourse : Nat
  /-- The age counter (R81). -/
  nextAge : Nat
  ops : Tab Op
  nextOp : Nat
  locks : List Lock
  skips : List Skip
  deriving DecidableEq, Repr

/-- The canonical form of the under-stack's bytes: rising addresses, and no entry that reads as an unlisted byte does. -/
def memWf (m : Tab Byte) : Bool := m.sorted && m.all fun c => c.2 != 0

/-- The canonical form of the element formats of lines: rising lines, and no entry that reads as an unlisted line does. -/
def fmtWf (m : Tab Nat) : Bool := m.sorted && m.all fun c => c.2 != 31

/-- The machine after power-on (R479): every device state is cleared, the boot ROM has started the firmware, and READY is 0.
The ordering code and the values of logs 2 and 4 are the model's. -/
def State.reset : State where
  sched := []
  steps := 0
  issuing := none
  clock := 0
  model := .kA
  started := true
  ready := false
  faultPend := false
  capped := false
  devnum := 0
  portMode := [0, 0]
  cmd := List.replicate 8 0
  cmdErr := 0
  cmdResult := 0
  running := none
  heldPolicy := []
  policy := Policy.default
  windows := []
  flash := []
  irqs := []
  stages := []
  pushStatus := [0, 0]
  sent := []
  counters := []
  hostRead := []
  spdm := [{}, {}]
  marks := []
  found := []
  errors := []
  retired := []
  banks := []
  mem := []
  outside := []
  efmt := []
  lineTag := []
  cached := []
  stores := []
  writes := []
  nextWrite := 0
  clocks := []
  monitors := []
  cores := []
  islands := []
  parts := []
  ctxs := []
  queues := []
  grids := []
  nextGrid := 0
  walls := []
  courses := []
  nextCourse := 1
  nextAge := 0
  ops := []
  nextOp := 1
  locks := []
  skips := []

end Sys2Proof.Machine
end

