-- ==== Sys2Proof/Machine/Base.lean ====
section
/-!
DEFINITION. Looking up and changing the parts of the state, and the one place where the under-stack's bytes change: a
meaning only records writes, and `State.act` retires those that every island has applied.
-/

namespace Sys2Proof.Machine

abbrev Out := Host.Outcome State Fault Refusal

/-! Parts of the state. A core, an island or a partition that is not listed is at its reset value. -/

def State.core (s : State) (n : Nat) : Core := s.cores.getD n {}
def State.island (s : State) (n : Nat) : Island := s.islands.getD n {}
def State.part (s : State) (n : Nat) : Part := s.parts.getD n {}
def State.course? (s : State) (uid : Nat) : Option Course := s.courses.get? uid
def State.wall? (s : State) (age : Nat) : Option Wall := s.walls.get? age
def State.ctx? (s : State) (n : Nat) : Option Ctx := s.ctxs.get? n
def State.queue? (s : State) (n : Nat) : Option Queue := s.queues.get? n
def State.op? (s : State) (n : Nat) : Option Op := s.ops.get? n

def State.frag? (s : State) (r : FragRef) : Option Frag :=
  match s.courses.get? r.uid with
  | some c => c.frags.get? r.serial
  | none => none

def State.setCore (s : State) (n : Nat) (c : Core) : State := { s with cores := s.cores.set n c }
def State.setIsland (s : State) (n : Nat) (i : Island) : State := { s with islands := s.islands.set n i }
def State.setPart (s : State) (n : Nat) (p : Part) : State := { s with parts := s.parts.set n p }
def State.updCore (s : State) (n : Nat) (g : Core → Core) : State := s.setCore n (g (s.core n))
def State.updIsland (s : State) (n : Nat) (g : Island → Island) : State := s.setIsland n (g (s.island n))
def State.updPart (s : State) (n : Nat) (g : Part → Part) : State := s.setPart n (g (s.part n))
def State.updCourse (s : State) (uid : Nat) (g : Course → Course) : State := { s with courses := s.courses.upd uid g }
def State.updWall (s : State) (age : Nat) (g : Wall → Wall) : State := { s with walls := s.walls.upd age g }
def State.updCtx (s : State) (n : Nat) (g : Ctx → Ctx) : State := { s with ctxs := s.ctxs.upd n g }
def State.updQueue (s : State) (n : Nat) (g : Queue → Queue) : State := { s with queues := s.queues.upd n g }
def State.updGrid (s : State) (n : Nat) (g : Grid → Grid) : State := { s with grids := s.grids.upd n g }
def State.updOp (s : State) (n : Nat) (g : Op → Op) : State := { s with ops := s.ops.upd n g }

/-- Changing one fragment of a course. -/
def Course.updFrag (c : Course) (serial : Nat) (g : Frag → Frag) : Course := { c with frags := c.frags.upd serial g }

def State.updFrag (s : State) (r : FragRef) (g : Frag → Frag) : State := s.updCourse r.uid fun c => c.updFrag r.serial g

/-- The lanes that the fragment's next execution is for: all of them, but after a degraded stall the lanes that were
pending (R90). -/
def Frag.active (f : Frag) : Dword := if f.only != 0 && f.onlyPc == f.pc then f.only else f.lanes

/-- The island of a core (R20), and the twin. -/
def islandOf (core : Nat) : Nat := core / 256 % 4
def twinOf (core : Nat) : Nat := core / 2

/-- The issuing fragment with its course and wall. -/
structure Env where
  r : FragRef
  f : Frag
  c : Course
  w : Wall
  deriving DecidableEq, Repr

/-- The issuing fragment, where the state names a live one. -/
def State.issuer? (s : State) : Option Env :=
  match s.issuing with
  | none => none
  | some r =>
    match s.courses.get? r.uid with
    | none => none
    | some c =>
      match c.frags.get? r.serial with
      | none => none
      | some f =>
        match s.walls.get? c.age with
        | none => none
        | some w => some ⟨r, f, c, w⟩

def Env.island (e : Env) : Nat := islandOf e.c.core
/-- The lanes the instruction acts on, in ascending order. -/
def Env.lanes (e : Env) : List Nat := lanesOf e.f.active
/-- The address of the instruction word. -/
def Env.pc (e : Env) : Dword := e.f.pc

/-! Locations. A physical address below 2^40 is its own location (R25); memory outside the package has the locations
2^64 × (space + 1) + address, where space is 0 or 1 for a PCIe host port, 2 or 3 for a CXL expander port and 4 + n for the
remote device n (R473). -/

def isUnder (loc : Nat) : Bool := loc < 2 ^ 40
def outLoc (space addr : Nat) : Nat := 2 ^ 64 * (space + 1) + addr % 2 ^ 64
def spaceOf (loc : Nat) : Nat := loc / 2 ^ 64 - 1

/-- The outer-strait ports of a device (R3), the island of each (R19), and the one that carries a remote device, which the spec does
not state: a free value (log 67). -/
def straitPorts : Nat := 18
def straitIsland (port : Nat) : Nat := if port < 5 then 0 else if port < 10 then 1 else if port < 14 then 2 else 3
def straitPortOf (devnum : Nat) : Nat := Config.straitPort devnum % straitPorts

/-- The island of the port that carries a space outside the package (R19): PCIe port 0 is on island 0 and port 1 on island 3. -/
def portIsland (space : Nat) : Nat :=
  if space < 4 then (if space % 2 = 1 then 3 else 0) else straitIsland (straitPortOf (space - 4))

/-- The line of a location (R30). -/
def lineOf (loc : Nat) : Nat := loc / 128

/-- Installed bytes of each island's under-stack (R24), and where its shadow region begins (R26). -/
def State.capacity (s : State) : Nat := s.model.layers * 32 * 2 ^ 30
def State.shadowBase (s : State) : Nat := s.capacity - 2 * 2 ^ 30

/-- Whether an under-stack range is installed and outside the shadow regions (R25, R26). -/
def State.usable (s : State) (pa len : Nat) : Bool :=
  pa + len ≤ 2 ^ 40 && pa % 2 ^ 38 + len ≤ s.shadowBase

/-- The island that backs an under-stack location (R25), or whose port carries a location outside the package (R19, R29). -/
def homeIsland (loc : Nat) : Nat := if isUnder loc then loc / 2 ^ 38 else portIsland (spaceOf loc)

/-! Windows (R473, R474, R490). -/

/-- Whether a window maps anything now: an entry with C = 1 on a PCIe port needs that port to run CXL (R490). -/
def State.winLive (s : State) (w : Window) : Bool :=
  w.target != 0 && !(w.c && w.target == 1 && s.portMode.getD w.port 0 != 2)

/-- The window that maps a physical address at or above 2^40: the lowest-numbered valid entry, where accesses through it are
not treated as unmapped (R473, R490). -/
def State.winOf (s : State) (pa : Nat) : Option (Nat × Window) :=
  (s.windows.find? fun p => p.2.target != 0 && p.2.base * 2 ^ 36 ≤ pa && pa < (p.2.base + p.2.size) * 2 ^ 36).filter
    fun p => s.winLive p.2

def spaceOfWin (w : Window) : Nat :=
  if w.target = 1 then w.port else if w.target = 2 then 2 + w.port else 4 + w.devnum

/-- The location of a physical address, none where the spec says that nothing lies there (R25, R26, R353, R473). -/
def State.locOf (s : State) (pa : Nat) : Option Nat :=
  if isUnder pa then (if s.usable pa 1 then some pa else none)
  else match s.winOf pa with
    | some (_, w) => some (outLoc (spaceOfWin w) (w.tbase + pa - w.base * 2 ^ 36))
    | none => none

/-- The location that an address reaches at this moment: a location is its own, and a physical address outside the package
goes through the window table, which is consulted at every access (R473). An unmapped one reaches a space of its own, which no
target has. -/
def State.place (s : State) (a : Nat) : Nat :=
  if isUnder a || 2 ^ 64 ≤ a then a
  else match s.winOf a with
    | some (_, w) => outLoc (spaceOfWin w) (w.tbase + a - w.base * 2 ^ 36)
    | none => outLoc (2 ^ 20) a

/-- Whether an address reaches something at this moment (R473). -/
def State.mapped (s : State) (a : Nat) : Bool := isUnder a || decide (2 ^ 64 ≤ a) || (s.winOf a).isSome

/-! Bytes. -/

/-- Writing one byte of the under-stack in canonical form: the value of an unlisted byte is not listed. -/
def memPut (m : Tab Byte) (a : Nat) (b : Byte) : Tab Byte := if b = 0 then m.erase a else m.set a b

/-- Retiring cells into the under-stack or into memory outside it. -/
def retireMem (m : Tab Byte) (cs : List (Nat × Byte)) : Tab Byte :=
  cs.foldl (fun m c => if isUnder c.1 then memPut m c.1 c.2 else m) m
def retireOut (m : Tab Byte) (cs : List (Nat × Byte)) : Tab Byte :=
  cs.foldl (fun m c => if isUnder c.1 then m else m.set c.1 c.2) m

/-- Applied at every island. -/
def Write.everywhere (w : Write) : Bool := w.applied == 15

/-- The element formats of lines after writes that every island has applied (R450): each line has that of the last write that
carries one; format 31 is not listed. -/
def retireFmt (m : Tab Nat) (ws : List Write) : Tab Nat :=
  ws.foldl (fun m w => match w.efmt with
    | some f => (dedup (w.cells.map fun c => lineOf c.1)).foldl (fun m l =>
        if l < 2 ^ 33 then (if f = 31 then m.erase l else m.set l f) else m) m
    | none => m) m

/-- The writes at the head of the coherence order that every island has applied become plain memory. -/
def State.settle (s t : State) : State :=
  let ws := t.writes.takeWhile Write.everywhere
  let done := ws.flatMap Write.cells
  { t with mem := retireMem s.mem done, outside := retireOut s.outside done, efmt := retireFmt s.efmt ws,
           writes := t.writes.dropWhile Write.everywhere }

/-- A meaning changes the state by `f`; the bytes of memory and the element formats of its lines
change only as its writes retire. -/
def State.act (s : State) (f : State → State) : Out := .next (s.settle (f s))

/-- The byte at a location that every island has seen. -/
def State.baseByte (s : State) (loc : Nat) : Byte :=
  if isUnder loc then s.mem.getD loc 0 else (s.outside.get? loc).getD (Config.outsideByte loc)

/-- The byte a write holds at a location; the last cell stands. -/
def Write.byteAt (w : Write) (loc : Nat) : Option Byte :=
  w.cells.foldl (fun acc c => if c.1 = loc then some c.2 else acc) none

/-- The byte at a location as island k sees it: the last applied write in coherence order (R339). -/
def State.byteAt (s : State) (k loc : Nat) : Byte :=
  s.writes.foldl (fun acc w => if w.applied.getLsbD k then (w.byteAt loc).getD acc else acc) (s.baseByte loc)

/-- The byte at a location in the last write of its coherence order (R332, R335). -/
def State.byteLatest (s : State) (loc : Nat) : Byte :=
  s.writes.foldl (fun acc w => (w.byteAt loc).getD acc) (s.baseByte loc)

/-- Successive bytes. -/
def State.bytesAt (s : State) (k loc n : Nat) : List Byte := (List.range n).map fun i => s.byteAt k (loc + i)
def State.bytesLatest (s : State) (loc n : Nat) : List Byte := (List.range n).map fun i => s.byteLatest (loc + i)

/-- A line with an uncorrectable error: one that is marked (R485), or one whose tag in the under-stack is reserved, which every
fill of it finds (R449; log 87). -/
def State.marked (s : State) (line : Nat) : Bool := s.marks.contains line || decide (8 ≤ s.lineTag.getD line 1)

/-- Lines that a write covers whole: their marks are cleared (R485), and a reserved tag is of no more account, as the home slice
holds the line until it writes it back (R449; log 87). -/
def State.renew (s : State) (whole : List Nat) : State :=
  { s with marks := s.marks.filter fun l => !whole.contains l,
           lineTag := whole.foldl (fun m l => if 8 ≤ m.getD l 1 then m.set l 0 else m) s.lineTag }

/-! Absent lines (R451, R452). -/

/-- The bytes of a run of absent codes of an element format, or none for a code that has none. -/
def absentByteOf (fmt addr : Nat) : Option Byte :=
  match Fmt.ofCode fmt with
  | none => none
  | some f =>
    match f.absent with
    | none => none
    | some code =>
      let n := f.bits / 8
      if n = 0 then some (BitVec.ofNat 8 (code * 17)) else some (BitVec.ofNat 8 (code >>> (8 * (addr % n))))

/-- What a device read through a leaf of a format returns in an absent line (R452). -/
def absentView (efmt addr : Nat) : Byte := (absentByteOf efmt addr).getD 0xFF

/-- Whether a line of 128 bytes is an absent line of its element format (R451, R452). -/
def absentLine (fmt : Nat) (bytes : List Byte) : Bool :=
  fmt ≤ 14 && (List.range 128).all fun i => absentByteOf fmt i == bytes[i]?

/-- The element format of a line after the writes of a list (R450). -/
def State.lineFmt (s : State) (ws : List Write) (loc : Nat) : Nat :=
  if isUnder loc then
    ws.foldl (fun f w => match w.efmt with
      | some g => if w.cells.any fun c => lineOf c.1 == lineOf loc then g else f
      | none => f) (s.efmt.getD (lineOf loc) 31)
  else 31

/-- The element format of a line as island k sees it, and in the last write of the coherence order. -/
def State.lineFmtAt (s : State) (k loc : Nat) : Nat := s.lineFmt (s.writes.filter fun w => w.applied.getLsbD k) loc
def State.lineFmtLatest (s : State) (loc : Nat) : Nat := s.lineFmt s.writes loc

/-- A device read of one byte by island k through a leaf of a format (R452). -/
def State.viewAt (s : State) (k efmt a : Nat) : Byte :=
  let loc := s.place a
  let fmt := s.lineFmtAt k loc
  if fmt ≤ 14 && absentLine fmt (s.bytesAt k (lineOf loc * 128) 128) then absentView efmt loc else s.byteAt k loc

/-- The same in the last write of the coherence order, for the read of an atomic. -/
def State.viewLatest (s : State) (efmt a : Nat) : Byte :=
  let loc := s.place a
  let fmt := s.lineFmtLatest loc
  if fmt ≤ 14 && absentLine fmt (s.bytesLatest (lineOf loc * 128) 128) then absentView efmt loc else s.byteLatest loc

def State.viewBytes (s : State) (k efmt loc n : Nat) : List Byte := (List.range n).map fun i => s.viewAt k efmt (loc + i)
def State.viewNat (s : State) (k efmt loc n : Nat) : Nat := leNat (s.viewBytes k efmt loc n)
def State.latestNat (s : State) (efmt loc n : Nat) : Nat :=
  leNat ((List.range n).map fun i => s.viewLatest efmt (loc + i))

/-- Consecutive locations with the bytes of a list. -/
def cellsAt (loc : Nat) (bs : List Byte) : List (Nat × Byte) := (List.range bs.length).zip bs |>.map fun p => (loc + p.1, p.2)

/-! Vector clocks (R340). -/

def State.clockOf (s : State) (i j : Nat) : Nat := s.clocks.getD (4 * i + j) 0
def State.clockRow (s : State) (i : Nat) : List Nat := (List.range 4).map fun j => s.clockOf i j
def State.setClock (s : State) (i j n : Nat) : State := { s with clocks := s.clocks.set (4 * i + j) n }

/-! Waking and monitors. -/

/-- A fragment whose wait ends becomes READY (R85, R104). A fault or a violation that a walk found is no cached translation: the
instruction translates again (R356). -/
def Frag.wake (clock : Nat) (f : Frag) : Frag := { f with state := .ready, readyTime := clock, outcomes := [] }

/-- A monitor on a line fires for the waiters of island k (R279). -/
def State.fire (s : State) (k line : Nat) : State :=
  let hit := s.monitors.filter fun m => m.line == line && m.island == k
  let t := { s with monitors := s.monitors.filter fun m => !(m.line == line && m.island == k) }
  hit.foldl (fun t m => t.updFrag m.who fun f =>
    match f.state with
    | .waiting _ .fired => f.wake s.clock
    | _ => f) t

def linesOf (cells : List (Nat × Byte)) : List Nat := dedup (cells.map fun c => lineOf c.1)

/-- Island k applies a write of the coherence order (R340). -/
def State.applyAt (s : State) (k : Nat) (w : Write) : State :=
  let ap := w.applied ||| BitVec.ofNat 4 (2 ^ k)
  let t := { s with writes := s.writes.map fun (x : Write) => if x.id == w.id then { x with applied := ap } else x }
  let t := t.setClock k w.origin (t.clockOf k w.origin + 1)
  let t := (linesOf w.cells).foldl (fun t l => t.fire k l) t
  if ap == 15 then { t with sent := t.sent ++ w.irq } else t

/-- Island k may apply a write: it has applied what the origin had applied before (R340). -/
def State.mayApply (s : State) (k : Nat) (w : Write) : Bool :=
  !w.applied.getLsbD k && (List.range 4).all fun j =>
    if j == w.origin then s.clockOf k j + 1 == w.vc.getD j 0 else w.vc.getD j 0 ≤ s.clockOf k j

/-- Every write that island k has applied is applied by the other islands too, in coherence order: what performing a write
of island k at .dev waits for (R327, R340). -/
def State.flush (s : State) (k : Nat) : State :=
  (s.writes.filter fun w => w.applied.getLsbD k).foldl (fun t w => (List.range 4).foldl (fun t j =>
    match t.writes.find? (·.id == w.id) with
    | some x => if x.applied.getLsbD j then t else t.applyAt j x
    | none => t) t) s

/-- The vectors that bound signals send for a write that has just taken its place (R472). -/
def State.irqsFor (s : State) (cells : List (Nat × Byte)) : List Nat :=
  (s.irqs.filter fun q => cells.any fun c => s.place q.loc ≤ c.1 && c.1 < s.place q.loc + 8).filterMap fun q =>
    if (BitVec.ofNat 64 (leNat (s.bytesLatest (s.place q.loc) 8))).toInt ≤ 0 then some q.vector else none

/-! Fills that find an error (R449, R454; log 87). -/

/-- The number of no context: a host, another device or the firmware acts. -/
def noCtx : Nat := 256

/-- The context for which the instruction of this moment acts. -/
def State.actingCtx (s : State) : Nat := match s.issuing with
  | some r => ((s.course? r.uid).map fun c => c.ctx).getD noCtx
  | none => noCtx

/-- The context for which a write is: its operation's or its course's, or that of the instruction of this moment. -/
def State.writerOf (s : State) (w : Write) : Nat := match s.op? w.op with
  | some o => o.ctx
  | none => if w.op = 0 then s.actingCtx else ((s.course? w.uid).map fun c => c.ctx).getD noCtx

/-- A line whose tag is reserved and in which no access has found the error yet. -/
def State.badTag (s : State) (l : Nat) : Bool :=
  8 ≤ s.lineTag.getD l 1 && !s.marks.contains l && !s.found.any fun p => p.1 == l

/-- Lines in which an access of a context finds an uncorrectable error; MEMORY_ERROR_UNCORRECTABLE is their next move. -/
def State.noteBad (s : State) (ctx : Nat) (lines : List Nat) : State :=
  { s with found := s.found ++ (dedup lines).map fun l => (l, ctx) }

/-- What an access found without naming its context is the context's. -/
def State.claim (s : State) (ctx : Nat) : State :=
  { s with found := s.found.map fun p => if p.2 = noCtx then (p.1, ctx) else p }

/-- A write merges into the home slice's copies of the lines that it names, which are filled first, but for those that it covers
whole (R449, R454). -/
def State.fill (s : State) (w : Write) : State :=
  if s.lineTag.all fun p => p.2 < 8 then s else
  s.noteBad (s.writerOf w) ((linesOf w.cells).filter fun l =>
    s.badTag l && (List.range 128).any fun i => (w.byteAt (128 * l + i)).isNone)

/-- A read for no context fills the lines that it reads. -/
def State.fillRead (s : State) (locs : List Nat) : State := s.noteBad noCtx ((locs.map lineOf).filter s.badTag)

/-- A read of a context fills the lines that it reads, or reads a marked one; no rule says what else the error does (R485). -/
def State.ctxRead (s : State) (ctx : Nat) (locs : List Nat) : State := s.noteBad ctx ((locs.map lineOf).filter s.marked)

/-- A write takes its place in the coherence order on the island from which it comes (R332, R340, R450, R454, R485). Memory outside
the package has one copy: such a write is applied everywhere at once, after every write that its island has applied before
(R340). -/
def State.originate (s : State) (w : Write) : State :=
  let k := w.origin
  let s := s.fill w
  let out := w.cells.all fun c => !isUnder c.1
  let s := if out then s.flush k else s
  let t := if out then s else s.setClock k k (s.clockOf k k + 1)
  let w := { w with applied := if out then 15 else BitVec.ofNat 4 (2 ^ k), vc := t.clockRow k }
  let lines := linesOf w.cells
  let whole := lines.filter fun l => (List.range 128).all fun i => (w.byteAt (128 * l + i)).isSome
  let t := { t.renew whole with writes := t.writes ++ [w] }
  let vs := t.irqsFor w.cells
  let t := { t with writes := t.writes.map fun (x : Write) => if x.id == w.id then { x with irq := vs } else x }
  let t := lines.foldl (fun t l => t.fire k l) t
  if out then { (lines.foldl (fun t l => (List.range 4).foldl (fun t k => t.fire k l) t) t) with sent := t.sent ++ vs } else t

/-- The cells of an access at their locations of this moment (R473). -/
def State.placed (s : State) (cells : List (Nat × Byte)) : List (Nat × Byte) := cells.map fun c => (s.place c.1, c.2)

/-- A write by an agent on island k performed at .dev at this moment. -/
def State.perform (s : State) (k : Nat) (cells : List (Nat × Byte)) (efmt : Option Nat) : State :=
  if cells.isEmpty then s else
  let t := s.flush k
  let w : Write := { id := t.nextWrite, uid := 0, op := 0, cells := s.placed cells, efmt := efmt, origin := k }
  ({ t with nextWrite := t.nextWrite + 1 }.originate w).flush k

/-- A number of n bytes performed at .dev. -/
def State.performNat (s : State) (k loc efmt n x : Nat) : State := s.perform k (cellsAt loc (natLe n x)) (some efmt)

/-- A write by a device agent that only takes its place in the coherence order now. -/
def State.write (s : State) (k : Nat) (cells : List (Nat × Byte)) (efmt : Option Nat) (uid op : Nat) : State :=
  if cells.isEmpty then s else
  { s with nextWrite := s.nextWrite + 1 }.originate
    { id := s.nextWrite, uid := uid, op := op, cells := s.placed cells, efmt := efmt, origin := k }

/-- Every write in flight is applied everywhere, in coherence order. -/
def State.flushAll (s : State) : State := (List.range 4).foldl State.flush s

/-- A device agent's indivisible change of a number, performed at .dev: every write in flight is applied first, so that the
value read is applied everywhere (R335; log 12). -/
def State.rmwNat (s : State) (k loc efmt n : Nat) (g : Nat → Nat) : State :=
  let t := s.flushAll
  t.performNat k loc efmt n (g (t.latestNat efmt loc n))

/-! Event counters. -/

/-- The counters of R488 by name. -/
inductive Ctr where
  | launchAbsentGrid | fragSplitStall | joinMismatch | stackMergeMismatch | barRearrive | sbarExcess | drainNanLost
  | mmaLatchEmpty | pinWait | xfCancel | tlbMergeFull | sidelogFull | faultqFull | preemptBlocked | kvBadId | kvMapFull
  | kvRefUnderflow | kvFreeLost | lkNoParent | lkCountSat | lkRelUnheld | lkEscSkip | lkTableFull | exEvictBlocked
  | exHintDrop | exFetchFail | exBadId | exFailed | exRelUnpinned
  deriving DecidableEq, Repr

def Ctr.num : Ctr → Nat
  | .launchAbsentGrid => 0 | .fragSplitStall => 1 | .joinMismatch => 2 | .stackMergeMismatch => 3 | .barRearrive => 4
  | .sbarExcess => 5 | .drainNanLost => 6 | .mmaLatchEmpty => 7 | .pinWait => 8 | .xfCancel => 9 | .tlbMergeFull => 10
  | .sidelogFull => 11 | .faultqFull => 12 | .preemptBlocked => 13 | .kvBadId => 14 | .kvMapFull => 15
  | .kvRefUnderflow => 16 | .kvFreeLost => 17 | .lkNoParent => 18 | .lkCountSat => 19 | .lkRelUnheld => 20
  | .lkEscSkip => 21 | .lkTableFull => 22 | .exEvictBlocked => 23 | .exHintDrop => 24 | .exFetchFail => 25
  | .exBadId => 26 | .exFailed => 27 | .exRelUnpinned => 28

/-- An event counter of a context rises by n: relaxed at.add.n64 at .dev on its word (R488), which reads it (R485). -/
def State.raiseBy (s : State) (ctx : Nat) (c : Ctr) (n : Nat) : State :=
  match s.ctx? ctx with
  | none => s
  | some x =>
    match x.countLoc with
    | none => s
    | some (loc, efmt) =>
      if n = 0 then s else
      let a := loc + 8 * c.num
      let s := s.ctxRead ctx [s.place a]
      let old := s.latestNat efmt a 8
      let new := if old = 2 ^ 64 - 1 then n else min (old + n) (2 ^ 64 - 2)
      (s.write (homeIsland (s.place a)) (cellsAt a (natLe 8 new)) (some efmt) 0 0).claim ctx

def State.raise (s : State) (ctx : Nat) (c : Ctr) : State := s.raiseBy ctx c 1

/-- A device-wide counter rises, up to 2^64 − 1 (R489). -/
def State.raiseDev (s : State) (n : Nat) : State :=
  { s with counters := s.counters.set n (min (s.counters.getD n 0 + 1) (2 ^ 64 - 1)) }

end Sys2Proof.Machine
end

