-- ==== Sys2Proof/Machine/Flags.lean ====
section
/-!
DEFINITION. Trits (R56), Kleene logic (R57) and comparisons (R58). The machine has no other flags: a compare writes a trit.
-/

namespace Sys2Proof.Machine

/-- A trit as it reads (R56). -/
inductive Trit where
  | f | t | u
  deriving DecidableEq, Repr

/-- The code of a trit; no instruction writes 0b11 (R56). -/
def Trit.bits : Trit → BitVec 2
  | .f => 0
  | .t => 1
  | .u => 2

/-- The trit that a code reads as: 0b11 reads as unknown (R56). -/
def Trit.ofBits (b : BitVec 2) : Trit :=
  match b.toNat with
  | 0 => .f
  | 1 => .t
  | _ => .u

def Trit.ofBool (b : Bool) : Trit := if b then .t else .f

/-- Kleene not, and, or, exclusive or (R57). -/
def Trit.not : Trit → Trit
  | .f => .t
  | .t => .f
  | .u => .u

def Trit.and : Trit → Trit → Trit
  | .f, _ => .f
  | _, .f => .f
  | .t, b => b
  | a, .t => a
  | _, _ => .u

def Trit.or : Trit → Trit → Trit
  | .t, _ => .t
  | _, .t => .t
  | .f, b => b
  | a, .f => a
  | _, _ => .u

def Trit.xor : Trit → Trit → Trit
  | .u, _ => .u
  | _, .u => .u
  | .f, b => b
  | a, .f => a
  | _, _ => .f

/-- The Kleene or and and of a list (R186, R241). -/
def Trit.orAll (ts : List Trit) : Trit := ts.foldl Trit.or .f
def Trit.andAll (ts : List Trit) : Trit := ts.foldl Trit.and .t

/-- A condition on an order: less, equal. -/
def condHolds : ICond → Bool → Bool → Bool
  | .eq, _, eq => eq
  | .ne, _, eq => !eq
  | .lt, lt, _ => lt
  | .le, lt, eq => lt || eq
  | .gt, lt, eq => !(lt || eq)
  | .ge, lt, _ => !lt

def condOf : Cond → ICond
  | .eq => .eq
  | .ne => .ne
  | .lt => .lt
  | .le => .le

/-- A comparison of two integers, unknown where either is absent (R58). -/
def cmpInt (c : ICond) (a b : Option Int) : Trit :=
  match a, b with
  | some x, some y => .ofBool (condHolds c (x < y) (x == y))
  | _, _ => .u

/-- A comparison of patterns as unsigned numbers; never unknown (R58). -/
def cmpNat (c : ICond) (a b : Nat) : Trit := .ofBool (condHolds c (a < b) (a == b))

/-- A comparison of two floating values: absent gives unknown, NaN false but true for ne, and the zeros are equal (R58). -/
def cmpVal (c : ICond) (a b : Val) : Trit :=
  match a, b with
  | .absent, _ => .u
  | _, .absent => .u
  | .nan, _ => .ofBool (c == .ne)
  | _, .nan => .ofBool (c == .ne)
  | a, b => .ofBool (condHolds c (a.ltNum b) (!a.ltNum b && !b.ltNum a))

end Sys2Proof.Machine
end

