-- ==== Sys2Proof/Machine/Operands.lean ====
section
/-!
DEFINITION. Reading and writing registers: the windows of R115, the value of a register that was never written (R55), the
per-fragment scalars s1 and s2 (R207), pairs (R44), packed elements (R214) and trits (R56).
-/

namespace Sys2Proof.Machine

/-- A field value of kind s, plus an offset for the second register of a pair. -/
def fieldAdd (f : Reg) (n : Nat) : Nat := f.toNat + n

/-- The bits an unwritten 32-bit register supplies to a read in a format (R55, R44). -/
def fill32 (f : Fmt) : Word :=
  if f.bits == 16 then BitVec.ofNat 32 (f.absentCode * 65537) else BitVec.ofNat 32 f.absentCode

/-! Scalars. -/

/-- The scalar register that a field value names, if it was ever written (R115, R207). -/
def Env.s? (e : Env) (fld : Nat) : Option Dword :=
  if fld = 0x41 then some e.f.s1
  else if fld = 0x42 then some e.f.s2
  else e.c.scal.get? (e.c.ws + (fld - 0x40))

/-- A scalar read in a 64-bit format (R55). -/
def Env.s (e : Env) (f : Fmt) (fld : Reg) : Dword := (e.s? fld.toNat).getD (BitVec.ofNat 64 f.absentCode)

/-- A bit-form scalar read: an unwritten register gives all ones (R55). -/
def Env.sb (e : Env) (fld : Reg) : Dword := (e.s? fld.toNat).getD (BitVec.allOnes 64)

/-- The second register of a scalar pair (R117). The model takes the register that the next field value names: where WS is not 0,
fields 0x40 and 0x42 then have s1 and s(WS + 3) as their second (R115, R207; log 81). -/
def Env.sb2 (e : Env) (fld : Reg) : Dword := (e.s? (fld.toNat + 1)).getD (BitVec.allOnes 64)

/-- Writing the scalar register that a field value names, for a fragment of the course. -/
def Course.setS (c : Course) (serial : Nat) (fld : Nat) (x : Dword) : Course :=
  if fld = 0x41 then c.updFrag serial fun f => { f with s1 := x }
  else if fld = 0x42 then c.updFrag serial fun f => { f with s2 := x }
  else { c with scal := c.scal.set (c.ws + (fld - 0x40)) x }

def State.setS (s : State) (e : Env) (fld : Reg) (x : Dword) : State :=
  s.updCourse e.r.uid fun c => c.setS e.r.serial fld.toNat x

/-! Vectors. -/

/-- The physical register that a vector field names (R115). -/
def Env.vreg (e : Env) (fld : Reg) : Nat := e.c.wv + fld.toNat

/-- A physical vector register of a lane, if it was ever written. -/
def Course.v? (c : Course) (reg lane : Nat) : Option Word := c.vec.get? (64 * reg + lane)

/-- A register read in a 32-bit or packed 16-bit format (R55). -/
def Env.v (e : Env) (f : Fmt) (fld : Reg) (lane : Nat) : Word := (e.c.v? (e.vreg fld) lane).getD (fill32 f)

/-- A bit-form read (R55). -/
def Env.vb (e : Env) (fld : Reg) (lane : Nat) : Word := (e.c.v? (e.vreg fld) lane).getD (BitVec.allOnes 32)

/-- A pair read in a 64-bit format: each register supplies its own half (R44, R55). -/
def Env.vp (e : Env) (f : Fmt) (fld : Reg) (lane : Nat) : Dword :=
  let code := BitVec.ofNat 64 f.absentCode
  let lo := (e.c.v? (e.vreg fld) lane).getD (code.extractLsb' 0 32)
  let hi := (e.c.v? (e.vreg fld + 1) lane).getD (code.extractLsb' 32 32)
  hi ++ lo

/-- A bit-form pair read. -/
def Env.vpb (e : Env) (fld : Reg) (lane : Nat) : Dword := e.vp .b64 fld lane

def Course.setV (c : Course) (reg lane : Nat) (x : Word) : Course := { c with vec := c.vec.set (64 * reg + lane) x }

def Course.setVP (c : Course) (reg lane : Nat) (x : Dword) : Course :=
  (c.setV reg lane (x.extractLsb' 0 32)).setV (reg + 1) lane (x.extractLsb' 32 32)

/-- Writing one 16-bit element: a register never written receives all ones in the other (R55). -/
def Course.setHalf (c : Course) (reg lane : Nat) (h : Bool) (x : Half) : Course :=
  let old := (c.v? reg lane).getD (BitVec.allOnes 32)
  c.setV reg lane (if h then x ++ old.extractLsb' 0 16 else old.extractLsb' 16 16 ++ x)

/-- An element of a packed register. -/
def half (w : Word) (h : Bool) : Nat := if h then w.toNat / 65536 else w.toNat % 65536

/-! Trits. -/

def Course.trit? (c : Course) (q lane : Nat) : Trit := Trit.ofBits (c.trit.getD (64 * q + lane) 2)
def Env.q (e : Env) (q lane : Nat) : Trit := e.c.trit? q lane
def Course.setQ (c : Course) (q lane : Nat) (t : Trit) : Course := { c with trit := c.trit.set (64 * q + lane) t.bits }

/-! Writing a result in each lane of the fragment; a lane without one keeps its register. -/

def Course.eachLane (c : Course) (lanes : List Nat) (g : Nat → Course → Course) : Course :=
  lanes.foldl (fun c l => g l c) c

/-- vD of each lane. -/
def State.putV (s : State) (e : Env) (d : Reg) (g : Nat → Option Word) : State :=
  s.updCourse e.r.uid fun c => c.eachLane e.lanes fun l c =>
    match g l with
    | some x => c.setV (e.vreg d) l x
    | none => c

/-- The pair vD, vD + 1 of each lane. -/
def State.putVP (s : State) (e : Env) (d : Reg) (g : Nat → Option Dword) : State :=
  s.updCourse e.r.uid fun c => c.eachLane e.lanes fun l c =>
    match g l with
    | some x => c.setVP (e.vreg d) l x
    | none => c

/-- qD of each lane. -/
def State.putQ (s : State) (e : Env) (q : Nat) (g : Nat → Trit) : State :=
  s.updCourse e.r.uid fun c => c.eachLane e.lanes fun l c => c.setQ q l (g l)

/-- The fragment goes on at the next word; an execution for pending lanes only is over (R90). -/
def Frag.goTo (f : Frag) (pc : Dword) : Frag :=
  { f with pc := pc, only := if f.onlyPc == f.pc then 0 else f.only, outcomes := [], crowd := [], diverged := none, held := false }

def State.goTo (s : State) (e : Env) (pc : Dword) : State := s.updFrag e.r fun f => f.goTo pc

/-- The instruction is complete and the fragment continues at pc + 4. -/
def State.advance (s : State) (e : Env) : State := s.goTo e (e.f.pc + 4)

end Sys2Proof.Machine
end

