-- ==== Sys2Proof/Machine/Mem.lean ====
section
/-!
DEFINITION. Addresses: page walks (R350 to R353), the core TLB and the L2 TLB (R354 to R356), page-lock pins (R357), and the
stash window of a wall (R40, R262).
-/

namespace Sys2Proof.Machine

/-! Walks. -/

/-- A leaf: the page's virtual and physical address, its size and its permissions (R352). -/
structure Leaf where
  va : Nat
  size : Nat
  pa : Nat
  w : Bool
  x : Bool
  cow : Bool
  efmt : Nat
  level : Nat
  deriving DecidableEq, Repr

/-- The end of a walk before the access is looked at (R353). -/
inductive WalkEnd where
  | absent (level : Nat)
  | violation
  /-- An entry lies in a line with an uncorrectable error (R485). -/
  | marked (line : Nat)
  | leaf (l : Leaf)
  deriving DecidableEq, Repr

/-- The end of a translation: the location through a leaf, or a code with its walk level (R353, R363). -/
inductive Xres where
  | ok (l : Leaf)
  | miss
  | fault (code level : Nat)
  | violation
  | marked (line : Nat)
  deriving DecidableEq, Repr

/-- Bits [63:57] all equal bit 56 (R350). -/
def canonical (va : Nat) : Bool := va / 2 ^ 56 % 256 == 0 || va / 2 ^ 56 % 256 == 255

/-- The lowest bit of a level's index, its bits, and the size that a leaf there maps (R351). -/
def levelShift : Nat → Nat
  | 0 => 16 | 1 => 21 | 2 => 30 | 3 => 39 | _ => 48
def levelBits : Nat → Nat
  | 0 => 5 | _ => 9

/-- The entry of a table at a level (R351 to R353), read as a device-scope read of an island (R356); `down` goes on at the
next table. A table that lies nowhere is an access violation (log 101). -/
def State.walkEntry (s : State) (k va level table : Nat) (down : Nat → WalkEnd) : WalkEnd :=
  let idx := va / 2 ^ levelShift level % 2 ^ levelBits level
  match s.locOf (table + 8 * idx) with
  | none => .violation
  | some loc =>
    if s.marked (lineOf loc) then .marked (lineOf loc) else
    let e := leNat (s.bytesAt k loc 8)
    let pa := field e 51 12 * 4096
    let size := 2 ^ levelShift level
    let efmt := field e 11 7
    if e % 2 = 0 then .absent level
    else if field e 63 52 != 0 || field e 6 5 != 0 then .violation
    else if e.testBit 1 then
      if level ≥ 3 || pa % size != 0 || (19 ≤ efmt && efmt ≤ 30) then .violation
      else if !(if isUnder pa then s.usable pa size else (s.winOf pa).isSome) then .violation
      else .leaf { va := va / size * size, size := size, pa := pa, w := e.testBit 2, x := e.testBit 3, cow := e.testBit 4,
                   efmt := efmt, level := level }
    else if level = 0 then .violation
    else down pa

/-- A walk from a level down (R351). -/
def State.walkFrom (s : State) (k va : Nat) : Nat → Nat → WalkEnd
  | 0, table => s.walkEntry k va 0 table fun _ => .violation
  | n + 1, table => s.walkEntry k va (n + 1) table fun next => s.walkFrom k va n next

/-- What an access meets at a leaf (R353). -/
def leafAccess (write fetch : Bool) (l : Leaf) : Xres :=
  if fetch && !l.x then .violation
  else if write && !l.w then (if l.cow then .fault 0x21 l.level else .violation)
  else .ok l

/-- A whole walk of a context for a virtual address (R350 to R353). -/
def State.walk (s : State) (k ctx va : Nat) (write fetch : Bool) : Xres :=
  if !canonical va then .violation else
  match s.ctx? ctx with
  | none => .violation
  | some x =>
    match s.walkFrom k va 4 x.root with
    | .absent level => .fault 0x20 level
    | .violation => .violation
    | .marked line => .marked line
    | .leaf l => leafAccess write fetch l

/-! TLBs. -/

def Tlb.leaf (t : Tlb) : Leaf :=
  { va := t.va, size := t.size, pa := t.loc, w := t.w, x := t.x, cow := false, efmt := t.efmt, level := 0 }

/-- The newest translation of a list that covers an address of a context. -/
def tlbOf (ts : List Tlb) (ctx va : Nat) : Option Tlb :=
  ts.foldl (fun m t => if t.ctx == ctx && t.va ≤ va && va < t.va + t.size then some t else m) none

def Leaf.tlb (l : Leaf) (ctx : Nat) : Tlb :=
  { ctx := ctx, va := l.va, size := l.size, loc := l.pa, w := l.w, x := l.x, efmt := l.efmt }

/-- A translation joins a TLB as its newest. -/
def tlbAdd (ts : List Tlb) (t : Tlb) : List Tlb :=
  (ts.filter fun o => !(o.ctx == t.ctx && o.va == t.va && o.size == t.size)) ++ [t]

/-- A translation that completed enters a core TLB of 512; the oldest leaves (R354; log 77). -/
def Core.tlbFill (c : Core) (ctx : Nat) (l : Leaf) : Core :=
  let ts := tlbAdd c.tlb (l.tlb ctx)
  { c with tlb := ts.drop (ts.length - 512) }

/-- Translations that completed enter the L2 TLB of an island (R355, R356; log 77). -/
def State.learn (s : State) (k ctx : Nat) (ls : List Leaf) : State :=
  s.updIsland k fun i => { i with l2 := ls.foldl (fun ts l => tlbAdd ts (l.tlb ctx)) i.l2 }

/-- What a cached translation gives for an access: nothing where it forbids it, and a violation where its page reaches nothing
at this moment (R356, R473). -/
def State.cachedXlate (s : State) (t : Option Tlb) (va : Nat) (write fetch : Bool) : Option Xres :=
  match t with
  | none => none
  | some t =>
    if (write && !t.w) || (fetch && !t.x) then none
    else if (s.locOf (t.loc + (va - t.va))).isNone then some .violation
    else some (.ok t.leaf)

/-- The translation of a 64 KiB unit for an instruction of a fragment: the core TLB, the island's L2 TLB, then an outcome that
a walk delivered to the fragment, else a miss (R354 to R356). A cached entry that forbids the access is walked again. -/
def State.lookup (s : State) (core ctx : Nat) (outs : List XOut) (unit : Nat) (write fetch : Bool) : Xres :=
  let va := unit * 65536
  if !canonical va then .violation else
  match s.cachedXlate (tlbOf (s.core core).tlb ctx va) va write fetch with
  | some x => x
  | none => match s.cachedXlate (tlbOf (s.island (islandOf core)).l2 ctx va) va write fetch with
    | some x => x
    | none => match outs.find? fun o => o.unit == unit && o.write == write && o.fetch == fetch with
      | some o => if o.code = 0x0C then .violation else .fault o.code o.level
      | none => .miss

/-- The translation of an address for an agent of an island that is not a lane: the L2 TLB, else a walk (R350, R356), which takes no
entry of the merge table (R355; log 77). -/
def State.xlate (s : State) (k ctx va : Nat) (write : Bool) : Xres :=
  if !canonical va then .violation else
  match s.cachedXlate (tlbOf (s.island k).l2 ctx va) va write false with
  | some x => x
  | none => s.walk k ctx va write false

/-- The EFMT of the leaf of a unit, none where it has no leaf (R360). -/
def State.unitEfmt (s : State) (k ctx unit : Nat) : Option Nat :=
  match s.xlate k ctx (unit * 65536) false with
  | .ok l => some l.efmt
  | _ => none

/-- The location of an address in a leaf; the window table is consulted at every access (R473). -/
def State.leafLoc (s : State) (l : Leaf) (va : Nat) : Nat := (s.locOf (l.pa + (va - l.va))).getD 0

/-! Ranges that an engine, the dispatcher or the host translates at once. -/

/-- A translated range: physical address and element format of each 64 KiB unit, the distinct pages, and their leaves. -/
structure Rng where
  units : Tab (Nat × Nat) := []
  pages : List (Nat × Nat × Nat) := []
  leaves : List Leaf := []
  deriving DecidableEq, Repr

/-- In place of a fault code, a read met a line with an uncorrectable error (R485); the address is then the line's number. -/
def eccCode : Nat := 0x100

/-- In place of a fault code, a pin found no room in the page-lock table (R357). -/
def pinCode : Nat := 0x101

/-- Why a range does not translate: the code (0x0C for a violation), the walk level, the first failing address. -/
structure XFail where
  code : Nat
  level : Nat
  va : Nat
  deriving DecidableEq, Repr

/-- The lowest failing address among translated units, with what `g` says of its failure. -/
def lowestFail (res : List (Nat × Nat × Xres)) (g : Xres → Option (Nat × Nat)) : Option XFail :=
  res.foldl (fun m p => match g p.2.2, m with
    | none, _ => m
    | some c, none => some ⟨c.1, c.2, p.2.1⟩
    | some c, some x => if p.2.1 < x.va then some ⟨c.1, c.2, p.2.1⟩ else m) none

/-- Translating listed units, each with the first address needed in it, by an agent of an island. A marked line decides over a
violation, a violation over any fault, and the lowest address of its kind is reported (R308, R359, R485). -/
def State.xlateUnits (s : State) (k ctx : Nat) (write : Bool) (us : List (Nat × Nat)) : Except XFail Rng :=
  let res := us.map fun u => (u.1, u.2, s.xlate k ctx (u.1 * 65536) write)
  let ecc := res.findSome? fun p => match p.2.2 with
    | .marked line => some (⟨eccCode, 0, line⟩ : XFail)
    | _ => none
  let viol := lowestFail res fun r => match r with
    | .violation => some (0x0C, 0)
    | _ => none
  let bad := lowestFail res fun r => match r with
    | .fault c l => some (c, l)
    | _ => none
  match ecc, viol, bad with
  | some x, _, _ => .error x
  | none, some x, _ => .error x
  | none, none, some x => .error x
  | none, none, none => .ok <| res.foldl (fun r p =>
      match p.2.2 with
      | .ok l =>
        let page := (l.va, l.size, l.pa)
        { units := r.units.set p.1 (l.pa + (p.1 * 65536 - l.va), l.efmt),
          pages := if r.pages.contains page then r.pages else r.pages ++ [page],
          leaves := if r.leaves.contains l then r.leaves else r.leaves ++ [l] }
      | _ => r) {}

/-- A walk of a context, by an agent that reports no error of it, met an uncorrectable error in a table's line (R449, R485): the
machine reports it next. -/
def State.walkError (s : State) (ctx : Nat) (x : XFail) : State := if x.code = eccCode then s.noteBad ctx [x.va] else s

/-- The 64 KiB units that a byte range touches; addresses are modulo 2^64 (R248). -/
def unitsOf (va len : Nat) : List Nat :=
  if len = 0 then [] else
  (List.range ((va % 65536 + len - 1) / 65536 + 1)).map fun i => (va / 65536 + i) % 2 ^ 48

/-- The units of a byte range, with the first address of the range in each. -/
def unitsFrom (va len : Nat) : List (Nat × Nat) :=
  (unitsOf va len).map fun u => (u, if u = va % 2 ^ 64 / 65536 then va % 2 ^ 64 else u * 65536)

def State.xlateRange (s : State) (k ctx va len : Nat) (write : Bool) : Except XFail Rng :=
  s.xlateUnits k ctx write (unitsFrom va len)

/-- Physical address and element format of an address in translated units. -/
def unitLoc (us : Tab (Nat × Nat)) (va : Nat) : Nat × Nat :=
  let p := us.getD (va % 2 ^ 64 / 65536) (0, 31)
  (p.1 + va % 65536, p.2)

/-- Bytes through translated units, as an island sees them. -/
def State.readUnits (s : State) (k : Nat) (us : Tab (Nat × Nat)) (va n : Nat) : List Byte :=
  (List.range n).map fun i => let p := unitLoc us (va + i); s.viewAt k p.2 p.1

/-- The lowest of some addresses whose physical address reaches nothing at this moment (R473). -/
def State.unmappedIn (s : State) (us : Tab (Nat × Nat)) (vas : List Nat) : Option Nat :=
  if s.windows.isEmpty && us.all (fun p => isUnder p.2.1) then none else
  (vas.filter fun va => !s.mapped (unitLoc us va).1).foldl (fun m va => match m with
    | none => some va
    | some x => some (min x va)) none

/-- Writing bytes through translated units without waiting for them, one write for each element format. -/
def State.writeUnits (s : State) (k : Nat) (us : Tab (Nat × Nat)) (cells : List (Nat × Byte)) : State :=
  let cs := cells.map fun c => (unitLoc us c.1, c.2)
  (dedup (cs.map fun c => c.1.2)).foldl (fun t f =>
    t.write k ((cs.filter fun c => c.1.2 == f).map fun c => (c.1.1, c.2)) (some f) 0 0) s

/-- Performing bytes at .dev through translated units, one write for each element format. -/
def State.performUnits (s : State) (k : Nat) (us : Tab (Nat × Nat)) (cells : List (Nat × Byte)) : State :=
  let cs := cells.map fun c => (unitLoc us c.1, c.2)
  (dedup (cs.map fun c => c.1.2)).foldl (fun t f =>
    t.perform k ((cs.filter fun c => c.1.2 == f).map fun c => (c.1.1, c.2)) (some f)) s

/-- Bytes that come through BAR4 to translated addresses: they pass through no leaf and carry no element format (R450, R478), and
those outside the package are dropped (R464; log 89). -/
def State.peerWrite (s : State) (us : Tab (Nat × Nat)) (cells : List (Nat × Byte)) : State :=
  let cs := cells.map fun c => ((unitLoc us c.1).1, c.2)
  let t := (List.range 4).foldl (fun t k => t.perform k (cs.filter fun c => isUnder c.1 && homeIsland c.1 == k) none) s
  if cs.all fun c => isUnder c.1 then t else t.raiseDev 2

/-! Page-lock pins (R357). -/

def pinCap : Nat := 16384

/-- One more pin of a page on an island, where the table has room. -/
def State.pinOne (s : State) (k ctx : Nat) (p : Nat × Nat × Nat) : Option State :=
  let i := s.island k
  match i.pins.find? fun e => e.ctx == ctx && e.vpage == p.1 && e.size == p.2.1 && e.ppage == p.2.2 with
  | some e =>
    if e.count ≥ 65535 then none else
    some (s.setIsland k { i with pins := i.pins.map fun (o : Pin) => if o == e then { o with count := o.count + 1 } else o })
  | none =>
    if i.pins.length ≥ pinCap then none else
    some (s.setIsland k { i with pins := i.pins ++ [⟨ctx, p.1, p.2.1, p.2.2, 1⟩] })

/-- Pinning every page of a list, or none of them. -/
def State.pinAll (s : State) (k ctx : Nat) (ps : List (Nat × Nat × Nat)) : Option State :=
  ps.foldl (fun t p => t.bind fun t => t.pinOne k ctx p) (some s)

/-- One pin fewer of each page; an entry whose count reaches 0 is freed. -/
def State.unpin (s : State) (k ctx : Nat) (ps : List (Nat × Nat × Nat)) : State :=
  ps.foldl (fun t p => t.updIsland k fun i =>
    { i with pins := i.pins.filterMap fun (o : Pin) =>
        if o.ctx == ctx && o.vpage == p.1 && o.size == p.2.1 && o.ppage == p.2.2 then
          (if o.count ≤ 1 then none else some { o with count := o.count - 1 })
        else some o }) s

/-- The island that holds a host command's pin of a page: the one that backs it, or island 0 outside the package (R357). -/
def pinHome (p : Nat × Nat × Nat) : Nat := if isUnder p.2.2 then homeIsland p.2.2 else 0

def State.pinHomes (s : State) (ctx : Nat) (ps : List (Nat × Nat × Nat)) : Option State :=
  ps.foldl (fun t p => t.bind fun t => t.pinOne (pinHome p) ctx p) (some s)
def State.unpinHomes (s : State) (ctx : Nat) (ps : List (Nat × Nat × Nat)) : State :=
  ps.foldl (fun t p => t.unpin (pinHome p) ctx [p]) s

/-! The stash window. -/

/-- Bytes of the window: S, or 2S on a twin (R40). -/
def Wall.window (w : Wall) : Nat := if w.twin then 2 * w.win else w.win

/-- The bound region that holds a stash offset (R261). -/
def Wall.regionOf (w : Wall) (off : Nat) : Option (Nat × Region) :=
  w.regions.find? fun p => p.2.off ≤ off && off < p.2.off + p.2.len

/-- Where a stash offset lies: in a bound region, at the global address (R262). -/
def Wall.target (w : Wall) (off : Nat) : Target :=
  match w.regionOf off with
  | some (_, r) => let p := unitLoc r.units (r.va + (off - r.off)); .mem p.1 p.2
  | none => .stash off

/-- A byte of the window as island k reads it; an unlisted byte reads 0xFF (R40). -/
def State.stashByte (s : State) (w : Wall) (k off : Nat) : Byte :=
  match w.target off with
  | .mem loc f => s.viewAt k f loc
  | .stash o => w.stash.getD o 0xFF

def State.stashBytes (s : State) (w : Wall) (k off n : Nat) : List Byte :=
  (List.range n).map fun i => s.stashByte w k (off + i)

/-- A bound region records the lines that were filled (R262). -/
def Wall.touch (w : Wall) (offs : List Nat) : Wall :=
  if w.regions.isEmpty then w else
  { w with regions := w.regions.map fun p =>
      let hit := offs.filter fun o => p.2.off ≤ o && o < p.2.off + p.2.len
      (p.1, { p.2 with filled := hit.foldl (fun a o => if a.contains (o / 128) then a else a ++ [o / 128]) p.2.filled }) }

/-- The global addresses of stash offsets in bound regions (R262): the virtual and the physical one of each. -/
def Wall.boundVas (w : Wall) (offs : List Nat) : List (Nat × Nat) :=
  offs.filterMap fun o => (w.regionOf o).map fun p =>
    let va := (p.2.va + (o - p.2.off)) % 2 ^ 64
    (va, (unitLoc p.2.units va).1)

/-- Writing bytes of the window: plain stash at once; in a bound region as a write of the global lines (R262, R346), which `put`
makes for the cells of one element format. The binding in force when the bytes move decides, also for an engine operation that
was accepted before it, of which R261 says nothing (log 85). -/
def State.stashPut (s : State) (age : Nat) (cells : List (Nat × Byte)) (put : State → List (Nat × Byte) → Nat → State) : State :=
  match s.wall? age with
  | none => s
  | some w =>
    let plain := cells.filter fun c => (w.regionOf c.1).isNone
    let bound := cells.filterMap fun c => match w.target c.1 with
      | .mem loc f => some (loc, f, c.2)
      | .stash _ => none
    let t := s.updWall age fun w =>
      { w.touch (cells.map fun c => c.1) with stash := plain.foldl (fun m c => if c.2 = 0xFF then m.erase c.1 else m.set c.1 c.2) w.stash }
    (dedup (bound.map fun c => c.2.1)).foldl (fun t f => put t ((bound.filter fun c => c.2.1 == f).map fun c => (c.1, c.2.2)) f) t

/-- Writing bytes of the window, where a write of a global line only takes its place in the coherence order. It belongs to
operation `op` of course `uid` where that counts it (R250). -/
def State.stashWrite (s : State) (age k : Nat) (cells : List (Nat × Byte)) (uid op : Nat := 0) : State :=
  s.stashPut age cells fun t cs f => t.write k cs (some f) uid op

/-- Writing bytes of the window, performed at .dev where they lie in a bound region: TLC counts a drain until it is (R276). -/
def State.stashPerform (s : State) (age k : Nat) (cells : List (Nat × Byte)) : State :=
  s.stashPut age cells fun t cs f => t.perform k cs (some f)

/-- The swizzle of a stash offset under a span code (R299). -/
def swz (o c : Nat) : Nat :=
  let m := min (2 ^ c) (2 ^ (8 - c))
  o ^^^ (((o >>> (4 + c)) % m) <<< 4)

/-- Reading and writing under a swizzle. -/
def State.stashBytesSwz (s : State) (w : Wall) (k off n c : Nat) : List Byte :=
  (List.range n).map fun i => s.stashByte w k (swz (off + i) c)

/-- The 4 KiB pages that a stash range touches. -/
def pagesOf (off len : Nat) : List Nat :=
  if len = 0 then [] else (List.range ((off % 4096 + len - 1) / 4096 + 1)).map fun i => off / 4096 + i

/-- Setting the span tags of pages; tag 0 is not listed (R300). -/
def Wall.setTags (w : Wall) (pages : List Nat) (tag : Nat) : Wall :=
  { w with tags := pages.foldl (fun m p => if tag = 0 then m.erase p else m.set p tag) w.tags }

end Sys2Proof.Machine
end

