-- ==== Sys2Proof/Machine/Frags.lean ====
section
/-!
DEFINITION. Fragments: identities (R36, R86, R173), entries of the fragment table (R99, R100), splitting (R87), merging (R95
to R97), barriers (R103, R272), parking and the degraded stall (R89, R90), release (R93), fault records (R361 to R364).
-/

namespace Sys2Proof.Machine

/-- The mask of all lanes of a width. -/
def fullMask (width : Nat) : Dword := BitVec.ofNat 64 (2 ^ width - 1)

/-- The lowest lane of a mask, 64 where it is empty. -/
def lowestLane (m : Dword) : Nat := ((List.range 64).find? fun i => m.getLsbD i).getD 64

def popMask (m : Dword) : Nat := (lanesOf m).length

/-! Identities. -/

/-- The FID of a fragment (R173). -/
def fidOf (c : Course) (serial : Nat) : Dword :=
  BitVec.ofNat 64 (c.core * 2 ^ 38 + c.slot * 2 ^ 32 + c.gen % 2 ^ 16 * 2 ^ 16 + serial % 2 ^ 16)

/-- An EID (R361): kind 0 side-log entry, 1 kv.gather, 2 xf.run. -/
def eidOf (kind core slot seq : Nat) : Nat := 2 ^ 63 + kind * 2 ^ 48 + core * 2 ^ 38 + slot * 2 ^ 32 + seq % 2 ^ 32

/-- The live fragment of a context that a FID names (R173). -/
def State.findFid (s : State) (ctx : Nat) (fid : Nat) : Option FragRef :=
  if fid / 2 ^ 48 != 0 || field fid 37 32 ≥ 48 then none else
  s.courses.findSome? fun p =>
    let c := p.2
    if c.ctx == ctx && c.core == field fid 47 38 && c.slot == field fid 37 32 && c.gen % 2 ^ 16 == field fid 31 16
        && (c.frags.get? (field fid 15 0)).isSome
    then some ⟨p.1, field fid 15 0⟩ else none

/-- The serial of a new fragment (R86). -/
def Course.nextSerial (c : Course) : Nat :=
  let cand := (List.range (c.frags.length + 1)).map fun i => (c.lastSerial + 1 + i) % 65536
  (cand.find? fun n => (c.frags.get? n).isNone).getD 0

/-- A new fragment of a course. -/
def Course.addFrag (c : Course) (f : Frag) : Course :=
  let n := c.nextSerial
  { c with frags := c.frags.set n f, lastSerial := n }

/-- The fragment of a course that holds a lane. -/
def Course.holder (c : Course) (lane : Nat) : Option (Nat × Frag) := c.frags.find? fun p => p.2.lanes.getLsbD lane

/-- The live fragment of a course that holds the lowest lane outside a mask (R370). -/
def Course.outsider (c : Course) (lanes : Dword) : Option Nat :=
  (c.holder (lowestLane (fullMask c.width &&& ~~~lanes &&& ~~~c.exited))).map fun p => p.1

/-- The courses of a wall. -/
def State.coursesOf (s : State) (age : Nat) : List (Nat × Course) := s.courses.filter fun p => p.2.age == age

/-- Changing every fragment of a wall. -/
def State.mapFrags (s : State) (age : Nat) (g : Frag → Frag) : State :=
  { s with courses := s.courses.mapV fun c => if c.age == age then { c with frags := c.frags.mapV g } else c }

/-! The fragment table. -/

/-- Shared entries of a core in use (R99). -/
def State.sharedUsed (s : State) (core : Nat) : Nat :=
  s.courses.foldl (fun n p =>
    if p.2.resident && p.2.core == core then n + (p.2.frags.filter fun q => !q.2.spilled && !q.2.reserved).length else n) 0

def State.sharedFree (s : State) (core : Nat) : Nat := 208 - s.sharedUsed core

/-- SPILLED fragments of a core whose underlying state is READY, which free shared entries go to first (R101). -/
def State.refillClaims (s : State) (core : Nat) : Nat :=
  s.courses.foldl (fun n p =>
    if p.2.resident && p.2.core == core then n + (p.2.frags.filter fun q => q.2.spilled && q.2.state == .ready).length else n) 0

/-- Shared entries that a new fragment can have (R99, R101). -/
def State.entryRoom (s : State) (core : Nat) : Nat := s.sharedFree core - s.refillClaims core

/-- Spilled descriptors of a course (R100). -/
def Course.spilledCount (c : Course) : Nat := (c.frags.filter fun p => p.2.spilled).length

/-- The lowest place of the save area that holds no descriptor (R100; log 68). -/
def Course.freeSave (c : Course) : Nat :=
  ((List.range 64).find? fun n => !c.frags.any fun p => p.2.spilled && p.2.saveSlot == n).getD 0

/-- A 64-byte descriptor is written to the save area of its course slot (R100, R470). What its bytes are is not stated: they
are free values (log 68). -/
def State.saveDesc (s : State) (c : Course) (slot : Nat) : State :=
  match s.ctx? c.ctx with
  | none => s
  | some x =>
    let va := (x.spill + 768 * 2 ^ 30 + (48 * c.core + c.slot) * 4096 + 64 * slot) % 2 ^ 64
    match s.xlateRange (islandOf c.core) c.ctx va 64 true with
    | .ok g => s.writeUnits (islandOf c.core) g.units
        ((List.range 64).map fun i => (va + i, Config.freeByte s.steps (64 * slot + i)))
    | .error x => s.walkError c.ctx x

/-! Splitting (R87, R100, R175, R207). -/

/-- Groups of lanes by destination, in the given order of destinations; a destination that no lane takes has no group. -/
def groupBy' (order : List Dword) (dest : Nat → Dword) (lanes : List Nat) : List (Dword × Dword) :=
  (dedup order).filterMap fun d =>
    let m := maskOf (lanes.filter fun l => dest l == d)
    if m = 0 then none else some (d, m)

/-- A fragment left with some of its lanes, and with what is recorded for them. -/
def Frag.restrict (f : Frag) (lanes : Dword) : Frag :=
  { f with lanes := lanes, granted := f.granted &&& lanes, denied := f.denied &&& lanes, pinned := f.pinned.filter fun p => lanes.getLsbD p.1 }

/-- A split of the fragment: the first group keeps it, each other becomes a new READY fragment; none where the save area
would need a 65th descriptor (R87, R100). -/
def State.split (s : State) (e : Env) (gs : List (Dword × Dword)) : Option State :=
  match gs with
  | [] => some s
  | (pc, m) :: rest =>
    let free := s.entryRoom e.c.core
    if e.c.spilledCount + (rest.length - free) > 64 then none else
    let t := s.updCourse e.r.uid fun c =>
      let c := c.updFrag e.r.serial fun f => (f.goTo pc).restrict m
      ((List.range rest.length).zip rest).foldl (fun (c : Course) p =>
        let out := decide (free ≤ p.1)
        { c with spills := if out then c.spills + 1 else c.spills }.addFrag { (e.f.goTo p.2.1).restrict p.2.2 with
          state := .ready, reserved := false, spilled := out, spillNo := c.spills, saveSlot := c.freeSave,
          readyTime := s.clock }) c
    some <| if rest.length ≤ free then t else match t.course? e.r.uid with
      | some c => (c.frags.filter fun p => p.2.spilled && e.c.spills ≤ p.2.spillNo).foldl (fun t p => t.saveDesc c p.2.saveSlot) t
      | none => t

/-! Merging. -/

/-- Merging fragments of one course into the one that holds the lowest lane (R95 to R97, R175, R207). It keeps an entry that
one of them holds, and is SPILLED only where all of them are (R99). -/
def State.merge (s : State) (uid : Nat) (serials : List Nat) (g : Frag → Frag) : State :=
  match s.course? uid with
  | none => s
  | some c =>
    let fs := serials.filterMap fun n => (c.frags.get? n).map fun f => (n, f)
    match sortBy (fun a b => lowestLane a.2.lanes < lowestLane b.2.lanes) fs with
    | [] => s
    | (n, f) :: rest =>
      let merged : Frag := { f with
        lanes := rest.foldl (fun m p => m ||| p.2.lanes) f.lanes
        spilled := f.spilled && rest.all fun p => p.2.spilled
        reserved := f.reserved || rest.any fun p => p.2.reserved
        denied := rest.foldl (fun m p => m ||| p.2.denied) f.denied
        granted := rest.foldl (fun m p => m ||| p.2.granted) f.granted
        pinned := rest.foldl (fun l p => l ++ p.2.pinned) f.pinned
        mark := rest.foldl (fun m p => m <|> p.2.mark) f.mark
        diverged := rest.foldl (fun m p => m <|> p.2.diverged) f.diverged
        outcomes := []
        totV := none }
      let t := s.updCourse uid fun c =>
        { c with frags := rest.foldl (fun fr p => fr.erase p.1) (c.frags.set n (g merged)) }
      if rest.any fun p => p.2.s1 != f.s1 || p.2.s2 != f.s2 then t.raise c.ctx .stackMergeMismatch else t

/-- The watchdog of a wall is set to 0 (R109). -/
def State.kick (s : State) (age : Nat) : State := s.updWall age fun w => { w with watchdog := 0 }

/-- The joins of a course that are complete merge their fragments and pop the entry (R95). A spilled fragment whose underlying
state waits at the join is there, as R85 says; R95 says that spilled lanes hold the join back (log 80). -/
def State.checkJoins (s : State) (uid : Nat) : State :=
  match s.course? uid with
  | none => s
  | some c =>
    let waiting := c.frags.filter fun p => p.2.state == .waiting .join .joined
    let tops := dedup (waiting.filterMap fun p => p.2.joins.head?)
    tops.foldl (fun s top =>
      let here := waiting.filter fun p => p.2.joins.head? == some top
      let lanes := here.foldl (fun m p => m ||| p.2.lanes) c.exited
      if top.2 &&& lanes == top.2 then
        (s.merge uid (here.map fun p => p.1) fun f => { (f.goTo (f.pc + 4)).wake s.clock with joins := f.joins.drop 1 }).kick c.age
      else s) s

/-- The arrived lanes of a course of a wall at a barrier. -/
def Wall.arrivedAt (w : Wall) (b course : Nat) : Dword := w.arrived.getD (64 * b + course) 0

/-- A wall barrier is complete when every lane of every course has arrived or exited; a drained course has exited (R103). -/
def State.barrierFull (s : State) (age b : Nat) (w : Wall) : Bool :=
  (s.coursesOf age).all fun p => (w.arrivedAt b p.2.index ||| p.2.exited) &&& fullMask p.2.width == fullMask p.2.width

/-- Clearing the arrivals at a barrier. -/
def Wall.clearArrived (w : Wall) (b : Nat) : Wall := { w with arrived := w.arrived.filter fun p => p.1 / 64 != b }

/-- Completing a wall barrier, if it is complete: the records are cleared, the waiting fragments of each course go on, and
those with equal PCs and join stacks merge (R97, R272). The lanes of a spilled fragment whose underlying state waits at the
barrier have arrived, as R85 says; R103 says that spilled lanes have not (log 80). -/
def State.checkBarrier (s : State) (age b : Nat) : State :=
  match s.wall? age with
  | none => s
  | some w =>
    if (w.arrived.all fun p => p.1 / 64 != b) || !s.barrierFull age b w then s else
    let t := (s.updWall age fun w => w.clearArrived b).kick age
    (s.coursesOf age).foldl (fun t p =>
      let here := p.2.frags.filter fun q => match q.2.state with
        | .waiting _ (.wallBarrier b') => b' == b
        | _ => false
      let keys := dedup (here.map fun q => (q.2.pc, q.2.joins))
      keys.foldl (fun t key =>
        t.merge p.1 ((here.filter fun q => (q.2.pc, q.2.joins) == key).map fun q => q.1) fun f =>
          (f.goTo (f.pc + 4)).wake s.clock) t) t

def State.checkBarriers (s : State) (age : Nat) : State := (List.range 16).foldl (fun t b => t.checkBarrier age b) s

/-! Fault records. -/

/-- A fault record joins the core's records that are not written yet (R364). -/
def State.formRecord (s : State) (core : Nat) (r : FaultRec) : State :=
  s.updCore core fun c => { c with held := c.held ++ [r] }

/-- A core that holds 64 unwritten records holds back what would form one, and one that holds any holds back what would take it
past 64 (R364; log 36). -/
def State.heldFull (s : State) (core n : Nat) : Bool :=
  let held := (s.core core).held.length
  decide (64 ≤ held) || (decide (0 < held) && decide (64 < held + n))

/-- What a fault record says beyond its fragment (R363). -/
structure RecInfo where
  unit : Nat
  vaddr : Nat
  aux : Nat
  write : Bool
  origin : Nat
  word : Nat
  deriving DecidableEq, Repr

/-- A group of lanes that parks together (R89). -/
structure PGroup where
  lanes : Dword
  code : Nat
  on : ParkOn
  info : Option RecInfo
  deriving DecidableEq, Repr

def PGroup.outRecs (g : PGroup) : List OutRec := match g.info with
  | some i => [⟨i.unit, g.lanes⟩]
  | none => []

/-- Parking groups of the fragment's lanes (R88 to R90). Lanes that do not park go on at the next word. A group that finds
no shared entry stays in the fragment, which enters the degraded stall; where every lane parks, the first group then stays
with it (log 8). The code of a degraded stall is that of the group that keeps the identity, else of the first group that stays (log
103). -/
def State.park (s : State) (e : Env) (gs0 : List PGroup) : State :=
  let gs := sortBy (fun (a b : PGroup) => lowestLane a.lanes < lowestLane b.lanes) gs0
  let all := gs.foldl (fun m g => m ||| g.lanes) 0#64
  let rest := e.f.lanes &&& ~~~all
  let own := if rest == 0 then gs.take 1 else []
  let news := if rest == 0 then gs.drop 1 else gs
  let free := s.entryRoom e.c.core
  let split := news.take free
  let stay := news.drop free
  let base : Frag := { e.f with outcomes := [], crowd := [], held := false, only := 0, pending := 0 }
  let parkedAs := fun (g : PGroup) => { base.restrict g.lanes with state := .parked g.code g.on, records := g.outRecs }
  let t := s.updCourse e.r.uid fun c =>
    let c := c.updFrag e.r.serial fun f =>
      match stay, own with
      | [], [] => (f.goTo (f.pc + 4)).restrict rest
      | [], g :: _ => { parkedAs g with reserved := f.reserved, spilled := f.spilled }
      | h :: _, _ =>
        let held := own ++ stay
        let mask := held.foldl (fun m g => m ||| g.lanes) 0#64
        let first := own.head?.getD h
        { base.restrict (rest ||| mask) with
          state := .parked first.code first.on, pending := mask, only := mask, onlyPc := f.pc,
          records := held.flatMap PGroup.outRecs }
    split.foldl (fun c g => c.addFrag { parkedAs g with reserved := false, spilled := false }) c
  let t := if stay.isEmpty then t else t.raise e.c.ctx .fragSplitStall
  gs.foldl (fun t g =>
    match g.info, t.course? e.r.uid with
    | some i, some c =>
      let serial := ((c.holder (lowestLane g.lanes)).map fun p => p.1).getD e.r.serial
      t.formRecord e.c.core
        { ctx := e.c.ctx, aux := i.aux, pc := e.f.pc.toNat, lanes := g.lanes, word := i.word, write := i.write,
          origin := i.origin, code := g.code, vaddr := i.vaddr, id := (fidOf c serial).toNat, time := s.clock }
    | _, _ => t) t

/-- Clearing lanes from the pending mask of a degraded stall; with none left the fragment is READY (R90). -/
def Frag.clearPending (f : Frag) (clock : Nat) (lanes : Dword) : Frag :=
  let p := f.pending &&& ~~~lanes
  if p == 0 then { f.wake clock with pending := 0, records := [] }
  else { f with pending := p, records := f.records.filter fun r => r.lanes &&& lanes == 0 }

/-- Releasing a fragment parked with a code of the releasing agent; any other id changes nothing (R93). -/
def State.release (s : State) (r : FragRef) (mine : Nat → Bool) : State :=
  s.updFrag r fun f =>
    match f.state with
    | .parked code _ => if mine code then { f.wake s.clock with pending := 0, records := [] } else f
    | _ => f

/-- Codes of the fault service (R92). -/
def isService (code : Nat) : Bool := 0x20 ≤ code && code ≤ 0x24

/-! Outstanding counters (R250) and the engines' numbers (R361). -/

def State.addLdc (s : State) (uid : Nat) (up : Bool) : State :=
  s.updCourse uid fun c => { c with ldc := if up then c.ldc + 1 else c.ldc - 1 }
def State.addStc (s : State) (uid : Nat) (up : Bool) : State :=
  s.updCourse uid fun c => { c with stc := if up then c.stc + 1 else c.stc - 1 }
def State.addTlc (s : State) (uid : Nat) (up : Bool) : State :=
  s.updCourse uid fun c => { c with tlc := if up then c.tlc + 1 else c.tlc - 1 }

/-- A new operation. -/
def State.addOp (s : State) (o : Op) : State := { s with ops := s.ops.set s.nextOp o, nextOp := s.nextOp + 1 }

def State.dropOp (s : State) (id : Nat) : State := { s with ops := s.ops.erase id }

/-- The next SEQ of a core. -/
def State.takeSeq (s : State) (core : Nat) : Nat × State :=
  let n := (s.core core).seq
  (n, s.updCore core fun c => { c with seq := (n + 1) % 2 ^ 32 })

end Sys2Proof.Machine
end

