-- ==== Sys2Proof/Machine/Locks.lean ====
section
/-!
DEFINITION. The Mortar lock manager (R401 to R418): modes, holdings, decisions, queues, wounds, escalation and folding. The
instructions that use it stand in Lock.lean.
-/

namespace Sys2Proof.Machine

/-- The join of two modes (R403). -/
def joinMode : LMode → LMode → LMode
  | .x, _ | _, .x => .x
  | .i, .i => .i
  | .i, _ | _, .i => .x
  | .is, m => m
  | m, .is => m
  | .s, .s => .s
  | .ix, .ix => .ix
  | _, _ => .six

/-- The code of a mode (R403). -/
def modeCode : LMode → Nat
  | .is => 0 | .ix => 1 | .s => 2 | .six => 3 | .i => 4 | .x => 5

def allModes : List LMode := [.is, .ix, .s, .six, .i, .x]

/-- E covers m (R418). -/
def covers (e m : LMode) : Bool := joinMode e m == e

/-- Compatible under the loaded matrix (R404). -/
def State.compat (s : State) (a b : LMode) : Bool := s.policy.matrix.getLsbD (6 * modeCode a + modeCode b)

/-- The parent's effective mode allows a request (R406). -/
def parentAllows (m : LMode) (parent : Option LMode) : Bool :=
  match parent with
  | none => false
  | some p =>
    match m with
    | .is | .s => p != .i
    | .ix | .six | .x => p == .ix || p == .six || p == .x
    | .i => p == .ix || p == .six || p == .i || p == .x

/-- The part of a name that a level uses (R401). -/
def canonName (lvl : Lvl) (name : Nat) : Nat :=
  match lvl with
  | .tensor => name / 2 ^ 40 * 2 ^ 40
  | .tile => name / 2 ^ 16 * 2 ^ 16
  | .line => name

/-- The parent lock (R402). -/
def parentOf (lvl : Lvl) (name : Nat) : Option (Lvl × Nat) :=
  match lvl with
  | .tensor => none
  | .tile => some (.tensor, canonName .tensor name)
  | .line => some (.tile, canonName .tile name)

/-- The island of a lock (R402). -/
def lockIsland (name : Nat) : Nat := name / 2 ^ 40 % 4

/-- The effective mode of a holding (R403). -/
def Hold.eff (h : Hold) : Option LMode :=
  ((allModes.zip h.counts).filter fun p => p.2 != 0).foldl (fun e p => match e with
    | none => some p.1
    | some m => some (joinMode m p.1)) none

def State.lock? (s : State) (lvl : Lvl) (name : Nat) : Option Lock := s.locks.find? fun k => k.lvl == lvl && k.name == name

/-- Changing a lock, which exists only while it is held or waited for. -/
def State.updLock (s : State) (lvl : Lvl) (name : Nat) (g : Lock → Lock) : State :=
  let old := (s.lock? lvl name).getD { lvl := lvl, name := name }
  let new := g old
  let rest := s.locks.filter fun k => !(k.lvl == lvl && k.name == name)
  { s with locks := if new.holds.isEmpty && new.queue.isEmpty then rest else rest ++ [new] }

def Lock.hold? (k : Lock) (age : Nat) : Option Hold := k.holds.find? fun h => h.age == age
def Lock.eff (k : Lock) (age : Nat) : Option LMode := (k.hold? age).bind Hold.eff

def State.effOn (s : State) (age : Nat) (lvl : Lvl) (name : Nat) : Option LMode :=
  (s.lock? lvl name).bind fun k => k.eff age

/-- A mode is compatible with every other wall that holds the lock (R409). -/
def State.okWith (s : State) (k : Lock) (age : Nat) (m : LMode) : Bool :=
  k.holds.all fun h => h.age == age || match h.eff with
    | some e => s.compat m e
    | none => true

/-- Entries of an island's Mortar in use (R412). -/
def State.lockEntries (s : State) (island : Nat) : Nat :=
  s.locks.foldl (fun n k => if lockIsland k.name == island
    then n + (dedup (k.holds.map (·.age) ++ k.queue.map (·.age))).length else n) 0

def mortarCap : Nat := 65536

def joinOpt (e : Option LMode) (m : LMode) : LMode := match e with
  | none => m
  | some x => joinMode x m

/-- Changing a wall's hold counts on a lock; a holding without counts is gone, and a folded mode without a count takes its
folded count with it (R407, R418). -/
def State.updHold (s : State) (age : Nat) (lvl : Lvl) (name : Nat) (g : Hold → Hold) : State :=
  s.updLock lvl name fun k =>
    let new := g ((k.hold? age).getD { age := age })
    let rest := k.holds.filter fun h => h.age != age
    let new := { new with folds := new.folds.filter fun p => new.counts.getD (modeCode p.1) 0 != 0 }
    { k with holds := if new.counts.all (· == 0) then rest else rest ++ [new] }

/-- A grant raises the count of its mode (R407). -/
def State.raiseHold (s : State) (age : Nat) (lvl : Lvl) (name : Nat) (m : LMode) : State :=
  s.updHold age lvl name fun h =>
    { h with counts := (List.range 6).map fun i => h.counts.getD i 0 + (if i == modeCode m then 1 else 0) }

/-- A wall's count of a mode on a lock stands at 65,535 (R407). -/
def State.holdFull (s : State) (age : Nat) (lvl : Lvl) (name : Nat) (m : LMode) : Bool :=
  match (s.lock? lvl name).bind fun k => k.hold? age with
  | some h => decide (65535 ≤ h.counts.getD (modeCode m) 0)
  | none => false

/-- A folded count by mode (R418). -/
def Hold.addFold (h : Hold) (e : LMode) (n : Nat) : Hold :=
  { h with folds := if h.folds.any fun p => p.1 == e then h.folds.map fun p => if p.1 == e then (e, p.2 + n) else p
      else h.folds ++ [(e, n)] }

/-- One less in a folded count, with no effect at 0 (R418). -/
def Hold.dropFold (h : Hold) (e : LMode) : Hold := { h with folds := h.folds.map fun p => if p.1 == e then (e, p.2 - 1) else p }

/-- All folded counts of a holding. -/
def Hold.folded (h : Hold) : Nat := h.folds.foldl (fun n p => n + p.2) 0

/-- Work that follows a change of the locks. -/
inductive MTask where
  | scan (lvl : Lvl) (name : Nat)
  | escalate (age : Nat) (tile : Nat)
  | overflow (island : Nat)
  deriving DecidableEq, Repr

/-- Locks of a wall below a lock that a fold releases: under a tile its line locks, under a tensor its tile locks and the line
locks under those (R418). -/
def State.locksUnder (s : State) (age : Nat) (lvl : Lvl) (name : Nat) : List Lock :=
  s.locks.filter fun k => (k.hold? age).isSome && canonName lvl k.name == name &&
    (match lvl, k.lvl with
      | .tensor, .tile | .tile, .line => true
      | .tensor, .line => ((s.lock? .tile (canonName .tile k.name)).bind fun t => t.hold? age).isSome
      | _, _ => false)

/-- Folding every lock of the wall below a lock into it, in mode E (R418, R424). -/
def State.fold (s : State) (age : Nat) (lvl : Lvl) (name : Nat) (e : LMode) : State × List MTask :=
  let under := s.locksUnder age lvl name
  let total := under.foldl (fun n k => match k.hold? age with
    | some h => n + h.counts.foldl (· + ·) 0 + h.folded
    | none => n) 0
  let t := under.foldl (fun t k => t.updLock k.lvl k.name fun k => { k with holds := k.holds.filter fun h => h.age != age }) s
  let t := t.updHold age lvl name fun h => h.addFold e total
  let t := { t with skips := t.skips.filter fun x => !(x.age == age && canonName lvl x.tile == name) }
  (t, under.map (fun k => .scan k.lvl k.name) ++ [.overflow (lockIsland name)])

/-- Line locks of a wall under a tile (R417). -/
def State.lineCount (s : State) (age tile : Nat) : Nat :=
  (s.locks.filter fun k => k.lvl == .line && canonName .tile k.name == tile && (k.hold? age).isSome).length

/-- The mode of an automatic escalation: the join of the wall's line modes, with IS as S and IX and SIX as X (R417). -/
def State.escMode (s : State) (age tile : Nat) : Option LMode :=
  (s.locks.filter fun k => k.lvl == .line && canonName .tile k.name == tile).foldl (fun e k =>
    match k.eff age with
    | none => e
    | some m => some (joinOpt e (match m with
        | .is => .s
        | .ix | .six => .x
        | m => m))) none

/-- An automatic escalation, where the count has passed the threshold (R417). -/
def State.tryEscalate (s : State) (ctx age tile : Nat) : State × List MTask :=
  let n := s.lineCount age tile
  let bound := match s.skips.find? fun x => x.age == age && x.tile == tile with
    | some x => x.count + s.policy.escalation - 1
    | none => s.policy.escalation
  if n ≤ bound then (s, []) else
  let k := (s.lock? .tile tile).getD { lvl := .tile, name := tile }
  match s.escMode age tile with
  | some e =>
    let eff := k.eff age
    let m := joinOpt eff e
    if eff.isSome && (eff == some m || s.okWith k age m) && !s.holdFull age .tile tile e then (s.raiseHold age .tile tile e).fold age .tile tile e
    else
      let rest := s.skips.filter fun x => !(x.age == age && x.tile == tile)
      (State.raise { s with skips := rest ++ [⟨age, tile, n⟩] } ctx .lkEscSkip, [])
  | none => (s, [])

/-- A grant: the count rises, an lk.esc folds, a line lock that the wall did not hold may escalate (R407, R417, R424). A conversion
to a mode that the wall holds already adds one to its count (log 94). -/
def State.grantLock (s : State) (age : Nat) (lvl : Lvl) (name : Nat) (m : LMode) (esc : Bool) : State × List MTask :=
  let t := s.raiseHold age lvl name m
  if esc then t.fold age lvl name m
  else if lvl == .line && (s.effOn age lvl name).isNone then (t, [.escalate age (canonName .tile name)])
  else (t, [])

/-- Recording a grant against the lane's parked fragment, which goes on once every lane is granted (R410, R411). -/
def State.recordGrant (s : State) (q : Req) : State :=
  match s.course? q.uid with
  | none => s
  | some c =>
    match c.holder q.lane with
    | none => s
    | some (n, _) =>
      s.updFrag ⟨q.uid, n⟩ fun f =>
        let bit := 1#64 <<< q.lane
        let f := { f with granted := f.granted ||| bit }
        match f.state with
        | .parked 0x30 _ =>
          if f.pending != 0 then f.clearPending s.clock bit
          else if (f.granted ||| f.denied) &&& f.lanes == f.lanes then f.wake s.clock
          else f
        | _ => f

/-- Recording that a queued request of a parked lane met a full count: the lane receives FALSE when it goes on (R407). -/
def State.recordDenied (s : State) (q : Req) : State :=
  match s.course? q.uid with
  | none => s
  | some c =>
    match c.holder q.lane with
    | none => s
    | some (n, _) =>
      s.updFrag ⟨q.uid, n⟩ fun f =>
        let bit := 1#64 <<< q.lane
        let f := { f with denied := f.denied ||| bit }
        match f.state with
        | .parked 0x30 _ =>
          if f.pending != 0 then f.clearPending s.clock bit
          else if (f.granted ||| f.denied) &&& f.lanes == f.lanes then f.wake s.clock
          else f
        | _ => f

/-- The place of a request in a queue: conversions first, each kind in age order (R409). -/
def reqBefore (a b : Req) : Bool := if a.conv == b.conv then a.age < b.age else a.conv

/-- Scanning a queue from its head (R410); the number bounds the grants. -/
def State.scanLock (s : State) (lvl : Lvl) (name : Nat) : Nat → State × List MTask
  | 0 => (s, [])
  | n + 1 =>
    match s.lock? lvl name with
    | none => (s, [])
    | some k =>
      match k.queue with
      | [] => (s, [])
      | q :: rest =>
        let eff := k.eff q.age
        let m := joinOpt eff q.mode
        if eff == some m || s.okWith k q.age m then
          let t := s.updLock lvl name fun k => { k with queue := rest }
          if t.holdFull q.age lvl name q.mode then
            let ctx := ((t.wall? q.age).map (·.ctx)).getD 0
            let (t, us) := ((t.raise ctx .lkCountSat).recordDenied q).scanLock lvl name n
            (t, .overflow (lockIsland name) :: us)
          else
          let (t, ts) := t.grantLock q.age lvl name q.mode q.esc
          let (t, us) := (t.recordGrant q).scanLock lvl name n
          (t, ts ++ us)
        else (s, [])

/-- What Mortar answers for one lane (R409, R421). -/
inductive MAns where
  | granted | refused | queued
  deriving DecidableEq, Repr

/-- Deciding a request that has or can take an entry (R409, R412); without one it is refused or waits on the overflow list. -/
def State.decideLock (s : State) (ctx : Nat) (lvl : Lvl) (name : Nat) (tryOnly : Bool) (q : Req) : State × MAns × List MTask :=
  let k := (s.lock? lvl name).getD { lvl := lvl, name := name }
  let eff := k.eff q.age
  let entry := eff.isSome || k.queue.any fun r => r.age == q.age
  let island := lockIsland name
  if !entry && s.lockEntries island ≥ mortarCap then
    let t := s.raise ctx .lkTableFull
    if tryOnly then (t, .refused, [])
    else (t.updIsland island fun i => { i with overflow := insertBy (fun a b => a.req.age < b.req.age) ⟨lvl, name, q⟩ i.overflow }, .queued, [])
  else
    let m := joinOpt eff q.mode
    let free := s.okWith k q.age m
    let now := eff == some m || (eff.isSome && free) || (eff.isNone && free && k.queue.all fun r => q.age < r.age)
    if now then
      if s.holdFull q.age lvl name q.mode then (s.raise ctx .lkCountSat, .refused, [])
      else let (t, ts) := s.grantLock q.age lvl name q.mode q.esc; (t, .granted, ts)
    else if tryOnly then (s, .refused, [])
    else
      let q := { q with conv := eff.isSome }
      (s.updLock lvl name fun k => { k with queue := insertBy reqBefore q k.queue }, .queued, [])

/-- Withdrawing every request of a wall, and releasing its fragments parked with 0x30 (R413, R423). Grants that are recorded for
some of their lanes stay (log 95). -/
def State.withdraw (s : State) (age : Nat) : State × List MTask :=
  let hit := s.locks.filter fun k => k.queue.any fun q => q.age == age
  let t := hit.foldl (fun t k => t.updLock k.lvl k.name fun k => { k with queue := k.queue.filter fun q => q.age != age }) s
  let t := [0, 1, 2, 3].foldl (fun t i =>
    t.updIsland i fun x => { x with overflow := x.overflow.filter fun (o : Over) => o.req.age != age }) t
  let t := (s.coursesOf age).foldl (fun t p =>
    p.2.frags.foldl (fun t q => t.release ⟨p.1, q.1⟩ (· == 0x30)) t) t
  (t, hit.map (fun k => .scan k.lvl k.name) ++ [.overflow 0, .overflow 1, .overflow 2, .overflow 3])

/-- A wound (R413). -/
def State.wound (s : State) (age : Nat) (name : Dword) : State × List MTask :=
  let t := s.updWall age fun w => { w with wound := some ⟨name, 0⟩ }
  (t.mapFrags age fun f => { f with mark := some name }).withdraw age

/-- The holders that a queued request wounds (R413). -/
def State.wounded (s : State) (lvl : Lvl) (name age : Nat) (m : LMode) : List Nat :=
  match s.lock? lvl name with
  | none => []
  | some k => (k.holds.filter fun h =>
      h.age > age && ((s.wall? h.age).map fun w => w.wound.isNone).getD false && match h.eff with
        | some e => !s.compat m e
        | none => false).map (·.age)

/-- A request that was queued wounds (R413). -/
def State.woundFor (s : State) (lvl : Lvl) (name : Nat) (q : Req) : State × List MTask :=
  let inQueue := ((s.lock? lvl name).map fun k => k.queue.any fun r => r.uid == q.uid && r.lane == q.lane).getD false
  let hs := if inQueue then s.wounded lvl name q.age (joinOpt (s.effOn q.age lvl name) q.mode) else []
  hs.foldl (fun (p : State × List MTask) h => let (t, ts) := p.1.wound h q.full; (t, p.2 ++ ts)) (s, [])

/-- The oldest request of the overflow list takes a freed entry (R412). -/
def State.takeOver (s : State) (island : Nat) : State × List MTask :=
  match (s.island island).overflow with
  | [] => (s, [])
  | o :: rest =>
    if s.lockEntries island ≥ mortarCap then (s, []) else
    let t := s.updIsland island fun i => { i with overflow := rest }
    let ctx := ((t.wall? o.req.age).map (·.ctx)).getD 0
    let (t, a, ts) := t.decideLock ctx o.lvl o.name false o.req
    let (t, us) := match a with
      | .granted => (t.recordGrant o.req, [])
      | .queued => t.woundFor o.lvl o.name o.req
      | .refused => (t.recordDenied o.req, [])
    (t, ts ++ us ++ [.overflow island])

/-- Following up changes of the locks, in order; an escalation that a grant asks for comes after the scans that are under way
(R417; log 93). The number bounds the tasks. -/
def State.mortarRun (s : State) : Nat → List MTask → State
  | 0, _ => s
  | _, [] => s
  | n + 1, .scan lvl name :: ts =>
    let len := ((s.lock? lvl name).map fun k => k.queue.length).getD 0
    let (t, us) := s.scanLock lvl name len
    t.mortarRun n (ts ++ us)
  | n + 1, .escalate age tile :: ts =>
    let ctx := ((s.wall? age).map (·.ctx)).getD 0
    let (t, us) := s.tryEscalate ctx age tile
    t.mortarRun n (ts ++ us)
  | n + 1, .overflow island :: ts =>
    let (t, us) := s.takeOver island
    t.mortarRun n (ts ++ us)

/-- A bound on the tasks that can follow a change: each grant takes a request and each fold ends holdings. -/
def State.mortarFuel (s : State) : Nat :=
  s.locks.foldl (fun n k => n + 3 * (k.queue.length + k.holds.length + 1)) 64
    + ([0, 1, 2, 3].foldl (fun n i => n + 3 * (s.island i).overflow.length) 0)

def State.mortar (s : State) (ts : List MTask) : State := s.mortarRun (s.mortarFuel + ts.length) ts

/-- The locks above a lock, outermost first (R402). -/
def locksAbove (lvl : Lvl) (name : Nat) : List (Lvl × Nat) :=
  match lvl with
  | .tensor => []
  | .tile => [(.tensor, canonName .tensor name)]
  | .line => [(.tensor, canonName .tensor name), (.tile, canonName .tile name)]

/-- The folded holding of a wall above a lock, by its lock and mode, that `ok` picks (R418): one of a tensor before one of a tile
(log 94). -/
def State.folderBy (s : State) (age : Nat) (lvl : Lvl) (name : Nat) (ok : LMode → Bool) : Option (Lvl × Nat × LMode) :=
  (locksAbove lvl name).findSome? fun p =>
    ((s.lock? p.1 p.2).bind fun k => k.hold? age).bind fun h => (h.folds.find? fun q => ok q.1).map fun q => (p.1, p.2, q.1)

/-- The folded holding that covers m (R418). -/
def State.folderOf (s : State) (age : Nat) (lvl : Lvl) (name : Nat) (m : LMode) : Option (Lvl × Nat × LMode) :=
  s.folderBy age lvl name fun e => covers e m

/-- One request of lk.acq or lk.esc for a lane (R406, R407, R409, R412, R413, R418, R421, R424), also of a wall whose wound is
pending (log 93). -/
def State.lockRequest (s : State) (ctx age uid lane : Nat) (lvl : Lvl) (fullName : Dword) (m : LMode) (tryOnly esc : Bool) :
    State × MAns :=
  let name := canonName lvl fullName.toNat
  let folder := if esc then none else s.folderOf age lvl name m
  match folder with
  | some p => (s.updHold age p.1 p.2.1 fun h => h.addFold p.2.2 1, .granted)
  | none =>
    if esc && (s.effOn age lvl name).isNone then (s, .refused)
    else if !esc && (match parentOf lvl name with
        | none => false
        | some p => !parentAllows m (s.effOn age p.1 p.2)) then (s.raise ctx .lkNoParent, .refused)
    else
      let q : Req := { age := age, full := fullName, mode := m, conv := false, esc := esc, uid := uid, lane := lane }
      let (t, a, ts) := s.decideLock ctx lvl name tryOnly q
      let t := t.mortar ts
      match a with
      | .queued =>
        let (t, ts) := t.woundFor lvl name q
        (t.mortar ts, .queued)
      | a => (t, a)

/-- Lowering a hold count of a wall (R418, R422): true where the wall held the lock in the mode, or a folded one. -/
def State.lockRelease (s : State) (ctx age : Nat) (lvl : Lvl) (fullName : Nat) (m : LMode) : State :=
  let name := canonName lvl fullName
  let held := ((s.lock? lvl name).bind fun k => k.hold? age).map fun h => h.counts.getD (modeCode m) 0
  if held.getD 0 > 0 then
    let t := s.updHold age lvl name fun h =>
      { h with counts := (List.range 6).map fun i => h.counts.getD i 0 - (if i == modeCode m then 1 else 0) }
    t.mortar [.scan lvl name, .overflow (lockIsland name)]
  else
    match (s.folderOf age lvl name m).orElse fun _ => s.folderBy age lvl name fun _ => true with
    | some p => s.updHold age p.1 p.2.1 fun h => h.dropFold p.2.2
    | none => (s.raise ctx .lkRelUnheld).mortar [.scan lvl name]

/-- Releasing every holding and withdrawing every request of a wall, which ends a pending wound (R415, R423, R427). Recorded grants
of all its fragments go with the holdings (log 95). -/
def State.relAll (s : State) (age : Nat) : State :=
  let hit := s.locks.filter fun k => (k.hold? age).isSome
  let t := hit.foldl (fun t k => t.updLock k.lvl k.name fun k => { k with holds := k.holds.filter fun h => h.age != age }) s
  let (t, ts) := t.withdraw age
  let t := t.mapFrags age fun f => { f with granted := 0, denied := 0 }
  let t : State := { t with skips := t.skips.filter fun x => x.age != age }
  let t := t.updWall age fun w => { w with wound := none }
  t.mortar (hit.map (fun k => MTask.scan k.lvl k.name) ++ ts)

end Sys2Proof.Machine
end

