-- ==== Sys2Proof/Machine/Fatal.lean ====
section
/-!
DEFINITION. Context-fatal faults: what is halted, freed and discarded (R111, R376), and the fault report (R486).
-/

namespace Sys2Proof.Machine

/-- The causes of R486. -/
inductive Cause where
  | watchdog | dispatch | uncorrectable | grace | trap | record
  deriving DecidableEq, Repr

def Cause.num : Cause → Nat
  | .watchdog => 1 | .dispatch => 2 | .uncorrectable => 3 | .grace => 4 | .trap => 5 | .record => 6

/-- What a fault report says (R486). -/
structure Report where
  cause : Cause
  code : Nat := 0
  addr : Nat := 0
  who : Nat := 0
  fids : List Nat := []
  deriving DecidableEq, Repr

/-- The 512 bytes of a fault report (R486). -/
def Report.bytes (r : Report) (time : Nat) : List Byte :=
  natLe 8 (r.cause.num + 256 * r.code) ++ natLe 8 r.addr ++ natLe 8 r.who ++ natLe 8 r.fids.length ++ natLe 8 time
    ++ List.replicate 216 0 ++ ((List.range 32).flatMap fun i => natLe 8 (r.fids.getD i 0))

/-- An MSI-X vector is sent (R472). -/
def State.send (s : State) (v : Nat) : State := { s with sent := s.sent ++ [v] }

/-- The partition stops being occupied (R80). -/
def State.unoccupy (s : State) (ctx part : Nat) : State :=
  let begun := s.grids.any fun p => p.2.ctx == ctx && p.2.record.part == part && 0 < p.2.placed && p.2.placed < p.2.count
  if begun || (s.walls.any fun p => p.2.ctx == ctx && p.2.part == part) || (s.part part).occupant != some ctx then s
  else s.updPart part fun p => { p with occupant := none }

/-- An ended context no longer occupies a partition, is saved for it, or has pre-empted another there (R80, R111, R372). -/
def Part.without (p : Part) (ctx : Nat) : Part :=
  let gone := p.saved == some ctx
  { p with occupant := if p.occupant == some ctx then none else p.occupant
           saved := if gone then none else p.saved
           preemptor := if gone || p.preemptor == some ctx then none else p.preemptor }

/-- Ending every wall of a context (R111 steps 1 to 4, R376, R427, R432, R437). The releases of its locks come after the writes
that are in flight, and cover them (R427). Pins that host commands took stay with what they belong to (log 9). -/
def State.endWalls (s : State) (ctx : Nat) : State :=
  let ages := (s.walls.filter fun p => p.2.ctx == ctx).map fun p => p.1
  let t := ages.foldl (fun t a => t.relAll a) s.flushAll
  let uids := (t.courses.filter fun p => p.2.ctx == ctx).map fun p => p.1
  let t := t.ops.foldl (fun t p => if p.2.ctx == ctx then t.unpin (islandOf p.2.core) ctx p.2.pins else t) t
  let t := t.walls.foldl (fun t p =>
    if p.2.ctx == ctx then p.2.regions.foldl (fun t q => t.unpin (islandOf p.2.core) ctx q.2.pins) t else t) t
  let t := t.grids.foldl (fun t p => if p.2.ctx == ctx then t.unpin (p.2.queue / 1024) ctx p.2.pins else t) t
  let t := match t.ctx? ctx with
    | none => t
    | some x => x.ert.foldl (fun (t : State) (p : Nat × Expert) => t.unpin (p.1 % 4) ctx p.2.pins) t
  let t := t.updCtx ctx fun x => { x with ert := x.ert.mapV fun y =>
    { y with pin := 0, pins := [], waiters := [], st := if y.st == 2 then 1 else y.st, frame := if y.st == 2 then none else y.frame } }
  { t with
    walls := t.walls.filter fun p => p.2.ctx != ctx
    courses := t.courses.filter fun p => p.2.ctx != ctx
    grids := t.grids.filter fun p => p.2.ctx != ctx
    ops := t.ops.filter fun p => p.2.ctx != ctx
    stores := t.stores.filter fun (w : Write) => !uids.contains w.uid
    monitors := t.monitors.filter fun (m : Monitor) => !uids.contains m.who.uid
    queues := t.queues.mapV fun q =>
      if q.ctx == ctx then { q with headNo := q.headNo + q.entries.length, entries := [], head := none } else q
    cores := t.cores.mapV fun c =>
      { c with side := c.side.filter fun (x : SideEntry) => x.ctx != ctx
               held := c.held.filter fun (x : FaultRec) => x.ctx != ctx }
    islands := t.islands.mapV fun i =>
      { i with merge := i.merge.filter fun (m : Merge) => m.ctx != ctx
               fetches := i.fetches.filter fun (x : Fetch) => x.ctx != ctx }
    parts := t.parts.mapV fun p => p.without ctx }

/-- A context-fatal fault (R111, R486). -/
def State.fatal (s : State) (ctx : Nat) (r : Report) : State :=
  let t := s.endWalls ctx
  match t.ctx? ctx with
  | none => t
  | some x =>
    let t := if x.report = 0 then t else
      match t.xlateRange 0 ctx x.report 512 true with
      | .ok g => (t.performUnits 0 g.units ((List.range 512).zip (r.bytes s.clock) |>.map fun p => (x.report + p.1, p.2))).claim ctx
      | .error x => if x.code = eccCode && t.badTag x.va then t.noteBad noCtx [x.va] else t
    { t with faultPend := true }.send x.vec

end Sys2Proof.Machine
end

