-- ==== Sys2Proof/Machine/Marks.lean ====
section
/-!
DEFINITION. Uncorrectable memory errors (R485): what an outstanding operation accesses, the contexts that an error faults, and
the check that a read makes.
-/

namespace Sys2Proof.Machine

/-- The bytes of global memory that an operation of a lane kind touches: location and length. Loads through the constant cache
are left out of what R330 orders. -/
def Work.touches : Work → List (Nat × Nat)
  | .load _ _ ps _ false => ps.filterMap fun p => match p.tgt with
    | .mem loc _ => some (loc, p.len)
    | .stash _ => none
  | .atomic op size _ ls ps => (ls ++ ps).map fun l => (l.loc, if op == .slot then 2 * size else size)
  | .posted _ size ls => ls.map fun l => (l.loc, size)
  | _ => []

/-- 1 for a gather, 2 for a run, 0 for anything else (R361). -/
def Work.engineKind : Work → Nat
  | .gather .. => 1
  | .run .. => 2
  | _ => 0

def Work.isCopy : Work → Bool
  | .copy .. => true
  | _ => false

/-- The global address of byte n of a copy's rows. -/
def copyVa (base len stride n : Nat) : Nat := (base + n / len * stride + n % len) % 2 ^ 64

/-- The addresses of a copy's global side, from byte lo to byte hi. -/
def copyLocs (base len stride : Nat) (us : Tab (Nat × Nat)) (lo hi : Nat) : List Nat :=
  (List.range (hi - lo)).map fun i => (unitLoc us (copyVa base len stride (lo + i))).1

/-- How much there is to do: K-steps of tl.mma, rows of tl.load and tl.drain, bytes of a copy (R292). -/
def Work.size : Work → Nat
  | .tlMma _ _ _ steps => steps.length
  | .tlLoad .. | .tlDrain .. => 64
  | .copy _ _ _ _ _ len rows _ _ => len * rows
  | _ => 1

/-- Bytes of a row of 64 elements of a drain's target. -/
def tgtRow (tgt : Nat) : Nat := match Fmt.ofCode tgt with
  | some f => 64 * f.bits / 8
  | none => 0

/-- The four addresses of the absolute-maximum word of a drain to global memory, and its four offsets in stash (R311). -/
def Drain.amVas (d : Drain) : List Nat :=
  if d.stash || d.absentDst || !d.amax then [] else (List.range 4).map fun (i : Nat) => (((d.dst : Int) + d.amOff + (i : Int)) % 2 ^ 64).toNat
def Drain.amOffs (d : Drain) : List Nat :=
  if d.stash && d.amax then (List.range 4).map fun i => ((d.dst : Int) + d.amOff).toNat + i else []

/-- The addresses that an operation reads when it works from lo to hi; a load or an atomic reads all of its own at once. -/
def Work.readsIn (lo hi : Nat) : Work → List Nat
  | .load _ _ ps _ _ => ps.flatMap fun p => match p.tgt with
    | .mem loc _ => (List.range p.len).map fun i => loc + i
    | .stash _ => []
  | .tlLoad _ (some va) us => (List.range (256 * (hi - lo))).map fun i => (unitLoc us (va + 256 * lo + i)).1
  | .copy _ false _ src _ len _ stride us => copyLocs src len stride us lo hi
  | w => w.touches.flatMap fun p => (List.range p.2).map fun i => p.1 + i

/-- The addresses that an operation reads. -/
def Work.readLocs (w : Work) : List Nat := w.readsIn 0 w.size

/-- The addresses that a tile operation or a copy writes when it works from lo to hi. -/
def Work.writesIn (lo hi : Nat) : Work → List Nat
  | .tlDrain _ d us =>
    if d.stash || d.absentDst then [] else
    (List.range (hi - lo)).flatMap fun i =>
      (List.range (tgtRow d.tgt)).map fun j => (unitLoc us (d.dst + (lo + i) * d.pitch + j)).1
  | .copy false _ dst _ _ len _ stride us => copyLocs dst len stride us lo hi
  | _ => []

/-- The stash offsets that a drain or a copy accesses from lo to hi. -/
def Work.stashIn (lo hi : Nat) : Work → List Nat
  | .tlDrain _ d _ =>
    if !d.stash then [] else
    (List.range (hi - lo)).flatMap fun i => (List.range (tgtRow d.tgt)).map fun j => swz (d.dst + (lo + i) * d.pitch + j) d.span
  | .copy dstS srcS dst src span _ _ _ _ =>
    let side := fun (off : Nat) => (List.range (hi - lo)).map fun i => swz (off + lo + i) span
    (if dstS then side dst else []) ++ (if srcS then side src else [])
  | _ => []

/-- The absolute-maximum word that a drain may still access: addresses, and stash offsets. -/
def Work.amAhead : Work → List Nat × List Nat
  | .tlDrain _ d us => (d.amVas.map fun va => (unitLoc us va).1, d.amOffs)
  | _ => ([], [])

/-- What an operation of a wall has still to read and to write, in bound regions too (R262). -/
def Op.ahead (o : Op) (w : Option Wall) : List Nat :=
  let n := o.work.size
  let offs := o.work.stashIn o.done n ++ o.work.amAhead.2
  o.work.readsIn o.done n ++ o.work.writesIn o.done n ++ o.work.amAhead.1
    ++ ((w.map fun w => w.boundVas offs).getD []).map fun p => p.2

/-- Contexts with an access to a line outstanding: an operation that has still to touch it, or a write that is not performed. A
run or a gather translates its pages as it reaches them and is not among them. -/
def State.touching (s : State) (line : Nat) : List Nat :=
  let wall := fun (o : Op) => (s.course? o.uid).bind fun c => s.wall? c.age
  let ops := (s.ops.filter fun p => (p.2.ahead (wall p.2)).any fun l => lineOf (s.place l) == line).map fun p => p.2.ctx
  let st := ((s.stores ++ s.writes.filter fun w => !w.everywhere).filter fun w => w.cells.any fun c => lineOf c.1 == line).filterMap
    fun w => (s.op? w.op).map fun o => o.ctx
  dedup (ops ++ st)

/-- The physical address of a location: its own, or that of the lowest-numbered window that reaches it (R473, R486). -/
def State.paOf (s : State) (loc : Nat) : Nat :=
  if isUnder loc then loc else
  let a := loc % 2 ^ 64
  match s.windows.find? fun p => s.winLive p.2 && spaceOfWin p.2 == spaceOf loc && p.2.tbase ≤ a
      && a < p.2.tbase + p.2.size * 2 ^ 36 with
  | some (_, w) => w.base * 2 ^ 36 + (a - w.tbase)
  | none => a

/-- An uncorrectable error in a line, detected by an access of a context (R485): the line stays marked, and the context and
those with an access to the line outstanding end with cause 3. -/
def State.memError (s : State) (line ctx : Nat) : State :=
  let cs := (dedup (ctx :: s.touching line)).filter fun c => (s.ctx? c).isSome
  let t : State := { s with marks := if s.marks.contains line then s.marks else s.marks ++ [line] }
  cs.foldl (fun t c => t.fatal c { cause := .uncorrectable, addr := s.paOf (128 * line) }) t

/-- The first marked line among locations. -/
def State.markedIn (s : State) (locs : List Nat) : Option Nat :=
  if s.marks.isEmpty && s.lineTag.all (fun p => p.2 < 8) then none
  else (locs.find? fun l => s.marked (lineOf (s.place l))).map fun l => lineOf (s.place l)

/-- What an engine meets at stash offsets that lie in bound regions, which are accesses of the global lines (R262): an address
that no window maps any more (R473), or an uncorrectable error (R485). -/
def State.boundFail (s : State) (w : Wall) (offs : List Nat) : Option XFail :=
  let b := w.boundVas offs
  match (b.filter fun p => !s.mapped p.2).map fun p => p.1 with
  | va :: vas => some ⟨0x0C, 0, vas.foldl min va⟩
  | [] => (s.markedIn (b.map fun p => p.2)).map fun line => ⟨eccCode, 0, line⟩

/-- An engine operation after acceptance that meets a violation or an uncorrectable error ends its context (R367, R485). -/
def State.engineLost (s : State) (ctx who : Nat) (x : XFail) : State :=
  if x.code = eccCode then s.memError x.va ctx else s.fatal ctx { cause := .trap, code := 0x0C, addr := x.va, who := who }

/-- A read of a marked line faults the context in the same way (R485). -/
def State.unmarkedOr (s : State) (ctx : Nat) (locs : List Nat) (body : State → State) : State :=
  match s.markedIn locs with
  | some line => s.memError line ctx
  | none => body s

end Sys2Proof.Machine
end

