-- ==== Sys2Proof/Machine/Ops.lean ====
section
/-!
DEFINITION. The shared operations of the instruction words: issuing (R118, R124, R249), taking a trap (R369, R370) and
returning from one (R180), waiting (R85), and the access of lanes to memory: the coalescer and its misses (R354, R355), the
violation that takes the whole instruction (R359), parking of faulting lanes (R358, R362), the side log (R360), and the
acceptance of loads and stores (R250).
-/

namespace Sys2Proof.Machine

/-! Traps. -/

/-- Taking a trap (R369): CAUSE, TPC, FADDR and FLANES are set, the handler flag is set and the fragment continues at the
course's TVEC. With the flag set already, or without a handler, the fault is context-fatal. -/
def State.trapAt (s : State) (e : Env) (code arg : Nat) (tpc faddr flanes : Dword) : State :=
  if e.f.handler || e.c.tvec == 0 then
    s.fatal e.c.ctx { cause := .trap, code := code, addr := tpc.toNat, who := (fidOf e.c e.r.serial).toNat }
  else
    s.updFrag e.r fun f =>
      { f with
        cause := BitVec.ofNat 64 (code + 256 * arg), tpc := tpc, faddr := faddr, flanes := flanes, handler := true,
        pc := e.c.tvec, outcomes := [], crowd := [], diverged := none, held := false, totV := none }

/-- A trap at the word with the given FADDR and FLANES (R370). -/
def State.trap (s : State) (e : Env) (code : Nat) (faddr flanes : Dword) : State := s.trapAt e code 0 e.f.pc faddr flanes

/-- A trap whose FLANES is the lanes of F. -/
def State.trapAll (s : State) (e : Env) (code : Nat) (faddr : Nat) : State :=
  s.trap e code (BitVec.ofNat 64 faddr) e.f.lanes

/-- The illegal-instruction trap (R124, R370). -/
def State.trapIllegal (s : State) (e : Env) (w : Word) : State := s.trapAll e 0x01 w.toNat

/-- The return from a trap (R180): the handler flag is cleared and the fragment resumes at TPC; with the flag clear the word
is illegal. -/
def State.returnFromTrap (s : State) (e : Env) (w : Word) : State :=
  if e.f.handler then s.updFrag e.r fun f => { f with handler := false, pc := f.tpc } else s.trapIllegal e w

/-! Issue. -/

/-- The lowest v index at or above the register cap that an operand names (R118, R370). -/
def capBad (i : Instr) (e : Env) : Option Nat :=
  i.operands.foldl (fun m o =>
    match o.vregs e.c.width with
    | none => m
    | some (first, n) =>
      let lo := e.c.wv + first
      if lo + n ≤ e.c.cap then m
      else
        let k := max lo e.c.cap
        match m with
        | none => some k
        | some j => some (min j k)) none

/-- A tile at or above ZTILES that the instruction names (R288, R296). -/
def tileBad (i : Instr) (w : Wall) : Option Nat :=
  let named : List Nat := match i with
    | .tlMma _ kc _ d _ _ => if kc then [d.toNat, d.toNat + 1] else [d.toNat]
    | .tlDrain d _ | .tlZero d | .tlLoad d _ => [d.toNat]
    | _ => []
  named.find? fun z => w.ztiles ≤ z

/-- The first checks of every instruction (R249 steps 1 and 2, R288), then its effect. -/
def State.checked (s : State) (i : Instr) (e : Env) (body : State → State) : State :=
  if !i.issueLegal e.c.width then s.trapIllegal e (encode i)
  else match capBad i e with
    | some k => s.trapAll e 0x02 k
    | none =>
      match tileBad i e.w with
      | some z => s.trapAll e 0x02 z
      | none => body s

/-- An instruction word runs for the issuing fragment. -/
def State.issue (s : State) (i : Instr) (body : Env → State → State) : Out :=
  match s.issuer? with
  | none => .fault .noFragment
  | some e => s.act fun s => s.checked i e (body e)

/-- The fragment waits, and executes the word again when the wait ends. -/
def State.await (s : State) (e : Env) (k : WaitKind) (u : Until) : State :=
  s.updFrag e.r fun f => { f with state := .waiting k u }

/-- Every release waits for the course's counters first, at every scope (R276, R336; log 108); then it goes on. -/
def State.released (s : State) (e : Env) (body : State → State) : State :=
  if e.c.ldc == 0 && e.c.stc == 0 && e.c.tlc == 0 then body s else s.await e .counter (.counters 0 0 0)

/-- A release to an agent that memory's own order does not reach (a queue, the fault service, Mortar, a pager): after the wait
every write that the island has applied is performed at .dev, so the release covers what the course has acquired as well as
what it wrote (R336, R338, R340). -/
def State.releasedTo (s : State) (e : Env) (body : State → State) : State := s.released e fun s => body (s.flush e.island)

/-- An instruction that 64 unwritten fault records hold back (R364). -/
def State.holdBack (s : State) (e : Env) : State :=
  if e.f.held then s else (s.raise e.c.ctx .faultqFull).updFrag e.r fun f => { f with held := true }

/-! The coalescer. -/

/-- One lane's access to global memory. -/
structure Acc where
  lane : Nat
  va : Nat
  len : Nat
  deriving DecidableEq, Repr

/-- What the translation of an instruction's units gives. -/
inductive Plan where
  /-- Some units miss. -/
  | miss (units : List Nat)
  /-- Lowest violating address and the violating lanes (R359, R370). -/
  | violation (va : Nat) (lanes : Dword)
  /-- The leaves of the translated units, and the faulting ones with code and level. -/
  | go (ok : Tab Leaf) (bad : Tab (Nat × Nat))
  deriving DecidableEq, Repr

/-- Translating all units of an instruction before any lane has an effect (R354, R355, R359). -/
def State.plan (s : State) (e : Env) (accs : List Acc) (write : Bool) : Plan :=
  let us := dedup (accs.flatMap fun a => unitsOf a.va a.len)
  let res := us.map fun u => (u, s.lookup e.c.core e.c.ctx e.f.outcomes u write false)
  let missing := (res.filter fun p => p.2 == .miss).map fun p => p.1
  if !missing.isEmpty then .miss missing else
  let viol := (res.filter fun p => p.2 == .violation).map fun p => p.1
  if !viol.isEmpty then
    let hit := accs.filter fun a => (unitsOf a.va a.len).any viol.contains
    let addrs := hit.flatMap fun a => ((unitsOf a.va a.len).filter viol.contains).map fun u =>
      if u = a.va / 65536 then a.va else u * 65536
    .violation (addrs.foldl min (addrs.headD 0)) (maskOf (hit.map fun a => a.lane))
  else
    .go (res.foldl (fun t p => match p.2 with
          | .ok l => t.set p.1 l
          | _ => t) [])
        (res.foldl (fun t p => match p.2 with
          | .fault c l => t.set p.1 (c, l)
          | _ => t) [])

/-- Misses join or make entries of the island's merge table, and the fragment is not eligible until their walks end; with
the table full the instruction is not accepted, and the fragment is not eligible until there is room for all that it
needs (R355; log 77). -/
def State.await' (s : State) (e : Env) (units : List Nat) (write fetch : Bool) : State :=
  let k := e.island
  let tab := (s.island k).merge
  let fresh := units.filter fun u => !(tab.any fun m => m.ctx == e.c.ctx && m.unit == u)
  if tab.length + fresh.length > 1024 then
    (s.raise e.c.ctx .tlbMergeFull).updFrag e.r fun f => { f with crowd := units }
  else
  let t := s.updIsland k fun i =>
    { i with merge :=
        (i.merge.map fun (m : Merge) => if m.ctx == e.c.ctx && units.contains m.unit
          then { m with waiters := m.waiters ++ [(e.r, write, fetch)] } else m)
        ++ fresh.map fun u => { ctx := e.c.ctx, unit := u, waiters := [(e.r, write, fetch)] } }
  t.updFrag e.r fun f => { f with missing := units, crowd := [] }

/-- The pieces of a lane's access, one for each 64 KiB unit (R354). -/
def State.pieces (s : State) (ok : Tab Leaf) (a : Acc) : List Piece :=
  (unitsOf a.va a.len).filterMap fun u =>
    match ok.get? u with
    | none => none
    | some l =>
      let start := if u = a.va / 65536 then a.va else u * 65536
      let at' := (start + 2 ^ 64 - a.va) % 2 ^ 64
      let len := min (a.len - at') (u * 65536 + 65536 - start)
      some ⟨a.lane, start, .mem (s.leafLoc l start) l.efmt, len, at'⟩

/-- The lowest faulting unit of a lane (R358, R362; log 10). -/
def faultOf (bad : Tab (Nat × Nat)) (a : Acc) : Option (Nat × Nat × Nat) :=
  (unitsOf a.va a.len).findSome? fun u => (bad.get? u).map fun p => (u, p.1, p.2)

/-- The parked groups of an instruction: one for each pair of unit and code among the faulting lanes (R89, R362). -/
def faultGroups (bad : Tab (Nat × Nat)) (accs : List Acc) (write : Bool) (word : Nat) (whole : Option Dword) : List PGroup :=
  let hits := accs.filterMap fun a => (faultOf bad a).map fun f => (a, f)
  let keys := dedup (hits.map fun h => h.2)
  keys.map fun k =>
    let here := hits.filter fun h => h.2 == k
    let addrs := here.map fun h => if k.1 = h.1.va / 65536 then h.1.va else k.1 * 65536
    { lanes := whole.getD (maskOf (here.map fun h => h.1.lane)), code := k.2.1, on := .service,
      info := some { unit := k.1, vaddr := addrs.foldl min (addrs.headD 0), aux := k.2.2, write := write, origin := 0, word := word } }

/-! Accepting loads. -/

/-- The side-log entry of the course that holds one of some addresses (R345). -/
def State.sideAt (s : State) (e : Env) (hit : Nat → Bool) : Option Nat :=
  ((s.core e.c.core).side.find? fun x => x.uid == e.r.uid && x.cells.any fun c => hit c.1).map fun x => x.seq

/-- The side-log entry of the course that an access overlaps, its addresses taken modulo 2^64 (R248, R345). -/
def State.sideHit (s : State) (e : Env) (accs : List Acc) : Option Nat :=
  s.sideAt e fun va => accs.any fun a => (va + 2 ^ 64 - a.va) % 2 ^ 64 < a.len

/-- A load: the lanes with data already known, the lanes that access global memory; lanes that fault park, and the others
are an outstanding operation (R250, R253, R358). `whole` is the mask of a once-per-course form. -/
def State.acceptLoad (s : State) (e : Env) (i : Instr) (dst : Dest) (got : Tab (List Byte)) (accs : List Acc)
    (whole : Option Dword) (const : Bool) : State :=
  match s.sideHit e accs with
  | some n => s.await e .counter (.entry e.c.core n)
  | none =>
    match s.plan e accs false with
    | .miss us => s.await' e us false false
    | .violation va lanes => s.trap e 0x0C (BitVec.ofNat 64 va) (whole.map (fun _ => e.f.lanes) |>.getD lanes)
    | .go ok bad =>
      let gs := faultGroups bad accs false (encode i).toNat whole
      if !gs.isEmpty && s.heldFull e.c.core gs.length then s.holdBack e else
      let good := accs.filter fun a => (faultOf bad a).isNone
      let ps := good.flatMap (s.pieces ok)
      let lanes := maskOf (got.map (fun p => p.1) ++ good.map fun a => a.lane)
      let t := if lanes == 0 then s else
        (s.addOp { uid := e.r.uid, ctx := e.c.ctx, core := e.c.core, work := .load dst lanes ps got const }).addLdc e.r.uid true
      if gs.isEmpty then t.advance e else t.park e gs

/-! Accepting stores. -/

/-- The naturally aligned pieces of an access that is divided (R334): offset and size. -/
def alignedPieces : Nat → Nat → Nat → List (Nat × Nat)
  | 0, _, _ => []
  | n + 1, a, len =>
    if len = 0 then [] else
    let fit := [8, 4, 2, 1].find? fun k => a % k = 0 && k ≤ len
    let k := fit.getD 1
    (0, k) :: (alignedPieces n (a + k) (len - k)).map fun p => (p.1 + k, p.2)

/-- One lane's store: its access and its bytes. -/
structure StAcc where
  acc : Acc
  data : List Byte
  deriving DecidableEq, Repr

/-- The cells of a lane's pieces: location, element format and byte. -/
def cellsOfPieces (ps : List Piece) (data : List Byte) : List (Nat × Nat × Byte) :=
  ps.flatMap fun p => match p.tgt with
    | .mem loc f => (List.range p.len).map fun i => (loc + i, f, data.getD (p.at' + i) 0)
    | .stash _ => []

/-- Cells grouped into the atomic units of R333: whole lines for a row, aligned pieces for a lane. -/
def atomicUnits (row : Bool) (lanes : List (Nat × List (Nat × Nat × Byte))) : List (Nat × List (Nat × Byte)) :=
  if row then
    let all := lanes.flatMap fun p => p.2
    let keys := dedup (all.map fun c => (lineOf c.1, c.2.1))
    keys.map fun k => (k.2, (all.filter fun c => (lineOf c.1, c.2.1) == k).map fun c => (c.1, c.2.2))
  else
    lanes.flatMap fun p =>
      (alignedPieces p.2.length p.1 p.2.length).map fun u =>
        let cs := (p.2.drop u.1).take u.2
        ((cs.head?.map fun c => c.2.1).getD 31, cs.map fun c => (c.1, c.2.2))

/-- Writes of an operation join those that no island has applied yet. -/
def State.queueWrites (s : State) (e : Env) (op : Nat) (us : List (Nat × List (Nat × Byte))) : State :=
  us.foldl (fun t u =>
    if u.2.isEmpty then t else
    { t with
      stores := t.stores ++ [{ id := t.nextWrite, uid := e.r.uid, op := op, cells := u.2, efmt := some u.1, origin := e.island }]
      nextWrite := t.nextWrite + 1 }) s

/-- Entries of the side log for the faulting lanes of one unit: one for each half of a 64-lane course, two for each group
of a b128 store (R360). -/
def sideSplit (accs : List StAcc) : List (List StAcc) :=
  let lo := accs.filter fun a => a.acc.lane < 32
  let hi := accs.filter fun a => 32 ≤ a.acc.lane
  let parts := [lo, hi].filter fun l => !l.isEmpty
  parts.flatMap fun l =>
    if l.any fun a => a.acc.len > 8 then
      [l.map fun a => ⟨{ a.acc with len := 8 }, a.data.take 8⟩,
       l.map fun a => ⟨⟨a.acc.lane, a.acc.va + 8, a.acc.len - 8⟩, a.data.drop 8⟩]
    else [l]

/-- The addresses and bytes of a lane's store. -/
def StAcc.cells (a : StAcc) : List (Nat × Byte) :=
  (List.range a.data.length).zip a.data |>.map fun p => ((a.acc.va + p.1) % 2 ^ 64, p.2)

/-- The bytes of a lane's store that stand against the higher lanes of the store (R252). -/
def StAcc.standing (store : List StAcc) (a : StAcc) : List (Nat × Byte) :=
  a.cells.filter fun c => !store.any fun b => a.acc.lane < b.acc.lane && b.cells.any fun d => d.1 == c.1

/-- The first byte of an access in a unit. -/
def Acc.firstIn (a : Acc) (unit : Nat) : Option Nat :=
  ((List.range a.len).map fun i => (a.va + i) % 2 ^ 64).find? fun va => va / 65536 == unit

/-- The lowest faulting address of a lane in an entry (R363): in its half of a b128 store, or else in its whole access. -/
def sideVa (store : List StAcc) (unit : Nat) (a : StAcc) : Nat :=
  ((a.acc.firstIn unit).orElse fun _ => (store.find? fun b => b.acc.lane == a.acc.lane).bind fun b => b.acc.firstIn unit).getD a.acc.va

/-- One side-log entry for lanes of a store, with its fault record (R360, R362, R363). -/
def State.sideAdd (s : State) (e : Env) (word unit code level : Nat) (store accs : List StAcc) (sig : Option Dword) : State :=
  let (n, t) := s.takeSeq e.c.core
  let lanes := maskOf (accs.map fun a => a.acc.lane)
  let vas := accs.map (sideVa store unit)
  let va := vas.foldl min (vas.headD 0)
  let size := (accs.head?.map fun a => a.acc.len).getD 0
  let t := t.updCore e.c.core fun c =>
    { c with side := c.side ++ [{ seq := n, uid := e.r.uid, ctx := e.c.ctx, unit := unit, word := word, code := code, size := size,
                                  efmt := s.unitEfmt e.island e.c.ctx unit, lanes := lanes, vaddr := va, op := s.nextOp,
                                  cells := accs.flatMap (StAcc.standing store), sig := sig }] }
  (t.addStc e.r.uid true).formRecord e.c.core
    { ctx := e.c.ctx, aux := level, pc := 0, lanes := lanes, word := word, write := true, origin := 2, code := code,
      vaddr := va, id := eidOf 0 e.c.core e.c.slot n, time := s.clock }

def sideCap : Nat := 256

/-- Side-log entries of a core in use; those of a saved context are not on the core (R374). -/
def State.sideUsed (s : State) (core : Nat) : Nat :=
  ((s.core core).side.filter fun x => ((s.course? x.uid).map fun c => c.resident).getD true).length

/-- The faulting units of a store that find room for all their entries, and those that find none, in order (R358, R360). The lanes
of a unit whose entries do not all fit park together (log 92). -/
def sideRoom (need : Nat × Nat × Nat → Nat) : Nat → List (Nat × Nat × Nat) → List (Nat × Nat × Nat) × List (Nat × Nat × Nat)
  | _, [] => ([], [])
  | used, k :: ks =>
    if used + need k ≤ sideCap then let (a, b) := sideRoom need (used + need k) ks; (k :: a, b)
    else let (a, b) := sideRoom need used ks; (a, k :: b)

/-- A store: lanes that translate are an outstanding operation, faulting lanes enter the side log, or park while it has no
room (R253, R358, R360; how often SIDELOG_FULL rises: log 92). Stash bytes are written at acceptance. -/
def State.acceptStore (s : State) (e : Env) (i : Instr) (row : Bool) (stash : List (Nat × Byte)) (accs : List StAcc)
    (whole : Option Dword) : State :=
  let gl := accs.map fun a => a.acc
  match s.sideHit e gl with
  | some n => s.await e .counter (.entry e.c.core n)
  | none =>
    match s.plan e gl true with
    | .miss us => s.await' e us true false
    | .violation va lanes => s.trap e 0x0C (BitVec.ofNat 64 va) (whole.map (fun _ => e.f.lanes) |>.getD lanes)
    | .go ok bad =>
      let keys := dedup (accs.filterMap fun a => faultOf bad a.acc)
      let parts := fun (k : Nat × Nat × Nat) => sideSplit (accs.filter fun a => faultOf bad a.acc == some k)
      let (logged, parked) := sideRoom (fun k => (parts k).length) (s.sideUsed e.c.core) keys
      if !bad.isEmpty && s.heldFull e.c.core ((logged.flatMap parts).length + parked.length) then s.holdBack e else
      let good := accs.filter fun a => (faultOf bad a.acc).isNone
      let word := (encode i).toNat
      let id := s.nextOp
      let t := (s.addOp { uid := e.r.uid, ctx := e.c.ctx, core := e.c.core, work := .store }).addStc e.r.uid true
      let t := t.queueWrites e id (atomicUnits row (good.map fun a => (a.acc.va, cellsOfPieces (s.pieces ok a.acc) a.data)))
      let t := t.stashWrite e.c.age e.island stash e.r.uid id
      -- faulting units, each entering the side log whole or parking
      let t := logged.foldl (fun t k => (parts k).foldl (fun t l => t.sideAdd e word k.1 k.2.1 k.2.2 accs l none) t) t
      let t := parked.foldl (fun t _ => t.raise e.c.ctx .sidelogFull) t
      if parked.isEmpty then t.advance e
      else t.park e (faultGroups bad (gl.filter fun a => (faultOf bad a).any parked.contains) true word whole)

/-! One access for the whole fragment. -/

def overlaps (xs ys : List (Nat × Nat)) : Bool := xs.any fun x => ys.any fun y => x.1 < y.1 + y.2 && y.1 < x.1 + x.2

/-- Outstanding operations of the course that have still to read or to write some of the locations (R330). -/
def State.courseBusy (s : State) (uid : Nat) (locs : List Nat) : List Nat :=
  let here := locs.map fun l => (l, 1)
  let st := (s.stores.filter fun w => w.uid == uid && w.cells.any fun c => locs.contains c.1).map fun w => w.op
  let ops := (s.ops.filter fun p => p.2.uid == uid && overlaps p.2.work.touches here).map fun p => p.1
  dedup (st ++ ops)

/-- A stash access of the lanes of F at offsets in bound regions is an access of the global lines (R262): it waits for the
course's side-log entries and outstanding operations there (R330, R345), takes trap 0x0C where a window no longer maps a line
(R473), and meets an uncorrectable error (R485). -/
def State.boundOr (s : State) (e : Env) (whole : Bool) (offs : List (Nat × Nat)) (body : State → State) : State :=
  if e.w.regions.isEmpty then body s else
  let b := e.w.boundVas (offs.map fun p => p.2)
  let locs := b.map fun p => s.place p.2
  match s.sideAt e fun va => b.any fun p => p.1 == va with
  | some n => s.await e .counter (.entry e.c.core n)
  | none =>
    match b.filter fun p => !s.mapped p.2 with
    | x :: xs =>
      let lost := offs.filter fun p => (e.w.boundVas [p.2]).any fun q => !s.mapped q.2
      s.trap e 0x0C (BitVec.ofNat 64 (xs.foldl (fun m p => min m p.1) x.1)) (if whole then e.f.lanes else maskOf (lost.map fun p => p.1))
    | [] =>
      match s.courseBusy e.r.uid locs with
      | [] => s.unmarkedOr e.c.ctx locs fun s => body (s.updWall e.c.age fun w => w.touch (offs.map fun p => p.2))
      | ids => s.await e .counter (.ops ids)

/-- Translating one access of a once-per-course form that parks on a fault (R244, R358, R359), and waiting for what the
course still has to do there; the effect gets the physical address, the location and the element format. -/
def State.onceAccess (s : State) (e : Env) (i : Instr) (va size : Nat) (write : Bool)
    (body : Nat → Nat → Nat → State → State) : State :=
  let acc : Acc := ⟨lowestLane e.f.active, va, size⟩
  match s.sideHit e [acc] with
  | some n => s.await e .counter (.entry e.c.core n)
  | none =>
    match s.plan e [acc] write with
    | .miss us => s.await' e us write false
    | .violation a _ => s.trap e 0x0C (BitVec.ofNat 64 a) e.f.lanes
    | .go ok bad =>
      if !bad.isEmpty then
        if s.heldFull e.c.core 1 then s.holdBack e
        else s.park e (faultGroups bad [acc] write (encode i).toNat (some e.f.active))
      else
        match s.pieces ok acc with
        | ⟨_, _, .mem loc efmt, _, _⟩ :: _ =>
          match s.courseBusy e.r.uid ((List.range size).map fun i => loc + i) with
          | [] => s.unmarkedOr e.c.ctx ((List.range size).map fun i => loc + i) fun s =>
              let pa := ((ok.get? (va / 65536)).map fun l => l.pa + (va - l.va)).getD loc
              body pa loc efmt s
          | ids => s.await e .counter (.ops ids)
        | _ => s

/-! Bytes of registers. -/

/-- The bytes of a data operand of a lane in a bit form (R252). -/
def Env.dataBytes (e : Env) (d : Reg) (size lane : Nat) : List Byte :=
  let n := (size + 3) / 4
  ((List.range n).flatMap fun i => natLe 4 ((e.c.v? (e.vreg d + i) lane).getD (BitVec.allOnes 32)).toNat).take size

/-- Writing loaded bytes to a destination (R252, R255). -/
def Course.putLoaded (c : Course) (dst : Dest) (lane : Nat) (bs : List Byte) : Course :=
  match dst with
  | .vector reg size =>
    if size = 2 then c.setHalf reg lane false (BitVec.ofNat 16 (leNat bs))
    else (List.range ((size + 3) / 4)).foldl (fun c i =>
      c.setV (reg + i) lane (BitVec.ofNat 32 (leNat ((bs.drop (4 * i)).take 4)))) c
  | .scalar reg => { c with scal := c.scal.set reg (BitVec.ofNat 64 (leNat bs)) }
  | .own serial fld => c.setS serial fld (BitVec.ofNat 64 (leNat bs))
  | .nowhere => c

end Sys2Proof.Machine
end

