-- ==== Sys2Proof/Machine/Access.lean ====
section
/-!
DEFINITION. Loads and stores: ld, st, ldx, stx, their stack forms and the once-per-course forms (R206, R208, R244 to R259).
-/

namespace Sys2Proof.Machine

def szBytes : MSz → Nat
  | .b16 => 2
  | .b32 => 4
  | .b64 => 8
  | .b128 => 16

def onesBytes (n : Nat) : List Byte := List.replicate n 0xFF

/-- sign_extend(OFF9) × size. -/
def offBytes (off : BitVec 9) (size : Nat) : Int := off.toInt * size

/-- An address modulo 2^64 (R248). -/
def addr64 (x : Int) : Nat := (x % 2 ^ 64).toNat

/-- The global address of each lane, none where its base is absent (R245, R252). -/
def Env.globalAddr (e : Env) (a : Reg) (off : BitVec 9) (size : Nat) (l : Nat) : Option Nat :=
  let base := if isS a then e.sb a else e.vpb a l
  if base == BitVec.allOnes 64 then none
  else some (addr64 ((base.toNat : Int) + (if isS a then (l * size : Nat) else (0 : Nat)) + offBytes off size))

/-- The stash offset of each lane, exact (R245, R247, R252). -/
def Env.stashAddr (e : Env) (a : Reg) (off : BitVec 9) (size : Nat) (l : Nat) : Option Int :=
  if isS a then
    let base := e.sb a
    if base == BitVec.allOnes 64 then none else some ((base.toNat : Int) + (l * size : Nat) + offBytes off size)
  else
    let base := e.vb a l
    if base == BitVec.allOnes 32 then none else some ((base.toNat : Int) + offBytes off size)

/-- The addresses of the indexed forms: an absent index or base makes no access (R258). -/
def Env.indexAddr (e : Env) (a b : Reg) (size : Nat) (l : Nat) : Option Int :=
  let base := e.sb a
  if base == BitVec.allOnes 64 then none
  else (Fmt.i32.int? (e.v .i32 b l).toNat).map fun i => (base.toNat : Int) + i * size

/-- The bytes of an access that lie outside the window, as offsets (R247). -/
def bytesBeyond (window : Nat) (o : Int) (size : Nat) : List Int :=
  ((List.range size).map fun (i : Nat) => o + (i : Int)).filter fun x => x < 0 || (window : Int) ≤ x

/-- The stash-bounds trap, where any lane's access leaves the window (R247; log 11). -/
def State.boundsOr (s : State) (e : Env) (addrs : List (Nat × Int)) (size : Nat) (body : State → State) : State :=
  let bad := addrs.filter fun p => !(bytesBeyond e.w.window p.2 size).isEmpty
  match bad.flatMap fun p => bytesBeyond e.w.window p.2 size with
  | [] => body s
  | x :: xs => s.trap e 0x04 (BitVec.ofInt 64 (xs.foldl min x)) (maskOf (bad.map fun p => p.1))

/-- Lanes with and without an address. -/
def present {α : Type} (lanes : List Nat) (g : Nat → Option α) : List (Nat × α) := lanes.filterMap fun l => (g l).map fun x => (l, x)
def missing {α : Type} (lanes : List Nat) (g : Nat → Option α) : List Nat := lanes.filter fun l => (g l).isNone

/-- A load of each lane from global memory (R252, R253). -/
def State.loadGlobal (s : State) (e : Env) (i : Instr) (d : Reg) (size : Nat) (g : Nat → Option Nat) (const : Bool) : State :=
  let got := (missing e.lanes g).foldl (fun (t : Tab (List Byte)) l => t.set l (onesBytes size)) []
  s.acceptLoad e i (.vector (e.vreg d) size) got ((present e.lanes g).map fun p => ⟨p.1, p.2, size⟩) none const

/-- A store of each lane to global memory (R252, R253). -/
def State.storeGlobal (s : State) (e : Env) (i : Instr) (d : Reg) (size : Nat) (row : Bool) (g : Nat → Option Nat) : State :=
  s.acceptStore e i row [] ((present e.lanes g).map fun p => ⟨⟨p.1, p.2, size⟩, e.dataBytes d size p.1⟩) none

/-- A load of each lane from stash; its bytes are those of the moment of acceptance (R247, R253; log 66). -/
def State.loadStash (s : State) (e : Env) (i : Instr) (d : Reg) (size : Nat) (g : Nat → Option Int) : State :=
  let ps := present e.lanes g
  s.boundsOr e ps size fun s =>
    s.boundOr e false (ps.flatMap fun p => (List.range size).map fun j => (p.1, p.2.toNat + j)) fun s =>
      let got := ps.foldl (fun (t : Tab (List Byte)) p => t.set p.1 (s.stashBytes e.w e.island p.2.toNat size)) []
      let got := (missing e.lanes g).foldl (fun (t : Tab (List Byte)) l => t.set l (onesBytes size)) got
      s.acceptLoad e i (.vector (e.vreg d) size) got [] none false

/-- A store of each lane to stash (R247, R252, R258; log 66): the highest lane's byte stands. -/
def State.storeStash (s : State) (e : Env) (i : Instr) (d : Reg) (size : Nat) (g : Nat → Option Int) : State :=
  let ps := present e.lanes g
  s.boundsOr e ps size fun s =>
    s.boundOr e false (ps.flatMap fun p => (List.range size).map fun j => (p.1, p.2.toNat + j)) fun s =>
      s.acceptStore e i false (ps.flatMap fun p => cellsAt p.2.toNat (e.dataBytes d size p.1)) [] none

def execLdG (sz : MSz) (d a : Reg) (off : BitVec 9) (s : State) : Out :=
  s.issue (.ldG sz d a off) fun e s => s.loadGlobal e (.ldG sz d a off) d (szBytes sz) (e.globalAddr a off (szBytes sz)) false
def execLdS (sz : MSz) (d a : Reg) (off : BitVec 9) (s : State) : Out :=
  s.issue (.ldS sz d a off) fun e s => s.loadStash e (.ldS sz d a off) d (szBytes sz) (e.stashAddr a off (szBytes sz))

/-- ld.c (R254): completed from the constant cache or from memory. -/
def execLdC (wide : Bool) (d a : Reg) (off : BitVec 9) (s : State) : Out :=
  let size := if wide then 8 else 4
  s.issue (.ldC wide d a off) fun e s => s.loadGlobal e (.ldC wide d a off) d size (e.globalAddr a off size) true

/-- The destination of a scalar result (R115, R207). -/
def Env.sDest (e : Env) (d : Reg) : Dest :=
  if d.toNat = 0x41 || d.toNat = 0x42 then .own e.r.serial d.toNat else .scalar (e.c.ws + (d.toNat - 0x40))

/-- The address of ld.k and st.k, none where the base is absent (R255). -/
def Env.onceAddr (e : Env) (a : Reg) (off : BitVec 9) (size : Nat) : Option Nat :=
  if e.sb a == BitVec.allOnes 64 then none else some (addr64 ((e.sb a).toNat + offBytes off size))

/-- ld.k (R255): once for the course. -/
def execLdK (wide : Bool) (d a : Reg) (off : BitVec 9) (s : State) : Out :=
  let size := if wide then 8 else 4
  s.issue (.ldK wide d a off) fun e s =>
    match e.onceAddr a off size with
    | none => s.acceptLoad e (.ldK wide d a off) (e.sDest d) [(0, onesBytes 8)] [] (some e.f.lanes) false
    | some va => s.acceptLoad e (.ldK wide d a off) (e.sDest d) [] [⟨0, va, size⟩] (some e.f.active) false

/-- The stack slot of a stack form (R208): s1 as a plain number, and the sum exact (log 81). -/
def Env.slotNo (e : Env) (off : BitVec 9) : Int := e.f.s1.toInt + off.toInt

/-- The stack base of a course (R206, R470). -/
def State.stackBase (s : State) (c : Course) : Nat :=
  (((s.ctx? c.ctx).map fun x => x.spill).getD 0) + (48 * c.core + c.slot) * 2 ^ 24

/-- The address of a lane's slot (R206). -/
def State.slotAddr (s : State) (e : Env) (off : BitVec 9) (l : Nat) : Option Nat :=
  some (addr64 (s.stackBase e.c + (e.slotNo off * e.c.width + l) * 4))

/-- The stack-limit trap, or the access (R208). The rule says that n is formed as i64 and not how s2 is read: the model reads it
unsigned (log 81). -/
def State.stackOr (s : State) (e : Env) (off : BitVec 9) (body : State → State) : State :=
  let n := e.slotNo off
  if n < 0 || n ≥ (min e.f.s2.toNat e.c.stack : Nat) then s.trap e 0x05 (BitVec.ofInt 64 n) e.f.lanes else body s

def execLdStk (d : Reg) (off : BitVec 9) (s : State) : Out :=
  s.issue (.ldStk d off) fun e s => s.stackOr e off fun s => s.loadGlobal e (.ldStk d off) d 4 (s.slotAddr e off) false

def execStG (sz : MSz) (d a : Reg) (off : BitVec 9) (s : State) : Out :=
  s.issue (.stG sz d a off) fun e s => s.storeGlobal e (.stG sz d a off) d (szBytes sz) (isS a) (e.globalAddr a off (szBytes sz))
def execStS (sz : MSz) (d a : Reg) (off : BitVec 9) (s : State) : Out :=
  s.issue (.stS sz d a off) fun e s => s.storeStash e (.stS sz d a off) d (szBytes sz) (e.stashAddr a off (szBytes sz))

/-- st.k (R255): once for the course. -/
def execStK (wide : Bool) (d a : Reg) (off : BitVec 9) (s : State) : Out :=
  let size := if wide then 8 else 4
  s.issue (.stK wide d a off) fun e s =>
    match e.onceAddr a off size with
    | none => s.acceptStore e (.stK wide d a off) false [] [] (some e.f.lanes)
    | some va =>
      s.acceptStore e (.stK wide d a off) false [] [⟨⟨lowestLane e.f.active, va, size⟩, natLe size (e.sb d).toNat⟩]
        (some e.f.active)

def execStStk (d : Reg) (off : BitVec 9) (s : State) : Out :=
  s.issue (.stStk d off) fun e s => s.stackOr e off fun s => s.storeGlobal e (.stStk d off) d 4 true (s.slotAddr e off)

def execLdxG (sz : MSz) (d a b : Reg) (s : State) : Out :=
  s.issue (.ldxG sz d a b) fun e s =>
    s.loadGlobal e (.ldxG sz d a b) d (szBytes sz) (fun l => (e.indexAddr a b (szBytes sz) l).map addr64) false
def execLdxS (sz : MSz) (d a b : Reg) (s : State) : Out :=
  s.issue (.ldxS sz d a b) fun e s => s.loadStash e (.ldxS sz d a b) d (szBytes sz) (e.indexAddr a b (szBytes sz))
def execStxG (sz : MSz) (d a b : Reg) (s : State) : Out :=
  s.issue (.stxG sz d a b) fun e s =>
    s.storeGlobal e (.stxG sz d a b) d (szBytes sz) false (fun l => (e.indexAddr a b (szBytes sz) l).map addr64)
def execStxS (sz : MSz) (d a b : Reg) (s : State) : Out :=
  s.issue (.stxS sz d a b) fun e s => s.storeStash e (.stxS sz d a b) d (szBytes sz) (e.indexAddr a b (szBytes sz))

end Sys2Proof.Machine
end

