-- ==== Sys2Proof/Machine/Atomic.lean ====
section
/-!
DEFINITION. The at class (R264 to R270): atomic operations on global memory, the paths that carry them (R475, R476), and
posted reductions (R477). The read-modify-write itself is done when the operation completes (LOAD_COMPLETE, Engine.lean).
-/

namespace Sys2Proof.Machine

/-! New values (R266 to R268). -/

/-- The format whose absent code makes an operand or a memory word absent; the b and bitwise forms have none. -/
def AtOp.fmt? : AtOp → Nat → Option Fmt
  | .add f, _ | .fadd f, _ | .min f, _ | .max f, _ => some f
  | .slot, 4 => some .n32
  | .slot, _ => some .n64
  | _, _ => none

/-- A pattern is absent for the operation. -/
def AtOp.isAbsent (op : AtOp) (size x : Nat) : Bool :=
  match op.fmt? size with
  | some f => f.isAbsent x
  | none => false

/-- What a lane without an access receives for an absent operand (R265). -/
def AtOp.absentCode (op : AtOp) (size : Nat) : Nat :=
  match op.fmt? size with
  | some f => f.absentCode
  | none => 2 ^ (8 * size) - 1

/-- Minimum or maximum of two patterns of a format (R62, R266). -/
def atMinMax (f : Fmt) (isMax : Bool) (x y : Nat) : Nat :=
  if f.isFloat then f.codeF .rn (Val.minmax isMax (f.valF x) (f.valF y))
  else if (if isMax then f.toInt x < f.toInt y else f.toInt y < f.toInt x) then y else x

/-- The value that an operand puts in place of an absent word (R61): a NaN of a floating form is canonical (R47, R62). -/
def AtOp.first (op : AtOp) (size x : Nat) : Nat :=
  match op.fmt? size with
  | some f => if f.isFloat && f.valF x == .nan then f.codeF .rn .nan else x
  | none => x

/-- new_value(op, old, x); for cas, x is the comparand and y the new value (R61, R266, R267). -/
def AtOp.new (op : AtOp) (size old x y : Nat) : Nat :=
  if op.isAbsent size old then op.first size x else
  match op with
  | .add f => if f.absent.isNone then (old + x) % 2 ^ f.bits else f.sat (f.toInt old + f.toInt x)
  | .fadd f => f.codeF .rn ((f.valF old).add .rn (f.valF x))
  | .min f => atMinMax f false old x
  | .max f => atMinMax f true old x
  | .and => old &&& x
  | .or => old ||| x
  | .xor => old ^^^ x
  | .xchg => x
  | .cas => if old = x then y else old
  | .slot => old

/-- The lanes of one address in ascending order: the final word and each lane's result (R265). -/
def AtOp.serve (op : AtOp) (size : Nat) (old : Nat) : List AtLane → Nat × List (Nat × Nat)
  | [] => (old, [])
  | l :: ls =>
    let (fin, rs) := op.serve size (op.new size old l.x l.y) ls
    (fin, (l.lane, old) :: rs)

/-- The lanes of a slot pair (R268): the lanes, the words NEXT and CAP, and p and g so far. -/
def slotServe (absent next cap : Nat) : Nat → Nat → List AtLane → Nat × List (Nat × Nat)
  | _, g, [] => (g, [])
  | p, g, l :: ls =>
    let fits := next + p + l.x ≤ cap
    let (g', rs) := slotServe absent next cap (p + l.x) (if fits then p + l.x else g) ls
    (g', (l.lane, if fits then next + p else absent) :: rs)

/-! Paths (R475, R476). -/

/-- Whether a window's path carries the form. -/
def carries (w : Window) (op : AtOp) (size : Nat) : Bool :=
  if w.c then true else
  match w.target, op with
  | 1, .add f => f == .b32 || f == .b64
  | 1, .xchg | 1, .cas => true
  | 3, .add _ | 3, .xchg | 3, .cas => true
  | 3, .min f | 3, .max f => f == .i32 || f == .n32 || f == .i64 || f == .n64
  | 3, .fadd _ => w.red && size = 4
  | _, _ => false

/-- The translated units whose path does not carry the form, with the AUX of their records. -/
def State.routeBad (s : State) (ok : Tab Leaf) (op : AtOp) (size opcode : Nat) : Tab (Nat × Nat) :=
  ok.foldl (fun t p =>
    let pa := p.2.pa + (p.1 * 65536 - p.2.va)
    if isUnder pa then t else
    match s.winOf pa with
    | some (n, w) => if carries w op size then t else t.set p.1 (0x22, opcode + 256 * w.target + 1024 * n)
    | none => t) []

/-- A posted lane: a relaxed at.add or at.fadd.f32 to a RED window (R477). -/
def State.isPosted (s : State) (ok : Tab Leaf) (op : AtOp) (size : Nat) (ord : Ord4) (va : Nat) : Bool :=
  let form := match op with
    | .add _ => true
    | .fadd _ => size = 4
    | _ => false
  ord == .rlx && form && match ok.get? (va / 65536) with
    | some l =>
      let pa := l.pa + (va - l.va)
      !isUnder pa && match s.winOf pa with
        | some (_, w) => w.red && w.target = 3
        | none => false
    | none => false

/-! The instructions. -/

/-- The address of a lane (R139, R265). -/
def Env.atomicAddr (e : Env) (a : Reg) (l : Nat) : Option Nat :=
  let base := if isS a then e.sb a else e.vpb a l
  if base == BitVec.allOnes 64 then none else some base.toNat

/-- Operands of a lane: x, and for cas the new value. -/
def Env.atomicOperands (e : Env) (op : AtOp) (size : Nat) (d : Reg) (l : Nat) : Nat × Nat :=
  let reg := fun (n : Nat) => ((e.c.v? (e.vreg d + n) l).getD (BitVec.allOnes 32)).toNat
  let fill := fun (f : Fmt) => if size = 4 then (e.v f d l).toNat else (e.vp f d l).toNat
  let pair := fun (n : Nat) => reg n + 2 ^ 32 * reg (n + 1)
  match op.fmt? size with
  | some f => (fill f, 0)
  | none => if size = 4 then (reg 0, if op == .cas then reg 1 else 0) else (pair 0, if op == .cas then pair 2 else 0)

/-- Writing an atomic's result to a lane. -/
def Course.setAt (c : Course) (reg size lane x : Nat) : Course :=
  if size = 4 then c.setV reg lane (BitVec.ofNat 32 x) else c.setVP reg lane (BitVec.ofNat 64 x)

def AtLane.ofAcc (s : State) (ok : Tab Leaf) (a : Acc) (xy : Nat × Nat) : AtLane :=
  let l : Leaf := (ok.get? (a.va / 65536)).getD ⟨0, 0, 0, false, false, false, 31, 0⟩
  { lane := a.lane, loc := s.leafLoc l a.va, efmt := l.efmt, x := xy.1, y := xy.2 }

def Op.isAtomic (o : Op) : Bool := match o.work with
  | .atomic .. => true
  | _ => false

/-- The at class: checks, the release of ORD, translation and path, and acceptance (R246, R249, R265, R269, R475, R477). -/
def State.atomic (s : State) (e : Env) (i : Instr) (op : AtOp) (size : Nat) (d a : Reg) (ord : Ord4) : State :=
  let span := if op == .slot then 2 * size else size
  let ops := e.lanes.map fun l => (l, e.atomicOperands op size d l)
  let absent := (ops.filter fun p => (e.atomicAddr a p.1).isSome && op.isAbsent size p.2.1).map fun p => p.1
  let accs := ops.filterMap fun p =>
    if op.isAbsent size p.2.1 then none else (e.atomicAddr a p.1).map fun va => (Acc.mk p.1 va span, p.2)
  let none' := e.lanes.filter fun l => (e.atomicAddr a l).isNone
  let odd := accs.filter fun p => p.1.va % span != 0
  match odd with
  | x :: xs =>
    s.trap e 0x07 (BitVec.ofNat 64 (xs.foldl (fun m p => min m p.1.va) x.1.va)) (maskOf (odd.map fun p => p.1.lane))
  | [] =>
  let run := fun (s : State) =>
    match s.sideHit e (accs.map fun p => p.1) with
    | some n => s.await e .counter (.entry e.c.core n)
    | none =>
    match s.plan e (accs.map fun p => p.1) true with
    | .miss us => s.await' e us true false
    | .violation va lanes => s.trap e 0x0C (BitVec.ofNat 64 va) lanes
    | .go ok bad =>
      let opcode := (encode i).toNat / 2 ^ 21 % 64
      let bad := (s.routeBad ok op size opcode).foldl (fun t p => t.set p.1 p.2) bad
      let gs := faultGroups bad (accs.map fun p => p.1) true (encode i).toNat none
      if !gs.isEmpty && s.heldFull e.c.core gs.length then s.holdBack e else
      let good := accs.filter fun p => (faultOf bad p.1).isNone
      let posted := good.filter fun p => s.isPosted ok op size ord p.1.va
      let plain := good.filter fun p => !s.isPosted ok op size ord p.1.va
      let ones := none' ++ posted.map fun p => p.1.lane
      let t := s.updCourse e.r.uid fun c =>
        let c := c.eachLane absent fun l c => c.setAt (e.vreg d) size l (op.absentCode size)
        c.eachLane ones fun l c => c.setAt (e.vreg d) size l (2 ^ (8 * size) - 1)
      let al := fun (p : Acc × Nat × Nat) => AtLane.ofAcc s ok p.1 p.2
      let id := t.nextOp
      let mk := fun (w : Work) (t : State) => t.addOp { uid := e.r.uid, ctx := e.c.ctx, core := e.c.core, work := w }
      let t :=
        if plain.isEmpty then
          (if posted.isEmpty then t else (mk (.posted op size (posted.map al)) t).addStc e.r.uid true)
        else ((mk (.atomic op size (.vector (e.vreg d) size) (plain.map al) (posted.map al)) t).addLdc e.r.uid true).addStc e.r.uid true
      let waits := (ord == .acq || ord == .ar) && !plain.isEmpty
      let t := if gs.isEmpty then t.advance e else t.park e gs
      let earlier := if e.f.only == 0 then [] else (s.ops.filter fun p => p.2.uid == e.r.uid && p.2.isAtomic).map fun p => p.1
      if waits then
        t.updFrag e.r fun f => if f.state == .ready then { f with state := .waiting .counter (.ops (id :: earlier)) } else f
      else t
  if ord == .rel || ord == .ar then s.released e run else run s

def atFmt : AtTy → Fmt
  | .i32 => .i32 | .i64 => .i64 | .n32 => .n32 | .n64 => .n64 | .b32 => .b32 | .b64 => .b64
def atMmFmt : AtMm → Fmt
  | .i32 => .i32 | .i64 => .i64 | .n32 => .n32 | .n64 => .n64 | .f32 => .f32 | .f64 => .f64
def wideSize (wide : Bool) : Nat := if wide then 8 else 4

/-- at.add (R266). -/
def execAtAdd (ty : AtTy) (d a : Reg) (sc : Sc) (ord : Ord4) (s : State) : Out :=
  s.issue (.atAdd ty d a sc ord) fun e s => s.atomic e (.atAdd ty d a sc ord) (.add (atFmt ty)) ((atFmt ty).bits / 8) d a ord
/-- at.fadd (R266). -/
def execAtFadd (wide : Bool) (d a : Reg) (sc : Sc) (ord : Ord4) (s : State) : Out :=
  s.issue (.atFadd wide d a sc ord) fun e s =>
    s.atomic e (.atFadd wide d a sc ord) (.fadd (if wide then .f64 else .f32)) (wideSize wide) d a ord
/-- at.min (R266). -/
def execAtMin (ty : AtMm) (d a : Reg) (sc : Sc) (ord : Ord4) (s : State) : Out :=
  s.issue (.atMin ty d a sc ord) fun e s => s.atomic e (.atMin ty d a sc ord) (.min (atMmFmt ty)) ((atMmFmt ty).bits / 8) d a ord
/-- at.max (R266). -/
def execAtMax (ty : AtMm) (d a : Reg) (sc : Sc) (ord : Ord4) (s : State) : Out :=
  s.issue (.atMax ty d a sc ord) fun e s => s.atomic e (.atMax ty d a sc ord) (.max (atMmFmt ty)) ((atMmFmt ty).bits / 8) d a ord
/-- at.and (R266). -/
def execAtAnd (wide : Bool) (d a : Reg) (sc : Sc) (ord : Ord4) (s : State) : Out :=
  s.issue (.atAnd wide d a sc ord) fun e s => s.atomic e (.atAnd wide d a sc ord) .and (wideSize wide) d a ord
/-- at.or (R266). -/
def execAtOr (wide : Bool) (d a : Reg) (sc : Sc) (ord : Ord4) (s : State) : Out :=
  s.issue (.atOr wide d a sc ord) fun e s => s.atomic e (.atOr wide d a sc ord) .or (wideSize wide) d a ord
/-- at.xor (R266). -/
def execAtXor (wide : Bool) (d a : Reg) (sc : Sc) (ord : Ord4) (s : State) : Out :=
  s.issue (.atXor wide d a sc ord) fun e s => s.atomic e (.atXor wide d a sc ord) .xor (wideSize wide) d a ord
/-- at.xchg (R266). -/
def execAtXchg (wide : Bool) (d a : Reg) (sc : Sc) (ord : Ord4) (s : State) : Out :=
  s.issue (.atXchg wide d a sc ord) fun e s => s.atomic e (.atXchg wide d a sc ord) .xchg (wideSize wide) d a ord
/-- at.cas (R267). -/
def execAtCas (wide : Bool) (d a : Reg) (sc : Sc) (ord : Ord4) (s : State) : Out :=
  s.issue (.atCas wide d a sc ord) fun e s => s.atomic e (.atCas wide d a sc ord) .cas (wideSize wide) d a ord
/-- at.slot (R268). -/
def execAtSlot (wide : Bool) (d a : Reg) (sc : Sc) (ord : Ord4) (s : State) : Out :=
  s.issue (.atSlot wide d a sc ord) fun e s => s.atomic e (.atSlot wide d a sc ord) .slot (wideSize wide) d a ord

end Sys2Proof.Machine
end

