-- ==== Sys2Proof/Machine/Sync.lean ====
section
/-!
DEFINITION. The syn class (R271 to R282): barriers, fences, counter waits, condition monitors and signals.
-/

namespace Sys2Proof.Machine

/-! Wall barriers (R272). -/

/-- Recording every lane of F at barrier b; a lane that was recorded raises BAR_REARRIVE and does not count again. -/
def State.arriveWall (s : State) (e : Env) (b : Nat) : State :=
  let old := e.w.arrivedAt b e.c.index
  let t := s.raiseBy e.c.ctx .barRearrive (popMask (old &&& e.f.lanes))
  t.updWall e.c.age fun w => { w with arrived := w.arrived.set (64 * b + e.c.index) (old ||| e.f.lanes) }

/-! Stash barrier objects (R273, R274). -/

/-- The words of an object: EXPECTED, COUNT and PHASE. -/
def State.barObject (s : State) (w : Wall) (k off : Nat) : Nat × Nat × Nat :=
  let word := fun (i : Nat) => leNat (s.stashBytes w k (off + 4 * i) 4)
  (word 0, word 1, word 2)

/-- n arrivals at an object; the flag says that SBAR_EXCESS rises. -/
def arriveAt (expected count phase n : Nat) : Nat × Nat × Bool :=
  let next := (phase + 1) % 2 ^ 32
  if expected = 0 then (count, next, false)
  else
    let excess := count + n > expected
    let c := if excess then expected else count + n
    if c = expected then (0, next, excess) else (c, phase, excess)

/-- An arrival of n at an object of a wall, by a course or an engine on island k (R274). -/
def State.arriveObject (s : State) (age k off n : Nat) : State :=
  match s.wall? age with
  | none => s
  | some w =>
    let (expected, count, phase) := s.barObject w k off
    let (c, p, excess) := arriveAt expected count phase n
    let t := if excess then s.raise w.ctx .sbarExcess else s
    t.stashWrite age k (cellsAt (off + 4) (natLe 4 c ++ natLe 4 p))

/-- The arrival of an engine operation of a course (R274) at an object, which may lie in a bound region (R262). -/
def State.engineArrive (s : State) (c : Course) (kind seq off : Nat) : State :=
  match (s.wall? c.age).bind fun w => s.boundFail w ((List.range 16).map fun i => off + i) with
  | some x => s.engineLost c.ctx (eidOf kind c.core c.slot seq) x
  | none => s.arriveObject c.age (islandOf c.core) off 1

/-- The alignment and window checks of an object (R246, R247, R249). -/
def State.objectOr (s : State) (e : Env) (off : Nat) (body : State → State) : State :=
  if off % 16 != 0 then s.trapAll e 0x07 off
  else match bytesBeyond e.w.window off 16 with
    | [] => body s
    | x :: xs => s.trap e 0x04 (BitVec.ofInt 64 (xs.foldl min x)) e.f.lanes

/-- The access of a course to an object: its 16 bytes, which may lie in a bound region (R262, R274). -/
def State.objectAt (s : State) (e : Env) (off : Nat) (body : State → State) : State :=
  s.boundOr e true ((List.range 16).map fun i => (0, off + i)) body

def Env.objOff (e : Env) (reg : Reg) : Nat := (e.sb reg).toNat % 2 ^ 32
def Env.objToken (e : Env) (reg : Reg) : Nat := (e.sb reg).toNat / 2 ^ 32

/-- syn.bar (R272, R274). -/
def execSynBar (reg : Reg) (obj : Bool) (bar : BitVec 4) (s : State) : Out :=
  s.issue (.synBar reg obj bar) fun e s =>
    if obj then
      let off := e.objOff reg
      s.objectOr e off fun s => s.released e fun s => s.objectAt e off fun s =>
        let token := (s.barObject e.w e.island off).2.2
        let t := s.arriveObject e.c.age e.island off (popMask e.f.lanes)
        let (expected, count, phase) := s.barObject e.w e.island off
        if (arriveAt expected count phase (popMask e.f.lanes)).2.1 == token then t.await e .barrier (.phase off token true)
        else t.advance e
    else
      s.released e fun s =>
        ((s.arriveWall e bar.toNat).await e .barrier (.wallBarrier bar.toNat)).checkBarrier e.c.age bar.toNat

/-- syn.arrive (R272, R274). -/
def execSynArrive (reg : Reg) (obj : Bool) (bar : BitVec 4) (s : State) : Out :=
  s.issue (.synArrive reg obj bar) fun e s =>
    if obj then
      let off := e.objOff reg
      s.objectOr e off fun s => s.released e fun s => s.objectAt e off fun s =>
        (s.arriveObject e.c.age e.island off (popMask e.f.lanes)).advance e
    else s.released e fun s => ((s.arriveWall e bar.toNat).advance e).checkBarrier e.c.age bar.toNat

/-- syn.bwait (R272, R274). -/
def execSynBwait (reg : Reg) (obj : Bool) (bar : BitVec 4) (s : State) : Out :=
  s.issue (.synBwait reg obj bar) fun e s =>
    if obj then
      let off := e.objOff reg
      s.objectOr e off fun s => s.objectAt e off fun s =>
        if (s.barObject e.w e.island off).2.2 == e.objToken reg then s.await e .barrier (.phase off (e.objToken reg) false)
        else s.advance e
    else if e.w.arrivedAt bar.toNat e.c.index &&& e.f.lanes == 0 then s.advance e
    else s.await e .barrier (.wallBarrier bar.toNat)

/-! Fences and counter waits. -/

/-- Operations of an island with a write to memory outside the package that its port has not acknowledged: stores, atomics and
posted reductions (R341, R477). -/
def State.outPending (s : State) (k : Nat) : List Nat :=
  dedup ((s.stores.filter fun w => w.origin == k && w.cells.any fun c => !isUnder c.1).map (fun w => w.op)
    ++ (s.ops.filter fun p => islandOf p.2.core == k && match p.2.work with
      | .atomic .. | .posted .. => p.2.work.touches.any fun x => !isUnder x.1
      | _ => false).map fun p => p.1)

/-- The second part of a total fence: every island's clock reaches the recorded one, and at sys the outside writes are
acknowledged (R341). -/
def State.drainClocks (s : State) (e : Env) (sc : Sc) (v : List Nat) : State :=
  if (List.range 4).all fun i => (List.range 4).all fun j => v.getD j 0 ≤ s.clockOf i j then
    match (if sc == .sys then s.outPending e.island else []) with
    | [] => (s.updFrag e.r fun f => { f with totV := none }).advance e
    | ids => s.await e .counter (.ops ids)
  else s.await e .counter (.clocks v)

/-- syn.fence (R276, R341). -/
def execSynFence (sc : Sc) (kind : FKind) (s : State) : Out :=
  s.issue (.synFence sc kind) fun e s =>
    match kind with
    | .acq => if e.c.ldc == 0 then s.advance e else s.await e .counter (.counters 0 2047 2047)
    | .rel | .ar => s.released e fun s => s.advance e
    | .tot =>
      match e.f.totV with
      | some v => s.drainClocks e sc v
      | none => s.released e fun s =>
          let v := s.clockRow e.island
          (s.updFrag e.r fun f => { f with totV := some v }).drainClocks e sc v

/-- syn.waitc (R277). -/
def execSynWaitc (loads stores tiles : BitVec 3) (s : State) : Out :=
  s.issue (.synWaitc loads stores tiles) fun e s =>
    if e.c.ldc ≤ loads.toNat && e.c.stc ≤ stores.toNat && e.c.tlc ≤ tiles.toNat then s.advance e
    else s.await e .counter (.counters loads.toNat stores.toNat tiles.toNat)

/-! Condition monitors (R279). -/

/-- The slice of a line: its island, and its number by the physical address (R28, R29). A line outside the package is in the
slice of the island whose port carries it (R19). -/
def sliceOf (pa loc : Nat) : Nat × Nat :=
  (homeIsland loc, (field pa 14 7) ^^^ (field pa 22 15) ^^^ (field pa 30 23) ^^^ (field pa 37 31))

def monitorCap : Nat := 64

/-- Setting a monitor on a line for F, which waits. A slice of 64 lends the one set longest ago (R279). -/
def State.setMonitor (s : State) (e : Env) (pa loc : Nat) (k : WaitKind) : State :=
  let line := lineOf loc
  let slice := sliceOf pa loc
  let here := dedup ((s.monitors.filter fun m => m.slice == slice).map fun m => m.line)
  let t := match here with
    | oldest :: _ =>
      if here.contains line || here.length < monitorCap then s
      else (List.range 4).foldl (fun t i => t.fire i oldest) s
    | [] => s
  let t : State := { t with monitors := t.monitors ++ [⟨line, slice, e.r, e.island, s.clock⟩] }
  t.await e k .fired

/-- The alignment check of a once-per-course address (R246, R249). -/
def State.alignedOr (s : State) (e : Env) (va size : Nat) (body : State → State) : State :=
  if va % size != 0 then s.trapAll e 0x07 va else body s

/-- syn.waitcmp (R279). -/
def execSynWaitcmp (wide ne : Bool) (d a b : Reg) (s : State) : Out :=
  let size := if wide then 8 else 4
  s.issue (.synWaitcmp wide ne d a b) fun e s =>
    if e.sb a == BitVec.allOnes 64 then (s.setS e d (BitVec.allOnes 64)).advance e
    else
      let va := (e.sb a).toNat
      s.alignedOr e va size fun s => s.onceAccess e (.synWaitcmp wide ne d a b) va size false fun pa loc efmt s =>
        let v := s.viewNat e.island efmt loc size
        let cmp := (e.sb b).toNat % 2 ^ (8 * size)
        if (v == cmp) != ne then (s.setS e d (BitVec.ofNat 64 v)).advance e else s.setMonitor e pa loc .monitor

/-! Signals (R281, R282). -/

/-- sD, where D is not 0. -/
def State.setSOr0 (s : State) (e : Env) (d : Reg) (x : Dword) : State := if d == 0 then s else s.setS e d x

/-- syn.sigadd (R281). -/
def execSynSigadd (sc : Sc) (d a b : Reg) (s : State) : Out :=
  let i : Instr := .synSigadd sc d a b
  s.issue i fun e s =>
    if e.sb a == BitVec.allOnes 64 then s.released e fun s => (s.setSOr0 e d (BitVec.allOnes 64)).advance e
    else
      let va := (e.sb a).toNat
      let acc : Acc := ⟨lowestLane e.f.active, va, 8⟩
      s.alignedOr e va 8 fun s => s.released e fun s =>
        match s.sideHit e [acc] with
        | some n => s.await e .counter (.entry e.c.core n)
        | none =>
          match s.plan e [acc] true with
          | .miss us => s.await' e us true false
          | .violation x _ => s.trap e 0x0C (BitVec.ofNat 64 x) e.f.lanes
          | .go ok bad =>
            let word := (encode i).toNat
            match bad with
            | [] =>
              let lane : AtLane := AtLane.ofAcc s ok acc ((e.sb b).toNat, 0)
              let dst : Dest := if d == 0 then .nowhere else e.sDest d
              ((s.addOp { uid := e.r.uid, ctx := e.c.ctx, core := e.c.core,
                          work := .atomic (.add .b64) 8 dst [lane] [] }).addStc e.r.uid true).advance e
            | (unit, code, level) :: _ =>
              if s.heldFull e.c.core 1 then s.holdBack e
              else if d == 0 && s.sideUsed e.c.core < sideCap then
                let one : List StAcc := [⟨acc, natLe 8 (e.sb b).toNat⟩]
                (s.sideAdd e word unit code level one one (some (e.sb b))).advance e
              else
                let t := if d == 0 then s.raise e.c.ctx .sidelogFull else s
                t.park e (faultGroups bad [acc] true word (some e.f.active))

/-- syn.sigwait (R282). -/
def execSynSigwait (sc : Sc) (d a b : Reg) (s : State) : Out :=
  s.issue (.synSigwait sc d a b) fun e s =>
    if e.sb a == BitVec.allOnes 64 then (s.setSOr0 e d (BitVec.allOnes 64)).advance e
    else
      let va := (e.sb a).toNat
      s.alignedOr e va 8 fun s => s.onceAccess e (.synSigwait sc d a b) va 8 false fun pa loc efmt s =>
        let v := BitVec.ofNat 64 (s.viewNat e.island efmt loc 8)
        if v.toInt ≤ (e.sb b).toInt then (s.setSOr0 e d v).advance e else s.setMonitor e pa loc .signal

end Sys2Proof.Machine
end

