-- ==== Sys2Proof/Machine/Queue.lean ====
section
/-!
DEFINITION. Work queues and launch queues (R73, R84, R283 to R286): the queue unit's ring and the wq class.
-/

namespace Sys2Proof.Machine

/-- The virtual address of entry n of a queue (R283). -/
def Queue.slotVa (q : Queue) (n : Nat) : Nat := q.ring + n % q.cap * 64

/-- A push to a queue releases the fragments that wait for one (R84). -/
def State.wakePush (s : State) (q : Nat) : State :=
  { s with courses := s.courses.mapV fun c => { c with frags := c.frags.mapV fun f =>
      match f.state with
      | .waiting _ (.pushed qs) => if qs.contains q then f.wake s.clock else f
      | _ => f } }

/-- The queue unit accepts a record: it joins the entries and is written to its ring slot (R283). -/
def State.pushRecord (s : State) (n : Nat) (q : Queue) (bytes : List Byte) : State :=
  let va := q.slotVa (q.headNo + q.entries.length)
  let t := s.updQueue n fun q => { q with entries := q.entries ++ [bytes] }
  (t.writeUnits (n / 1024) q.units (cellsAt va bytes)).wakePush n

/-- The bytes that the oldest entry of a queue delivers: those that were pushed, or undefined ones where another agent has
written the slot (R283; log 3). -/
def State.headBytes (s : State) (q : Queue) (entry : List Byte) : List Byte :=
  let va := q.slotVa q.headNo
  let ring := (List.range 64).map fun i => s.byteLatest (s.place (unitLoc q.units (va + i)).1)
  if ring == entry then entry else (List.range 64).map fun i => Config.freeByte s.steps i

/-- The access of F to the ring slot of entry n: it takes trap 0x0C where a window no longer maps the slot (R359, R473), and a
read meets an uncorrectable error (R485). -/
def State.slotOr (s : State) (e : Env) (q : Queue) (n : Nat) (read : Bool) (body : State → State) : State :=
  let vas := (List.range 64).map fun i => q.slotVa n + i
  match s.unmappedIn q.units vas with
  | some va => s.trapAll e 0x0C va
  | none => if read then s.unmarkedOr e.c.ctx (vas.map fun va => (unitLoc q.units va).1) body else body s

/-- Taking the oldest entry off a queue. -/
def Queue.dropHead (q : Queue) : Queue := { q with entries := q.entries.drop 1, headNo := q.headNo + 1 }

/-- The queue that a number names for a context, if it is of the kind. One that is not configured belongs to no context: R285
does not name it, and a push to it answers as one to another context's (log 83). -/
def State.ownQueue (s : State) (ctx n : Nat) (work : Bool) : Option Queue :=
  if n > 4095 then none else (s.queue? n).filter fun q => q.ctx == ctx && q.work == work

/-- The queues that a pop visits, in order (R84). -/
def State.stealRing (s : State) (ctx : Nat) : Nat → List Nat → Nat → List Nat
  | 0, seen, _ => seen
  | k + 1, seen, n =>
    match s.ownQueue ctx n true with
    | none => seen
    | some q => if seen.contains n then seen else s.stealRing ctx k (seen ++ [n]) q.succ

/-- The checks on the stash record of a wq form (R249, R284), made by every form, also where it does not access the record
(log 82). -/
def State.recordOr (s : State) (e : Env) (off : Nat) (body : State → State) : State :=
  if off % 64 != 0 then s.trapAll e 0x07 off
  else match bytesBeyond e.w.window off 64 with
    | [] => body s
    | x :: xs => s.trap e 0x04 (BitVec.ofInt 64 (xs.foldl min x)) e.f.lanes

/-- The access of a wq form to its stash record, which may lie in a bound region (R262). Only a push that is accepted and a pop
that delivers make it (log 82). -/
def State.recordAt (s : State) (e : Env) (off : Nat) (body : State → State) : State :=
  s.boundOr e true ((List.range 64).map fun i => (0, off + i)) body

/-- wq.push and wq.launch (R285). -/
def State.push (s : State) (e : Env) (work : Bool) (d a b : Reg) : State :=
  let off := (e.sb b).toNat
  s.recordOr e off fun s => s.releasedTo e fun s =>
    let n := (e.sb a).toNat
    match s.ownQueue e.c.ctx n work with
    | none => (s.setS e d 2).advance e
    | some q =>
      if q.entries.length ≥ q.cap then (s.setS e d 1).advance e
      else s.slotOr e q (q.headNo + q.entries.length) false fun s => s.recordAt e off fun s =>
        ((s.pushRecord n q (s.stashBytes e.w e.island off 64)).setS e d 0).advance e

/-- wq.pop and wq.trypop (R286). -/
def State.pop (s : State) (e : Env) (blocking : Bool) (d a b : Reg) : State :=
  let off := (e.sb b).toNat
  s.recordOr e off fun s =>
    match s.stealRing e.c.ctx 64 [] (e.sb a).toNat with
    | [] => (s.setS e d (BitVec.allOnes 64)).advance e
    | ring =>
      let hit := ring.findSome? fun n =>
        match s.queue? n with
        | some q => (q.entries.head?).map fun b => (n, q, b)
        | none => none
      match hit with
      | some (n, q, entry) => s.slotOr e q q.headNo true fun s => s.recordAt e off fun s =>
        let t := s.stashWrite e.c.age e.island (cellsAt off (s.headBytes q entry))
        ((t.updQueue n Queue.dropHead).setS e d (BitVec.ofNat 64 n)).advance e
      | none =>
        if blocking then s.await e .queue (.pushed ring) else (s.setS e d (BitVec.allOnes 64)).advance e

/-- wq.push (R285). -/
def execWqPush (d a b : Reg) (s : State) : Out := s.issue (.wqPush d a b) fun e s => s.push e true d a b
/-- wq.pop (R286). -/
def execWqPop (d a b : Reg) (s : State) : Out := s.issue (.wqPop d a b) fun e s => s.pop e true d a b
/-- wq.trypop (R286). -/
def execWqTrypop (d a b : Reg) (s : State) : Out := s.issue (.wqTrypop d a b) fun e s => s.pop e false d a b
/-- wq.launch (R285). -/
def execWqLaunch (d a b : Reg) (s : State) : Out := s.issue (.wqLaunch d a b) fun e s => s.push e false d a b

end Sys2Proof.Machine
end

