-- ==== Sys2Proof/Machine/Tile.lean ====
section
/-!
DEFINITION. The tl class (R288 to R311): the format register, matrix steps (R67, R297 to R304), filling and draining tiles.
Operations are accepted here; what they do to their tile when they complete stands here too, for Engine.lean.
-/

namespace Sys2Proof.Machine

/-! The siblings of a tile instruction (R102). -/

/-- The illegal-convergence trap; FADDR names the live fragment that holds the lowest lane outside F (R102, R370), or `stray`
where no such lane is left. -/
def State.trapStray (s : State) (e : Env) (stray : Nat) : State :=
  s.trap e 0x03 (fidOf e.c ((e.c.outsider e.f.lanes).getD stray)) e.f.lanes

/-- F merges with a sibling that already waits at this instruction, or waits for parked siblings, or traps for others, and
for a sibling that entered another wait while F waited. -/
def State.asWhole (s : State) (e : Env) (body : State → State) : State :=
  match e.f.diverged with
  | some n => s.trapStray e n
  | none =>
  let others := e.c.frags.filter fun p => p.1 != e.r.serial
  let same := others.find? fun p =>
    p.2.state == .waiting .tile .siblings && p.2.pc == e.f.pc && p.2.joins == e.f.joins
  match same with
  | some p => s.merge e.r.uid [e.r.serial, p.1] fun f => { f with state := .waiting .tile .siblings }
  | none =>
    if others.isEmpty then body s
    else if others.all fun p => match p.2.state with
      | .parked _ _ => true
      | _ => false
    then s.await e .tile .siblings
    else s.trapStray e 0

/-! The format register (R293, R294). -/

/-- What a valid FMT names: the formats of A and B, the group size, and whether the accumulator is i32. -/
structure TileFmt where
  a : Fmt
  b : Fmt
  group : Nat
  acc32 : Bool
  deriving DecidableEq, Repr

def isNarrowFloat (f : Fmt) : Bool := f == .e5m2 || f == .e4m3 || f == .q8
def isHalfFloat (f : Fmt) : Bool := f == .f16 || f == .bf16
def isNibble (f : Fmt) : Bool := f == .e2m1 || f == .q4
def isQuant (f : Fmt) : Bool := f == .q8 || f == .q4

/-- The valid values of FMT (R293, R294). -/
def tileFmt (x : Nat) : Option TileFmt :=
  if x / 2 ^ 12 != 0 then none else
  match Fmt.ofCode (field x 4 0), Fmt.ofCode (field x 9 5) with
  | some a, some b =>
    let group := [0, 32, 64, 128].getD (field x 11 10) 0
    let grouped := (isQuant a || isQuant b) == (group != 0)
    if a == .f32 && b == .f32 && grouped then some ⟨a, b, group, false⟩
    else if isHalfFloat a && isHalfFloat b && grouped then some ⟨a, b, group, false⟩
    else if isNarrowFloat a && isNarrowFloat b && grouped then some ⟨a, b, group, false⟩
    else if isNibble a && isNibble b && grouped then some ⟨a, b, group, false⟩
    else if ((a == .i8 && b == .i8) || (a == .i4 && b == .i4)) && grouped then some ⟨a, b, group, true⟩
    else none
  | _, _ => none

/-- The format that the tile instructions of a course read; a placed course holds a valid one (R293). -/
def Env.fmtInfo (e : Env) : TileFmt := (tileFmt e.c.fmt.toNat).getD ⟨.f32, .f32, 0, false⟩

/-- K of a step (R294). -/
def TileFmt.k (t : TileFmt) : Nat := 256 / t.a.bits

/-- The absent code of the accumulator (R307). -/
def TileFmt.absent (t : TileFmt) : Word := if t.acc32 then 0x80000000#32 else 0xFFFFFFFF#32

/-! Element values (R44, R50, R51). -/

/-- Element k of a row of bytes. -/
def elemCode (bits k : Nat) (row : List Byte) : Nat :=
  if bits = 4 then ((row.getD (k / 2) 0).toNat / (if k % 2 = 0 then 1 else 16)) % 16
  else leNat ((row.drop (k * (bits / 8))).take (bits / 8))

/-- The value of an element under its scale (R50, R51). A code equal to its zero point has the value scale × 0, whose sign the
rule leaves open: the model takes the sign of the product, so a negative scale gives −0 (log 69). -/
def elemVal (f : Fmt) (code : Nat) : EScale → Val
  | .one => f.val code
  | .block sc =>
    if sc = 0xFF then .absent else
    match f.valF code with
    | .fin neg m e => .fin neg m (e + (sc : Int) - 127)
    | v => v
  | .group sc zp =>
    if f.isAbsent code then .absent else
    match Fmt.i8.int? zp, Fmt.f16.valF sc with
    | none, _ => .absent
    | _, .absent => .absent
    | some z, v =>
      let d := (code : Int) - z
      v.mul (.fin (d < 0) d.natAbs 0)

/-- Bytes of the scales that an operand of n positions along K reads (R301). -/
def scaleBytes (f : Fmt) (group n : Nat) : Nat :=
  if f == .e4m3 || f == .e2m1 then 64 * ((n + 31) / 32)
  else if isQuant f then 192 * ((n + group - 1) / group)
  else 0

/-- The scale of row or column i at position n along K (R301). -/
def scaleAt (f : Fmt) (group : Nat) (scales : List Byte) (n i : Nat) : EScale :=
  if f == .e4m3 || f == .e2m1 then .block (scales.getD (64 * (n / 32) + i) 0).toNat
  else if isQuant f then
    let g := 192 * (n / group)
    .group (leNat ((scales.drop (g + 2 * i)).take 2)) (scales.getD (g + 128 + i) 0).toNat
  else .one

/-! The A operand and the latch (R297, R303). -/

/-- The bits an unwritten register supplies to a read in a matrix format (R55). -/
def fillElems (f : Fmt) : Word :=
  (List.range (32 / f.bits)).foldl (fun w i => w ||| BitVec.ofNat 32 (f.absentCode <<< (i * f.bits))) 0

/-- Row i of the A slice of step t: 8 registers of one lane, none for an exited lane. -/
def Env.aRow (e : Env) (f : Fmt) (a : Reg) (t i : Nat) : Option (List Byte) :=
  let lane := i % e.c.width
  if e.c.exited.getLsbD lane then none else
  let first := e.vreg a + t * groupA e.c.width + 8 * (i / e.c.width)
  some ((List.range 8).flatMap fun n => natLe 4 ((e.c.v? (first + n) lane).getD (fillElems f)).toNat)

def Env.aSlice (e : Env) (f : Fmt) (a : Reg) (t : Nat) : List (Option (List Byte)) := (List.range 64).map (e.aRow f a t)

/-! Ranges of the stash window. -/

/-- The lowest offending offset of a range. -/
def lowBeyond (window : Nat) (r : Int × Nat) : Option Int :=
  if r.2 = 0 then none
  else if r.1 < 0 then some r.1
  else if (window : Int) < r.1 + r.2 then some (max r.1 window)
  else none

/-- The stash-bounds trap of an instruction that acts for F as a whole, with the lowest offending offset (R302, R310, R314). -/
def State.rangesOr (s : State) (e : Env) (rs : List (Int × Nat)) (body : State → State) : State :=
  match rs.filterMap (lowBeyond e.w.window) with
  | [] => body s
  | x :: xs => s.trap e 0x04 (BitVec.ofInt 64 (xs.foldl min x)) e.f.lanes

/-- The pages that ranges touch. -/
def pagesOfAll (rs : List (Nat × Nat)) : List Nat := dedup (rs.flatMap fun r => pagesOf r.1 r.2)

/-- The span tag of a page (R300). -/
def Wall.tagOf (w : Wall) (page : Nat) : Nat := w.tags.getD page 0

/-! Acceptance by an engine (R308, R358). -/

/-- F parks as one group on the range of an engine operation. -/
def State.parkWhole (s : State) (e : Env) (i : Instr) (code aux va : Nat) (write : Bool) : State :=
  if s.heldFull e.c.core 1 then s.holdBack e else
  s.park e [{ lanes := e.f.active, code := code, on := .service,
              info := some { unit := va / 65536, vaddr := va, aux := aux, write := write, origin := 0,
                             word := (encode i).toNat } }]

/-- The units of ranges, each with the first address needed in it. -/
def rangeUnits (ranges : List (Nat × Nat)) : Tab Nat :=
  (ranges.flatMap fun r => unitsFrom r.1 r.2).foldl (fun (t : Tab Nat) (u : Nat × Nat) =>
    match Tab.get? t u.1 with
    | none => Tab.set t u.1 u.2
    | some a => Tab.set t u.1 (min a u.2)) []

/-- A range that does not translate: a violation traps, a marked line ends the context, a repairable fault parks F. -/
def State.engineFail (s : State) (e : Env) (i : Instr) (mark : Bool) (x : XFail) : State :=
  if x.code = eccCode then s.memError x.va e.c.ctx
  else if x.code = 0x0C then s.trapAll e 0x0C x.va
  else s.parkWhole e i x.code x.level x.va mark

/-- Translating the global ranges of an engine operation at acceptance; a violation traps, a repairable fault parks F with a
record that says `mark` for WRITE. -/
def State.engineRangeAs (s : State) (e : Env) (i : Instr) (write mark : Bool) (ranges : List (Nat × Nat))
    (body : Rng → State → State) : State :=
  match s.xlateUnits e.island e.c.ctx write (rangeUnits ranges) with
  | .error x => s.engineFail e i mark x
  | .ok g => body g (s.learn e.island e.c.ctx g.leaves)

def State.engineRange (s : State) (e : Env) (i : Instr) (write : Bool) (ranges : List (Nat × Nat)) (body : Rng → State → State) :
    State := s.engineRangeAs e i write write ranges body

/-- Pinning the pages, or waiting for room (R308). -/
def State.pinOr (s : State) (e : Env) (k : WaitKind) (g : Rng) (body : State → State) : State :=
  match s.pinAll e.island e.c.ctx g.pages with
  | some t => body t
  | none => (s.raise e.c.ctx .pinWait).await e k (.pinRoom e.island e.c.ctx g.pages)

/-- A tile operation is accepted: it joins the sequencer, and TLC rises (R290, R291). -/
def State.acceptTile (s : State) (e : Env) (pins : List (Nat × Nat × Nat)) (w : Work) : State :=
  ((s.addOp { uid := e.r.uid, ctx := e.c.ctx, core := e.c.core, pins := pins, work := w }).addTlc e.r.uid true).advance e

/-! The instructions. -/

/-- tl.setfmt (R295). -/
def execTlSetfmt (a : Reg) (s : State) : Out :=
  s.issue (.tlSetfmt a) fun e s => s.asWhole e fun s =>
    let x := e.sb a
    if (tileFmt x.toNat).isSome then (s.updCourse e.r.uid fun c => { c with fmt := x.extractLsb' 0 12 }).advance e
    else s.trapAll e 0x0D x.toNat

/-- tl.zero (R307). -/
def execTlZero (d : Reg) (s : State) : Out :=
  s.issue (.tlZero d) fun e s => s.asWhole e fun s => s.acceptTile e [] (.tlZero d.toNat e.fmtInfo.absent)

/-- tl.load (R307, R308). -/
def execTlLoad (d a : Reg) (s : State) : Out :=
  s.issue (.tlLoad d a) fun e s => s.asWhole e fun s =>
    if e.sb a == BitVec.allOnes 64 then s.acceptTile e [] (.tlLoad d.toNat none [])
    else
      let va := (e.sb a).toNat
      if va % 128 != 0 then s.trapAll e 0x07 va
      else s.engineRange e (.tlLoad d a) false [(va, 16384)] fun g s =>
        s.pinOr e .tile g fun s => s.acceptTile e g.pages (.tlLoad d.toNat (some va) g.units)

/-- The fields of the layout word (R298). -/
structure MmaWord where
  asc : Nat
  bsc : Nat
  pitch : Nat
  reserved : Nat
  span : Nat
  deriving DecidableEq, Repr

def mmaWord (x : Nat) : MmaWord :=
  { asc := 16 * field x 63 48, bsc := 16 * field x 47 32, pitch := 16 * field x 31 16, reserved := field x 15 3, span := field x 2 0 }

/-- tl.mma (R296 to R303). -/
def execTlMma (reuse kc : Bool) (kn : BitVec 3) (d a b : Reg) (s : State) : Out :=
  s.issue (.tlMma reuse kc kn d a b) fun e s => s.asWhole e fun s =>
    let f := e.fmtInfo
    let steps := kn.toNat + 1
    let off := (e.sb b).toNat
    let w := mmaWord (e.sb2 b).toNat
    let n := f.k * steps
    let rowBytes := 64 * f.b.bits / 8
    if off % 16 != 0 then s.trapAll e 0x07 off else
    let rows := (List.range n).map fun k => (off + k * w.pitch, rowBytes)
    let sa := (w.asc, scaleBytes f.a f.group n)
    let sb := (w.bsc, scaleBytes f.b f.group n)
    let all : List (Int × Nat) := (rows ++ [sa, sb]).map fun r => ((r.1 : Int), r.2)
    s.rangesOr e all fun s =>
      if w.pitch < rowBytes || w.reserved != 0 || (pagesOfAll rows).any fun p => e.w.tagOf p != w.span then s.trapAll e 0x0D off
      else
        let touched := rows.flatMap (fun r => (List.range r.2).map fun i => swz (r.1 + i) w.span)
          ++ [sa, sb].flatMap fun r => (List.range r.2).map fun i => r.1 + i
        s.boundOr e true (touched.map fun o => (0, o)) fun s =>
        let scA := s.stashBytes e.w e.island sa.1 sa.2
        let scB := s.stashBytes e.w e.island sb.1 sb.2
        let fresh := (List.range steps).map (e.aSlice f.a a)
        let slices : List (Option (List (Option (List Byte)))) :=
          (List.range steps).map fun t => if reuse then e.c.latch[t]? else fresh[t]?
        let missing := (slices.filter Option.isNone).length
        let kstep := fun (t : Nat) => (slices[t]?.join).map fun slice =>
          let aVals := (List.range 64).map fun i => match slice[i]?.join with
            | none => List.replicate f.k Val.absent
            | some row => (List.range f.k).map fun kk =>
                elemVal f.a (elemCode f.a.bits kk row) (scaleAt f.a f.group scA (t * f.k + kk) i)
          let bVals := (List.range f.k).map fun kk =>
            let row := s.stashBytesSwz e.w e.island (off + (t * f.k + kk) * w.pitch) rowBytes w.span
            (List.range 64).map fun j => elemVal f.b (elemCode f.b.bits j row) (scaleAt f.b f.group scB (t * f.k + kk) j)
          KStep.mk aVals bVals
        let ks := (List.range steps).filterMap kstep
        let t := s.raiseBy e.c.ctx .mmaLatchEmpty missing
        let t := if reuse then t else t.updCourse e.r.uid fun c => { c with latch := fresh }
        t.acceptTile e [] (.tlMma d.toNat kc f.acc32 ks)

/-! Drains (R309 to R311). -/

/-- The drain word (R309). -/
structure DrainWord where
  amOff : Int
  amSc : Nat
  amax : Bool
  stash : Bool
  span : Nat
  pitch : Nat
  scale : Nat
  reserved : Nat
  tgt : Nat
  deriving DecidableEq, Repr

def drainWord (x : Nat) : DrainWord :=
  { amOff := (BitVec.ofNat 24 (field x 63 40)).toInt, amSc := field x 39 37, amax := x.testBit 36, stash := x.testBit 35,
    span := field x 34 32, pitch := field x 31 16, scale := field x 15 8, reserved := field x 7 5, tgt := field x 4 0 }

/-- The conditions of R310 on a drain word. -/
def DrainWord.valid (w : DrainWord) (acc32 : Bool) : Bool :=
  let plain := w.scale == 0x7F && !w.amax
  let tgtOk :=
    if !acc32 && w.tgt ≤ 5 then w.scale ≤ 0xFE
    else if acc32 && (w.tgt == 10 || w.tgt == 6 || w.tgt == 7) then plain
    else if w.tgt == 13 || w.tgt == 11 || w.tgt == 17 then plain
    else false
  tgtOk && w.pitch % 16 == 0 && tgtRow w.tgt ≤ w.pitch && w.reserved == 0 && (w.stash || w.span == 0)
    && (!w.amax || w.stash || w.amSc ≤ 5)

/-- The window that carries a virtual address of a context. -/
def State.windowAt (s : State) (k ctx va : Nat) : Option (Nat × Window) :=
  match s.xlate k ctx (va / 65536 * 65536) true with
  | .ok l => s.winOf (l.pa + (va - l.va))
  | _ => none

/-- tl.drain (R309 to R311). The bounds of rows of a target that is not allowed are those of the code's format (log
106), and the drain word is checked where the destination is absent too (log 110). -/
def execTlDrain (d a : Reg) (s : State) : Out :=
  s.issue (.tlDrain d a) fun e s => s.asWhole e fun s =>
    let f := e.fmtInfo
    let dst : Nat := (e.sb a).toNat
    let x := e.sb2 a
    let w := drainWord x.toNat
    let off : Nat := dst % 2 ^ 32
    let row := tgtRow w.tgt
    let am := (off : Int) + w.amOff * 8
    let ranges : List (Int × Nat) :=
      if w.stash then ((List.range 64).map fun i => (((off + i * w.pitch : Nat) : Int), row)) ++ (if w.amax then [(am, 4)] else [])
      else []
    let absentDst := !w.stash && e.sb a == BitVec.allOnes 64
    if w.stash && off % 16 != 0 then s.trapAll e 0x07 off
    else if !w.stash && !absentDst && dst % 16 != 0 then s.trapAll e 0x07 dst
    else s.rangesOr e ranges fun s =>
      if !w.valid f.acc32 then s.trapAll e 0x0D x.toNat
      else
        let mk := fun (us : Tab (Nat × Nat)) => Work.tlDrain d.toNat
          { dst := if w.stash then off else dst, absentDst := absentDst, stash := w.stash, span := w.span, pitch := w.pitch,
            scale := w.scale, tgt := w.tgt, amax := w.amax, amOff := w.amOff * 8, acc32 := f.acc32 } us
        if absentDst then s.acceptTile e [] (mk [])
        else if w.stash then
          let pages := pagesOfAll (ranges.map fun r => (r.1.toNat, r.2))
          (s.updWall e.c.age fun w' => w'.setTags pages w.span).acceptTile e [] (mk [])
        else
          let amVa := ((dst : Int) + w.amOff * 8) % 2 ^ 64 |>.toNat
          let gl := (dst, 63 * w.pitch + row) :: (if w.amax then [(amVa, 4)] else [])
          s.engineRange e (.tlDrain d a) true gl fun g s =>
            match (if w.amax then (s.windowAt e.island e.c.ctx amVa).filter fun w => !carries w.2 (.max .f32) 4 else none) with
            | some (n, win) => s.parkWhole e (.tlDrain d a) 0x22 (0x10 + 256 * win.target + 1024 * n) amVa true
            | none => s.pinOr e .tile g fun s => s.acceptTile e g.pages (mk g.units)

/-! What tile operations do (R67, R68, R304, R307, R311). -/

/-- The keys of a tile's elements. -/
def zBase (half tile : Nat) : Nat := 32768 * half + 4096 * tile

def Wall.zAt (w : Wall) (key : Nat) : Word := w.z.getD key 0xFFFFFFFF#32
def Wall.setZ (w : Wall) (key : Nat) (x : Word) : Wall :=
  { w with z := if x = 0xFFFFFFFF#32 then w.z.erase key else w.z.set key x }

/-- The half of a twin that a core is; a wall on one core has one half (R288). -/
def Wall.halfOf (w : Wall) (core : Nat) : Nat := if w.twin then core % 2 else 0

/-- The count of a count-plane element (R304). -/
def countOf (x : Word) : Nat := if x.toNat / 65536 = 0 then x.toNat else 0

/-- One element of one K-step: the new accumulator and the number of kept products, none where none is kept (R67). -/
def mmaElem (acc32 : Bool) (z : Word) (prods : List Val) : Option Word :=
  match prods with
  | [] => none
  | _ =>
    let t := exactSum prods
    if acc32 then
      let sum : Int := match t with
        | .fin neg m e => scaled neg m e 0
        | _ => 0
      let old : Int := if Fmt.i32.isAbsent z.toNat then 0 else Fmt.i32.toInt z.toNat
      some (BitVec.ofNat 32 (Fmt.i32.sat (old + sum)))
    else
      let tc := Fmt.f32.codeF .rn t
      if Fmt.f32.isAbsent z.toNat then some (BitVec.ofNat 32 tc)
      else some (BitVec.ofNat 32 (Fmt.f32.codeF .rn ((Fmt.f32.valF z.toNat).add .rn (Fmt.f32.valF tc))))

/-- The kept products of row i and column j in a K-step (R67). -/
def KStep.prods (k : KStep) (i j : Nat) : List Val :=
  ((k.a.getD i []).zip (k.b.map fun row => row.getD j .absent)).filterMap fun p =>
    if p.1 == .absent || p.2 == .absent then none else some (p.1.mul p.2)

/-- A K-step applied to a tile and, under KC, its count plane. -/
def Wall.applyStep (w : Wall) (half z : Nat) (kc acc32 : Bool) (k : KStep) : Wall :=
  (List.range 64).foldl (fun w i => (List.range 64).foldl (fun w j =>
    let key := zBase half z + 64 * i + j
    let prods := k.prods i j
    match mmaElem acc32 (w.zAt key) prods with
    | none => w
    | some x =>
      let w := w.setZ key x
      if kc then
        let ck := zBase half (z + 1) + 64 * i + j
        w.setZ ck (BitVec.ofNat 32 (min (countOf (w.zAt ck) + prods.length) 65535))
      else w) w) w

/-- Filling a tile with words by element. -/
def Wall.fillTile (w : Wall) (half z : Nat) (g : Nat → Word) : Wall :=
  (List.range 4096).foldl (fun w n => w.setZ (zBase half z + n) (g n)) w

/-- Filling rows lo to hi of a tile with words by element. -/
def Wall.fillRows (w : Wall) (half z lo hi : Nat) (g : Nat → Word) : Wall :=
  (List.range (64 * (hi - lo))).foldl (fun w n => w.setZ (zBase half z + 64 * lo + n) (g (64 * lo + n))) w

/-- The drained code of an accumulator word (R68, R310, R311). -/
def drainCode (acc32 : Bool) (tgt scale : Nat) (x : Word) : Nat :=
  match Fmt.ofCode tgt with
  | none => 0
  | some f =>
    if tgt = 17 || tgt = 10 then x.toNat
    else if tgt = 13 || tgt = 11 then min (countOf x) (2 ^ f.bits - 2)
    else if acc32 then f.drain (Fmt.i32.val x.toNat)
    else match Fmt.f32.valF x.toNat with
      | .fin neg m e => f.drain (.fin neg m (e + 127 - (scale : Int)))
      | v => f.drain v

/-- The bytes of a row of 64 codes (R44). -/
def packRow (bits : Nat) (codes : List Nat) : List Byte :=
  if bits = 4 then (List.range (codes.length / 2)).map fun i => BitVec.ofNat 8 (codes.getD (2 * i) 0 + 16 * codes.getD (2 * i + 1) 0)
  else codes.flatMap fun c => natLe (bits / 8) c

/-- The greatest |x| over the values that are neither absent nor NaN, as an f32 code (R311). -/
def absMax (xs : List Word) : Option Nat :=
  xs.foldl (fun m x =>
    match Fmt.f32.valF x.toNat with
    | .absent | .nan => m
    | _ => some (max (m.getD 0) (x.toNat % 2 ^ 31))) none

end Sys2Proof.Machine
end

