-- ==== Sys2Proof/Machine/Copy.lean ====
section
/-!
DEFINITION. The copy engine's instructions (R312 to R317) and bound stash regions (R260 to R263). COPY_COMPLETE stands in
Engine.lean.
-/

namespace Sys2Proof.Machine

/-- A number of n bytes that the spec leaves open (log 3). -/
def State.freeNat (s : State) (n : Nat) : Nat := leNat ((List.range n).map fun i => Config.freeByte s.steps i)

/-! Batches (R316). -/

/-- The course's batches that are complete, in order; the engine arrives at their objects. The number bounds the batches. -/
def State.settleBatches (s : State) (uid : Nat) : Nat → State
  | 0 => s
  | n + 1 =>
    match s.course? uid with
    | none => s
    | some c =>
      match c.batches with
      | ⟨_, [], obj⟩ :: rest =>
        let t := s.updCourse uid fun c => { c with batches := rest }
        let t := match obj with
          | some off => t.engineArrive c 0 0 off
          | none => t
        t.settleBatches uid n
      | _ => s

/-- Everything that batches can complete now. -/
def State.checkBatches (s : State) (uid : Nat) : State :=
  s.settleBatches uid (((s.course? uid).map fun c => c.batches.length).getD 0)

/-! Copies (R313, R314). -/

/-- The stash word. -/
structure StashWord where
  off : Nat
  span : Nat
  reserved : Nat
  deriving DecidableEq, Repr

def stashWord (x : Nat) : StashWord := { off := field x 31 0, span := field x 34 32, reserved := field x 63 35 }

/-- The shape word: row length, rows, and stride with 0 meaning the row length. -/
structure ShapeWord where
  len : Nat
  rows : Nat
  stride : Nat
  deriving DecidableEq, Repr

def shapeWord (x : Nat) : ShapeWord :=
  let len := field x 23 0
  let st := 16 * field x 63 40
  { len := len, rows := field x 39 24, stride := if st = 0 then len else st }

/-- The rows of a global side. -/
def ShapeWord.ranges (h : ShapeWord) (base : Nat) : List (Nat × Nat) :=
  (List.range h.rows).map fun r => ((base + r * h.stride) % 2 ^ 64, h.len)

/-- Both global sides of a copy, translated for reading and for writing; a violation of either decides (R308, R359). -/
def State.copyRanges (s : State) (e : Env) (i : Instr) (reads writes : List (Nat × Nat)) (body : Rng → State → State) : State :=
  let go := fun (write : Bool) (x : XFail) => s.engineFail e i write x
  match s.xlateUnits e.island e.c.ctx false (rangeUnits reads), s.xlateUnits e.island e.c.ctx true (rangeUnits writes) with
  | .ok g, .ok h =>
    body { units := h.units.foldl (fun t p => t.set p.1 p.2) g.units, pages := dedup (g.pages ++ h.pages) }
      (s.learn e.island e.c.ctx (g.leaves ++ h.leaves))
  | .error x, .ok _ => go false x
  | .ok _, .error y => go true y
  | .error x, .error y =>
    if x.code = eccCode then go false x
    else if y.code = eccCode then go true y
    else if x.code = 0x0C && y.code = 0x0C then go false { x with va := min x.va y.va }
    else if x.code = 0x0C then go false x
    else if y.code = 0x0C then go true y
    else if y.va < x.va then go true y
    else go false x

/-- A copy is accepted and pending (R315, R316). -/
def State.acceptCopy (s : State) (e : Env) (pins : List (Nat × Nat × Nat)) (w : Work) : State :=
  let id := s.nextOp
  ((s.addOp { uid := e.r.uid, ctx := e.c.ctx, core := e.c.core, pins := pins, work := w }).updCourse e.r.uid fun c =>
    { c with copies := c.copies ++ [id] }).advance e

/-- The checks of R314 for addresses and the shape, in the order of R249. `globals` are the global bases, `st` the stash word. -/
def State.copyChecks (s : State) (e : Env) (globals : List Nat) (st : Option (Nat × Bool)) (h : ShapeWord) (body : State → State) :
    State :=
  let sw := st.map fun p => stashWord p.1
  let odd := globals.filter (fun g => g % 16 != 0) ++ (sw.toList.filter fun w => w.off % 16 != 0).map fun w => w.off
  match odd with
  | x :: xs => s.trapAll e 0x07 (xs.foldl min x)
  | [] =>
    if h.len % 16 != 0 || h.len = 0 || h.rows = 0 then s.trapAll e 0x07 (s.freeNat 8)
    else
      let total := h.rows * h.len
      s.rangesOr e (sw.toList.map fun w => ((w.off : Int), total)) fun s =>
        match st, sw with
        | some (raw, reads), some w =>
          if w.reserved != 0 || (reads && (pagesOf w.off total).any fun p => e.w.tagOf p != w.span) then s.trapAll e 0x0D raw
          else body s
        | _, _ => body s

/-- cpy.g2s (R312 to R315). -/
def execCpyG2s (d a b : Reg) (s : State) : Out :=
  let i : Instr := .cpyG2s d a b
  s.issue i fun e s =>
    let w := stashWord (e.sb d).toNat
    let base := (e.sb a).toNat
    let h := shapeWord (e.sb b).toNat
    if e.sb d == BitVec.allOnes 64 || e.sb a == BitVec.allOnes 64 then s.advance e
    else s.copyChecks e [base] (some ((e.sb d).toNat, false)) h fun s =>
      s.copyRanges e i (h.ranges base) [] fun g s => s.pinOr e .tile g fun s =>
        (s.updWall e.c.age fun x => x.setTags (pagesOf w.off (h.rows * h.len)) w.span).acceptCopy e g.pages
          (.copy true false w.off base w.span h.len h.rows h.stride g.units)

/-- cpy.s2g (R312 to R315). -/
def execCpyS2g (d a b : Reg) (s : State) : Out :=
  let i : Instr := .cpyS2g d a b
  s.issue i fun e s =>
    let w := stashWord (e.sb a).toNat
    let base := (e.sb d).toNat
    let h := shapeWord (e.sb b).toNat
    if e.sb a == BitVec.allOnes 64 || e.sb d == BitVec.allOnes 64 then s.advance e
    else s.copyChecks e [base] (some ((e.sb a).toNat, true)) h fun s =>
      s.copyRanges e i [] (h.ranges base) fun g s => s.pinOr e .tile g fun s =>
        s.acceptCopy e g.pages (.copy false true base w.off w.span h.len h.rows h.stride g.units)

/-- cpy.g2g (R312 to R315). -/
def execCpyG2g (d a b : Reg) (s : State) : Out :=
  let i : Instr := .cpyG2g d a b
  s.issue i fun e s =>
    let dst := (e.sb d).toNat
    let src := (e.sb a).toNat
    let h := shapeWord (e.sb b).toNat
    if e.sb d == BitVec.allOnes 64 || e.sb a == BitVec.allOnes 64 then s.advance e
    else s.copyChecks e [src, dst] none h fun s =>
      s.copyRanges e i (h.ranges src) (h.ranges dst) fun g s => s.pinOr e .tile g fun s =>
        s.acceptCopy e g.pages (.copy false false dst src 0 h.len h.rows h.stride g.units)

/-- cpy.batch (R316). -/
def execCpyBatch (d a : Reg) (s : State) : Out :=
  s.issue (.cpyBatch d a) fun e s =>
    let off := (e.sb a).toNat % 2 ^ 32
    let run := fun (s : State) =>
      if e.c.batches.length ≥ 64 then s.await e .batch .batchRoom
      else
        let n := (e.c.batchNo + 1) % 2 ^ 64
        let t := s.updCourse e.r.uid fun c =>
          { c with batchNo := n, copies := [],
                   batches := c.batches ++ [⟨n, c.copies, if a == 0 then none else some off⟩] }
        ((t.setSOr0 e d (BitVec.ofNat 64 n)).checkBatches e.r.uid).advance e
    if a == 0 then run s else s.objectOr e off run

/-- cpy.wait (R317); an absent sA waits for every closed batch (log 105). -/
def execCpyWait (a : Reg) (s : State) : Out :=
  s.issue (.cpyWait a) fun e s =>
    let n := (e.sb a).toNat
    if e.c.batches.any fun x => x.n ≤ n then s.await e .batch (.batches n) else s.advance e

/-! Bound regions (R261 to R263). -/

/-- cpy.bind (R261). -/
def execCpyBind (d a b : Reg) (s : State) : Out :=
  let i : Instr := .cpyBind d a b
  s.issue i fun e s =>
    let off := (e.sb d).toNat % 2 ^ 32
    let len := (e.sb d).toNat / 2 ^ 32
    let va := (e.sb a).toNat
    let n := (e.sb b).toNat
    if va % 4096 != 0 then s.trapAll e 0x07 va
    else if n > 7 || (e.w.regions.get? n).isSome || off % 4096 != 0 || len % 4096 != 0 || len = 0
        || e.w.window < off + len || e.w.regions.any fun p => off < p.2.off + p.2.len && p.2.off < off + len
    then s.trapAll e 0x04 off
    else s.engineRange e i true [(va, len)] fun g s => s.pinOr e .batch g fun s =>
      (s.updWall e.c.age fun w =>
        { w with regions := w.regions.set n { off := off, len := len, va := va, units := g.units, pins := g.pages },
                 stash := w.stash.filter fun c => !(off ≤ c.1 && c.1 < off + len) }).advance e

/-- Unbinding a region: its lines are performed at .dev, the lines that were filled become plain stash, and the pins go
(R263). -/
def State.unbindRegion (s : State) (age n : Nat) : State :=
  match s.wall? age with
  | none => s
  | some w =>
    match w.regions.get? n with
    | none => s
    | some r =>
      let k := islandOf w.core
      let t := s.flush k
      let cells := r.filled.flatMap fun l => (List.range 128).map fun j => (128 * l + j, t.stashByte w k (128 * l + j))
      let t := t.updWall age fun w =>
        { w with regions := w.regions.erase n,
                 stash := cells.foldl (fun m c => if c.2 = 0xFF then m.erase c.1 else m.set c.1 c.2) w.stash }
      t.unpin k w.ctx r.pins

/-- cpy.unbind (R263). -/
def execCpyUnbind (a : Reg) (s : State) : Out :=
  s.issue (.cpyUnbind a) fun e s => (s.unbindRegion e.c.age (e.sb a).toNat).advance e

end Sys2Proof.Machine
end

