-- ==== Sys2Proof/Machine/Xform.lean ====
section
/-!
DEFINITION. The transform engine (R318 to R324, R455 to R461): xf.run, xf.cancel, and what a run does. A run is a sequence of
items in order, each reading some source bytes and giving some output bytes; a line of output is written when the run has
passed it. XF_RUN_COMPLETE and ENGINE_OPERATION_FAULT stand in Engine.lean.
-/

namespace Sys2Proof.Machine

/-! Records (R164, R165). -/

def Layout.ofBytes (bs : List Byte) : Layout :=
  let x := leNat bs
  { base := field x 63 0, scales := field x 127 64, zeros := field x 191 128, rows := field x 223 192, cols := field x 255 224,
    stride := field x 287 256, elem := field x 292 288, group := field x 294 293, reserved := field x 511 295 }

/-- The lanes of a quantised or scaled group (R164). -/
def Layout.groupSize (l : Layout) : Nat := [0, 32, 64, 128].getD l.group 0

def Layout.fmt (l : Layout) : Fmt := (Fmt.ofCode l.elem).getD .b8

/-- GROUP as R164 requires for the format. -/
def Layout.groupOk (l : Layout) : Bool :=
  match Fmt.ofCode l.elem with
  | none => false
  | some f =>
    if f == .e2m1 || f == .e4m3 then l.group == 1
    else if isQuant f then l.group != 0
    else l.group == 0

/-- The element size in bits. -/
def Layout.bits (l : Layout) : Nat := l.fmt.bits

/-- The address of the byte or bytes of an element (R44). -/
def Layout.elemAddr (l : Layout) (r c : Nat) : Nat := (l.base + r * l.stride + c * l.bits / 8) % 2 ^ 64

/-- Groups per row (R320). -/
def Layout.groups (l : Layout) : Nat := if l.groupSize = 0 then 0 else (l.cols + l.groupSize - 1) / l.groupSize

/-- Bytes of one scale (R320). -/
def Layout.scaleSize (l : Layout) : Nat := if l.groupSize = 0 then 0 else if isQuant l.fmt then 2 else 1

/-- The number of an element's group (R320). -/
def Layout.groupNo (l : Layout) (r c : Nat) : Nat := r * l.groups + c / l.groupSize

/-! Reading and writing through the context's translation. -/

/-- Translating the ranges that a step of an engine reads, when it reaches them (R322, R367, R485). -/
def State.reach (s : State) (k ctx : Nat) (ranges : List (Nat × Nat)) : Except XFail Rng :=
  match s.xlateUnits k ctx false (rangeUnits ranges) with
  | .error x => .error x
  | .ok g =>
    match s.markedIn (ranges.flatMap fun p => (List.range p.2).map fun i => (unitLoc g.units (p.1 + i)).1) with
    | some line => .error ⟨eccCode, 0, line⟩
    | none => .ok g

/-- Bytes that an engine reads at a virtual address, translated when it is reached (R322, R367). -/
def State.vread (s : State) (k ctx va n : Nat) : Except XFail (List Byte) :=
  match s.reach k ctx [(va, n)] with
  | .error x => .error x
  | .ok g => .ok (s.readUnits k g.units va n)

/-- The bytes of an element, and its code. -/
def Layout.elemRange (l : Layout) (r c : Nat) : Nat × Nat := (l.elemAddr r c, (l.bits + 7) / 8)
def State.elemIn (s : State) (k : Nat) (us : Tab (Nat × Nat)) (l : Layout) (r c : Nat) : Nat :=
  let bs := s.readUnits k us (l.elemAddr r c) ((l.bits + 7) / 8)
  if l.bits = 4 then elemCode 4 (c % 2) bs else leNat bs

/-- Whether a scale register holds the group of an element (R323). -/
def holdsGroup (reg : Option (Nat × EScale)) (l : Layout) (r c : Nat) : Bool :=
  l.groupSize == 0 || (reg.map fun p => p.1 == l.groupNo r c).getD false

/-- The bytes of the scale and zero point of an element's group that are still to be read (R320, R323). -/
def scaleRanges (reg : Option (Nat × EScale)) (l : Layout) (r c : Nat) : List (Nat × Nat) :=
  if holdsGroup reg l r c then [] else
  let n := l.groupNo r c
  (l.scales + n * l.scaleSize, l.scaleSize) :: (if isQuant l.fmt then [(l.zeros + n, 1)] else [])

/-- The scale register after an element: as it was, or loaded with the element's group (R323). -/
def State.scaleReg (s : State) (k : Nat) (us : Tab (Nat × Nat)) (reg : Option (Nat × EScale)) (l : Layout) (r c : Nat) :
    Option (Nat × EScale) :=
  if holdsGroup reg l r c then reg else
  let n := l.groupNo r c
  let sc := leNat (s.readUnits k us (l.scales + n * l.scaleSize) l.scaleSize)
  some (n, if isQuant l.fmt then .group sc (leNat (s.readUnits k us (l.zeros + n) 1)) else .block sc)

/-- The scale that a register gives. -/
def scaleOf (l : Layout) (reg : Option (Nat × EScale)) : EScale :=
  if l.groupSize = 0 then .one else (reg.map fun p => p.2).getD .one

/-- Moving the pins of an operation from some pages to others, where the table has room (R357, R367). -/
def State.repin (s : State) (k ctx : Nat) (old new : List (Nat × Nat × Nat)) : Option State :=
  if old == new then some s else
  (s.pinAll k ctx (new.filter fun p => !old.contains p)).map fun t => t.unpin k ctx (old.filter fun p => !new.contains p)

/-! Requantising (R321). -/

/-- The nearest integer to m1 × 2^e1 ÷ (m2 × 2^e2), ties to even, for m2 above 0. -/
def divRne (m1 : Nat) (e1 : Int) (m2 : Nat) (e2 : Int) : Nat :=
  let e := e1 - e2
  let num := m1 * 2 ^ e.toNat
  let den := m2 * 2 ^ (-e).toNat
  let q := num / den
  let r := num % den
  if 2 * r > den || (2 * r == den && q % 2 == 1) then q + 1 else q

/-- The code of a value in a q8 or q4 destination, and whether a NaN was lost. An absent scale or zero point makes the whole
group absent, and so the code (R51; log 13). Of a scale that is NaN, infinite or zero R321 says nothing: a quotient that is no
number is taken as a NaN value, and an unbounded one saturates (log 84). -/
def quantCode (f : Fmt) (v : Val) (sc zp : Nat) : Nat × Bool :=
  let top : Int := (f.absentCode : Int) - 1
  let clip := fun (x : Int) => (max 0 (min top x)).toNat
  match Fmt.i8.int? zp, Fmt.f16.valF sc, v with
  | none, _, _ => (f.absentCode, false)
  | _, .absent, _ => (f.absentCode, false)
  | _, _, .absent => (f.absentCode, false)
  | some z, .nan, _ => (clip z, true)
  | some z, _, .nan => (clip z, true)
  | some z, .inf _, .inf _ => (clip z, true)
  | some z, .inf _, .fin _ _ _ => (clip z, false)
  | some _, .fin s2 _ _, .inf s1 => (if s1 == s2 then top.toNat else 0, false)
  | some z, .fin s2 m2 e2, .fin s1 m1 e1 =>
    if m2 = 0 then (if m1 = 0 then (clip z, true) else (if s1 == s2 then top.toNat else 0, false))
    else
      let q : Int := divRne m1 e1 m2 e2
      (clip (z + (if s1 == s2 then q else -q)), false)

/-- The code of a value in a destination format under its scale, and whether a NaN was lost (R68, R321). -/
def requantCode (f : Fmt) (v : Val) (sc : EScale) : Nat × Bool :=
  match sc with
  | .group s z => quantCode f v s z
  | .block 0xFF => (f.absentCode, false)
  | .block e =>
    match v with
    | .fin neg m x => (f.drain (.fin neg m (x - ((e : Int) - 127))), false)
    | v => (f.drain v, f == .e2m1 && v == .nan)
  | .one => (f.drain v, f == .e2m1 && v == .nan)

/-! Runs. -/

/-- Output bytes per row of a dense destination: one item each for an element, or for a pair of 4-bit elements. -/
def Layout.rowItems (l : Layout) : Nat := if l.bits = 4 then (l.cols + 1) / 2 else l.cols

/-- Blocks per row, blocks, and the size of a stored block (R455, R456). -/
def Layout.bpr (l : Layout) : Nat := (l.cols + 31) / 32
def Layout.blocks (l : Layout) : Nat := l.rows * l.bpr
def Layout.blockBytes (l : Layout) : Nat := 32 * l.bits / 8
/-- The map's bytes, and where the data begins (R456). -/
def Layout.mapBytes (l : Layout) : Nat := ((l.blocks + 7) / 8 + 127) / 128 * 128
def Layout.dataBase (l : Layout) : Nat := l.base + 128 + l.mapBytes

/-- Bytes of scales and of zero points (R320). -/
def Layout.scaleTotal (l : Layout) : Nat := l.rows * l.groups * l.scaleSize
def Layout.zeroTotal (l : Layout) : Nat := if isQuant l.fmt then l.rows * l.groups else 0

/-- Items of a run: elements or pairs of transpose and requant; blocks, then scale and zero-point bytes, and for compact the
map's and data's padding and the header last. -/
def Run.items (r : Run) : Nat :=
  match r.xop with
  | 0 | 1 => r.dst.rows * r.dst.rowItems
  | 2 => r.src.blocks + r.src.scaleTotal + r.src.zeroTotal + 2
  | _ => r.dst.blocks + r.dst.scaleTotal + r.dst.zeroTotal

/-- Byte n of the scales and then of the zero points: where it is read and where it goes (R320). -/
def Run.sideAt (r : Run) (n : Nat) : Nat × Nat :=
  if n < r.src.scaleTotal then (r.src.scales + n, (r.dst.scales + n) % 2 ^ 64)
  else (r.src.zeros + (n - r.src.scaleTotal), (r.dst.zeros + (n - r.src.scaleTotal)) % 2 ^ 64)

/-- The number of bytes of the scales and zero points. -/
def Run.sideTotal (r : Run) : Nat := r.src.scaleTotal + r.src.zeroTotal

/-- The lines that the run has not passed (R322). -/
def Run.openLines (r : Run) : List Nat :=
  match r.xop with
  | 0 | 1 =>
    let c := r.pos % r.dst.rowItems * (if r.dst.bits = 4 then 2 else 1)
    [r.dst.elemAddr (r.pos / r.dst.rowItems) c / 128]
  | 2 =>
    if r.pos ≤ r.src.blocks then
      [(r.dst.dataBase + r.count * r.dst.blockBytes) % 2 ^ 64 / 128, (r.dst.base + 128 + r.pos / 8) % 2 ^ 64 / 128]
    else if r.pos ≤ r.src.blocks + r.sideTotal then [(r.sideAt (r.pos - r.src.blocks - 1)).2 / 128]
    else [r.dst.base / 128]
  | _ =>
    [(if r.pos < r.dst.blocks then r.dst.elemAddr (r.pos / r.dst.bpr) (32 * (r.pos % r.dst.bpr))
      else (r.sideAt (r.pos - r.dst.blocks)).2) / 128]

/-- Writing cells over a list of cells. -/
def putCells (part new : List (Nat × Byte)) : List (Nat × Byte) :=
  new.foldl (fun p c => if p.any (·.1 == c.1) then p.map (fun x => if x.1 == c.1 then c else x) else p ++ [c]) part

/-- What one item gives: its output bytes, the stored blocks it passes, the NaNs lost, the pages it reads, the length of the run
of absent blocks that ends with it, and the scale registers. -/
structure Item where
  cells : List (Nat × Byte)
  count : Nat
  lost : Nat := 0
  pages : List (Nat × Nat × Nat)
  absent : Nat := 0
  srcSc : Option (Nat × EScale)
  dstSc : Option (Nat × EScale)
  deriving DecidableEq, Repr

/-- An item that passes nothing and leaves the registers. -/
def Run.item (r : Run) (g : Rng) (cells : List (Nat × Byte)) : Item :=
  { cells := cells, count := r.count, pages := g.pages, srcSc := r.srcSc, dstSc := r.dstSc }

/-- The bytes of one or two codes at an element of a dense record; where a row has an odd number of 4-bit elements the upper
half of its last byte is left open (log 3). -/
def State.codeCells (s : State) (l : Layout) (r c : Nat) (codes : List Nat) : List (Nat × Byte) :=
  let a := l.elemAddr r c
  if l.bits = 4 then
    match codes with
    | [x, y] => [(a, BitVec.ofNat 8 (x + 16 * y))]
    | [x] => [(a, BitVec.ofNat 8 (x + 16 * ((Config.freeByte s.steps a).toNat % 16)))]
    | _ => []
  else match codes with
    | x :: _ => (natLe (l.bits / 8) x).zip (List.range (l.bits / 8)) |>.map fun p => ((a + p.2) % 2 ^ 64, p.1)
    | [] => []

/-- The columns of an item of a dense destination. -/
def itemCols (l : Layout) (n : Nat) : List Nat := if l.bits = 4 then [2 * n, 2 * n + 1].filter (· < l.cols) else [n]

/-- An item of transpose (R321). -/
def State.transposeItem (s : State) (k ctx : Nat) (r : Run) : Except XFail Item :=
  let row := r.pos / r.dst.rowItems
  let cols := itemCols r.dst (r.pos % r.dst.rowItems)
  match s.reach k ctx (cols.map fun c => r.src.elemRange c row) with
  | .error x => .error x
  | .ok g => .ok (r.item g (s.codeCells r.dst row (cols.headD 0) (cols.map fun c => s.elemIn k g.units r.src c row)))

/-- A NaN or an infinity in i8 or i4, to which R68 gives no code (log 65). -/
def intOpen (f : Fmt) (v : Val) : Bool :=
  (f == .i8 || f == .i4) && match v with
    | .nan | .inf _ => true
    | _ => false

/-- A code that the spec leaves open (log 65). -/
def State.freeCode (s : State) (f : Fmt) (n : Nat) : Nat := (Config.freeByte s.steps n).toNat % 2 ^ f.bits

/-- An item of requant (R321). -/
def State.requantItem (s : State) (k ctx : Nat) (r : Run) : Except XFail Item :=
  let row := r.pos / r.dst.rowItems
  let cols := itemCols r.dst (r.pos % r.dst.rowItems)
  let c0 := cols.headD 0
  match s.reach k ctx (cols.map (fun c => r.src.elemRange row c) ++ scaleRanges r.srcSc r.src row c0
      ++ scaleRanges r.dstSc r.dst row c0) with
  | .error x => .error x
  | .ok g =>
    let sa := s.scaleReg k g.units r.srcSc r.src row c0
    let sd := s.scaleReg k g.units r.dstSc r.dst row c0
    let rs := cols.map fun c =>
      let v := elemVal r.src.fmt (s.elemIn k g.units r.src row c) (scaleOf r.src sa)
      if intOpen r.dst.fmt v then (s.freeCode r.dst.fmt (64 * r.pos + c % 64), false)
      else requantCode r.dst.fmt v (scaleOf r.dst sd)
    .ok { r.item g (s.codeCells r.dst row c0 (rs.map fun p => p.1)) with
      lost := (rs.filter fun p => p.2).length, srcSc := sa, dstSc := sd }

/-- Packing the 32 codes of a block (R456). -/
def blockPack (l : Layout) (codes : List Nat) : List Byte := packRow l.bits codes

/-- Copying one byte of the scales or zero points. -/
def State.sideByte (s : State) (k ctx : Nat) (r : Run) (n : Nat) : Except XFail Item :=
  let (fro, dest) := r.sideAt n
  match s.reach k ctx [(fro, 1)] with
  | .error x => .error x
  | .ok g => .ok (r.item g [(dest, (s.readUnits k g.units fro 1).headD 0)])

/-- Consecutive virtual addresses with bytes. -/
def vcells (va : Nat) (bs : List Byte) : List (Nat × Byte) := (cellsAt va bs).map fun c => (c.1 % 2 ^ 64, c.2)

/-- An item of compact (R455, R458). -/
def State.compactItem (s : State) (k ctx : Nat) (r : Run) : Except XFail Item :=
  let n := r.pos
  let blocks := r.src.blocks
  if n < blocks then
    let row := n / r.src.bpr
    let cols := (List.range 32).map fun i => 32 * (n % r.src.bpr) + i
    let here := cols.filter (· < r.src.cols)
    match s.reach k ctx (here.map (fun c => r.src.elemRange row c) ++ scaleRanges r.srcSc r.src row (cols.headD 0)) with
    | .error x => .error x
    | .ok g =>
      let sa := s.scaleReg k g.units r.srcSc r.src row (cols.headD 0)
      let codes := cols.map fun c => if c < r.src.cols then s.elemIn k g.units r.src row c else r.src.fmt.absentCode
      let absent := here.all fun c => elemVal r.src.fmt (s.elemIn k g.units r.src row c) (scaleOf r.src sa) == .absent
      let ma := (r.dst.base + 128 + n / 8) % 2 ^ 64
      let old := ((r.part.find? fun c => c.1 == ma).map fun c => c.2).getD 0
      let mb := if absent then old else old ||| (1#8 <<< (n % 8))
      let data := if absent then [] else
        vcells (r.dst.dataBase + r.count * r.dst.blockBytes) (blockPack r.dst codes)
      .ok { r.item g ((ma, mb) :: data) with
        count := if absent then r.count else r.count + 1, absent := if absent then r.absent + 1 else 0, srcSc := sa }
  else if n = blocks then
    let used := (blocks + 7) / 8
    let pad1 := vcells (r.dst.base + 128 + used) (List.replicate (r.dst.mapBytes - used) 0)
    let stop := r.dst.dataBase + r.count * r.dst.blockBytes
    let pad2 := vcells stop (List.replicate ((128 - stop % 128) % 128) 0)
    .ok (r.item {} (pad1 ++ pad2))
  else if n < blocks + 1 + r.sideTotal then s.sideByte k ctx r (n - blocks - 1)
  else
    match s.reach k ctx [(r.dst.base, 64)] with
    | .error x => .error x
    | .ok g =>
      let exp := field (leNat (s.readUnits k g.units r.dst.base 64)) 134 133
      let h := r.count + 2 ^ 64 * r.dst.rows + 2 ^ 96 * r.dst.bpr + 2 ^ 128 * r.dst.elem + 2 ^ 133 * exp
      .ok (r.item g (vcells r.dst.base (natLe 64 h)))

/-- An item of expand (R459). -/
def State.expandItem (s : State) (k ctx : Nat) (r : Run) : Except XFail Item :=
  let n := r.pos
  if n < r.dst.blocks then
    let ma := r.src.base + 128 + n / 8
    match s.reach k ctx [(ma, 1)] with
    | .error x => .error x
    | .ok m =>
      let stored := ((s.readUnits k m.units ma 1).headD 0).getLsbD (n % 8)
      let da := r.src.dataBase + r.count * r.src.blockBytes
      match s.reach k ctx (if stored then [(da, r.src.blockBytes)] else []) with
      | .error x => .error x
      | .ok g =>
        let bs := if stored then s.readUnits k g.units da r.src.blockBytes
          else blockPack r.src (List.replicate 32 r.src.fmt.absentCode)
        let row := n / r.dst.bpr
        let first := 32 * (n % r.dst.bpr)
        let code := fun (c : Nat) => elemCode r.dst.bits (c - first) bs
        let groups : List (List Nat) :=
          if r.dst.bits = 4 then (List.range 16).map fun i => [first + 2 * i, first + 2 * i + 1].filter (· < r.dst.cols)
          else (List.range 32).map fun i => [first + i].filter (· < r.dst.cols)
        .ok { r.item m ((groups.filter fun g => !g.isEmpty).flatMap fun g => s.codeCells r.dst row (g.headD 0) (g.map code)) with
              pages := dedup (m.pages ++ g.pages), count := if stored then r.count + 1 else r.count,
              absent := if stored then 0 else r.absent + 1 }
  else s.sideByte k ctx r (n - r.dst.blocks)

def State.runItem (s : State) (k ctx : Nat) (r : Run) : Except XFail Item :=
  match r.xop with
  | 0 => s.transposeItem k ctx r
  | 1 => s.requantItem k ctx r
  | 2 => s.compactItem k ctx r
  | _ => s.expandItem k ctx r

/-- Where a run stands after working: the state, the run, the pages that it holds for reading and for writing, the fault that
stopped it with whether it was a write. -/
structure RunEnd where
  s : State
  r : Run
  reads : List (Nat × Nat × Nat)
  writes : List (Nat × Nat × Nat)
  fail : Option (XFail × Bool)
  deriving DecidableEq, Repr

def RunEnd.pins (e : RunEnd) : List (Nat × Nat × Nat) := dedup (e.reads ++ e.writes)

/-- The cells of the lines that the run has passed, or all of them at the end (R322). -/
def Run.closed (r : Run) : List (Nat × Byte) :=
  let keep := if r.items ≤ r.pos then [] else r.openLines
  r.part.filter fun c => !keep.contains (c.1 / 128)

/-- Writing one passed line, with its pages pinned (R292, R322, R367). -/
def RunEnd.writeLine (e : RunEnd) (k ctx line : Nat) : RunEnd :=
  let out := e.r.part.filter fun c => c.1 / 128 == line
  match e.s.xlateUnits k ctx true (rangeUnits (out.map fun c => (c.1, 1))) with
  | .error x => { e with fail := some (x, true) }
  | .ok g =>
    match e.s.repin k ctx e.pins (dedup (e.reads ++ g.pages)) with
    | none => { e with fail := some (⟨pinCode, 0, 0⟩, true) }
    | some t => { e with s := ((t.learn k ctx g.leaves).performUnits k g.units out).claim ctx, writes := g.pages,
                         r := { e.r with part := e.r.part.filter fun c => c.1 / 128 != line } }

/-- Working on the run's next item, with the pages that it reads pinned. -/
def RunEnd.next (e : RunEnd) (k ctx : Nat) : RunEnd :=
  match e.s.runItem k ctx e.r with
  | .error x => { e with fail := some (x, false) }
  | .ok i =>
    match e.s.repin k ctx e.pins (dedup (i.pages ++ e.writes)) with
    | none => { e with fail := some (⟨pinCode, 0, 0⟩, false) }
    | some t => { e with s := t.raiseBy ctx .drainNanLost i.lost, reads := i.pages,
                         r := { e.r with pos := e.r.pos + 1, count := i.count, part := putCells e.r.part i.cells,
                                         absent := i.absent, srcSc := i.srcSc, dstSc := i.dstSc } }

/-- Working on a run until it ends or stops, or, with `one`, until it has written a line (R292). Of the lines passed at once,
the one that the run reached first is written first (log 90). The number bounds the items and lines. -/
def RunEnd.go (one : Bool) (k ctx : Nat) : Nat → RunEnd → RunEnd
  | 0, e => e
  | n + 1, e =>
    match e.r.closed with
    | c :: _ =>
      let e := e.writeLine k ctx (c.1 / 128)
      if one || e.fail.isSome then e else RunEnd.go one k ctx n e
    | [] =>
      if e.r.items ≤ e.r.pos then e else
      let e := e.next k ctx
      if e.fail.isSome then e else RunEnd.go one k ctx n e

/-- A bound on what is left of a run: its items, each of which touches at most four lines, and the lines of its cells. -/
def Run.bound (r : Run) : Nat := 8 * (r.items + 1 - r.pos) + r.part.length

/-! The instructions. -/

/-- The conditions on the records (R319, R457). An invalid ELEM meets none of them, also where both records hold it (log 91). -/
def recordsOk (xop : Nat) (src dst : Layout) : Bool :=
  let known := (Fmt.ofCode src.elem).isSome && (Fmt.ofCode dst.elem).isSome
  let same := src.elem == dst.elem && src.rows == dst.rows && src.cols == dst.cols && src.group == dst.group
  let notB := fun (l : Layout) => l.elem < 15
  known && match xop with
    | 0 => src.elem == dst.elem && src.group == 0 && dst.group == 0 && dst.rows == src.cols && dst.cols == src.rows
    | 1 => src.rows == dst.rows && src.cols == dst.cols && notB src && notB dst && src.groupOk && dst.groupOk
    | 2 => same && notB src && dst.base % 128 == 0
    | _ => same && notB src && src.base % 128 == 0

/-- The conditions on a buffer's header (R457). -/
def headerOk (l : Layout) (h : Nat) : Bool :=
  field h 132 128 == l.elem && field h 95 64 == l.rows && field h 127 96 == l.bpr && h / 2 ^ 135 == 0

/-- Waiting for what the course still has to access, and for its side-log entries, in a record that an instruction reads (R330,
R345). -/
def State.recordBusyOr (s : State) (e : Env) (us : Tab (Nat × Nat)) (va n : Nat) (body : State → State) : State :=
  let vas := (List.range n).map fun i => (va + i) % 2 ^ 64
  let locs := vas.map fun a => s.place (unitLoc us a).1
  match s.sideAt e vas.contains with
  | some n => s.await e .counter (.entry e.c.core n)
  | none =>
  match s.courseBusy e.r.uid locs with
  | [] => s.unmarkedOr e.c.ctx locs body
  | ids => s.await e .counter (.ops ids)

/-- xf.run (R318, R319, R322, R457). -/
def State.xfRun (s : State) (e : Env) (i : Instr) (xop : Nat) (a b : Reg) : State :=
  let handle := (e.sb a).toNat
  let obj : Option Nat := if e.sb b == BitVec.allOnes 64 then none else some (e.objOff b)
  let odd := ([handle].filter fun h => h % 64 != 0) ++ obj.toList.filter fun o => o % 16 != 0
  match odd with
  | x :: xs => s.trapAll e 0x07 (xs.foldl min x)
  | [] => s.rangesOr e (obj.toList.map fun (o : Nat) => ((o : Int), 16)) fun s =>
    s.engineRange e i false [(handle, 128)] fun g s => s.recordBusyOr e g.units handle 128 fun s =>
      let bs := s.readUnits e.island g.units handle 128
      let src := Layout.ofBytes (bs.take 64)
      let dst := Layout.ofBytes (bs.drop 64)
      let accept := fun (s : State) =>
        let (seq, t) := s.takeSeq e.c.core
        (t.addOp { uid := e.r.uid, ctx := e.c.ctx, core := e.c.core, seq := seq,
                   work := .run handle obj { xop := xop, src := src, dst := dst } }).advance e
      if xop = 3 then
        s.engineRange e i false [(src.base, 64)] fun h s => s.recordBusyOr e h.units src.base 64 fun s =>
          if recordsOk xop src dst && headerOk src (leNat (s.readUnits e.island h.units src.base 64)) then accept s
          else s.trapAll e 0x0D handle
      else if recordsOk xop src dst then accept s
      else s.trapAll e 0x0D handle

/-- xf.run.transpose (R321). -/
def execXfRunTranspose (a b : Reg) (s : State) : Out := s.issue (.xfRunTranspose a b) fun e s => s.xfRun e (.xfRunTranspose a b) 0 a b
/-- xf.run.requant (R321). -/
def execXfRunRequant (a b : Reg) (s : State) : Out := s.issue (.xfRunRequant a b) fun e s => s.xfRun e (.xfRunRequant a b) 1 a b
/-- xf.run.compact (R457, R458). -/
def execXfRunCompact (a b : Reg) (s : State) : Out := s.issue (.xfRunCompact a b) fun e s => s.xfRun e (.xfRunCompact a b) 2 a b
/-- xf.run.expand (R457, R459). -/
def execXfRunExpand (a b : Reg) (s : State) : Out := s.issue (.xfRunExpand a b) fun e s => s.xfRun e (.xfRunExpand a b) 3 a b

/-- The object that a run or a gather arrives at (R274, R322). -/
def State.arriveObj (s : State) (o : Op) (obj : Option Nat) : State :=
  match obj, s.course? o.uid with
  | some off, some c => s.engineArrive c o.work.engineKind o.seq off
  | _, _ => s

/-- xf.cancel (R318, R324). -/
def execXfCancel (a : Reg) (s : State) : Out :=
  s.issue (.xfCancel a) fun e s =>
    let all := e.sb a == BitVec.allOnes 64
    let handle := (e.sb a).toNat
    if !all && handle % 64 != 0 then s.trapAll e 0x07 handle else
    let hit := s.ops.filter fun p => p.2.uid == e.r.uid && match p.2.work with
      | .run h _ _ => all || h == handle
      | _ => false
    let t := hit.foldl (fun (t : State) p =>
      let obj := match p.2.work with
        | .run _ obj _ => obj
        | _ => none
      (((t.unpin e.island e.c.ctx p.2.pins).dropOp p.1).arriveObj p.2 obj).raise e.c.ctx .xfCancel) s
    t.advance e

end Sys2Proof.Machine
end

