-- ==== Sys2Proof/Machine/Kv.lean ====
section
/-!
DEFINITION. The kv class (R377 to R395): block maps and pools, kv.gather's acceptance, kv.append, kv.fork and kv.drop.
GATHER_COMPLETE stands in Engine.lean.
-/

namespace Sys2Proof.Machine

/-! Records (R377, R378, R381). -/

/-- A block map record, and whether R381 rejects it. -/
structure KvMap where
  va : Nat
  pool : Nat
  entries : Nat
  len : Nat
  cap : Nat
  bad : Bool
  deriving DecidableEq, Repr

def KvMap.ofBytes (va : Nat) (bs : List Byte) : KvMap :=
  let x := leNat bs
  let len := field x 159 128
  let cap := field x 223 192
  { va := va, pool := field x 63 0, entries := field x 127 64, len := len, cap := cap,
    bad := field x 511 224 != 0 || field x 191 160 != 0 || cap = 0 || 2 ^ 24 < cap || 16 * cap < len }

/-- A pool record, and whether R381 rejects it. -/
structure KvPool where
  va : Nat
  data : Nat
  refs : Nat
  freeq : Nat
  elem : Nat
  rowBytes : Nat
  nblk : Nat
  bad : Bool
  deriving DecidableEq, Repr

def KvPool.ofBytes (va : Nat) (bs : List Byte) : KvPool :=
  let x := leNat bs
  let rowq := field x 231 223
  let elem := field x 222 218
  let nblk := field x 255 232
  { va := va, data := field x 63 0, refs := field x 127 64, freeq := field x 217 206, elem := elem, rowBytes := 16 * rowq,
    nblk := nblk, bad := field x 511 256 != 0 || field x 205 128 != 0 || rowq = 0 || 256 < rowq || 14 < elem || nblk = 0 }

def KvPool.rowAddr (p : KvPool) (id pos : Nat) : Nat := p.data + (16 * id + pos % 16) * p.rowBytes
def KvPool.refAddr (p : KvPool) (id : Nat) : Nat := p.refs + 2 * id
def KvMap.entryAddr (m : KvMap) (lb : Nat) : Nat := m.entries + 4 * lb

/-- The absent block id. -/
def noBlock : Nat := 2 ^ 32 - 1

/-- The record that R381 rejects, the map before the pool. -/
def kvBad (m : KvMap) (p : KvPool) : Option Nat := if m.bad then some m.va else if p.bad then some p.va else none

/-- Reading a map record and its pool record (R381), with the address of a record that is rejected: an address that is no
multiple of 64 and what a fault gives come before that, and so does what the caller checks first (R249). -/
def State.kvRecords (s : State) (e : Env) (i : Instr) (mark : Bool) (va : Nat)
    (body : KvMap → KvPool → Option Nat → State → State) : State :=
  s.engineRangeAs e i false mark [(va, 64)] fun g s => s.recordBusyOr e g.units va 64 fun s =>
    let m := KvMap.ofBytes va (s.readUnits e.island g.units va 64)
    if m.pool % 64 != 0 then s.trapAll e 0x07 m.pool
    else s.engineRangeAs e i false mark [(m.pool, 64)] fun h s => s.recordBusyOr e h.units m.pool 64 fun s =>
      let p := KvPool.ofBytes m.pool (s.readUnits e.island h.units m.pool 64)
      body m p (kvBad m p) s

/-! kv.gather (R384 to R388). -/

/-- The places in ENTRIES that a gather needs. -/
def Gather.places (g : Gather) : List Nat :=
  match g.start with
  | none => []
  | some b => dedup (((List.range 64).map fun r => b + r).filterMap fun p => if p < g.len then some (p / 16) else none)

/-- The block map cache takes the ids that a gather needs when it is accepted, where their pages translate and can be pinned
while they are read (R357, R386, R388, R400); the others are read when the gather reaches them. -/
def State.fetchIds (s : State) (k ctx : Nat) (g : Gather) : Gather :=
  { g with ids := g.places.foldl (fun (t : Tab Nat) n =>
      let va := g.entries + 4 * n
      match s.reach k ctx [(va, 4)] with
      | .ok h => if (s.pinAll k ctx h.pages).isSome then t.set n (leNat (s.readUnits k h.units va 4)) else t
      | .error _ => t) [] }

/-- kv.gather's acceptance (R385). -/
def execKvGather (d a b : Reg) (s : State) : Out :=
  let i : Instr := .kvGather d a b
  s.issue i fun e s =>
    let sd := (e.sb d).toNat
    let off := field sd 31 0
    let span := field sd 34 32
    let obj : Option Nat := if field sd 63 48 = 0xFFFF then none else some (16 * field sd 63 48)
    let objRange : List (Int × Nat) := obj.toList.map fun (o : Nat) => ((o : Int), 16)
    let va := (e.sb a).toNat
    if e.sb a == BitVec.allOnes 64 then
      if off % 16 != 0 then s.trapAll e 0x07 off
      else s.rangesOr e objRange fun s =>
        let t := match obj with
          | some o => s.engineArrive e.c 1 0 o
          | none => s
        t.advance e
    else
      match ([off].filter fun o => o % 16 != 0) ++ [va].filter fun x => x % 64 != 0 with
      | x :: xs => s.trapAll e 0x07 (xs.foldl min x)
      | [] => s.kvRecords e i false va fun m p bad s =>
        s.rangesOr e (((off : Int), 64 * p.rowBytes) :: objRange) fun s =>
          match bad with
          | some x => s.trapAll e 0x0D x
          | none =>
            if field sd 47 35 != 0 || (pagesOf off (64 * p.rowBytes)).any fun q => e.w.tagOf q != span then s.trapAll e 0x0D sd
            else
              let (seq, t) := s.takeSeq e.c.core
              let start : Option Nat := if e.sb b == BitVec.allOnes 64 then none else some (e.sb b).toNat
              let g : Gather := { off := off, span := span, start := start, len := m.len, entries := m.entries, nblk := p.nblk,
                                  rowBytes := p.rowBytes, elem := p.elem, data := p.data }
              (t.addOp { uid := e.r.uid, ctx := e.c.ctx, core := e.c.core, seq := seq,
                         work := .gather obj (t.fetchIds e.island e.c.ctx g) }).advance e

/-- A row of absent codes (R386). -/
def absentRow (elem n : Nat) : List Byte := (List.range n).map fun i => (absentByteOf elem i).getD 0xFF

/-- One row of a gather (R386): its bytes, whether KV_BAD_ID rises, the pages read, and the block ids known after it. -/
structure GatherRow where
  bytes : List Byte
  badId : Bool := false
  pages : List (Nat × Nat × Nat) := []
  ids : Tab Nat
  deriving DecidableEq, Repr

/-- The block id of a place in ENTRIES, as the block map cache holds it or as read now, with the pages of that place, which are
translated when the gather reaches them (R387). -/
def State.gatherId (s : State) (k ctx : Nat) (g : Gather) (n : Nat) : Except XFail (Nat × List (Nat × Nat × Nat)) :=
  let va := g.entries + 4 * n
  match s.reach k ctx [(va, 4)] with
  | .error x => .error x
  | .ok h => .ok ((Tab.get? g.ids n).getD (leNat (s.readUnits k h.units va 4)), h.pages)

def State.gatherRow (s : State) (k ctx : Nat) (g : Gather) : Except XFail GatherRow :=
  let absent : GatherRow := { bytes := absentRow g.elem g.rowBytes, ids := g.ids }
  match g.start with
  | none => .ok absent
  | some b =>
    let p := b + g.row
    if g.len ≤ p then .ok absent else
    match s.gatherId k ctx g (p / 16) with
    | .error x => .error x
    | .ok (id, pages) =>
      let ids := Tab.set g.ids (p / 16) id
      if id = noBlock then .ok { absent with pages := pages, ids := ids }
      else if g.nblk ≤ id then .ok { absent with badId := true, pages := pages, ids := ids }
      else
        let va := g.data + (16 * id + p % 16) * g.rowBytes
        match s.reach k ctx [(va, g.rowBytes)] with
        | .error x => .error x
        | .ok h => .ok { bytes := s.readUnits k h.units va g.rowBytes, pages := dedup (pages ++ h.pages), ids := ids }

/-! kv.append (R389 to R391). -/

/-- The records of one lane group: read, rejected by alignment, or not read. -/
inductive KvLoad where
  | fail (x : XFail)
  | oddPool (va : Nat)
  | record (m : KvMap) (p : KvPool) (bad : Option Nat)
  deriving DecidableEq, Repr

/-- Reading a record that kv.append names and whose LEN it will write, and its pool record (R391). -/
def State.kvLoad (s : State) (k ctx va : Nat) : KvLoad :=
  match s.xlateRange k ctx va 64 true, s.vread k ctx va 64 with
  | .error x, _ => .fail x
  | _, .error x => .fail x
  | .ok _, .ok bs =>
    let m := KvMap.ofBytes va bs
    if m.pool % 64 != 0 then .oddPool m.pool
    else match s.vread k ctx m.pool 64 with
      | .error x => .fail x
      | .ok bs =>
        let p := KvPool.ofBytes m.pool bs
        .record m p (kvBad m p)

/-- Discarding entries of FREEQ that hold no block id of the pool (R380); the number bounds them. -/
def State.dropBadIds (s : State) (ctx q nblk : Nat) : Nat → State
  | 0 => s
  | n + 1 =>
    match s.ownQueue ctx q true with
    | none => s
    | some x =>
      match x.entries with
      | [] => s
      | b :: _ =>
        if leNat ((s.headBytes x b).take 4) < nblk then s
        else ((s.updQueue q Queue.dropHead).raise ctx .kvBadId).dropBadIds ctx q nblk n

/-- The block id at the head of FREEQ, once bad ones are discarded. -/
def State.freeHead (s : State) (ctx q nblk : Nat) : State × Option Nat :=
  let t := s.dropBadIds ctx q nblk (((s.ownQueue ctx q true).map fun x => x.entries.length).getD 0)
  (t, (t.ownQueue ctx q true).bind fun x => x.entries.head?.map fun b => leNat ((t.headBytes x b).take 4))

/-- kv.append as it serves its lanes: the state, the results, the parked groups, and a violation that ends the context. -/
structure KvAcc where
  s : State
  out : Tab Word := []
  parks : List PGroup := []
  dead : Option XFail := none
  deriving DecidableEq, Repr

/-- What a lane meets before it has any effect. -/
inductive LaneMeets where
  | fails (x : XFail)
  | parks (code aux va : Nat)
  | full
  | badId
  | go (id : Nat) (fresh : Bool) (entry ref row lenU : Rng)
  deriving DecidableEq, Repr

/-- Looking at everything that a lane at position p will touch (R389, R391). The state that comes back has lost only bad
entries of FREEQ. -/
def State.laneMeets (s : State) (k ctx : Nat) (m : KvMap) (p : KvPool) (pos : Nat) : State × LaneMeets :=
  let lb := pos / 16
  if m.cap ≤ lb then (s, .full) else
  match s.vread k ctx (m.entryAddr lb) 4 with
  | .error x => (s, .fails x)
  | .ok w =>
    let have' := leNat w
    if have' != noBlock && p.nblk ≤ have' then (s, .badId) else
    let fresh := have' == noBlock
    match s.xlateRange k ctx (m.entryAddr lb) 4 fresh with
    | .error x => (s, .fails x)
    | .ok entry =>
      let (s, id?) := if fresh then s.freeHead ctx p.freeq p.nblk else (s, some have')
      match id? with
      | none => (s, .parks 0x23 p.va m.va)
      | some id =>
        match s.xlateRange k ctx (p.refAddr id) 2 fresh with
        | .error x => (s, .fails x)
        | .ok ref =>
          match (if fresh then .ok [] else s.vread k ctx (p.refAddr id) 2) with
          | .error x => (s, .fails x)
          | .ok count =>
          if leNat count > 1 then (s, .parks 0x21 7 (m.entryAddr lb)) else
          match s.xlateRange k ctx (p.rowAddr id pos) p.rowBytes true, s.xlateRange k ctx (m.va + 16) 4 true with
          | .error x, _ => (s, .fails x)
          | _, .error x => (s, .fails x)
          | .ok row, .ok lenU => (s, .go id fresh entry ref row lenU)

/-- The effects of a lane: the block, the row, LEN (R389). -/
def State.laneAppend (s : State) (k age : Nat) (w : Wall) (m : KvMap) (p : KvPool) (pos off id : Nat) (fresh : Bool)
    (entry ref row lenU : Rng) : State :=
  let t := if fresh then
      let t := s.updQueue p.freeq Queue.dropHead
      let t := t.performUnits k ref.units (vcells (p.refAddr id) (natLe 2 1))
      t.performUnits k entry.units (vcells (m.entryAddr (pos / 16)) (natLe 4 id))
    else s
  let t := t.performUnits k row.units (vcells (p.rowAddr id pos) (t.stashBytes w k off p.rowBytes))
  let t := t.updWall age fun x => x.touch ((List.range p.rowBytes).map fun i => off + i)
  t.performUnits k lenU.units (vcells (m.va + 16) (natLe 4 (pos + 1)))

/-- A group of lanes that parks with its record (R389, R395). -/
def kvGroup (lanes : List Nat) (code aux va word : Nat) : PGroup :=
  { lanes := maskOf lanes, code := code, on := .service,
    info := some { unit := va / 65536, vaddr := va, aux := aux, write := true, origin := 0, word := word } }

/-- Serving the lanes that name one record, in ascending order, from a position on (R389). -/
def KvAcc.serve (acc : KvAcc) (e : Env) (word : Nat) (load : Option KvLoad) (offs : Nat → Word) : Nat → List Nat → KvAcc
  | _, [] => acc
  | pos, l :: ls =>
    if acc.dead.isSome then acc
    else if offs l == BitVec.allOnes 32 then
      { acc with out := acc.out.set l (BitVec.allOnes 32) }.serve e word load offs pos ls
    else match load with
      | some (.record m p _) =>
        let (s, meets) := acc.s.laneMeets e.island e.c.ctx m p pos
        let acc := { acc with s := s }
        let absent := fun (c : Ctr) => { acc with s := s.raise e.c.ctx c, out := acc.out.set l (BitVec.allOnes 32) }
        match meets with
        | .full => (absent .kvMapFull).serve e word load offs pos ls
        | .badId => (absent .kvBadId).serve e word load offs pos ls
        | .parks code aux va => { acc with parks := acc.parks ++ [kvGroup (l :: ls) code aux va word] }
        | .fails x =>
          if x.code = 0x0C || x.code = eccCode then { acc with dead := some x }
          else { acc with parks := acc.parks ++ [kvGroup (l :: ls) x.code x.level x.va word] }
        | .go id fresh entry ref row lenU =>
          { acc with
            s := s.laneAppend e.island e.c.age e.w m p pos (offs l).toNat id fresh entry ref row lenU
            out := acc.out.set l (BitVec.ofNat 32 pos) }.serve e word load offs (pos + 1) ls
      | some (.fail x) => { acc with parks := acc.parks ++ [kvGroup (l :: ls) x.code x.level x.va word] }
      | _ => acc

/-- kv.append (R389 to R391). -/
def execKvAppend (a b : Reg) (s : State) : Out :=
  let i : Instr := .kvAppend a b
  s.issue i fun e s =>
    let word := (encode i).toNat
    let addr := fun (l : Nat) => (e.vpb a l).toNat
    let offs := fun (l : Nat) => e.v .n32 b l
    let named := e.lanes.filter fun l => e.vpb a l != BitVec.allOnes 64
    let act := named.filter fun l => offs l != BitVec.allOnes 32
    let odd := act.filter fun l => addr l % 64 != 0 || (offs l).toNat % 16 != 0
    let oddAt := odd.flatMap fun l => ([addr l].filter fun x => x % 64 != 0) ++ [(offs l).toNat].filter fun x => x % 16 != 0
    match oddAt with
    | x :: xs => s.trap e 0x07 (BitVec.ofNat 64 (xs.foldl min x)) (maskOf odd)
    | [] =>
    if s.heldFull e.c.core 0 then s.holdBack e else
    -- LEN is written as a release at .dev, which waits as a fence does (R276, R336)
    (if act.isEmpty then id else fun run => s.released e fun _ => run) <|
    let held := s
    let s := s.flushAll
    let loads := (dedup (act.map addr)).map fun va => (va, s.kvLoad e.island e.c.ctx va)
    let loadOf := fun (va : Nat) => (loads.find? fun p => p.1 == va).map fun p => p.2
    match loads.findSome? fun p => match p.2 with
      | .fail x => if x.code = eccCode then some x.va else none
      | _ => none with
    | some line => s.memError line e.c.ctx
    | none =>
    let lanesWith := fun (g : KvLoad → Option Nat) => act.filterMap fun l => ((loadOf (addr l)).bind g).map fun x => (l, x)
    let trapOn := fun (code : Nat) (hits : List (Nat × Nat)) (go : State) =>
      match hits with
      | [] => go
      | h :: hs => s.trap e code (BitVec.ofNat 64 (hs.foldl (fun m p => min m p.2) h.2)) (maskOf (hits.map fun p => p.1))
    let viol := lanesWith fun l => match l with
      | .fail x => if x.code = 0x0C then some x.va else none
      | _ => none
    let oddPool := lanesWith fun l => match l with
      | .oddPool va => some va
      | _ => none
    let beyond := act.filterMap fun l => match loadOf (addr l) with
      | some (.record _ p _) => (lowBeyond e.w.window (((offs l).toNat : Int), p.rowBytes)).map fun x => (l, x.toNat)
      | _ => none
    let bad := lanesWith fun l => match l with
      | .record _ _ b => b
      | _ => none
    trapOn 0x0C viol <| trapOn 0x07 oddPool <| trapOn 0x04 beyond <|
      match bad with
      | x :: _ => s.trapAll e 0x0D x.2
      | [] =>
        let out0 := (e.lanes.filter fun l => e.vpb a l == BitVec.allOnes 64).foldl (fun (t : Tab Word) l =>
          t.set l (BitVec.allOnes 32)) []
        let acc := (dedup (named.map addr)).foldl (fun (acc : KvAcc) va =>
          let load := loadOf va
          let len := match load with
            | some (.record ..) => match acc.s.vread e.island e.c.ctx (va + 16) 4 with
              | .ok w => leNat w
              | .error _ => 0
            | _ => 0
          acc.serve e word load offs len (named.filter fun l => addr l == va)) { s := s, out := out0 }
        match acc.dead with
        | some x =>
          if x.code = eccCode then acc.s.memError x.va e.c.ctx
          else acc.s.fatal e.c.ctx { cause := .trap, code := 0x0C, addr := x.va, who := (fidOf e.c e.r.serial).toNat }
        | none =>
          if !acc.parks.isEmpty && held.heldFull e.c.core acc.parks.length then held.holdBack e else
          let t := acc.s.updCourse e.r.uid fun c => acc.out.foldl (fun c p => c.setV (e.vreg b + 1) p.1 p.2) c
          if acc.parks.isEmpty then t.advance e else t.park e acc.parks

/-! kv.fork and kv.drop (R392, R393). -/

/-- The ids of an ENTRIES array. -/
def idsOf (bs : List Byte) : List Nat := (List.range (bs.length / 4)).map fun i => leNat ((bs.drop (4 * i)).take 4)

/-- The count of a block. -/
def State.refOf (s : State) (k : Nat) (us : Tab (Nat × Nat)) (p : KvPool) (id : Nat) : Nat :=
  leNat (s.readUnits k us (p.refAddr id) 2)

/-- Waiting for what the course still has to access, and for its side-log entries, in ranges (R330, R345). -/
def State.rangesBusyOr (s : State) (e : Env) (us : Tab (Nat × Nat)) (ranges : List (Nat × Nat)) (body : State → State) : State :=
  let vas := ranges.flatMap fun r => (List.range r.2).map fun i => (r.1 + i) % 2 ^ 64
  let locs := vas.map fun va => s.place (unitLoc us va).1
  match s.sideAt e vas.contains with
  | some n => s.await e .counter (.entry e.c.core n)
  | none =>
  match s.courseBusy e.r.uid locs with
  | [] => s.unmarkedOr e.c.ctx locs body
  | ids => s.await e .counter (.ops ids)

/-- kv.fork (R392). -/
def execKvFork (d a : Reg) (s : State) : Out :=
  let i : Instr := .kvFork d a
  s.issue i fun e s =>
    let sd := (e.sb d).toNat
    let sa := (e.sb a).toNat
    if e.sb d == BitVec.allOnes 64 || e.sb a == BitVec.allOnes 64 then s.advance e else
    match [sa, sd].filter fun x => x % 64 != 0 with
    | x :: xs => s.trapAll e 0x07 (xs.foldl min x)
    | [] =>
    if sa = sd then s.trapAll e 0x0D sd else
    s.kvRecords e i true sa fun src p bad s =>
    s.engineRangeAs e i false true [(sd, 64)] fun g s => s.recordBusyOr e g.units sd 64 fun s =>
    let dst := KvMap.ofBytes sd (s.readUnits e.island g.units sd 64)
    let n := (src.len + 15) / 16
    match bad with
    | some x => s.trapAll e 0x0D x
    | none =>
    if dst.bad || dst.cap < n then s.trapAll e 0x0D sd else
    s.engineRangeAs e i false true [(src.entries, 4 * n)] fun g1 s =>
    s.engineRangeAs e i true true [(dst.entries, 4 * dst.cap), (sd, 64)] fun g2 s =>
    s.rangesBusyOr e g1.units [(src.entries, 4 * n)] fun s =>
    s.rangesBusyOr e g2.units [(dst.entries, 4 * dst.cap)] fun s => s.releasedTo e fun s =>
    let s := s.flushAll
    let ids := idsOf (s.readUnits e.island g1.units src.entries (4 * n))
    let held := ids.filter fun id => id != noBlock && id < p.nblk
    s.engineRangeAs e i true true (held.map fun id => (p.refAddr id, 2)) fun g3 s =>
    s.rangesBusyOr e g3.units (held.map fun id => (p.refAddr id, 2)) fun s =>
    match held.find? fun id => s.refOf e.island g3.units p id == 65535 with
    | some id =>
      if s.heldFull e.c.core 1 then s.holdBack e else s.park e [kvGroup (lanesOf e.f.active) 0x24 id sa (encode i).toNat]
    | none =>
      let t := held.foldl (fun t id =>
        t.performUnits e.island g3.units (vcells (p.refAddr id) (natLe 2 (min (t.refOf e.island g3.units p id + 1) 65535)))) s
      let t := t.raiseBy e.c.ctx .kvBadId (ids.filter fun id => id != noBlock && p.nblk ≤ id).length
      let new := ids ++ List.replicate (dst.cap - n) noBlock
      let t := t.performUnits e.island g2.units (vcells dst.entries (new.flatMap (natLe 4)))
      let t := t.performUnits e.island g2.units (vcells sd (natLe 8 src.pool))
      (t.performUnits e.island g2.units (vcells (sd + 16) (natLe 4 src.len))).advance e

/-- The places of a map's ENTRIES that hold a block. -/
def KvMap.ownedPlaces (m : KvMap) (ids : List Nat) : List (Nat × Nat) :=
  ((List.range ids.length).filter fun n => ids.getD n noBlock != noBlock).map fun n => (m.entries + 4 * n, 4)

/-- One block of kv.drop: its count falls, and at 0 its id is pushed to FREEQ (R393). -/
def State.dropBlock (s : State) (e : Env) (us : Tab (Nat × Nat)) (p : KvPool) (id : Nat) : State :=
  if p.nblk ≤ id then s.raise e.c.ctx .kvBadId else
  let n := s.refOf e.island us p id
  if n = 0 then s.raise e.c.ctx .kvRefUnderflow else
  let t := s.performUnits e.island us (vcells (p.refAddr id) (natLe 2 (n - 1)))
  if n != 1 then t else
  match t.ownQueue e.c.ctx p.freeq true with
  | some q =>
    if q.entries.length ≥ q.cap then t.raise e.c.ctx .kvFreeLost
    else t.pushRecord p.freeq q (natLe 4 id ++ List.replicate 60 0)
  | none => t.raise e.c.ctx .kvFreeLost

/-- kv.drop (R393). It reads every word that it will use and translates every page that it will write, those of the entries that
are not absent, of LEN and of the counts above 0, before it changes anything (R391). -/
def execKvDrop (a : Reg) (s : State) : Out :=
  let i : Instr := .kvDrop a
  s.issue i fun e s =>
    let sa := (e.sb a).toNat
    if e.sb a == BitVec.allOnes 64 then s.advance e
    else if sa % 64 != 0 then s.trapAll e 0x07 sa else
    s.kvRecords e i true sa fun m p bad s =>
    match bad with
    | some x => s.trapAll e 0x0D x
    | none =>
    s.engineRangeAs e i false true [(m.entries, 4 * m.cap)] fun g1 s =>
    s.rangesBusyOr e g1.units [(m.entries, 4 * m.cap)] fun s => s.releasedTo e fun s =>
    let s := s.flushAll
    let ids := idsOf (s.readUnits e.island g1.units m.entries (4 * m.cap))
    let own := m.ownedPlaces ids
    s.engineRangeAs e i true true (own ++ [(sa + 16, 4)]) fun g2 s =>
    let ids := ids.filter fun id => id != noBlock
    let counts := fun (ids : List Nat) => ids.map fun id => (p.refAddr id, 2)
    let held := ids.filter fun id => id < p.nblk
    s.engineRangeAs e i false true (counts held) fun g3 s =>
    s.rangesBusyOr e g3.units (counts held) fun s =>
    s.engineRangeAs e i true true (counts (held.filter fun id => s.refOf e.island g3.units p id != 0)) fun _ s =>
    let t := ids.foldl (fun t id => t.dropBlock e g3.units p id) s
    let t := t.performUnits e.island g2.units (own.flatMap fun r => vcells r.1 (List.replicate 4 0xFF))
    (t.performUnits e.island g2.units (vcells (sa + 16) (natLe 4 0))).advance e

end Sys2Proof.Machine
end

