-- ==== Sys2Proof/Machine/Lock.lean ====
section
/-!
DEFINITION. The lk class (R419 to R426) over the lock manager of Locks.lean.
-/

namespace Sys2Proof.Machine

/-- The name that a lane gives, none where it is absent (R421). -/
def Env.lockName (e : Env) (a : Reg) (l : Nat) : Option Dword :=
  let x := if isS a then e.sb a else e.vpb a l
  if x == BitVec.allOnes 64 then none else some x

/-- What a lane of lk.acq or lk.esc receives. -/
inductive LaneAns where
  | trit (t : Trit)
  | parks (name : Nat)
  deriving DecidableEq, Repr

/-- The requests of an instruction, one lane at a time in ascending order (R409, R421, R424). -/
def State.lockLanes (s : State) (e : Env) (a : Reg) (lvl : Lvl) (m : LMode) (tryOnly esc : Bool) : State × List (Nat × LaneAns) :=
  e.lanes.foldl (fun (p : State × List (Nat × LaneAns)) l =>
    match e.lockName a l with
    | none => (p.1, p.2 ++ [(l, LaneAns.trit .u)])
    | some name =>
      if e.f.granted.getLsbD l then (p.1, p.2 ++ [(l, LaneAns.trit .t)])
      else if e.f.denied.getLsbD l then (p.1, p.2 ++ [(l, LaneAns.trit .f)]) else
      let (t, ans) := p.1.lockRequest e.c.ctx e.c.age e.r.uid l lvl name m tryOnly esc
      let r : LaneAns := match ans with
        | .granted => .trit .t
        | .refused => .trit .f
        | .queued => .parks (canonName lvl name.toNat)
      (t, p.2 ++ [(l, r)])) (s, [])

/-- A wall's parked lanes whose requests a wound withdrew while their instruction ran are released (R413). -/
def State.releaseWithdrawn (s : State) (age uid : Nat) : State :=
  let waits := (s.locks.flatMap fun k => k.queue) ++ [0, 1, 2, 3].flatMap fun i => (s.island i).overflow.map fun o => o.req
  match s.course? uid with
  | none => s
  | some c => c.frags.foldl (fun t p =>
      if waits.any fun q => q.age == age && q.uid == uid && p.2.lanes.getLsbD q.lane then t
      else t.release ⟨uid, p.1⟩ (· == 0x30)) s

/-- lk.acq and lk.esc: lanes with an answer go on, and the others park, one fragment for each name (R89, R411, R421). A lane
whose queued request was granted, or met a full count, while the instruction ran has its answer; a wound that reached the wall
meanwhile marks its fragments and withdraws its requests (R413). -/
def State.lockInstr (s : State) (e : Env) (d a : Reg) (lvl : Lvl) (m : LMode) (tryOnly esc : Bool) : State :=
  let (t, ans) := s.lockLanes e a lvl m tryOnly esc
  let f := (t.frag? e.r).getD e.f
  let ans : List (Nat × LaneAns) := ans.map fun (p : Nat × LaneAns) => match p.2 with
    | .parks _ =>
      if f.granted.getLsbD p.1 then (p.1, LaneAns.trit .t) else if f.denied.getLsbD p.1 then (p.1, LaneAns.trit .f) else p
    | _ => p
  let kept := { f with granted := f.granted &&& ~~~e.f.active, denied := f.denied &&& ~~~e.f.active }
  let t := t.updFrag e.r fun _ => kept
  let t := t.updCourse e.r.uid fun c => ans.foldl (fun c p => match p.2 with
    | .trit x => c.setQ d.toNat p.1 x
    | .parks _ => c) c
  let names := dedup (ans.filterMap fun p => match p.2 with
    | .parks n => some n
    | .trit _ => none)
  match names with
  | [] => t.advance e
  | _ =>
    (t.park { e with f := kept } (names.map fun n =>
      { lanes := maskOf ((ans.filter fun p => p.2 == .parks n).map fun p => p.1), code := 0x30, on := .lock lvl n,
        info := none })).releaseWithdrawn e.c.age e.r.uid

/-- lk.acq (R421). -/
def execLkAcq (d a : Reg) (tryOnly : Bool) (lvl : Lvl) (mode : LMode) (s : State) : Out :=
  s.issue (.lkAcq d a tryOnly lvl mode) fun e s => s.lockInstr e d a lvl mode tryOnly false

/-- lk.rel (R422, R426). -/
def execLkRel (a : Reg) (lvl : Lvl) (mode : LMode) (s : State) : Out :=
  s.issue (.lkRel a lvl mode) fun e s => s.releasedTo e fun s =>
    (e.lanes.foldl (fun t l => match e.lockName a l with
      | none => t
      | some name => t.lockRelease e.c.ctx e.c.age lvl name.toNat mode) s).advance e

/-- lk.relall (R423, R426). -/
def execLkRelall (s : State) : Out := s.issue .lkRelall fun e s => s.releasedTo e fun s => (s.relAll e.c.age).advance e

/-- lk.esc (R424). -/
def execLkEsc (d a : Reg) (lvl : Lvl) (mode : LMode) (s : State) : Out :=
  s.issue (.lkEsc d a lvl mode) fun e s => s.lockInstr e d a lvl mode false true

/-- The word of lk.query (R425). -/
def State.queryWord (s : State) (age : Nat) (lvl : Lvl) (name : Nat) : Word :=
  let k := (s.lock? lvl name).getD { lvl := lvl, name := name }
  let code := fun (m : Option LMode) => match m with
    | some m => modeCode m
    | none => 7
  let holds := match k.hold? age with
    | some h => h.counts.foldl (· + ·) 0 + h.folded
    | none => 0
  let others := (k.holds.filter fun h => h.age != age).foldl (fun e h => match h.eff with
    | some m => some (joinOpt e m)
    | none => e) none
  let wound := ((s.wall? age).map fun w => w.wound.isSome).getD false
  let queued := k.queue.any fun q => q.age == age
  BitVec.ofNat 32 (min holds 65535 * 2 ^ 16 + (if wound then 2 ^ 11 else 0) + (if queued then 2 ^ 10 else 0)
    + code others * 2 ^ 5 + code (k.eff age))

/-- lk.query (R425). -/
def execLkQuery (d a : Reg) (lvl : Lvl) (s : State) : Out :=
  s.issue (.lkQuery d a lvl) fun e s =>
    (s.putV e d fun l => some (match e.lockName a l with
      | none => BitVec.allOnes 32
      | some name => s.queryWord e.c.age lvl (canonName lvl name.toNat))).advance e

end Sys2Proof.Machine
end

