-- ==== Sys2Proof/Machine/Expert.lean ====
section
/-!
DEFINITION. The expert pagers (R429 to R439) and the ex class (R440 to R445). The starts and ends of fetches stand in
Pager.lean.
-/

namespace Sys2Proof.Machine

/-- The island of the pager of an id (R429). -/
def pagerOf (id : Nat) : Nat := id % 4

/-- FRAMESZ and the address of a frame (R429, R469). -/
def Ctx.frameSize (x : Ctx) : Nat := 2 ^ (16 + x.framelog)
def Ctx.frameVa (x : Ctx) (f : Nat) : Nat := (x.arena + f * x.frameSize) % 2 ^ 64

def State.expert? (s : State) (ctx id : Nat) : Option Expert := (s.ctx? ctx).bind fun x => x.ert.get? id
def State.updExpert (s : State) (ctx id : Nat) (g : Expert → Expert) : State := s.updCtx ctx fun x => { x with ert := x.ert.upd id g }

/-- Queued demand fetches of a context that found no frame are tried again (R436). -/
def State.retryFetches (s : State) (ctx : Nat) : State :=
  { s with islands := s.islands.mapV fun i =>
      { i with fetches := i.fetches.map fun (x : Fetch) => if x.ctx == ctx then { x with blocked := false } else x } }

/-- An entry gives up its frame (R432, R437). -/
def State.giveUp (s : State) (ctx id st : Nat) : State :=
  (s.updExpert ctx id fun y => { y with st := st, frame := none }).retryFetches ctx

/-- Whether a fetch of an entry is queued. -/
def State.fetchQueued (s : State) (ctx id : Nat) : Bool := (s.island (pagerOf id)).fetches.any fun x => x.ctx == ctx && x.id == id

/-- A place among the demand fetches, or at the end for a hint (R436). -/
def putFetch (q : List Fetch) (x : Fetch) : List Fetch :=
  if x.demand then q.filter (·.demand) ++ [x] ++ q.filter (!·.demand) else q ++ [x]

/-- Starting a fetch of an ABSENT entry (R434, R436): it joins the pager's queue; a demand promotes a queued hint. -/
def State.startFetch (s : State) (ctx id : Nat) (demand : Bool) : State :=
  let x : Fetch := { ctx := ctx, id := id, demand := demand }
  s.updIsland (pagerOf id) fun i =>
    match i.fetches.find? fun o => o.ctx == ctx && o.id == id with
    | none => { i with fetches := putFetch i.fetches x }
    | some o => if demand && !o.demand then { i with fetches := putFetch (i.fetches.filter (· != o)) x } else i

/-- What raising PIN from 0 meets (R432). -/
inductive PinTry where
  | ok (t : State)
  | noRoom
  | gone (t : State)
  deriving DecidableEq, Repr

/-- One more pin of a RESIDENT entry, which takes the frame pins first where PIN is 0 (R432). -/
def State.raisePin (s : State) (ctx id : Nat) : PinTry :=
  match s.ctx? ctx, s.expert? ctx id with
  | some x, some y =>
    if y.pin != 0 then .ok (s.updExpert ctx id fun y => { y with pin := y.pin + 1 })
    else
      match s.xlateRange (pagerOf id) ctx (x.frameVa (y.frame.getD 0)) x.frameSize true with
      | .error c => .gone ((s.walkError ctx c).giveUp ctx id 1)
      | .ok g =>
        match s.pinAll (pagerOf id) ctx g.pages with
        | none => .noRoom
        | some t => .ok (t.updExpert ctx id fun y => { y with pin := 1, pins := g.pages })
  | _, _ => .noRoom

/-- The lanes of a waiter get recorded pins, one after another (R438); false where the notice stops. -/
def State.pinLanes (s : State) (ctx id uid : Nat) : List Nat → State × Bool
  | [] => (s, true)
  | l :: ls =>
    let has := ((s.course? uid).bind fun c => (c.holder l).map fun p => p.2.pinned.contains (l, id)).getD false
    if has then s.pinLanes ctx id uid ls else
    if ((s.expert? ctx id).map (·.pin)).getD 65535 ≥ 65535 then (s, false) else
    match s.raisePin ctx id with
    | .noRoom => (s, false)
    | .gone t => (t.startFetch ctx id true, false)
    | .ok t =>
      let n := ((t.course? uid).bind fun c => (c.holder l).map fun p => p.1).getD 0
      (t.updFrag ⟨uid, n⟩ fun f => { f with pinned := f.pinned ++ [(l, id)] }).pinLanes ctx id uid ls

/-- Releasing the lanes of a waiter (R93): its fragment, or its lanes of a degraded stall. -/
def State.releaseLanes (s : State) (uid : Nat) (lanes : Dword) : State :=
  match (s.course? uid).bind fun c => c.holder (lowestLane lanes) with
  | none => s
  | some (n, _) => s.updFrag ⟨uid, n⟩ fun f => match f.state with
    | .parked _ _ => if f.pending != 0 then f.clearPending s.clock lanes else { f.wake s.clock with records := [] }
    | _ => f

/-- Serving the wait queue of a RESIDENT entry in order (R438). -/
def State.serveWaiters (s : State) (ctx id : Nat) : List (Nat × Dword) → State
  | [] => s
  | (uid, lanes) :: ws =>
    let (t, go) := s.pinLanes ctx id uid (lanesOf lanes)
    if go then ((t.updExpert ctx id fun y => { y with waiters := ws }).releaseLanes uid lanes).serveWaiters ctx id ws else t

/-- The arrival notice of an entry (R438). -/
def State.notice (s : State) (ctx id : Nat) : State :=
  match s.expert? ctx id with
  | none => s
  | some y =>
    if y.st = 3 then s.serveWaiters ctx id y.waiters
    else if y.st = 4 then
      y.waiters.foldl (fun t w => t.releaseLanes w.1 w.2) (s.updExpert ctx id fun y => { y with waiters := [] })
    else s

/-- The notices that wait only for room in a page-lock table or below 65,535 (R432, R438). -/
def State.lateNotices (s : State) : State :=
  s.ctxs.foldl (fun t p => p.2.ert.foldl (fun t (q : Nat × Expert) =>
    if q.2.st == 3 && !q.2.waiters.isEmpty && q.2.pin < 65535 then t.notice p.1 q.1 else t) t) s

/-! The instructions. -/

/-- What a lane of ex.acq receives. -/
inductive AcqAns where
  | addr (x : Nat) (consumed : Bool)
  | absent
  | parks
  deriving DecidableEq, Repr

def Ctx.entry? (x : Ctx) (id : Nat) : Option Expert := if id < x.nexp then (x.ert.get? id).filter fun y => y.st != 0 else none

/-- Without a grant: an absent address under TRY, or the lane parks; a fetch of an ABSENT entry starts (R441). -/
def State.acqWait (s : State) (ctx id : Nat) (tryOnly : Bool) : State × AcqAns :=
  let t := if ((s.expert? ctx id).map (·.st)).getD 0 == 1 then s.startFetch ctx id (!tryOnly) else s
  (t, if tryOnly then .absent else .parks)

/-- One lane of ex.acq (R441). -/
def State.acqLane (s : State) (ctx id lane : Nat) (f : Frag) (tryOnly : Bool) : State × AcqAns :=
  match s.ctx? ctx with
  | none => (s, .absent)
  | some x =>
    match x.entry? id with
    | none => (s.raise ctx .exBadId, .absent)
    | some y =>
      let va := x.frameVa (y.frame.getD 0)
      if f.pinned.contains (lane, id) then (s, .addr va true)
      else if y.st = 4 then (s.raise ctx .exFailed, .absent)
      else if y.st = 3 && y.pin < 65535 then
        match s.raisePin ctx id with
        | .ok t => (t.updExpert ctx id fun y => { y with lastUse := s.clock }, .addr va false)
        | .noRoom => s.acqWait ctx id tryOnly
        | .gone t => t.acqWait ctx id tryOnly
      else s.acqWait ctx id tryOnly

/-- The lanes of ex.acq in ascending order: the id and the answer of each. -/
def State.acqLanes (s : State) (e : Env) (a : Reg) (tryOnly : Bool) : State × List (Nat × Nat × AcqAns) :=
  e.lanes.foldl (fun (p : State × List (Nat × Nat × AcqAns)) l =>
    let id := (e.v .n32 a l).toNat
    if id = 2 ^ 32 - 1 then (p.1, p.2 ++ [(l, id, AcqAns.absent)])
    else let (t, r) := p.1.acqLane e.c.ctx id l e.f tryOnly; (t, p.2 ++ [(l, id, r)])) (s, [])

/-- A grant is an acquire that synchronises with the release of the fill (R445): the core's constant cache no longer holds a
line of the frame, whose pages are pinned now. -/
def State.acquireFrame (s : State) (core ctx id : Nat) : State :=
  match s.ctx? ctx, s.expert? ctx id with
  | some x, some y =>
    let va := x.frameVa (y.frame.getD 0)
    let rs := y.pins.map fun p =>
      let lo := max p.1 va
      (s.place (p.2.2 + (lo - p.1)), min (p.1 + p.2.1) (va + x.frameSize) - lo)
    s.updCore core fun c => { c with cc := c.cc.filter fun q => !rs.any fun r => r.1 ≤ 128 * (q.1 / 32) && 128 * (q.1 / 32) < r.1 + r.2 }
  | _, _ => s

/-- ex.acq (R441, R445). -/
def execExAcq (d a : Reg) (tryOnly : Bool) (s : State) : Out :=
  s.issue (.exAcq d a tryOnly) fun e s =>
    let (t, rs) := s.acqLanes e a tryOnly
    let used := (rs.filter fun r => match r.2.2 with
      | .addr _ true => true
      | _ => false).map fun r => (r.1, r.2.1)
    let left := e.f.pinned.filter fun p => !used.contains p
    let granted := dedup ((rs.filter fun r => match r.2.2 with
      | .addr .. => true
      | _ => false).map fun r => r.2.1)
    let t := granted.foldl (fun t id => t.acquireFrame e.c.core e.c.ctx id) t
    let t := t.updFrag e.r fun f => { f with pinned := left }
    let t := t.putVP e d fun l => match rs.find? fun r => r.1 == l with
      | some (_, _, .addr x _) => some (BitVec.ofNat 64 x)
      | some (_, _, .absent) => some (BitVec.allOnes 64)
      | _ => none
    let parks := rs.filter fun r => r.2.2 == .parks
    match dedup (parks.map fun r => r.2.1) with
    | [] => t.advance e
    | ids =>
      let lanes := fun (id : Nat) => maskOf ((parks.filter fun r => r.2.1 == id).map fun r => r.1)
      let t := t.park { e with f := { e.f with pinned := left } } (ids.map fun id =>
        { lanes := lanes id, code := 0x31, on := .expert id, info := none })
      ids.foldl (fun t id => t.updExpert e.c.ctx id fun y => { y with waiters := y.waiters ++ [(e.r.uid, lanes id)] }) t

/-- Copies, gathers and transform runs of a course that are not complete. -/
def State.engineOps (s : State) (uid : Nat) : List Nat :=
  (s.ops.filter fun p => p.2.uid == uid && match p.2.work with
    | .copy .. | .run .. | .gather .. => true
    | _ => false).map fun p => p.1

/-- Lowering PIN (R432, R436, R438, R442). -/
def State.dropPin (s : State) (ctx id : Nat) : State :=
  match s.expert? ctx id with
  | none => s
  | some y =>
    if y.pin = 0 then s.raise ctx .exRelUnpinned
    else
      let t := s.updExpert ctx id fun y => { y with pin := y.pin - 1, pins := if y.pin = 1 then [] else y.pins }
      if y.pin = 1 then (t.unpin (pagerOf id) ctx y.pins).retryFetches ctx
      else if y.pin = 65535 && y.st = 3 then t.notice ctx id
      else t

/-- ex.rel (R442): what it waits for is recorded when it first runs. -/
def execExRel (a : Reg) (s : State) : Out :=
  s.issue (.exRel a) fun e s =>
    let before := e.f.totV.getD (s.engineOps e.r.uid)
    let left := before.filter fun id => (s.op? id).isSome
    let note := s.updFrag e.r fun f => { f with totV := some left }
    if !left.isEmpty then note.await e .counter (.ops left)
    else if e.c.ldc != 0 || e.c.tlc != 0 then note.await e .counter (.counters 0 2047 0)
    else
      let t := e.lanes.foldl (fun t l => t.dropPin e.c.ctx (e.v .n32 a l).toNat) s
      (t.updFrag e.r fun f => { f with totV := none }).advance e

/-- Acting on one id of ex.hint (R443). -/
def State.hintId (s : State) (ctx id : Nat) : State :=
  match s.expert? ctx id with
  | none => s
  | some y =>
    if y.st = 1 then s.startFetch ctx id false
    else if y.st = 3 then s.updExpert ctx id fun y => { y with lastUse := s.clock }
    else s

/-- ex.hint (R443). -/
def execExHint (a : Reg) (s : State) : Out :=
  s.issue (.exHint a) fun e s =>
    let ids := if isS a then [(e.s .n64 a).toNat] else dedup (e.lanes.map fun l => (e.v .n32 a l).toNat)
    (ids.foldl (fun t id => t.hintId e.c.ctx id) s).advance e

/-- The status word (R444). -/
def Expert.word (y : Expert) : Nat :=
  let waiting := min 4095 (y.waiters.foldl (fun n w => n + popMask w.2) 0)
  y.pin * 2 ^ 48 + (y.frame.getD (2 ^ 24 - 1)) * 2 ^ 24 + waiting * 2 ^ 12 + y.cls * 2 ^ 9 + y.kind * 2 ^ 7 + y.st

/-- ex.stat (R444). -/
def execExStat (d a : Reg) (s : State) : Out :=
  s.issue (.exStat d a) fun e s =>
    let id := (e.s .n64 a).toNat
    let word := if id = 2 ^ 64 - 1 then 2 ^ 64 - 1 else match s.expert? e.c.ctx id with
      | some y => y.word
      | none => 0
    (s.setS e d (BitVec.ofNat 64 word)).advance e

end Sys2Proof.Machine
end

