-- ==== Sys2Proof/Machine/Engine.lean ====
section
/-!
DEFINITION. The steps of the agents on the cores and islands (file 95): traps that replace an instruction, fragments that
merge and return from the save area, outstanding operations that complete, page walks, and fault records that are written. A
step that cannot happen in a state leaves it as it is.
-/

namespace Sys2Proof.Machine

/-! In place of an instruction. -/

/-- The wound trap (R414): a marked fragment whose handler flag is clear takes trap 0x08, which clears the mark. -/
def execWoundTrap (s : State) : Out :=
  match s.issuer? with
  | none => .fault .noFragment
  | some e => s.act fun s =>
    match e.f.mark with
    | none => s
    | some name =>
      if e.f.handler then s
      else (s.updFrag e.r fun f => { f with mark := none }).trap e 0x08 name e.f.lanes

/-- A word without a meaning takes the illegal-instruction trap (R124, R370). -/
def execIllegalInstruction (word : BitVec 32) (s : State) : Out :=
  match s.issuer? with
  | none => .fault .noFragment
  | some e => s.act fun s => if (decode word).toOption.isNone then s.trapIllegal e word else s

/-- The translation of a fragment's next fetch (R354). -/
def State.fetchLookup (s : State) (c : Course) (f : Frag) : Xres :=
  s.lookup c.core c.ctx f.outcomes (f.pc.toNat / 65536) false true

/-- A fetch that fails (R358, R359): the fragment parks as one group, or takes trap 0x0C. The record's instruction word was
never read, so it is a free value (log 3). -/
def execInstructionFetchFault (s : State) : Out :=
  match s.issuer? with
  | none => .fault .noFragment
  | some e => s.act fun s =>
    match s.fetchLookup e.c e.f with
    | .violation => s.trap e 0x0C e.f.pc e.f.lanes
    | .fault code level =>
      if s.heldFull e.c.core 1 then s.holdBack e else
      s.park e [{ lanes := e.f.active, code := code, on := .service,
                  info := some { unit := e.f.pc.toNat / 65536, vaddr := e.f.pc.toNat, aux := level, write := false, origin := 1,
                                 word := s.freeNat 4 } }]
    | _ => s

/-! Fragments. -/

/-- Nothing is left of an execution for some lanes only. -/
def Frag.whole (f : Frag) : Bool := f.active == f.lanes

/-- A load or an atomic whose result goes to the fragment's own s1 or s2 is outstanding (R207). -/
def State.ownPending (s : State) (r : FragRef) : Bool :=
  s.ops.any fun p => p.2.uid == r.uid && match p.2.work with
    | .load (.own serial _) .. | .atomic _ _ (.own serial _) _ _ => serial == r.serial
    | _ => false

/-- The hardware merges two READY fragments with equal PCs and identical join stacks (R96), whose s1 and s2 agree (R207). -/
def execFragmentMerge (cid one two : Nat) (s : State) : Out :=
  s.act fun s =>
    match s.frag? ⟨cid, one⟩, s.frag? ⟨cid, two⟩ with
    | some f, some g =>
      if one != two && f.state == .ready && g.state == .ready && f.pc == g.pc && f.joins == g.joins
          && f.s1 == g.s1 && f.s2 == g.s2 && f.whole && g.whole && !f.spilled && !g.spilled
          && !s.ownPending ⟨cid, one⟩ && !s.ownPending ⟨cid, two⟩
      then s.merge cid [one, two] id else s
    | _, _ => s

/-- The most recently spilled READY fragment of a course. -/
def Course.spilledReady (c : Course) : Option (Nat × Frag) :=
  (c.frags.filter fun p => p.2.spilled && p.2.state == .ready).foldl (fun (m : Option (Nat × Frag)) p => match m with
    | some x => if x.2.spillNo < p.2.spillNo then some p else m
    | none => some p) none

/-- The fragment that makes room by an exchange (R101): a resident WAITING or PARKED one of a course without a resident READY
fragment. The rule says only that it is one of them; the model takes the lowest serial (log 71). -/
def Course.exchange (c : Course) : Option (Nat × Frag) :=
  if c.frags.any fun p => !p.2.spilled && p.2.state == .ready then none
  else c.frags.find? fun p => !p.2.spilled && p.2.state != .ready

/-- A spilled fragment becomes resident (R101, R104). -/
def State.refill (s : State) (uid n : Nat) (reserved : Bool) : State :=
  s.updFrag ⟨uid, n⟩ fun f => { f with spilled := false, reserved := reserved, readyTime := s.clock }

/-- The entry that a course's spilled fragment can have: its free reserved entry, a shared one, or that of an exchange. Which
of a free reserved and a free shared entry it takes is not stated; the model takes the reserved one (log 71). In an exchange
the descriptor that leaves takes the place of the one that is refilled (R101). -/
def State.refillCourse (s : State) (uid : Nat) (c : Course) : Option State :=
  match c.spilledReady with
  | none => none
  | some (n, x) =>
    if !c.frags.any fun p => p.2.reserved then some (s.refill uid n true)
    else if s.sharedFree c.core > 0 then some (s.refill uid n false)
    else match c.exchange with
      | none => none
      | some (m, g) =>
        let t := s.updCourse uid fun c =>
          { c.updFrag m fun f => { f with spilled := true, reserved := false, spillNo := c.spills, saveSlot := x.saveSlot }
            with spills := c.spills + 1 }
        some (((t.saveDesc c x.saveSlot).claim c.ctx).refill uid n g.reserved)

/-- The courses of a core in age order (R101). The courses of one wall share one age; the model takes the lower index first
(log 71). -/
def State.coursesByAge (s : State) (core : Nat) : List (Nat × Course) :=
  sortBy (fun a b => a.2.age < b.2.age || (a.2.age == b.2.age && a.2.index < b.2.index))
    (s.courses.filter fun p => p.2.core == core && p.2.resident)

/-- A freed entry goes to a spilled READY fragment (R101). -/
def execFragmentRefill (core : Nat) (s : State) : Out :=
  s.act fun s => ((s.coursesByAge core).findSome? fun p => s.refillCourse p.1 p.2).getD s

/-! Loads, stores and atomics (R250, R330, R332, R335). -/

/-- The course still has an earlier access to come at bytes that an operation touches (R330, R332); of two fragments that R330 leaves
unordered, the access that was accepted first (log 107). -/
def State.earlierAccess (s : State) (id uid : Nat) (ts : List (Nat × Nat)) : Bool :=
  (s.stores.any fun w => w.uid == uid && w.op < id && overlaps (w.cells.map fun c => (c.1, 1)) ts)
  || s.ops.any fun p => p.1 < id && p.2.uid == uid && overlaps p.2.work.touches ts

/-- A byte that ld.c returns, and the cache line it is taken from: the line in the constant cache, or the location's present
value, which it also is where the cache holds no such line (R254; log 3). -/
def State.constByte (s : State) (core k efmt loc : Nat) : Byte :=
  match (s.core core).cc.get? (32 * lineOf loc + efmt) with
  | some line => if Config.freeBool s.steps (lineOf loc) then line.getD (loc % 128) 0 else s.viewAt k efmt loc
  | none => s.viewAt k efmt loc

/-- The constant cache takes the lines that ld.c has read. -/
def State.fillConst (s : State) (core k : Nat) (lines : List (Nat × Nat)) : State :=
  s.updCore core fun c => { c with cc := lines.foldl (fun (t : Tab (List Byte)) l =>
    match Tab.get? t (32 * l.1 + l.2) with
    | some _ => t
    | none => t.set (32 * l.1 + l.2) (s.viewBytes k l.2 (128 * l.1) 128)) c.cc }

/-- The bytes of a lane's load. -/
def State.loadBytes (s : State) (o : Op) (ps : List Piece) (got : Tab (List Byte)) (const : Bool) (lane : Nat) : List Byte :=
  match got.get? lane with
  | some bs => bs
  | none =>
    let k := islandOf o.core
    (sortBy (fun (a b : Piece) => a.at' < b.at') (ps.filter fun p => p.lane == lane)).flatMap fun p => match p.tgt with
      | .mem loc f => (List.range p.len).map fun i => if const then s.constByte o.core k f (loc + i) else s.viewAt k f (loc + i)
      | .stash _ => []

/-- A location outside the package that a window with C = 1 maps (R474). -/
def State.cacheable (s : State) (loc : Nat) : Bool :=
  !isUnder loc && s.windows.any fun p => s.winLive p.2 && p.2.c && spaceOfWin p.2 == spaceOf loc
    && p.2.tbase ≤ loc % 2 ^ 64 && loc % 2 ^ 64 < p.2.tbase + p.2.size * 2 ^ 36

/-- Lines that no C = 1 window maps any more leave the caching slices (R474). -/
def State.dropUncached (s : State) : State := { s with cached := s.cached.filter fun l => s.cacheable (128 * l) }

/-- The caching slices take the lines of a C = 1 window that an access reaches (R474). -/
def State.fillCached (s : State) (locs : List Nat) : State :=
  { s with cached := (dedup ((locs.filter s.cacheable).map lineOf)).foldl (fun t l => if t.contains l then t else t ++ [l]) s.cached }

/-- A load's destinations are written (R250, R252, R255): all lanes and pieces are read at this moment (log 100). -/
def State.finishLoad (s : State) (id : Nat) (o : Op) (dst : Dest) (lanes : Dword) (ps : List Piece) (got : Tab (List Byte))
    (const : Bool) : State :=
  let t := s.updCourse o.uid fun c => (lanesOf lanes).foldl (fun c l => c.putLoaded dst l (s.loadBytes o ps got const l)) c
  let t := if const then
      t.fillConst o.core (islandOf o.core) (dedup (ps.filterMap fun p => match p.tgt with
        | .mem loc f => some (lineOf loc, f)
        | .stash _ => none))
    else t
  (t.dropOp id).addLdc o.uid false

/-- The read-modify-write of the lanes at one location (R265 to R268): the bytes written, none where nothing is, and each
lane's result. -/
def State.rmwAt (s : State) (op : AtOp) (size efmt loc : Nat) (ls : List AtLane) : List Byte × List (Nat × Nat) :=
  match op with
  | .slot =>
    let none' := 2 ^ (8 * size) - 1
    let next := s.latestNat efmt loc size
    let cap := s.latestNat efmt (loc + size) size
    if next = none' || cap = none' then ([], ls.map fun l => (l.lane, none'))
    else
      let (g, rs) := slotServe none' next cap 0 0 ls
      (natLe size (next + g), rs)
  | _ =>
    let old := s.latestNat efmt loc size
    let (fin, rs) := op.serve size old ls
    let kept := op == .cas && (rs.zip ls).all fun p => p.1.2 != p.2.x
    (if kept then [] else natLe size fin, rs)

/-- Every write in flight on the bytes of an atomic is applied at its island (R335). -/
def State.settledAt (s : State) (k : Nat) (ts : List (Nat × Nat)) : Bool :=
  s.writes.all fun w => w.applied.getLsbD k || !overlaps (w.cells.map fun c => (c.1, 1)) ts

/-- The lanes of an atomic, one location after another. -/
def State.serveLocs (s : State) (id : Nat) (o : Op) (op : AtOp) (size : Nat) (lanes : List AtLane) : State × List (Nat × Nat) :=
  (dedup (lanes.map fun l => (l.loc, l.efmt))).foldl (fun (p : State × List (Nat × Nat)) a =>
    let (bs, rs) := p.1.rmwAt op size a.2 a.1 (lanes.filter fun l => (l.loc, l.efmt) == a)
    (p.1.write (islandOf o.core) (cellsAt a.1 bs) (some a.2) o.uid id, p.2 ++ rs)) (s, [])

/-- An atomic is carried out and its old values are written (R250, R265). -/
def State.finishAtomic (s : State) (id : Nat) (o : Op) (op : AtOp) (size : Nat) (dst : Dest) (lanes posted : List AtLane) : State :=
  let (t, rs) := s.serveLocs id o op size lanes
  let t := t.updCourse o.uid fun c => rs.foldl (fun c r => match dst with
    | .vector reg _ => c.setAt reg size r.1 r.2
    | d => c.putLoaded d r.1 (natLe 8 r.2)) c
  let t := match dst with
    | .vector .. => t.addLdc o.uid false
    | _ => t
  t.updOp id fun o => { o with work := if posted.isEmpty then .store else .posted op size posted }

/-- LOAD_COMPLETE can happen. -/
def State.loadReady (s : State) (id : Nat) (o : Op) : Bool :=
  match o.work with
  | .load .. => !s.earlierAccess id o.uid o.work.touches
  | .atomic .. => !s.earlierAccess id o.uid o.work.touches && s.settledAt (islandOf o.core) o.work.touches
  | _ => false

/-- LOAD_COMPLETE (R250). -/
def execLoadComplete (op : Nat) (s : State) : Out :=
  s.act fun s =>
    match s.op? op with
    | none => s
    | some o =>
      if !s.loadReady op o then s else
      s.unmarkedOr o.ctx o.work.readLocs fun s =>
      let s := s.fillCached o.work.readLocs
      match o.work with
      | .load dst lanes ps got const => s.finishLoad op o dst lanes ps got const
      | .atomic a size dst lanes posted => s.finishAtomic op o a size dst lanes posted
      | _ => s

/-- The writes of an operation are performed at .dev (R250, R327). -/
def State.storeReady (s : State) (id : Nat) (o : Op) : Bool :=
  o.work == .store && (s.stores ++ s.writes).all fun w => w.op != id

/-- STORE_PERFORMED (R250). -/
def execStorePerformed (op : Nat) (s : State) : Out :=
  s.act fun s =>
    match s.op? op with
    | none => s
    | some o => if s.storeReady op o then (s.dropOp op).addStc o.uid false else s

/-- The remote home slice applies a posted reduction, each lane as the atomic, and acknowledges it (R477). -/
def execPostedReductionAck (op : Nat) (s : State) : Out :=
  s.act fun s =>
    match s.op? op with
    | none => s
    | some o =>
      match o.work with
      | .posted a size lanes =>
        if s.earlierAccess op o.uid o.work.touches then s else
        let (t, _) := s.serveLocs op o a size lanes
        let left := (t.stores ++ t.writes).any fun w => w.op == op && !(w.everywhere)
        if left then t.updOp op fun o => { o with work := .store } else (t.dropOp op).addStc o.uid false
      | _ => s

/-- Completing one outstanding operation of a lane at once: what it reads may meet an uncorrectable error (R373 step 2, R485). -/
def State.finishNow (s : State) (id : Nat) : State :=
  match s.op? id with
  | none => s
  | some o =>
    let mine := fun (t : State) =>
      let ws := t.stores.filter fun w => w.op == id
      let t : State := { t with stores := t.stores.filter fun (w : Write) => w.op != id }
      (ws.foldl (fun t w => t.originate w) t).flushAll
    let reading := fun (body : State → State) =>
      s.unmarkedOr o.ctx o.work.readLocs fun s => body (s.fillCached o.work.readLocs)
    match o.work with
    | .load dst lanes ps got const => reading fun s => s.finishLoad id o dst lanes ps got const
    | .store => ((mine s).dropOp id).addStc o.uid false
    | .atomic a size dst lanes posted => reading fun s =>
      let t := (s.flushAll.finishAtomic id o a size dst lanes [])
      let (t, _) := t.serveLocs id o a size posted
      (t.flushAll.dropOp id).addStc o.uid false
    | .posted a size lanes =>
      let (t, _) := (mine s).serveLocs id o a size lanes
      (t.flushAll.dropOp id).addStc o.uid false
    | _ => s

/-- The accesses of a course below a number take effect before one that comes now to some of their bytes (R330). -/
def State.finishBefore (s : State) (uid bound : Nat) (locs : List Nat) : State :=
  if (s.courseBusy uid locs).all fun id => bound ≤ id then s
  else ((s.ops.filter fun p => p.2.uid == uid && p.1 < bound).map fun p => p.1).foldl State.finishNow s

/-! Tile operations (R290, R291, R307, R311). -/

/-- The tiles that an operation names. -/
def Work.tiles : Work → List Nat
  | .tlZero z _ | .tlLoad z _ _ | .tlDrain z _ _ => [z]
  | .tlMma z kc _ _ => if kc then [z, z + 1] else [z]
  | _ => []

def State.ageOf (s : State) (uid : Nat) : Option Nat := (s.course? uid).map fun c => c.age

/-- The engines of the operation's course are not halted. -/
def State.engineRuns (s : State) (o : Op) : Bool := ((s.course? o.uid).map fun c => c.resident).getD false

/-- A tile operation can complete: earlier operations of its wall on its core have left its tiles (R290). -/
def State.tileReady (s : State) (id : Nat) (o : Op) : Bool :=
  !o.work.tiles.isEmpty && s.engineRuns o && s.ops.all fun p =>
    !(p.1 < id && p.2.core == o.core && s.ageOf p.2.uid == s.ageOf o.uid && p.2.work.tiles.any o.work.tiles.contains)

/-- The drained row i as bytes. -/
def Wall.drainRow (w : Wall) (half z : Nat) (d : Drain) (i : Nat) : List Byte :=
  packRow (((Fmt.ofCode d.tgt).map fun f => f.bits).getD 8)
    ((List.range 64).map fun j => drainCode d.acc32 d.tgt d.scale (w.zAt (zBase half z + 64 * i + j)))

/-- Rows lo to hi of a drain (R311). DRAIN_NAN_LOST rises for each NaN that E2M1 cannot hold (R68), and does so too where the
destination is absent and nothing is written, which the rules leave open (log 70). -/
def State.drainRows (s : State) (o : Op) (w : Wall) (half z : Nat) (d : Drain) (us : Tab (Nat × Nat)) (lo hi : Nat) : State :=
  let k := islandOf o.core
  let rows := (List.range (hi - lo)).map fun i => lo + i
  let lost := if d.tgt = 5 then
      (rows.flatMap fun i => (List.range 64).filter fun j =>
        Fmt.f32.valF (w.zAt (zBase half z + 64 * i + j)).toNat == .nan).length
    else 0
  let t := s.raiseBy o.ctx .drainNanLost lost
  let cells := rows.flatMap fun i => cellsAt (d.dst + i * d.pitch) (w.drainRow half z d i)
  if d.absentDst then t
  else if d.stash then t.stashPerform ((s.ageOf o.uid).getD 0) k (cells.map fun c => (swz c.1 d.span, c.2))
  else t.performUnits k us (cells.map fun c => (c.1 % 2 ^ 64, c.2))

/-- The absolute maximum of a drain, after its elements (R311). -/
def State.drainMax (s : State) (o : Op) (w : Wall) (half z : Nat) (d : Drain) (us : Tab (Nat × Nat)) : State :=
  let k := islandOf o.core
  let age := (s.ageOf o.uid).getD 0
  if !d.amax || d.absentDst then s else
  match absMax ((List.range 4096).map fun n => w.zAt (zBase half z + n)), s.wall? age with
  | some m, some w' =>
    if d.stash then
      let a := ((d.dst : Int) + d.amOff).toNat
      s.stashPerform age k (cellsAt a (natLe 4 (AtOp.new (.max .f32) 4 (leNat (s.stashBytes w' k a 4)) m 0)))
    else
      let l := unitLoc us (((d.dst : Int) + d.amOff) % 2 ^ 64).toNat
      s.rmwNat k l.1 l.2 4 fun old => AtOp.new (.max .f32) 4 old m 0
  | _, _ => s

/-- The bytes lo to hi that a copy writes: in stash, by stash offset, or in global memory, by address (R314). -/
def State.copyCells (s : State) (o : Op) (w : Wall) (dstS srcS : Bool) (dst src span len stride : Nat) (us : Tab (Nat × Nat))
    (lo hi : Nat) : List (Nat × Byte) :=
  let k := islandOf o.core
  (List.range (hi - lo)).map fun i =>
    let n := lo + i
    let st := fun (off : Nat) => swz (off + n) span
    let b := if srcS then s.stashByte w k (st src)
      else (let p := unitLoc us (copyVa src len stride n); s.viewAt k p.2 p.1)
    (if dstS then st dst else copyVa dst len stride n, b)

/-- Rows, K-steps or bytes lo to hi of a tile operation or a copy (R67, R292, R307, R311, R314). -/
def State.workOn (s : State) (o : Op) (age : Nat) (w : Wall) (lo hi : Nat) : State :=
  let half := w.halfOf o.core
  let k := islandOf o.core
  match o.work with
  | .tlZero z code => s.updWall age fun w => w.fillTile half z fun _ => code
  | .tlLoad z none _ => s.updWall age fun w => w.fillRows half z lo hi fun _ => 0xFFFFFFFF#32
  | .tlLoad z (some va) us =>
    s.updWall age fun w => w.fillRows half z lo hi fun n => BitVec.ofNat 32 (leNat (s.readUnits k us (va + 4 * n) 4))
  | .tlMma z kc acc32 steps =>
    s.updWall age fun w => ((steps.drop lo).take (hi - lo)).foldl (fun w k => w.applyStep half z kc acc32 k) w
  | .tlDrain z d us =>
    let t := s.drainRows o w half z d us lo hi
    (if hi = 64 then t.drainMax o w half z d us else t).claim o.ctx
  | .copy dstS srcS dst src span len _ stride us =>
    let cells := s.copyCells o w dstS srcS dst src span len stride us lo hi
    let t := (if dstS then s.stashWrite age k cells else s.performUnits k us cells).claim o.ctx
    if srcS then t.updWall age fun w => w.touch ((List.range (hi - lo)).map fun i => swz (src + lo + i) span) else t
  | _ => s

/-- The absolute-maximum word is accessed by the last rows of a drain, where some element is neither absent nor NaN (R311). -/
def Wall.amIn (w : Wall) (half hi : Nat) : Work → Option Drain
  | .tlDrain z d _ =>
    if hi = 64 && (absMax ((List.range 4096).map fun n => w.zAt (zBase half z + n))).isSome then some d else none
  | _ => none

/-- The virtual addresses of the global side that a tile operation or a copy accesses from lo to hi. -/
def Work.vasIn (lo hi : Nat) : Work → List Nat
  | .tlLoad _ (some va) _ => (List.range (256 * (hi - lo))).map fun i => va + 256 * lo + i
  | .tlDrain _ d _ =>
    if d.stash || d.absentDst then [] else
    (List.range (hi - lo)).flatMap fun i => (List.range (tgtRow d.tgt)).map fun j => d.dst + (lo + i) * d.pitch + j
  | .copy dstS srcS dst src _ len _ stride _ =>
    let side := fun (base : Nat) => (List.range (hi - lo)).map fun i => copyVa base len stride (lo + i)
    (if dstS then [] else side dst) ++ (if srcS then [] else side src)
  | _ => []

def Work.units : Work → Tab (Nat × Nat)
  | .tlLoad _ _ us | .tlDrain _ _ us | .copy _ _ _ _ _ _ _ _ us => us
  | _ => []

/-- The EID of an engine operation without one of its own kind: that of the issuing course, with its number (R361; log 72). -/
def State.opWho (s : State) (o : Op) : Nat := eidOf 0 o.core (((s.course? o.uid).map fun c => c.slot).getD 0) o.seq

/-- A step of a tile operation or a copy from lo to hi: it meets an uncorrectable error (R485), or a window that no longer maps
an address, which is a trap that no handler handles (R367, R473), or it is done. -/
def State.workOr (s : State) (o : Op) (w : Wall) (lo hi : Nat) (body : State → State) : State :=
  let am := (w.amIn (w.halfOf o.core) hi o.work).toList
  let amVas := am.flatMap Drain.amVas
  match s.unmappedIn o.work.units (o.work.vasIn lo hi ++ amVas) with
  | some va => s.engineLost o.ctx (s.opWho o) ⟨0x0C, 0, va⟩
  | none =>
    match s.boundFail w (o.work.stashIn lo hi ++ am.flatMap Drain.amOffs) with
    | some x => s.engineLost o.ctx (s.opWho o) x
    | none => s.unmarkedOr o.ctx (o.work.readsIn lo hi ++ amVas.map fun va => (unitLoc o.work.units va).1) body

/-- TILE_OPERATION_COMPLETE (R291): what is left of the operation is done. -/
def execTileOperationComplete (op : Nat) (s : State) : Out :=
  s.act fun s =>
    match s.op? op with
    | none => s
    | some o =>
      if !s.tileReady op o then s else
      match s.course? o.uid with
      | none => s
      | some c =>
        match s.wall? c.age with
        | none => s
        | some w =>
          s.workOr o w o.done o.work.size fun s =>
          (((s.workOn o c.age w o.done o.work.size).unpin (islandOf o.core) o.ctx o.pins).dropOp op).addTlc o.uid false

/-! Copies (R314 to R316). -/

/-- COPY_COMPLETE (R315, R316): what is left of the copy is done. -/
def execCopyComplete (op : Nat) (s : State) : Out :=
  s.act fun s =>
    match s.op? op with
    | none => s
    | some o =>
      match o.work.isCopy, s.course? o.uid with
      | true, some c =>
        match s.wall? c.age with
        | none => s
        | some w =>
          if !c.resident then s else
          s.workOr o w o.done o.work.size fun s =>
          let t := ((s.workOn o c.age w o.done o.work.size).unpin (islandOf o.core) o.ctx o.pins).dropOp op
          (t.updCourse o.uid fun c =>
            { c with copies := c.copies.filter (· != op)
                     batches := c.batches.map fun (b : Batch) => { b with ops := b.ops.filter (· != op) } }).checkBatches o.uid
      | _, _ => s

/-! Transform runs and gathers (R322, R367, R387). -/

/-- An earlier operation of the same course and engine is not complete: a stopped one keeps its place in the completion order of
the course (R367). -/
def State.behind (s : State) (id : Nat) (o : Op) : Bool :=
  s.ops.any fun p => p.1 < id && p.2.uid == o.uid && p.2.work.engineKind == o.work.engineKind

/-- Nothing is left of a run or a gather but its completion. -/
def Work.spent : Work → Bool
  | .run _ _ r => decide (r.items ≤ r.pos) && r.part.isEmpty
  | .gather _ g => decide (64 ≤ g.row)
  | _ => false

/-- An operation is at the head of its engine's queue (R322, R367, R387): those that a fault has stopped have left the queue,
and those that only wait to complete behind one do not hold the engine. -/
def State.engineHead (s : State) (id : Nat) (o : Op) : Bool :=
  o.work.engineKind != 0 && !o.stopped && s.engineRuns o && s.ops.all fun p =>
    !(p.1 < id && p.2.core == o.core && p.2.work.engineKind == o.work.engineKind && !p.2.stopped
      && s.engineRuns p.2 && !p.2.work.spent)

/-- The engine can work on an operation, or nothing but its completion is left. -/
def State.engineReady (s : State) (id : Nat) (o : Op) : Bool :=
  s.engineHead id o || (o.work.spent && !o.stopped && s.engineRuns o)

/-- How far an operation gets: the state, its work as saved, the pages that it holds, and the fault that stops it. -/
structure EngineEnd where
  s : State
  work : Work
  pins : List (Nat × Nat × Nat)
  fail : Option (XFail × Bool)
  deriving DecidableEq, Repr

/-- Delivering the rows of a gather (R386), each with the pages that it reads pinned (R387). -/
def State.gatherRows (s : State) (o : Op) (age : Nat) (pins : List (Nat × Nat × Nat)) (g : Gather) :
    Nat → State × Gather × List (Nat × Nat × Nat) × Option XFail
  | 0 => (s, g, pins, none)
  | n + 1 =>
    let k := islandOf o.core
    match s.gatherRow k o.ctx g with
    | .error x => (s, g, pins, some x)
    | .ok x =>
      let cells := (cellsAt (g.off + g.row * g.rowBytes) x.bytes).map fun c => (swz c.1 g.span, c.2)
      match s.repin k o.ctx pins x.pages, (s.wall? age).bind fun w => s.boundFail w (cells.map fun c => c.1) with
      | _, some y => (s, g, pins, some y)
      | none, none => (s, g, pins, some ⟨pinCode, 0, 0⟩)
      | some t, none =>
        let t := (t.stashWrite age k cells).claim o.ctx
        let t := if x.badId then t.raise o.ctx .kvBadId else t
        t.gatherRows o age x.pages { g with row := g.row + 1, ids := x.ids } n

/-- Working on a run or a gather as far as it gets, or with `one` for one step: an output line or a row (R292, R387). -/
def State.engineGo (s : State) (o : Op) (one : Bool) : EngineEnd :=
  match o.work with
  | .run handle obj r =>
    let e := RunEnd.go one (islandOf o.core) o.ctx r.bound
      { s := s, r := r, reads := o.pins, writes := [], fail := none }
    ⟨e.s, .run handle obj e.r, e.pins, e.fail⟩
  | .gather obj g =>
    let (t, g', pins, x) := s.gatherRows o ((s.ageOf o.uid).getD 0) o.pins g (if one then min 1 (64 - g.row) else 64 - g.row)
    ⟨t, .gather obj g', pins, x.map fun x => (x, false)⟩
  | w => ⟨s, w, o.pins, none⟩

/-- The operation as it stands after working. One that has got on is no longer held back (R364). -/
def EngineEnd.keep (e : EngineEnd) (op : Nat) : State :=
  e.s.updOp op fun o => { o with work := e.work, pins := e.pins, pinWait := false, held := o.held && e.work == o.work }

/-- The stash barrier object of an operation. -/
def Work.object : Work → Option Nat
  | .run _ obj _ => obj
  | .gather obj _ => obj
  | _ => none

/-- An operation of a kind that is at its queue's head and meets no fault does what is left; it completes, and arrives at its
object, once the earlier ones of its course have completed (R322, R367, R387). -/
def State.engineComplete (s : State) (kind op : Nat) : State :=
  match s.op? op with
  | none => s
  | some o =>
    if o.work.engineKind != kind || !s.engineReady op o then s else
    let e := s.engineGo o false
    match e.fail with
    | some _ => s
    | none => if s.behind op o then e.keep op else ((e.s.unpin (islandOf o.core) o.ctx e.pins).dropOp op).arriveObj o o.work.object

/-- XF_RUN_COMPLETE (R322). -/
def execXfRunComplete (op : Nat) (s : State) : Out := s.act fun s => s.engineComplete 2 op

/-- GATHER_COMPLETE (R387). -/
def execGatherComplete (op : Nat) (s : State) : Out := s.act fun s => s.engineComplete 1 op

/-- ENGINE_OPERATION_FAULT (R364, R367): what is written stays, the state is saved, the pages are no longer pinned, and a record
is formed. A pin without room makes the operation wait, and PIN_WAIT rises (R308, R357). -/
def execEngineOperationFault (op : Nat) (s : State) : Out :=
  s.act fun s =>
    match s.op? op with
    | none => s
    | some o =>
      if !s.engineHead op o then s else
      let e := s.engineGo o false
      match e.fail with
      | none => s
      | some (x, write) =>
        let slot := ((s.course? o.uid).map fun c => c.slot).getD 0
        let eid := eidOf o.work.engineKind o.core slot o.seq
        let t := e.keep op
        let fresh := e.work != o.work
        if x.code = eccCode then t.memError x.va o.ctx
        else if x.code = pinCode then
          (if o.pinWait && !fresh then t else t.raise o.ctx .pinWait).updOp op fun o => { o with pinWait := true }
        else if x.code = 0x0C then t.fatal o.ctx { cause := .trap, code := 0x0C, addr := x.va, who := eid }
        else if t.heldFull o.core 1 then
          (if o.held && !fresh then t else (t.raise o.ctx .faultqFull).updOp op fun o => { o with held := true })
        else
          ((t.unpin (islandOf o.core) o.ctx e.pins).updOp op fun o =>
            { o with stopped := true, held := false, pins := [] }).formRecord o.core
            { ctx := o.ctx, aux := x.level, pc := 0, lanes := 0, word := 0, write := write, origin := 3, code := x.code,
              vaddr := x.va, id := eid, time := s.clock }

/-- Its fault event would change nothing: the operation waits where it stands for a pin or for records to be written (R308,
R364). -/
def State.engineWaits (s : State) (o : Op) (e : EngineEnd) (x : XFail) : Bool :=
  e.work == o.work && ((x.code == pinCode && o.pinWait) || (x.code < eccCode && x.code != 0x0C && o.held && s.heldFull o.core 1))

/-! Steps of engine operations (R292, R387). -/

/-- Where the next step of a tile operation or a copy ends: one K-step, a band of 8 rows, or a 128-byte line of the
destination. -/
def Op.nextStop (o : Op) : Nat :=
  let full := o.work.size
  match o.work with
  | .tlMma .. => min (o.done + 1) full
  | .tlLoad .. | .tlDrain .. => min (8 * (o.done / 8 + 1)) full
  | .copy dstS _ dst _ span len _ stride _ =>
    let line := fun (n : Nat) => (if dstS then swz (dst + n) span else copyVa dst len stride n) / 128
    let same := (List.range 128).takeWhile fun i => o.done + i < full && line (o.done + i) == line o.done
    o.done + same.length
  | _ => full

/-- One step of an operation that an engine works on, where the schedule names it (log 1). The step that ends an operation is
its completion. -/
def State.engineStep (s : State) (op : Nat) : State :=
  match s.op? op with
  | none => s
  | some o =>
    if o.work.engineKind != 0 then
      (if !s.engineHead op o || o.work.spent then s else
        let e := s.engineGo o true
        if e.fail.isSome then s else e.keep op)
    else if !(o.work.isCopy && s.engineRuns o) && !s.tileReady op o then s
    else if o.work.size ≤ o.nextStop then s
    else match (s.ageOf o.uid).bind fun age => (s.wall? age).map fun w => (age, w) with
      | none => s
      | some (age, w) => s.workOr o w o.done o.nextStop fun s =>
          (s.workOn o age w o.done o.nextStop).updOp op fun x => { x with done := o.nextStop }

/-! Page walks (R353, R355, R356). -/

/-- A walk starts, in the order of the entries, while fewer than 512 of the island are in flight. -/
def execPageWalkStart (island ctx unit : Nat) (s : State) : Out :=
  s.act fun s =>
    let i := s.island island
    if (i.merge.filter fun m => m.walking).length ≥ 512 then s else
    match i.merge.find? fun m => !m.walking with
    | none => s
    | some m =>
      if m.ctx != ctx || m.unit != unit then s else
      s.setIsland island { i with merge := i.merge.map fun (x : Merge) =>
        if x.ctx == ctx && x.unit == unit then { x with walking := true } else x }

/-- Giving one waiting request its outcome: a translation enters its core's TLB and the L2 TLB, a marked line ends the context
(R485), and anything else is kept for the fragment's next attempt. -/
def State.serveWaiter (s : State) (ctx unit : Nat) (r : FragRef) (write fetch : Bool) (res : Xres) : State :=
  match s.course? r.uid with
  | none => s
  | some c =>
    let t := match res with
      | .ok l => (s.updCore c.core fun x => x.tlbFill ctx l).learn (islandOf c.core) ctx [l]
      | .marked line => s.memError line ctx
      | _ => s
    let out : List XOut := match res with
      | .fault code level => [⟨unit, code, level, write, fetch⟩]
      | .violation => [⟨unit, 0x0C, 0, write, fetch⟩]
      | _ => []
    t.updFrag r fun f => { f with missing := f.missing.filter (· != unit), outcomes := f.outcomes ++ out }

/-- The entries of a merge table that a finished walk satisfies: its own, and those that a leaf covers. -/
def coveredBy (m : Merge) (ctx unit : Nat) (leaf : Option Leaf) : Bool :=
  m.ctx == ctx && (m.unit == unit || match leaf with
    | some l => l.va ≤ m.unit * 65536 && m.unit * 65536 < l.va + l.size
    | none => false)

/-- PAGE_WALK_COMPLETE (R353, R355, R356). -/
def execPageWalkComplete (island ctx unit : Nat) (s : State) : Out :=
  s.act fun s =>
    let i := s.island island
    if !(i.merge.any fun m => m.ctx == ctx && m.unit == unit && m.walking) then s else
    let leaf := match s.walk island ctx (unit * 65536) false false with
      | .ok l => some l
      | _ => none
    let hit := i.merge.filter fun m => coveredBy m ctx unit leaf
    let t := s.setIsland island { i with merge := i.merge.filter fun m => !coveredBy m ctx unit leaf }
    hit.foldl (fun t m => m.waiters.foldl (fun t w =>
      t.serveWaiter ctx m.unit w.1 w.2.1 w.2.2 (s.walk island ctx (m.unit * 65536) w.2.1 w.2.2)) t) t

/-! Fault records (R363, R364). -/

/-- The 64 bytes of a fault record at position n of its queue (R363). -/
def FaultRec.bytes (r : FaultRec) (n : Nat) : List Byte :=
  natLe 8 r.time ++ natLe 8 r.id ++ natLe 8 n ++ natLe 8 r.vaddr
    ++ natLe 8 (r.word * 2 ^ 32 + (if r.write then 2 ^ 11 else 0) + r.origin * 2 ^ 8 + r.code)
    ++ natLe 8 r.lanes.toNat ++ natLe 8 r.pc ++ natLe 8 r.aux

/-- A fault-queue descriptor is well formed (R364). -/
def faultqOk (x : Nat) : Bool :=
  let cap := field x 95 64
  field x 511 320 = 0 && field x 127 96 = 0 && field x 63 0 % 64 = 0
    && (List.range 13).any fun i => cap == 2 ^ (i + 4)

/-- Writing the oldest record that a core holds, or its failure; none while there is none or its queue is full (R364). A
marked line that it reads ends the context too (R485). -/
def State.deliver (s : State) (core : Nat) : Option State :=
  match (s.core core).held with
  | [] => none
  | r :: _ =>
    match s.ctx? r.ctx with
    | none => none
    | some x =>
      let k := islandOf core
      let bad := fun (va : Nat) => some (s.fatal r.ctx { cause := .record, addr := va })
      let fail := fun (y : XFail) (va : Nat) => if y.code = eccCode then some (s.memError y.va r.ctx) else bad va
      match s.xlateRange k r.ctx x.fqdesc 64 true with
      | .error y => fail y ((x.fqdesc + 24) % 2 ^ 64)
      | .ok g =>
        match s.markedIn ((List.range 64).map fun i => (unitLoc g.units (x.fqdesc + i)).1) with
        | some line => some (s.memError line r.ctx)
        | none =>
        let d := leNat (s.readUnits k g.units x.fqdesc 64)
        if !faultqOk d then bad x.fqdesc else
        let cap := field d 95 64
        let head := field d 191 128
        let sig := field d 319 256
        if (cap : Int) ≤ (x.tail : Int) - head then none else
        let slot := (field d 63 0 + x.tail % cap * 64) % 2 ^ 64
        match s.xlateRange k r.ctx slot 64 true with
        | .error y => fail y y.va
        | .ok h =>
          match (if sig = 0 then .ok {} else s.xlateRange k r.ctx sig 8 true) with
          | .error (y : XFail) => fail y y.va
          | .ok (q : Rng) =>
            match s.markedIn (if sig = 0 then [] else (List.range 8).map fun i => (unitLoc q.units (sig + i)).1) with
            | some line => some (s.memError line r.ctx)
            | none =>
            let t := s.performUnits k h.units (vcells slot (r.bytes x.tail))
            let t := t.performUnits k g.units (vcells (x.fqdesc + 24) (natLe 8 (x.tail + 1)))
            let t := if sig = 0 then t else
              (let l := unitLoc q.units sig
               t.rmwNat k l.1 l.2 8 fun old => AtOp.new (.add .b64) 8 old (2 ^ 64 - 1) 0)
            let t := t.updCtx r.ctx fun x => { x with tail := x.tail + 1 }
            some ((t.updCore core fun c => { c with held := c.held.drop 1 }).claim r.ctx)

/-- FAULT_RECORD_WRITE (R364). -/
def execFaultRecordWrite (core : Nat) (s : State) : Out := s.act fun s => (s.deliver core).getD s

/-! Monitors (R279). -/

/-- A monitor on a line outside the package fires every 1,024 cycles. -/
def State.monitorDue (s : State) (line : Nat) : Bool :=
  !isUnder (128 * line) && s.monitors.any fun m => m.line == line && m.setAt + 1024 ≤ s.clock

/-- MONITOR_PERIODIC_FIRE. -/
def execMonitorPeriodicFire (line : Nat) (s : State) : Out :=
  s.act fun s =>
    if s.monitorDue line then
      (List.range 4).foldl (fun t k => t.fire k line) s
    else s

end Sys2Proof.Machine
end

