-- ==== Sys2Proof/Machine/Repair.lean ====
section
/-!
DEFINITION. Repair (R366): the replay of side-log entries (R345, R360), the release of a parked fragment (R93), and the
resumption of a stopped operation (R368), for sys.repair (R183) and for the host's REPAIR (R468).
-/

namespace Sys2Proof.Machine

/-- A side-log entry of a core. -/
def State.entry? (s : State) (core seq : Nat) : Option SideEntry := (s.core core).side.find? fun x => x.seq == seq

/-- The EID of an entry (R361). -/
def State.entryEid (s : State) (core : Nat) (x : SideEntry) : Nat :=
  eidOf 0 core (((s.course? x.uid).map fun c => c.slot).getD 0) x.seq

/-- The 64 KiB units that an entry needs, each with the lowest address in it: its faulting unit, and any other that its bytes lie
in, as a lane's store that straddles two units is one access (R246, R360). -/
def SideEntry.units (x : SideEntry) : List (Nat × Nat) :=
  (x.unit, x.vaddr) :: ((dedup (x.cells.map fun c => c.1 / 65536)).filter fun u => u != x.unit).map fun u =>
    (u, (x.cells.filter fun c => c.1 / 65536 == u).foldl (fun m c => min m c.1) (u * 65536 + 65535))

/-- Changing an entry of a core. -/
def State.updEntry (s : State) (core seq : Nat) (g : SideEntry → SideEntry) : State :=
  s.updCore core fun c => { c with side := c.side.map fun (y : SideEntry) => if y.seq == seq then g y else y }

/-- An earlier entry of the course that an entry overlaps is pending: it is replayed first (R345). In a run this is false: an
access that overlaps a pending entry waits (State.sideHit), and the entries of one store have no byte in common (StAcc.standing;
log 86). -/
def State.entryBehind (s : State) (core : Nat) (x : SideEntry) : Bool :=
  ((s.core core).side.takeWhile fun y => y.seq != x.seq).any fun y =>
    y.uid == x.uid && y.cells.any fun c => x.cells.any fun d => d.1 == c.1

/-- Performing an entry whose units translate; then it is gone (R345, R360). What the course has still to access there from
before it takes effect first (R330), its bytes carry the EFMT of the leaf that translates them now (R450; log 109), and a marked
line that it reads ends the context (R485). -/
def State.performEntry (s : State) (core : Nat) (x : SideEntry) (us : Tab (Nat × Nat)) : State :=
  let k := islandOf core
  let t := s.finishBefore x.uid x.op (x.cells.map fun c => s.place (unitLoc us c.1).1)
  if (t.entry? core x.seq).isNone then t else
  let gone := fun (t : State) =>
    ((t.updCore core fun c => { c with side := c.side.filter fun (y : SideEntry) => y.seq != x.seq }).addStc x.uid false).claim x.ctx
  match x.sig with
  | none => gone (t.performUnits k us x.cells)
  | some add =>
    let l := unitLoc us ((x.cells.head?.map fun c => c.1).getD 0)
    t.unmarkedOr x.ctx [l.1] fun t => gone (t.rmwNat k l.1 l.2 8 fun old => AtOp.new (.add .b64) 8 old add.toNat 0)

/-- Replaying one entry (R345, R360, R366): a fault that is not mended keeps it and forms a new record, which names the unit that
it now waits for; an access violation ends the context. Behind an earlier entry it only falls due. -/
def State.replay (s : State) (core seq : Nat) : State :=
  match s.entry? core seq with
  | none => s
  | some x =>
    if s.entryBehind core x then s.updEntry core seq fun y => { y with due := true } else
    match s.xlateUnits (islandOf core) x.ctx true x.units with
    | .ok g => s.performEntry core x g.units
    | .error ⟨code, level, va⟩ =>
      let eid := s.entryEid core x
      if code = eccCode then s.memError va x.ctx
      else if code = 0x0C then s.fatal x.ctx { cause := .trap, code := 0x0C, addr := va, who := eid }
      else
        (s.updEntry core seq fun y => { y with unit := va / 65536, vaddr := va, code := code, due := false,
                                               efmt := s.unitEfmt (islandOf core) x.ctx (va / 65536) }).formRecord core
          { ctx := x.ctx, aux := level, pc := 0, lanes := x.lanes, word := x.word, write := true, origin := 2, code := code,
            vaddr := va, id := eid, time := s.clock }

/-- The pending entries of a context for a unit, and those that have fallen due, in the order in which each core made them. -/
def State.entriesFor (s : State) (ctx unit : Nat) : List (Nat × Nat) :=
  s.cores.flatMap fun (p : Nat × Core) =>
    (p.2.side.filter fun x => x.ctx == ctx && (x.unit == unit || x.due)).map fun x => (p.1, x.seq)

/-- Replaying every pending entry of a context for a unit. -/
def State.replayUnit (s : State) (ctx unit : Nat) : State :=
  (s.entriesFor ctx unit).foldl (fun t p => t.replay p.1 p.2) s

/-- The operation that an EID names: a gather for kind 1, a run for kind 2. -/
def State.findOp (s : State) (ctx kind core slot seq : Nat) : Option Nat :=
  (s.ops.find? fun p => p.2.ctx == ctx && p.2.core == core && p.2.seq == seq
    && ((s.course? p.2.uid).map fun c => c.slot == slot).getD false
    && match p.2.work with
      | .gather .. => kind == 1
      | .run .. => kind == 2
      | _ => false).map fun p => p.1

/-- Applying a presentation of an id: the state and the status (R366). -/
def State.repairId (s : State) (ctx id : Nat) : State × Nat :=
  if id / 2 ^ 63 = 0 then
    match s.findFid ctx id with
    | none => (s, 1)
    | some r =>
      match s.frag? r with
      | none => (s, 1)
      | some f =>
        match f.state with
        | .parked code _ =>
          if !isService code then (s, 2) else
          match f.records with
          | [] => (s.release r isService, 0)
          | rec' :: _ =>
            let t := s.replayUnit ctx rec'.unit
            if f.pending != 0 then (t.updFrag r fun f => f.clearPending t.clock rec'.lanes, 0)
            else (t.release r isService, 0)
        | _ => (s, 2)
  else
    let kind := field id 49 48
    let core := field id 47 38
    let slot := field id 37 32
    let seq := field id 31 0
    if field id 62 50 != 0 then (s, 1)
    else if kind = 0 then
      match s.entry? core seq with
      | some x =>
        if x.ctx == ctx && s.entryEid core x == id then (s.replayUnit ctx x.unit, 0) else (s, 1)
      | none => (s, 1)
    else
      match s.findOp ctx kind core slot seq with
      | none => (s, 1)
      | some n =>
        match s.op? n with
        | some o => if o.stopped then (s.updOp n fun o => { o with stopped := false }, 0) else (s, 3)
        | none => (s, 1)

/-- A repair would form fault records that 64 unwritten ones hold back on the core they belong to (R364; log 36). -/
def State.repairHeld (s t : State) : Bool :=
  t.cores.any fun p =>
    let n := (s.core p.1).held.length
    decide (n < p.2.held.length) && s.heldFull p.1 (p.2.held.length - n)

/-- sys.repair (R183, R364 to R366). -/
def execSysRepair (d a : Reg) (s : State) : Out :=
  s.issue (.sysRepair d a) fun e s => s.released e fun s =>
    let (t, status) := (s.flush e.island).repairId e.c.ctx (e.sb a).toNat
    if s.repairHeld t then s.holdBack e else (t.setS e d (BitVec.ofNat 64 status)).advance e

end Sys2Proof.Machine
end

