-- ==== Sys2Proof/Machine/Dispatcher.lean ====
section
/-!
DEFINITION. The dispatcher (R74 to R83, R32, R37 to R40), the end of courses, walls and grids (R197, R83), pre-emption and
restore (R107, R372 to R375), the watchdog (R109, R110) and the wound grace (R415).
-/

namespace Sys2Proof.Machine

/-! Records (R74, R163). -/

def Launch.ofBytes (bs : List Byte) : Launch :=
  let x := leNat bs
  { kdesc := field x 63 0, args := BitVec.ofNat 64 (field x 127 64), grid := field x 191 128, pred0 := field x 255 192,
    pred1 := field x 319 256, chain := field x 383 320, comp := field x 447 384, cscope := x.testBit 448,
    cirq := x.testBit 449, prio := field x 452 450, part := field x 455 453, gridInd := x.testBit 456,
    reserved := field x 511 457 }

/-- The conditions of R82 that the record alone decides. -/
def Launch.valid (r : Launch) (parts : BitVec 8) : Bool :=
  r.reserved = 0 && r.kdesc % 64 = 0 && r.chain % 64 = 0 && r.pred0 % 8 = 0 && r.pred1 % 8 = 0 && r.comp % 8 = 0
    && (if r.gridInd then r.grid % 4 = 0 else r.grid / 2 ^ 32 = 0) && parts.getLsbD r.part

def Kernel.ofBytes (bs : List Byte) : Kernel :=
  let x := leNat bs
  { entry := BitVec.ofNat 64 (field x 63 0 / 4 * 4), stash := field x 95 64, stack := field x 111 96, cap := field x 120 112,
    width := field x 127 121, courses := field x 134 128, ztiles := field x 138 135, split := field x 141 139 }

/-- The stash part of a split (R32). -/
def stashPart (split : Nat) : Nat := 65536 * split

/-- The conditions of R82 on a kernel descriptor. -/
def Kernel.valid (k : Kernel) : Bool :=
  k.split ≤ 5 && [16, 32, 64].contains k.width && 1 ≤ k.courses && k.courses ≤ 64 && k.cap % 8 = 0 && 8 ≤ k.cap && k.cap ≤ 256
    && k.ztiles ≤ 8 && k.stash ≤ stashPart k.split

/-- The stash window that a wall claims on a core (R37). -/
def Kernel.window (k : Kernel) : Nat := (k.stash + 4095) / 4096 * 4096

/-! Reading as the dispatcher (R327): none for a failed translation, some line for a marked one (R82, R485). -/

def State.dispRead (s : State) (k ctx va n : Nat) : Except (Option Nat) Nat :=
  match s.xlateRange k ctx va n false with
  | .error x => .error (if x.code = eccCode then some x.va else none)
  | .ok g =>
    let ls := (List.range n).map fun i => unitLoc g.units (va + i)
    match s.markedIn (ls.map fun l => l.1) with
    | some line => .error (some line)
    | none => .ok (leNat (ls.map fun l => s.viewAt (homeIsland (s.place l.1)) l.2 l.1))

/-- The island whose view a dispatcher read of an address takes (R327). -/
def State.dispHome (s : State) (k ctx va : Nat) : List Nat :=
  match s.xlateRange k ctx va 1 false with
  | .ok g => [homeIsland (s.place (unitLoc g.units va).1)]
  | .error _ => []

/-- A dispatcher read that acquires, as the island that served it has it: every write that the island has applied is performed at
.dev, so each wall that the read admits sees all that the matching release covers (R327, R336, R338). -/
def State.dispAcquire (s : State) (k ctx va : Nat) : State := (s.dispHome k ctx va).foldl State.flush s

/-- Where reading predecessors ends; the addresses are those that were read at 0 or below. -/
inductive HeadEnd where
  | fail (line : Option Nat)
  | wait (h : Head) (got : List Nat)
  | ready (h : Head) (got : List Nat)
  deriving DecidableEq, Repr

/-- Reading the predecessors in order until one is above 0 (R75, R77, R82); the number bounds the reads. -/
def State.readPreds (s : State) (k ctx : Nat) : Nat → Head → List Nat → HeadEnd
  | 0, _, _ => .fail none
  | n + 1, h, got =>
    match h.todo with
    | p :: ps =>
      if p = 0 then s.readPreds k ctx n { h with todo := ps } got
      else match s.dispRead k ctx p 8 with
        | .error l => .fail l
        | .ok v => if (BitVec.ofNat 64 v).toInt > 0 then .wait h got else s.readPreds k ctx n { h with todo := ps } (got ++ [p])
    | [] =>
      if h.chain = 0 then .ready h got
      else if h.blocks ≥ 64 then .fail none
      else match s.dispRead k ctx h.chain 64 with
        | .error l => .fail l
        | .ok v =>
          let es := (List.range 7).map fun i => field v (64 * i + 63) (64 * i)
          let next := field v 511 448
          if (es.any fun p => p % 8 != 0) || next % 64 != 0 then .fail none
          else s.readPreds k ctx n { h with todo := es, chain := next, blocks := h.blocks + 1 } got

def Queue.slotNow (q : Queue) : Nat := q.slotVa q.headNo % 2 ^ 64

/-- A dispatch failure (R82, R486), or a read of a marked line (R485). -/
def State.dispatchFail (s : State) (q : Queue) (line : Option Nat) : State := match line with
  | some l => s.memError l q.ctx
  | none => s.fatal q.ctx { cause := .dispatch, addr := q.slotNow }

/-- The decrement of COMP, its interrupt, and the end of its pin (R78, R83, R472); a marked line ends the context (R485). -/
def State.decComp (s : State) (island ctx : Nat) (comp : Option (Nat × Nat)) (pins : List (Nat × Nat × Nat)) (cirq : Bool) : State :=
  match comp with
  | none => s
  | some (pa, efmt) =>
    s.unmarkedOr ctx [pa] fun s =>
    let loc := s.place pa
    let t := s.rmwNat (homeIsland loc) loc efmt 8 fun old => (old + 2 ^ 64 - 1) % 2 ^ 64
    let new := BitVec.ofNat 64 (t.latestNat efmt loc 8)
    let bound := s.irqs.any fun q => s.place q.loc == loc
    let t := if cirq && new.toInt ≤ 0 && !bound then t.send 0 else t
    (t.unpin island ctx pins).claim ctx

/-- Removing the head record of a launch queue. -/
def State.dropRecord (s : State) (n : Nat) : State := s.updQueue n fun q => { q.dropHead with head := none }

/-- A priority-0 record finds the partition's shadow slot taken, by another context than its own pre-empted (R372). -/
def State.preemptBlocked (s : State) (ctx : Nat) (r : Launch) : Bool :=
  let p := s.part r.part
  r.prio = 0 && p.saved.isSome && p.preemptor != some ctx

/-- PREEMPT_BLOCKED rises once for a record. -/
def State.noteBlocked (s : State) (n : Nat) (q : Queue) (h : Head) : State :=
  if s.preemptBlocked q.ctx h.record && !h.blocked then
    (s.raise q.ctx .preemptBlocked).updQueue n fun q => { q with head := q.head.map fun h => { h with blocked := true } }
  else s

/-- A grid completes: COMP is decremented, its pin ends, and the grid is gone (R78, R83). -/
def State.endGrid (s : State) (id : Nat) (g : Grid) : State :=
  let t := s.decComp (g.queue / 1024) g.ctx g.comp g.pins g.record.cirq
  { t with grids := t.grids.erase id }

/-- The dispatcher pins COMP's page for an eligible record, which then has its walls placed or, with none, completes at once
(R78, R82, R83); none while there is no room: the record stays eligible and unplaced. -/
def State.takeComp (s : State) (n : Nat) (q : Queue) (id : Nat) (x : Grid) : Option State :=
  let k := n / 1024
  let comp : Except XFail Rng := if x.record.comp = 0 then .ok {} else s.xlateRange k q.ctx x.record.comp 8 true
  match comp with
  | .error y => some (s.dispatchFail q (if y.code = eccCode then some y.va else none))
  | .ok g => (s.pinAll k q.ctx g.pages).map fun t =>
    let x := { x with comp := if x.record.comp = 0 then none else some (unitLoc g.units x.record.comp), pins := g.pages }
    let t := t.updGrid id fun _ => x
    if x.count = 0 then (t.endGrid id x).dropRecord n
    else t.updQueue n fun q => { q with head := q.head.map fun h => { h with waits := false } }

/-- A record becomes eligible (R78, R82, R83). -/
def State.makeEligible (s : State) (n : Nat) (q : Queue) (h : Head) : State :=
  let k := n / 1024
  let r := h.record
  let comp : Except XFail Rng := if r.comp = 0 then .ok {} else s.xlateRange k q.ctx r.comp 8 true
  let count := if r.gridInd then s.dispRead k q.ctx r.grid 4 else .ok r.grid
  match comp, s.dispRead k q.ctx r.kdesc 64, count with
  | .ok _, .ok desc, .ok count =>
    let kernel := Kernel.ofBytes (natLe 64 desc)
    if !kernel.valid then s.dispatchFail q none else
    let t := if count = 2 ^ 32 - 1 then s.raise q.ctx .launchAbsentGrid else s
    let id := t.nextGrid
    let x : Grid := { ctx := q.ctx, queue := n, record := r, kernel := kernel, count := if count = 2 ^ 32 - 1 then 0 else count }
    let h := { h with grid := some id, waits := true }
    let t : State := { t with grids := t.grids.set id x, nextGrid := id + 1 }
    let t := if r.gridInd then t.dispAcquire k q.ctx r.grid else t
    let t := (t.updQueue n fun q => { q with head := some h }).noteBlocked n q h
    (t.takeComp n q id x).getD t
  | .error y, _, _ => s.dispatchFail q (if y.code = eccCode then some y.va else none)
  | _, .error l, _ => s.dispatchFail q l
  | _, _, .error l => s.dispatchFail q l

/-- The dispatcher's work on a head record that has no wall placed yet; none where nothing changes (R77, R78, R82, R83). -/
def State.headStep (s : State) (n : Nat) : Option State :=
  match s.queue? n with
  | none => none
  | some q =>
    match q.work, q.entries, s.ctx? q.ctx with
    | false, entry :: _, some x =>
      let fresh := q.head.isNone
      let slot := if fresh then (List.range 64).map fun i => q.slotVa q.headNo + i else []
      match s.markedIn (slot.map fun va => (unitLoc q.units va).1), s.unmappedIn q.units slot with
      | some line, _ => some (s.dispatchFail q (some line))
      | none, some _ => some (s.dispatchFail q none)
      | none, none =>
      let h : Head := match q.head with
        | some h => h
        | none =>
          let r := Launch.ofBytes (s.headBytes q entry)
          { record := r, todo := [r.pred0, r.pred1], chain := r.chain }
      match h.grid.bind fun id => (s.grids.get? id).map fun x => (id, x) with
      | some (id, x) => if h.waits then s.takeComp n q id x else none
      | none =>
      if !h.record.valid x.parts then some (s.dispatchFail q none)
      else
        let acquire := fun (got : List Nat) => got.foldl (fun (t : State) p => t.dispAcquire (n / 1024) q.ctx p) s
        match s.readPreds (n / 1024) q.ctx 600 h [] with
        | .fail l => some (s.dispatchFail q l)
        | .wait h' got => if fresh || h' != h then some ((acquire got).updQueue n fun q => { q with head := some h' }) else none
        | .ready h' got => some ((acquire got).makeEligible n q h')
    | _, _, _ => none

/-- PREDECESSOR_READ (R77). -/
def execPredecessorRead (queue : Nat) (s : State) : Out := s.act fun s => (s.headStep queue).getD s

/-! Choosing a record (R79, R80). -/

/-- An eligible head record: its queue, its context, its record and its grid. -/
structure Cand where
  queue : Nat
  ctx : Nat
  record : Launch
  gid : Nat
  grid : Grid
  /-- COMP's page has no pin yet, so no wall is placed (R83). -/
  waits : Bool
  deriving DecidableEq, Repr

/-- The eligible head records of a partition, by PRIO and then by queue number. -/
def State.cands (s : State) (part : Nat) : List Cand :=
  sortBy (fun (a b : Cand) => a.record.prio < b.record.prio) (s.queues.filterMap fun p =>
    match p.2.head with
    | some h => match h.grid.bind fun g => (s.grids.get? g).map fun x => (g, x) with
      | some (g, x) => if h.record.part == part && !p.2.work then some ⟨p.1, p.2.ctx, h.record, g, x, h.waits⟩ else none
      | none => none
    | none => none)

/-- A context has a resident wall on a partition. -/
def State.residentOn (s : State) (ctx part : Nat) : Bool :=
  s.walls.any fun p => p.2.ctx == ctx && p.2.part == part && p.2.resident

/-- The record whose walls are placed next on a partition (R79, R80, R372). After a save the partition is not occupied, and only
the context that pre-empted takes it before the restore: with a priority-0 record, or else the restore is due. -/
def State.chosen (s : State) (part : Nat) : Option Cand :=
  let p := s.part part
  let all := s.cands part
  match p.occupant with
  | none => if p.saved.isNone then all.head? else all.find? fun x => p.preemptor == some x.ctx && x.record.prio = 0
  | some c =>
    let best := (all.filter fun x => x.ctx != c).foldl (fun m x => min m x.record.prio) 8
    let due := p.saved.isSome && !s.residentOn c part
    all.find? fun x => x.ctx == c && (x.grid.placed > 0 || x.record.prio < best) && (!due || x.record.prio = 0 || x.grid.placed > 0)

/-! Placement (R32, R37 to R40). -/

/-- Resident walls with a half on a core. -/
def State.wallsOn (s : State) (core : Nat) : List Wall :=
  (s.walls.filter fun p => p.2.resident && (p.2.core == core || (p.2.twin && p.2.core + 1 == core))).map fun p => p.2

def State.residentCourses (s : State) (core : Nat) : List Course :=
  (s.courses.filter fun p => p.2.resident && p.2.core == core).map fun p => p.2

/-- A core accepts no wall any more: it is degraded, and has held no wall at some moment since (R484). -/
def State.shut (s : State) (core : Nat) : Bool :=
  (s.core core).closed || ((s.core core).degraded && (s.wallsOn core).isEmpty)

/-- A core accepts n courses of a kernel (R38, R484). -/
def State.coreRoom (s : State) (core : Nat) (k : Kernel) (n : Nat) : Bool :=
  let cs := s.residentCourses core
  let ws := s.wallsOn core
  !s.shut core && (s.core core).split == k.split && cs.length + n ≤ 48
    && cs.foldl (fun m c => m + c.width * min c.cap 32) 0 + n * (k.width * min k.cap 32) ≤ 65536
    && ws.foldl (fun m w => m + w.win) 0 + k.window ≤ stashPart k.split
    && ws.foldl (fun m w => m + w.ztiles) 0 + k.ztiles ≤ 8

/-- The cores that a wall takes at a core, with the number of courses on each (R39). -/
def halvesAt (core : Nat) (k : Kernel) : List (Nat × Nat) :=
  if k.courses ≤ 32 then [(core, k.courses)]
  else [(core, (k.courses + 1) / 2), (core + 1, k.courses - (k.courses + 1) / 2)]

/-- A core, or the even half of a twin, that a wall of a kernel can name in a partition. -/
def Part.names (p : Part) (core : Nat) (k : Kernel) : Bool := p.twins.contains (twinOf core) && (k.courses ≤ 32 || core % 2 = 0)

/-- The wall fits at a core. -/
def State.fitsAt (s : State) (p : Part) (core : Nat) (k : Kernel) : Bool :=
  p.names core k && (halvesAt core k).all fun h => s.coreRoom h.1 k h.2

/-- The slot that the next course of a wall takes on a core: the quadrant with most free slots, the lower on a tie, and its
lowest free slot (R39). -/
def freeSlot (used : List Nat) : Nat :=
  let free := fun (q : Nat) => (List.range 12).filter fun i => !used.contains (12 * q + i)
  let quad := [1, 2, 3].foldl (fun b q => if (free b).length < (free q).length then q else b) 0
  12 * quad + (free quad).headD 0

/-- The registers of a course at entry (R209). -/
def entryVec (k : Kernel) (wall course : Nat) : Tab Word :=
  let n := fun (l : Nat) => (wall * k.courses + course) * k.width + l
  ((List.range k.width).map fun l => (l, if n l > 2 ^ 32 - 2 then 0xFFFFFFFF#32 else BitVec.ofNat 32 (n l)))
    ++ (List.range k.width).map fun l => (64 + l, BitVec.ofNat 32 l)

/-- A new course on a core with its first fragment (R36, R199, R209). -/
def State.placeCourse (s : State) (g : Grid) (gid age wall index core : Nat) (tvec : Dword) : State :=
  let k := g.kernel
  let here := s.residentCourses core
  let slot := freeSlot (here.map fun c => c.slot)
  let seen := (s.core core).gens.getD slot 0
  let mate := here.any fun c => c.slot / 2 == slot / 2 && c.token
  let f : Frag := { pc := k.entry, lanes := fullMask k.width, reserved := true, s2 := BitVec.ofNat 64 k.stack, readyTime := s.clock }
  let c : Course :=
    { core := core, slot := slot, gen := seen % 2 ^ 16, age := age, ctx := g.ctx, grid := gid, index := index, width := k.width,
      cap := k.cap, entry := k.entry, stack := k.stack, tvec := tvec, token := !mate, frags := [(0, f)],
      scal := [(0, g.record.args), (3, BitVec.ofNat 64 wall)], vec := entryVec k wall index }
  let t := s.updCore core fun x => { x with gens := x.gens.set slot (seen + 1) }
  { t with courses := t.courses.set t.nextCourse c, nextCourse := t.nextCourse + 1 }

/-- Placing a wall at a core, all at once (R37 to R40, R80, R81). -/
def State.placeWall (s : State) (x : Cand) (core : Nat) : State :=
  let k := x.grid.kernel
  let age := s.nextAge
  let index := x.grid.placed
  let halves := halvesAt core k
  let w : Wall :=
    { ctx := x.ctx, grid := x.gid, index := index, prio := x.record.prio, part := x.record.part, core := core,
      twin := decide (32 < k.courses), courses := k.courses, width := k.width, cap := k.cap, ztiles := k.ztiles, win := k.window }
  let tvec := ((s.ctx? x.ctx).map fun c => c.tvec).getD 0
  let t : State := { s with walls := s.walls.set age w, nextAge := age + 1 }
  let cores := halves.flatMap fun h => List.replicate h.2 h.1
  let t := ((List.range k.courses).zip cores).foldl (fun t p => t.placeCourse x.grid x.gid age index p.1 p.2 tvec) t
  let t := halves.foldl (fun t h => t.updCore h.1 fun c => { c with cc := [] }) t
  let t := t.updPart x.record.part fun p => { p with occupant := some x.ctx }
  let t := t.updGrid x.gid fun g => { g with placed := g.placed + 1 }
  if index + 1 = x.grid.count then t.dropRecord x.queue else t

/-- WALL_PLACE (R39). -/
def execWallPlace (queue core : Nat) (s : State) : Out :=
  s.act fun s =>
    match (s.queue? queue).bind fun q => q.head with
    | none => s
    | some h =>
      match s.chosen h.record.part with
      | none => s
      | some x => if x.queue == queue && !x.waits && s.fitsAt (s.part h.record.part) core x.grid.kernel then s.placeWall x core else s

/-- The cores of a partition in ascending order. -/
def Part.cores (p : Part) : List Nat := p.twins.flatMap fun t => [2 * t, 2 * t + 1]

/-- A core, or a twin, takes the kernel's split: it holds no wall, and no core of the partition has room (R32). -/
def State.mayResplit (s : State) (x : Cand) (core : Nat) : Bool :=
  let p := s.part x.record.part
  let k := x.grid.kernel
  let cs := (halvesAt core k).map fun h => h.1
  !x.waits && p.names core k && !(p.cores.any fun c => s.fitsAt p c k) && cs.all (fun c => (s.wallsOn c).isEmpty && !s.shut c)
    && cs.any fun c => (s.core c).split != k.split

/-- SPLIT_CHANGE (R32). -/
def execSplitChange (core queue : Nat) (s : State) : Out :=
  s.act fun s =>
    match (s.queue? queue).bind fun q => q.head with
    | none => s
    | some h =>
      match s.chosen h.record.part with
      | none => s
      | some x =>
        if x.queue == queue && s.mayResplit x core then
          (halvesAt core x.grid.kernel).foldl (fun t p => t.updCore p.1 fun c => { c with split := x.grid.kernel.split }) s
        else s

/-! The end of courses, walls and grids. -/

/-- Nothing of the course is outstanding (R197). -/
def State.courseQuiet (s : State) (uid : Nat) (c : Course) : Bool :=
  c.frags.isEmpty && c.ldc = 0 && c.stc = 0 && c.tlc = 0 && c.resident && (s.ops.all fun p => p.2.uid != uid)
    && s.cores.all fun p => p.2.side.all fun x => x.uid != uid

/-- A wall's last course has drained (R37, R263, R427), and with the grid's last wall the grid completes (R83). The releases of its
locks cover what the wall has acquired as well as what it wrote (R336, R426). -/
def State.endWall (s : State) (age : Nat) : State :=
  match s.wall? age with
  | none => s
  | some w =>
    let t := w.regions.foldl (fun t r => t.unbindRegion age r.1) (s.flush (islandOf w.core))
    let t := t.relAll age
    let t : State := { t with walls := t.walls.erase age }
    let t := t.updGrid w.grid fun g => { g with drained := g.drained + 1 }
    let t := match t.grids.get? w.grid with
      | some g =>
        if g.placed = g.count && g.drained = g.count then t.endGrid w.grid g else t
      | none => t
    t.unoccupy w.ctx w.part

/-- The issue-priority token passes to the other course of the pair, or lapses (R199). -/
def State.passToken (s : State) (c : Course) : State :=
  if !c.token then s else
  { s with courses := s.courses.mapV fun x =>
      if x.resident && x.core == c.core && x.slot != c.slot && x.slot / 2 == c.slot / 2 then { x with token := true } else x }

/-- COURSE_DRAIN (R197, R37). -/
def execCourseDrain (cid : Nat) (s : State) : Out :=
  s.act fun s =>
    match s.course? cid with
    | none => s
    | some c =>
      if !s.courseQuiet cid c then s else
      let t : State := { s with courses := s.courses.erase cid }
      let t := (t.passToken c).updWall c.age fun w => { w with drained := w.drained + 1 }
      match t.wall? c.age with
      | some w => if w.drained = w.courses then t.endWall c.age else t
      | none => t

/-! Pre-emption (R107, R372 to R375). -/

/-- The walls of a context on a partition leave or return to their cores. -/
def State.setResident (s : State) (ctx part : Nat) (r : Bool) : State :=
  let ages := (s.walls.filter fun p => p.2.ctx == ctx && p.2.part == part).map fun p => p.1
  { s with walls := s.walls.mapV fun w => if w.ctx == ctx && w.part == part then { w with resident := r } else w
           courses := s.courses.mapV fun c =>
             if ages.contains c.age then
               { c with resident := r, frags := c.frags.mapV fun f => { f with missing := [], outcomes := [], crowd := [] } }
             else c }

/-- The courses of a context on a partition. -/
def State.uidsOn (s : State) (ctx part : Nat) : List Nat :=
  (s.courses.filter fun p => p.2.ctx == ctx && ((s.wall? p.2.age).map fun w => w.part == part).getD false).map fun p => p.1

/-- Lines of bound regions of the context's walls are written back, with every other write that their islands have applied (R373
step 4). -/
def State.writeBack (s : State) (ctx part : Nat) : State :=
  (dedup ((s.walls.filter fun p => p.2.ctx == ctx && p.2.part == part).map fun p => islandOf p.2.core)).foldl State.flush s

/-- Every eligible priority-0 record of a partition that now finds the slot taken has PREEMPT_BLOCKED rise for it (R372). -/
def State.noteAll (s : State) (part : Nat) : State :=
  (s.cands part).foldl (fun t x =>
    match (t.queue? x.queue).bind fun q => q.head.map fun h => (q, h) with
    | some (q, h) => t.noteBlocked x.queue q h
    | none => t) s

/-- The resident context of a partition is halted and saved (R373, R374); what is saved stays in the fields it has. An access
that is completed for it may end it instead (R485). The other priority-0 records there are blocked from now on (R372). -/
def State.saveContext (s : State) (part c next : Nat) : State :=
  let uids := s.uidsOn c part
  let ids := (s.ops.filter fun p => uids.contains p.2.uid).map fun p => p.1
  let t := ids.foldl (fun t id => t.finishNow id) s
  if (t.part part).occupant != some c then t else
  let t := (t.writeBack c part).setResident c part false
  let t : State := { t with islands := t.islands.mapV fun i =>
    { i with merge := (i.merge.map fun (m : Merge) =>
        { m with waiters := m.waiters.filter fun (w : FragRef × Bool × Bool) => !uids.contains w.1.uid }).filter fun m =>
          !m.waiters.isEmpty } }
  (t.updPart part fun p => { p with saved := some c, occupant := none, preemptor := some next }).noteAll part

/-- A priority-0 record that pre-empts: the context that it halts (R107, R372). -/
def State.preempts (s : State) (part queue : Nat) : Option (Nat × Nat) :=
  match (s.cands part).find? fun x => x.queue == queue && x.record.prio = 0 with
  | none => none
  | some x =>
    let p := s.part part
    match p.occupant with
    | some c => if c != x.ctx && p.saved.isNone then some (c, x.ctx) else none
    | none => none

/-- PREEMPTION (R373); where the slot is taken, PREEMPT_BLOCKED rises once for the record. -/
def execPreemption (part queue : Nat) (s : State) : Out :=
  s.act fun s =>
    match s.preempts part queue with
    | some (c, next) => s.saveContext part c next
    | none =>
      match s.queue? queue with
      | some q => match q.head with
        | some h => if h.grid.isSome && h.record.part == part then s.noteBlocked queue q h else s
        | none => s
      | none => s

/-- The saved context of a partition that returns: the context that pre-empted it has no resident wall there and no eligible
priority-0 record for it (R372), nor a record of which some walls are placed (R80; log 33). -/
def State.restores (s : State) (part : Nat) : Option Nat :=
  let p := s.part part
  match p.saved with
  | none => none
  | some c =>
    let busy := match p.preemptor with
      | some o => s.residentOn o part || (s.cands part).any fun x => x.ctx == o && (x.record.prio = 0 || 0 < x.grid.placed)
      | none => false
    if busy then none else some c

/-- The cores of a restored context have the split of its kernels again (R374). -/
def State.resplit (s : State) (ctx part : Nat) : State :=
  (s.walls.filter fun p => p.2.ctx == ctx && p.2.part == part).foldl (fun t p =>
    match t.grids.get? p.2.grid with
    | none => t
    | some g => (if p.2.twin then [p.2.core, p.2.core + 1] else [p.2.core]).foldl (fun t c =>
        t.updCore c fun x => { x with split := g.kernel.split }) t) s

/-- The degraded cores that hold no wall at this moment stay closed when walls come back to them (R484). -/
def State.closeCores (s : State) : State :=
  { s with cores := s.cores.map fun (p : Nat × Core) => (p.1, { p.2 with closed := s.shut p.1 }) }

/-- CONTEXT_RESTORE (R375). The walls and the split return to their twins whatever partition these are in by then (log 98). -/
def execContextRestore (part : Nat) (s : State) : Out :=
  s.act fun s =>
    match s.restores part with
    | none => s
    | some c =>
      let t := ((s.closeCores.setResident c part true).resplit c part).updPart part fun p =>
        { p with saved := none, preemptor := none, occupant := some c }
      t.unoccupy c part

/-! Timers. -/

/-- The FIDs of a wall's READY and ISSUING fragments, by serial, at most 32 (R110). Those of different courses with equal
serials come in the order of the course table, which the rule leaves open (log 73). -/
def State.readyFids (s : State) (age : Nat) : List Nat :=
  let fs := (s.coursesOf age).flatMap fun p => (p.2.frags.filter fun q => q.2.state == .ready).map fun q => (q.1, (fidOf p.2 q.1).toNat)
  ((sortBy (fun a b => a.1 < b.1) fs).map fun p => p.2).take 32

/-- WATCHDOG_EXPIRY (R109, R110). -/
def execWatchdogExpiry (age : Nat) (s : State) : Out :=
  s.act fun s =>
    match s.wall? age with
    | none => s
    | some w =>
      if w.resident && s.policy.watchdog ≤ w.watchdog then s.fatal w.ctx { cause := .watchdog, fids := s.readyFids age } else s

/-- WOUND_GRACE_EXPIRY (R415): the grace is in microseconds of 1,000 cycles. -/
def execWoundGraceExpiry (age : Nat) (s : State) : Out :=
  s.act fun s =>
    match s.wall? age with
    | none => s
    | some w =>
      match w.wound with
      | none => s
      | some x =>
        if s.policy.grace * 1000 < x.grace then s.fatal w.ctx { cause := .grace, addr := x.name.toNat, who := age } else s

/-- A fragment of a wall is READY, or its instruction ran in this cycle (R109). -/
def State.wallRuns (s : State) (age : Nat) : Bool :=
  (s.coursesOf age).any fun p => (p.2.frags.any fun q => q.2.state == .ready) || (s.issuing.map fun r => r.uid) == some p.1

/-- The timers of a wall in one cycle (R109, R415). -/
def State.tickWall (s : State) (age : Nat) (w : Wall) : Wall :=
  let fs := (s.coursesOf age).flatMap fun p => p.2.frags.map fun q => q.2
  let paused := fs.all fun f => match f.state with
    | .parked code _ => isService code || code = 0x31
    | _ => false
  if !w.resident then w else
  { w with watchdog := if s.wallRuns age then min (w.watchdog + 1) (2 ^ 37 - 1) else w.watchdog
           wound := w.wound.map fun x => if paused then x else { x with grace := x.grace + 1 } }

/-- A cycle passes (R174, R109, R415). -/
def State.tick (s : State) : State :=
  { s with clock := s.clock + 1, walls := s.walls.map fun (p : Nat × Wall) => (p.1, s.tickWall p.1 p.2) }

/-- The wound of a wall has outlasted the grace, which is in microseconds of 1,000 cycles (R415). -/
def State.graceOver (s : State) (w : Wall) : Bool := w.wound.any fun x => s.policy.grace * 1000 < x.grace

/-- What happens before anything else: an error that an access has found (R449, R485), the expiry of a resident wall whose
watchdog has counted 1,024 cycles past the budget (R109), or that of a wound's grace (R415). -/
def State.overdue (s : State) : Option Instr :=
  match s.found with
  | (line, ctx) :: _ => some (.memoryErrorUncorrectable line ctx)
  | [] => ((s.walls.find? fun p => p.2.resident && s.policy.watchdog + 1024 ≤ p.2.watchdog).map fun p => .watchdogExpiry p.1).orElse
      fun _ => (s.walls.find? fun p => s.graceOver p.2).map fun p => .woundGraceExpiry p.1

end Sys2Proof.Machine
end

