-- ==== Sys2Proof/Machine/Pager.lean ====
section
/-!
DEFINITION. The fetches of the expert pagers (R434 to R437, R478).
-/

namespace Sys2Proof.Machine

/-- Fetches of a pager that are in flight (R436). -/
def State.inFlight (s : State) (pager : Nat) : Nat :=
  s.ctxs.foldl (fun n p => n + (p.2.ert.filter fun (q : Nat × Expert) => q.2.st == 2 && pagerOf q.1 == pager).length) 0

/-- The lowest frame that no entry holds (R434). -/
def Ctx.freeFrame (x : Ctx) : Option Nat :=
  (List.range x.nframe).find? fun f => !(x.ert.any fun (p : Nat × Expert) => p.2.frame == some f)

/-- The victim: the RESIDENT entry without pins of the greatest score, the lower id on a tie (R433, R435). -/
def State.victim (s : State) (x : Ctx) : Option (Nat × Expert) :=
  let score := fun (y : Expert) => (s.clock - y.lastUse) * s.policy.pager.getD y.cls 1
  (x.ert.filter fun (p : Nat × Expert) => p.2.st == 3 && p.2.pin == 0).foldl (fun (m : Option (Nat × Expert)) p => match m with
    | none => some p
    | some b => if score b.2 < score p.2 then some p else m) none

/-- A frame for a fetch, with the state after an eviction (R434, R435). -/
def State.takeFrame (s : State) (ctx : Nat) : State × Option Nat :=
  match s.ctx? ctx with
  | none => (s, none)
  | some x =>
    match x.freeFrame with
    | some f => (s, some f)
    | none =>
      match s.victim x with
      | some (v, y) => (s.giveUp ctx v 1, y.frame)
      | none => (s, none)

/-- The next fetch that a pager can try: the first of its queue. A demand that found no frame keeps its place ahead of every later
demand and every hint until it is retried, or until its entry is not ABSENT any more (R434, R436; log 78). -/
def State.nextFetch (s : State) (pager : Nat) : Option Fetch :=
  if s.inFlight pager ≥ 64 then none
  else (s.island pager).fetches.head?.filter fun x => !x.blocked || ((s.expert? x.ctx x.id).map fun y => y.st) != some 1

/-- Removing a fetch from its queue. -/
def State.unqueue (s : State) (x : Fetch) : State :=
  s.updIsland (pagerOf x.id) fun i => { i with fetches := i.fetches.filter fun o => !(o.ctx == x.ctx && o.id == x.id) }

/-- The pages of the frame are pinned while it is filled (R437); without room the pager takes the pins later. -/
def State.pinFill (s : State) (ctx id : Nat) : State :=
  match s.ctx? ctx, s.expert? ctx id with
  | some x, some y =>
    match s.xlateRange (pagerOf id) ctx (x.frameVa (y.frame.getD 0)) x.frameSize true with
    | .error _ => s
    | .ok g => match s.pinAll (pagerOf id) ctx g.pages with
      | some t => t.updExpert ctx id fun y => { y with pins := g.pages }
      | none => s.raise ctx .pinWait
  | _, _ => s

/-- EXPERT_FETCH_START (R434). -/
def execExpertFetchStart (ctx id : Nat) (s : State) : Out :=
  s.act fun s =>
    match s.nextFetch (pagerOf id) with
    | none => s
    | some x =>
      if x.ctx != ctx || x.id != id then s
      else if ((s.expert? ctx id).map fun y => y.st) != some 1 then s.unqueue x
      else
        let (t, frame) := s.takeFrame ctx
        match frame with
        | some f => ((t.unqueue x).updExpert ctx id fun y => { y with st := 2, frame := some f }).pinFill ctx id
        | none =>
          if x.demand then
            let t := if x.counted then s else s.raise ctx .exEvictBlocked
            t.updIsland (pagerOf id) fun i => { i with fetches := i.fetches.map fun (o : Fetch) =>
              if o.ctx == ctx && o.id == id then { o with blocked := true, counted := true } else o }
          else (s.unqueue x).raise ctx .exHintDrop

/-- The bytes of the source, none where the path or the source fails (R478, R485). -/
def State.fetchBytes (s : State) (y : Expert) : Option (List Byte) :=
  let n := y.sizeq * 4096
  if y.kind = 1 then
    let cxl := fun (pa : Nat) => match s.winOf pa with
      | some (_, w) => w.target == 2
      | none => false
    if !(2 ^ 40 ≤ y.src && cxl y.src && cxl (y.src + n - 1)) then none else
    let locs := (List.range n).map fun i => (s.locOf (y.src + i)).getD 0
    if locs.any fun l => s.marked (lineOf l) then none else some (locs.map fun l => s.byteAt 0 l)
  else
    match s.flash.find? fun f => f.1 == y.nsid with
    | some (_, _, _, lba) => some ((List.range n).map fun i => Config.flashByte y.nsid (y.src + i / lba) (i % lba))
    | none => none

/-- A fetch fails (R437). -/
def State.fetchFails (s : State) (ctx id : Nat) (y : Expert) : State :=
  let t := s.unpin (pagerOf id) ctx y.pins
  let t := t.updExpert ctx id fun y => { y with pins := [] }
  ((t.giveUp ctx id 4).raise ctx .exFetchFail).notice ctx id

/-- The end of a fetch that is in flight; none while its pages find no room. `ok` is false where the path reports an error
(R437). -/
def State.endFetch (s : State) (ctx id : Nat) (ok : Bool) : Option State :=
  match s.ctx? ctx, s.expert? ctx id with
  | some x, some y =>
    if y.st != 2 then none else
    let k := pagerOf id
    let va := x.frameVa (y.frame.getD 0)
    match (if ok then s.fetchBytes y else none), s.xlateRange k ctx va x.frameSize true with
    | some bs, .ok g =>
      (if y.pins.isEmpty then s.pinAll k ctx g.pages else some s).map fun t =>
        let t := if y.kind = 1 then t.performUnits k g.units (vcells va bs) else t.peerWrite g.units (vcells va bs)
        let t := t.unpin k ctx (if y.pins.isEmpty then g.pages else y.pins)
        ((t.updExpert ctx id fun y => { y with st := 3, lastUse := s.clock, pins := [] }).notice ctx id).claim ctx
    | _, _ => some (s.fetchFails ctx id y)
  | _, _ => none

/-- EXPERT_FETCH_COMPLETE (R437). -/
def execExpertFetchComplete (ctx id : Nat) (ok : Bool) (s : State) : Out := s.act fun s => (s.endFetch ctx id ok).getD s

end Sys2Proof.Machine
end

