-- ==== Sys2Proof/Machine/Memory.lean ====
section
/-!
DEFINITION. The steps of the memory path (file 95): writes that islands apply (R340), write-backs and their tags (R447 to
R449), errors (R484, R485), and accesses that reach the device through the outer straits (R473 to R477).
-/

namespace Sys2Proof.Machine

/-! WRITE_APPLY (R330, R340). -/

/-- A write that no island has applied may take its place: earlier overlapping accesses of its course have taken theirs. -/
def State.mayOriginate (s : State) (w : Write) : Bool :=
  let ts := w.cells.map fun c => (c.1, 1)
  (s.stores.all fun x => x.uid != w.uid || w.id ≤ x.id || !overlaps (x.cells.map fun c => (c.1, 1)) ts)
    && s.ops.all fun p => p.2.uid != w.uid || w.op ≤ p.1 || !overlaps p.2.work.touches ts

/-- A write with its island, where it can be applied there now. -/
def State.applyWrite (s : State) (write island : Nat) : Option State :=
  match s.stores.find? fun w => w.id == write with
  | some w =>
    if island == w.origin && s.mayOriginate w then
      some ({ s with stores := s.stores.filter fun (x : Write) => x.id != write }.originate w)
    else none
  | none =>
    match s.writes.find? fun w => w.id == write with
    | some w => if island < 4 && s.mayApply island w then some (s.applyAt island w) else none
    | none => none

/-- WRITE_APPLY: the origin's island takes a write first, each other island when its vector clock permits. -/
def execWriteApply (write island : Nat) (s : State) : Out := s.act fun s => (s.applyWrite write island).getD s

/-! Tags (R448, R449, R451). -/

/-- Units of n bytes of a line. -/
def unitsOfLine (n : Nat) (bs : List Byte) : List Nat := (List.range (128 / n)).map fun i => leNat ((bs.drop (n * i)).take n)

/-- Every unit of n bytes differs from the first by a signed number of d bytes, modulo the unit's size. -/
def deltasFit (n d : Nat) (bs : List Byte) : Bool :=
  let us := unitsOfLine n bs
  us.all fun u =>
    let x := (BitVec.ofNat (8 * n) (u + 2 ^ (8 * n) - us.headD 0)).toInt
    decide ((0 : Int) ≤ x + 2 ^ (8 * d - 1)) && decide (x < 2 ^ (8 * d - 1))

/-- The tag of a line (R449): of the encodings for which it qualifies the one with the fewest sectors, in the order 1, 2, 3, 6,
4, 7, 5, 0 on a tie. -/
def tagFor (fmt : Nat) (bs : List Byte) : Nat :=
  if bs.all (· == 0) then 1
  else if absentLine fmt bs then 2
  else if (unitsOfLine 8 bs).all (· == (unitsOfLine 8 bs).headD 0) then 3
  else if deltasFit 8 1 bs then 4
  else if deltasFit 4 1 bs then 6
  else if deltasFit 8 2 bs then 5
  else if deltasFit 4 2 bs then 7
  else 0

/-- The sectors that a tag moves (R448). -/
def tagSectors : Nat → Nat
  | 1 | 2 => 0
  | 3 | 4 => 1
  | 5 | 6 => 2
  | 7 => 3
  | _ => 4

/-! What the sectors hold (R448), byte for byte as far as the table says. -/

/-- The first unit of a line, then the difference of every unit from it. -/
def packDeltas (n d : Nat) (bs : List Byte) : List Byte :=
  let us := unitsOfLine n bs
  natLe n (us.headD 0) ++ us.flatMap fun u => natLe d (u + 2 ^ (8 * n) - us.headD 0)

/-- The units of a line from the first one and the signed differences. -/
def unpackDeltas (n d : Nat) (st : List Byte) : List Byte :=
  (List.range (128 / n)).flatMap fun i =>
    let x := (BitVec.ofNat (8 * d) (leNat ((st.drop (n + d * i)).take d))).toInt
    natLe n ((leNat (st.take n) + x % 2 ^ (8 * n)) % 2 ^ (8 * n)).toNat

/-- The bytes that a line's sectors hold under a tag. -/
def packLine (tag : Nat) (bs : List Byte) : List Byte :=
  match tag with
  | 1 | 2 => []
  | 3 => bs.take 8 ++ List.replicate 24 0
  | 4 => packDeltas 8 1 bs
  | 5 => packDeltas 8 2 bs
  | 6 => packDeltas 4 1 bs
  | 7 => packDeltas 4 2 bs
  | _ => bs

/-- The line that a fill makes of its sectors under a tag and the line's element format; none for a reserved tag (R449). -/
def unpackLine (tag fmt : Nat) (st : List Byte) : Option (List Byte) :=
  match tag with
  | 0 => some st
  | 1 => some (List.replicate 128 0)
  | 2 => some ((List.range 128).map fun i => (absentByteOf fmt i).getD 0)
  | 3 => some ((List.range 16).flatMap fun _ => st.take 8)
  | 4 => some (unpackDeltas 8 1 st)
  | 5 => some (unpackDeltas 8 2 st)
  | 6 => some (unpackDeltas 4 1 st)
  | 7 => some (unpackDeltas 4 2 st)
  | _ => none

/-- LINE_WRITE_BACK (R449): the home slice writes a line of the under-stack back with a fresh tag. It holds no copy of a line whose
tag in the under-stack is reserved (log 87). -/
def execLineWriteBack (line : Nat) (s : State) : Out :=
  s.act fun s =>
    let loc := 128 * line
    if !isUnder loc || 8 ≤ s.lineTag.getD line 1 then s else
    let t := tagFor (s.lineFmtAt (homeIsland loc) loc) (s.bytesAt (homeIsland loc) loc 128)
    { s with lineTag := if t = 1 then s.lineTag.erase line else s.lineTag.set line t }

/-! Errors (R484, R485). -/

/-- MEMORY_ERROR_UNCORRECTABLE (R485). -/
def execMemoryErrorUncorrectable (line ctx : Nat) (s : State) : Out :=
  s.act fun s => { s with found := s.found.filter fun p => p != (line, ctx) }.memError line ctx

/-- Corrected errors of a site within the policy window of seconds of the 1 GHz clock (R484). -/
def State.errorsAt (s : State) (site : ErrSite) : Nat :=
  (s.errors.filter fun x => x.1 == site && s.clock < x.2 + s.policy.errWindow * 10 ^ 9).length

/-- Spare rows of a row's bank that are left (R484). -/
def State.sparesLeft (s : State) (island row : Nat) : Nat :=
  let bank := Config.bankOf island row
  Config.spareRows island bank - (s.retired.filter fun x => x.1 == island && Config.bankOf island x.2 == bank).length

/-- CORRECTED_ERROR (R484). -/
def execCorrectedError (site : ErrSite) (s : State) : Out :=
  s.act fun s =>
    let t : State := { s with errors := s.errors ++ [(site, s.clock)] }
    if t.errorsAt site ≤ t.policy.errCount then t else
    match site with
    | .row island row =>
      if t.retired.contains (island, row) then t
      else if t.sparesLeft island row = 0 then t.raiseDev 1
      else { t with retired := t.retired ++ [(island, row)], errors := t.errors.filter fun (x : ErrSite × Nat) => x.1 != site }.raiseDev 0
    | .bank core bank =>
      let t : State := { t with banks := if t.banks.contains (core, bank) then t.banks else t.banks ++ [(core, bank)] }
      t.updCore core fun c => { c with degraded := true }

/-! The outer straits (R473 to R477). -/

/-- The form of an at operation code (R139). -/
def atForm (op : Nat) : Option (AtOp × Nat) :=
  match op with
  | 0x00 => some (.add .i32, 4) | 0x01 => some (.add .n32, 4) | 0x02 => some (.add .b32, 4)
  | 0x03 => some (.add .i64, 8) | 0x04 => some (.add .n64, 8) | 0x05 => some (.add .b64, 8)
  | 0x06 => some (.fadd .f32, 4)
  | 0x08 => some (.min .i32, 4) | 0x09 => some (.min .n32, 4) | 0x0B => some (.min .i64, 8) | 0x0C => some (.min .n64, 8)
  | 0x0E => some (.max .i32, 4) | 0x0F => some (.max .n32, 4) | 0x11 => some (.max .i64, 8) | 0x12 => some (.max .n64, 8)
  | 0x1A => some (.xchg, 4) | 0x1B => some (.xchg, 8)
  | 0x1C => some (.cas, 4) | 0x1D => some (.cas, 8)
  | _ => none

/-- The element format of the leaf that translated an access in another device (R450), which nothing here shows: a free value
(log 88). -/
def State.farFmt (s : State) : Nat := (Config.freeByte s.steps 0).toNat % 32

/-- A write from outside performed by the home slice at sys: one by the host passes through no leaf and carries no element
format; one by another device carries that of its leaf (R450; log 88). -/
def State.homeWrite (s : State) (loc : Nat) (bs : List Byte) (efmt : Option Nat) : State :=
  s.perform (homeIsland loc) (cellsAt loc bs) efmt

/-- OUTER_STRAIT_ATOMIC (R475): a form that TARGET 3 carries, executed at the home slice, which sees an absent line through the
leaf of the other device (R452; log 88). A cas that does not match keeps the memory (R267; log 21); its read fills the line as any
other does (R449). -/
def execOuterStraitAtomic (op : BitVec 6) (pa : Nat) (x y : BitVec 64) (s : State) : Out :=
  s.act fun s =>
    match atForm op.toNat with
    | none => s
    | some (f, size) =>
      let a := x.toNat % 2 ^ (8 * size)
      if !s.ready || !s.usable pa size || pa % size != 0 || f.isAbsent size a then s else
      let t := s.flushAll.fillRead [pa]
      let old := t.latestNat s.farFmt pa size
      if f == .cas && old != a then t else
      t.homeWrite pa (natLe size (f.new size old a (y.toNat % 2 ^ (8 * size)))) (some s.farFmt)

/-- OUTER_STRAIT_ACCESS (R473): a plain read leaves the device as it is, but for an error that its fill finds (R449); a plain
write is performed at the home slice. -/
def execOuterStraitAccess (write : Bool) (pa : Nat) (bytes : List (BitVec 8)) (len : Nat) (s : State) : Out :=
  s.act fun s =>
    if write then if s.ready && s.usable pa bytes.length then s.homeWrite pa bytes (some s.farFmt) else s
    else if s.ready && s.usable pa len then s.fillRead ((List.range len).map fun i => pa + i) else s

/-- CXL_BACK_INVALIDATION (R474): the caching slice drops its copy of a line. -/
def execCxlBackInvalidation (line : Nat) (s : State) : Out :=
  s.act fun s => { s with cached := s.cached.filter fun l => l != line }

end Sys2Proof.Machine
end

