-- ==== Sys2Proof/Machine/Host.lean ====
section
/-!
DEFINITION. The host interface but its commands (R463 to R466, R471, R489, R490): BAR4 and CXL.mem accesses, queue windows,
control registers and the words that they read as.
-/

namespace Sys2Proof.Machine

/-! The control registers as a host reads them. -/

/-- FORM and CAPGIB of the ordering code (R465). -/
def Model.form : Model → Nat
  | .mA => 2
  | _ => 1
def Model.capGib (m : Model) : Nat := m.layers * 32 * 4

/-- DEVID as port p reads it (R465). -/
def State.devidWord (s : State) (p : Nat) : Nat :=
  s.devnum.toNat * 2 ^ 40 + p % 2 * 2 ^ 32 + s.model.layers * 2 ^ 24 + s.model.form * 2 ^ 16 + s.model.capGib

/-- STATUS (R466). -/
def State.statusWord (s : State) : Nat := (if s.faultPend then 2 else 0) + (if s.ready then 1 else 0)

/-- PORTMODE (R490). -/
def State.portModeWord (s : State) : Nat := s.portMode.getD 1 0 * 4 + s.portMode.getD 0 0

/-- CMDSTAT (R467). -/
def State.cmdStatWord (s : State) : Nat := s.cmdResult * 2 ^ 16 + s.cmdErr * 2 ^ 8 + (if s.running.isSome then 1 else 0)

/-- The dword at a BAR0 offset; an offset without a register reads zero (R465 to R467, R489, R490). -/
def State.bar0 (s : State) (port off : Nat) : Nat :=
  if off = 0 then s.devidWord port
  else if off = 8 then s.statusWord
  else if off = 0x10 then s.portModeWord
  else if 0x40 ≤ off && off < 0x80 then ((s.cmd.getD ((off - 0x40) / 8) 0)).toNat
  else if off = 0x88 then s.cmdStatWord
  else if 0x800 ≤ off && off < 0x1000 then s.counters.getD ((off - 0x800) / 8) 0
  else 0

/-! BAR4 (R464, R468, R452, R485). -/

/-- A host access that reaches nothing. -/
def State.badHost (s : State) (pa len : Nat) : Bool := !s.ready || !s.usable pa len

/-- HOST_READ: the bytes at the home slice, or all ones. Where a byte read is of a release, what the release covers is there for
the host's later reads: the home islands' writes are performed everywhere first (R336, R347). A fill that finds an error reports it next (R449). -/
def execHostRead (pa len : Nat) (s : State) : Out :=
  s.act fun s =>
    if s.badHost pa len then { s with hostRead := List.replicate len 0xFF }.raiseDev 2
    else
      let locs := (List.range len).map fun i => pa + i
      let s := (dedup (locs.map homeIsland)).foldl State.flush s
      let bs := locs.map fun l => if s.marked (lineOf l) then 0xFF#8 else s.byteAt (homeIsland l) l
      let t : State := { s with hostRead := bs }.fillRead locs
      if (s.markedIn locs).isSome then t.send 0 else t

/-- HOST_WRITE: performed at sys by the home slice, or dropped. -/
def execHostWrite (pa : Nat) (bytes : List (BitVec 8)) (s : State) : Out :=
  s.act fun s => if s.badHost pa bytes.length then s.raiseDev 2 else s.homeWrite pa bytes none

/-! Queue windows (R471). -/

/-- The staged record of a port and a queue; nothing staged reads zero (log 4). -/
def State.staged (s : State) (port queue : Nat) : List Byte :=
  ((s.stages.find? fun x => x.port == port && x.queue == queue).map fun x => x.bytes).getD (List.replicate 64 0)

/-- QUEUE_WINDOW_STAGE: bytes at offsets below 0x40 of a page of BAR2. -/
def execQueueWindowStage (port queue off : Nat) (bytes : List (BitVec 8)) (s : State) : Out :=
  s.act fun s =>
    if port > 1 || queue > 4095 then s else
    let new := (List.range 64).map fun i =>
      if off ≤ i && i < off + bytes.length then bytes.getD (i - off) 0 else (s.staged port queue).getD i 0
    { s with stages := (s.stages.filter fun x => !(x.port == port && x.queue == queue)) ++ [⟨port, queue, new⟩] }

/-- QUEUE_WINDOW_PUSH: the staged record is pushed as a release at sys, and the port keeps the status. -/
def execQueueWindowPush (port queue : Nat) (s : State) : Out :=
  s.act fun s =>
    if port > 1 then s else
    let done := fun (t : State) (st : Nat) => { t with pushStatus := t.pushStatus.set port st }
    match s.queue? queue with
    | none => done s 2
    | some q => if q.entries.length ≥ q.cap then done s 1 else done (s.pushRecord queue q (s.staged port queue)) 0

/-! Writes of control registers. -/

/-- STATUS_WRITE (R466): writing 1 to FAULTPEND clears it. -/
def execStatusWrite (value : BitVec 64) (s : State) : Out :=
  s.act fun s => if value.getLsbD 1 then { s with faultPend := false } else s

/-- EVENT_COUNTER_CLEAR (R489). -/
def execEventCounterClear (n : Nat) (s : State) : Out :=
  s.act fun s => if n < 6 then { s with counters := s.counters.set n 0 } else s

/-- A write of DOORBELL starts the staged command; while one runs it is ignored (R467, R468). -/
def State.doorbell (s : State) : State := if s.running.isSome then s else { s with running := some s.cmd }

/-- REGISTER_WRITE (R467): CMD is staged and DOORBELL starts it; other registers keep what they hold. -/
def execRegisterWrite (off : Nat) (value : BitVec 64) (s : State) : Out :=
  s.act fun s =>
    if 0x40 ≤ off && off < 0x80 && off % 8 = 0 then { s with cmd := s.cmd.set ((off - 0x40) / 8) value }
    else if off = 0x80 then s.doorbell
    else s

end Sys2Proof.Machine
end

