-- ==== Sys2Proof/Machine/Command.lean ====
section
/-!
DEFINITION. The host's commands (R467 to R470, R472 to R474, R480 to R482). A command step starts the staged command where none
runs, and acts where the command that runs is its own.
-/

namespace Sys2Proof.Machine

/-! Commands as such. -/

/-- The end of a command: it goes on later, or it is done with ERR and RESULT. -/
inductive CmdEnd where
  | later (t : State)
  | done (t : State) (err result : Nat)
  deriving DecidableEq, Repr

/-- The codes that R467 assigns. -/
def knownCommand (code : Nat) : Bool := 1 ≤ code && code ≤ 0x0B

/-- CMDSTAT and the completion vector (R467, R472). -/
def State.finishCmd (s : State) (err result : Nat) : State :=
  { s with running := none, cmdErr := err, cmdResult := result }.send 0

/-- Running the command at hand, where its code is one that `mine` names. Until READY is 1 only POLICY runs (R468). -/
def State.command (s : State) (mine : Nat → Bool) (body : (Nat → Nat) → State → CmdEnd) : State :=
  let ds := s.running.getD s.cmd
  let d := fun (i : Nat) => (ds.getD i 0).toNat
  if !mine (d 0) then s else
  let s := { s with running := some ds }
  if !s.ready && d 0 != 0x0B then s.finishCmd 3 0 else
  match body d s with
  | .later t => t
  | .done t err result => t.finishCmd err result

def refused (s : State) (err : Nat) : CmdEnd := .done s err 0

/-- A command that names a context: out of range, or not created. -/
def State.withCtx (s : State) (n : Nat) (body : Ctx → CmdEnd) : CmdEnd :=
  if n > 255 then refused s 2 else match s.ctx? n with
    | none => refused s 3
    | some x => body x

/-- UNKNOWN_COMMAND (R467): ERR 1. -/
def execUnknownCommand (s : State) : Out := s.act fun s => s.command (fun c => !knownCommand c) fun _ s => refused s 1

/-- Bytes at a physical address that a command reads at sys; none where nothing lies there. -/
def State.sysRead (s : State) (pa n : Nat) : Option (List Byte) :=
  let locs := (List.range n).filterMap fun i => s.locOf (pa + i)
  if locs.length = n then some (locs.map fun l => s.byteAt (homeIsland l) l) else none

/-- What a command reads finds no error, or reports it (R449, R485; log 87). -/
def State.sysFill (s : State) (pa n : Nat) : State := s.fillRead ((List.range n).map fun i => (s.locOf (pa + i)).getD 0)

/-! Contexts (R469, R470, R488). -/

/-- A new context from its descriptor. A number of frames outside the range of R429 and an arena that is not aligned to its frames
are used as they stand (log 96). -/
def Ctx.ofDesc (x : Nat) : Ctx :=
  { root := field x 63 0, arena := field x 127 64, nframe := field x 155 141, nexp := field x 170 156,
    framelog := field x 175 171, vec := field x 183 176, parts := BitVec.ofNat 8 (field x 191 184), counters := field x 255 192,
    tvec := BitVec.ofNat 64 (field x 319 256 / 4 * 4), spill := field x 383 320, fqdesc := field x 447 384, report := field x 511 448,
    ert := (List.range (field x 170 156)).map fun i => (i, { sizeq := 0, cls := 0, kind := 0, nsid := 0, src := 0, st := 0 }) }

/-- The descriptor is refused with ERR 2 (R469). -/
def State.descBad (s : State) (x : Nat) (c : Ctx) : Bool :=
  field x 140 128 != 0 || c.nexp > 16384 || 16384 < s.ctxs.foldl (fun n p => n + p.2.nexp) c.nexp || c.framelog > 16
    || c.counters % 4096 != 0 || (List.range 8).any fun n => c.parts.getLsbD n && (s.part n).twins.isEmpty

/-- The addresses of the 2 MiB pieces of the save areas and the register-spill areas (R470). -/
def spillPieces (spill : Nat) : List Nat :=
  ((List.range 96).map fun i => (spill + 768 * 2 ^ 30 + i * 2 ^ 21) % 2 ^ 64)
    ++ (List.range 2048).map fun i => (spill + 769 * 2 ^ 30 + i * 2 ^ 21) % 2 ^ 64

/-- The addresses that CTX_CREATE translates, each with the least size of its page (R470, R488). -/
def Ctx.needs (c : Ctx) : List (Nat × Nat) :=
  (spillPieces c.spill).map (fun va => (va, 2 ^ 21)) ++ if c.counters = 0 then [] else [(c.counters, 0)]

/-- The pages that CTX_CREATE pins, none where one of them is not as R470 and R488 ask. -/
def State.createPages (s : State) (n : Nat) (c : Ctx) : Option (List (Nat × Nat × Nat)) :=
  let want := c.needs.map fun p => match s.walk 0 n p.1 true false with
    | .ok l => if p.2 ≤ l.size then some (l.va, l.size, l.pa) else none
    | _ => none
  if want.all Option.isSome then some (dedup (want.filterMap id)) else none

/-- The lines of tables in which those walks meet an uncorrectable error (R449, R485). -/
def State.createErrors (s : State) (n : Nat) (c : Ctx) : List Nat :=
  c.needs.filterMap fun p => match s.walk 0 n p.1 true false with
    | .marked line => some line
    | _ => none

/-- CTX_CREATE (R467, R469, R470, R488). -/
def State.ctxCreate (s : State) (d : Nat → Nat) : CmdEnd :=
  let n := d 1
  if n > 255 || d 2 % 64 != 0 then refused s 2 else
  if (s.ctx? n).isSome then refused s 3 else
  match s.sysRead (d 2) 64 with
  | none => refused s 2
  | some bs =>
    let s := s.sysFill (d 2) 64
    let x := leNat bs
    let c := Ctx.ofDesc x
    if s.descBad x c then refused s 2 else
    let t : State := { s with ctxs := s.ctxs.set n c }
    match t.createPages n c with
    | none => refused (s.noteBad n (t.createErrors n c)) 3
    | some ps =>
      match t.pinHomes n ps with
      | none => refused s 3
      | some t =>
        let t := t.updCtx n fun c => { c with pins := ps }
        if c.counters = 0 then .done t 0 0 else
        match t.xlateRange 0 n c.counters 232 true with
        | .error y => refused (s.walkError n y) 3
        | .ok g =>
          let l := unitLoc g.units c.counters
          let t := t.updCtx n fun c => { c with countLoc := some l }
          .done ((t.perform (homeIsland (t.place l.1)) (cellsAt l.1 (List.replicate 232 0)) (some l.2)).claim n) 0 0

def execCtxCreate (s : State) : Out := s.act fun s => s.command (· == 1) fun d s => s.ctxCreate d

/-- Forgetting a context: its walls end, its signals are unbound, its queues are unconfigured and its pins go (R467). -/
def State.forget (s : State) (n : Nat) : State :=
  match s.ctx? n with
  | none => s
  | some x =>
    let t := (s.endWalls n).unpinHomes n x.pins
    let t := (t.irqs.filter fun q => q.ctx == n).foldl (fun t q => t.unpinHomes n q.pins) t
    let t := (t.queues.filter fun p => p.2.ctx == n).foldl (fun t p => t.unpinHomes n p.2.pins) t
    { t with
      islands := t.islands.mapV fun i => { i with l2 := i.l2.filter fun (e : Tlb) => e.ctx != n }
      irqs := t.irqs.filter fun (q : Irq) => q.ctx != n
      queues := t.queues.filter fun p => p.2.ctx != n
      cores := t.cores.mapV fun c => { c with tlb := c.tlb.filter fun (e : Tlb) => e.ctx != n }
      ctxs := t.ctxs.erase n }

/-- CTX_DESTROY (R467). -/
def execCtxDestroy (s : State) : Out :=
  s.act fun s => s.command (· == 2) fun d s => s.withCtx (d 1) fun _ => .done (s.forget (d 1)) 0 0

/-! Queues (R283, R467). -/

def isPow2 (n lo hi : Nat) : Bool := (List.range 64).any fun i => n == 2 ^ i && 2 ^ lo ≤ n && n ≤ 2 ^ hi

/-- QUEUE_CONFIG (R467). -/
def State.queueConfig (s : State) (d : Nat → Nat) : CmdEnd :=
  let q := d 1
  let n := d 2
  if q > 4095 || n > 255 || d 3 > 1 || !isPow2 (d 4) 4 24 || d 5 > 4095 || d 6 % 64 != 0 then refused s 2 else
  s.withCtx n fun _ =>
    let old := s.queue? q
    if (old.map fun x => !x.entries.isEmpty).getD false then refused s 3 else
    match s.xlateRange (q / 1024) n (d 6) (d 4 * 64) true with
    | .error y => refused (s.walkError n y) 3
    | .ok g =>
      let t := match old with
        | some x => s.unpinHomes x.ctx x.pins
        | none => s
      match t.pinHomes n g.pages with
      | none => refused s 3
      | some t =>
        let new : Queue := { ctx := n, work := d 3 == 0, cap := d 4, succ := d 5, ring := d 6, units := g.units, pins := g.pages }
        .done { t with queues := t.queues.set q new } 0 0

def execQueueConfig (s : State) : Out := s.act fun s => s.command (· == 3) fun d s => s.queueConfig d

/-! Experts (R430). -/

/-- The fields of a 128-bit entry. -/
def Expert.ofEntry (y : Expert) (lo hi : Nat) : Expert :=
  { y with src := lo, nsid := field hi 31 0, kind := field hi 33 32, cls := field hi 39 37, sizeq := field hi 63 40 }

/-- ERT_WRITE (R430, R467). -/
def State.ertWrite (s : State) (d : Nat → Nat) : CmdEnd :=
  s.withCtx (d 1) fun x =>
    match x.ert.get? (d 2) with
    | none => refused s 2
    | some y =>
      if field (d 4) 36 34 != 0 then refused s 2
      else if y.st = 2 || y.st = 3 then refused s 3
      else
        let y := y.ofEntry (d 3) (d 4)
        let good := (y.kind = 1 || y.kind = 2) && 1 ≤ y.sizeq && y.sizeq ≤ x.frameSize / 4096
        .done (s.updExpert (d 1) (d 2) fun _ => { y with st := if good then 1 else 0 }) 0 0

def execErtWrite (s : State) : Out := s.act fun s => s.command (· == 4) fun d s => s.ertWrite d

/-! Translations (R356, R357). -/

/-- A page overlaps a range. -/
def pageHits (va size lo len : Nat) : Bool := va < lo + len && lo < va + size

/-- Lane operations of a context that hold translations. -/
def State.laneOps (s : State) (ctx : Nat) : Bool :=
  s.ops.any fun p => p.2.ctx == ctx && match p.2.work with
    | .load .. | .atomic .. | .store | .posted .. => true
    | _ => false

/-- INVALIDATE (R356, R357, R467): cores and islands lose their translations of the range; the command is done when no pin overlaps it and no
access that was translated before is outstanding. -/
def State.invalidate (s : State) (d : Nat → Nat) : CmdEnd :=
  s.withCtx (d 1) fun _ =>
    let gone := fun (e : Tlb) => e.ctx == d 1 && pageHits e.va e.size (d 2) (d 3)
    let t : State :=
      { s with cores := s.cores.mapV fun c => { c with tlb := c.tlb.filter fun (e : Tlb) => !gone e }
               islands := s.islands.mapV fun i => { i with l2 := i.l2.filter fun (e : Tlb) => !gone e } }
    let pinned := s.islands.any fun p => p.2.pins.any fun e => e.ctx == d 1 && pageHits e.vpage e.size (d 2) (d 3)
    if pinned || s.laneOps (d 1) then .later t else .done t 0 0

def execInvalidate (s : State) : Out := s.act fun s => s.command (· == 5) fun d s => s.invalidate d

/-! REPAIR (R366, R468). -/

/-- The host's REPAIR waits like sys.repair while a core holds back the records that it would form (R364; log 36). -/
def execRepair (s : State) : Out :=
  s.act fun s => s.command (· == 6) fun d s => s.withCtx (d 1) fun _ =>
    let (t, status) := s.repairId (d 1) (d 2)
    if s.repairHeld t then .later s else .done t 0 status

/-! Interrupts (R472). -/

/-- IRQ_BIND (R472). -/
def State.irqBind (s : State) (d : Nat → Nat) : CmdEnd :=
  if d 3 > 255 || d 2 % 8 != 0 then refused s 2 else
  s.withCtx (d 1) fun _ =>
    match s.xlateRange 0 (d 1) (d 2) 8 true with
    | .error y => refused (s.walkError (d 1) y) 3
    | .ok g =>
      let loc := (unitLoc g.units (d 2)).1
      let old := s.irqs.find? fun q => s.place q.loc == s.place loc
      let t := match old with
        | some q => s.unpinHomes q.ctx q.pins
        | none => s
      let rest := s.irqs.filter fun (q : Irq) => s.place q.loc != s.place loc
      if d 3 = 0 then .done { t with irqs := rest } 0 0
      else if s.irqs.length ≥ 1024 then refused s 3
      else match t.pinHomes (d 1) g.pages with
        | none => refused s 3
        | some t => .done { t with irqs := rest ++ [⟨loc, d 3, d 1, g.pages⟩] } 0 0

def execIrqBind (s : State) : Out := s.act fun s => s.command (· == 7) fun d s => s.irqBind d

/-! Windows (R473, R474). -/

def Window.ofEntry (lo hi : Nat) : Window :=
  { tbase := hi, target := field lo 63 62, port := field lo 61 61, c := lo.testBit 60, red := lo.testBit 59,
    devnum := field lo 58 42, size := field lo 41 28, base := field lo 27 12 }

/-- The combinations that WINDOW accepts. -/
def State.windowOk (s : State) (lo : Nat) (w : Window) : Bool :=
  field lo 11 0 = 0 && 1 ≤ w.size && 16 ≤ w.base && (!w.red || w.target = 3)
    && (!w.c || w.target = 2 || (w.target = 1 && s.portMode.getD w.port 0 = 2))

/-- WINDOW (R473, R474): an entry with TARGET 0 is invalid, and C = 1 is allowed only where R474 says. -/
def execWindow (s : State) : Out :=
  s.act fun s => s.command (· == 8) fun d s =>
    let w := Window.ofEntry (d 2) (d 3)
    if d 1 > 63 then refused s 2
    else if w.target = 0 && !w.c then .done ({ s with windows := s.windows.erase (d 1) } : State).dropUncached 0 0
    else if w.target != 0 && s.windowOk (d 2) w then
      .done ({ s with windows := s.windows.set (d 1) w } : State).dropUncached 0 0
    else refused s 2

/-! Partitions (R480). -/

/-- The twins that hold a resident wall. -/
def State.busyTwins (s : State) : List Nat := (s.walls.filter fun p => p.2.resident).map fun p => twinOf p.2.core

def execPartSet (s : State) : Out :=
  s.act fun s => s.command (· == 9) fun d s =>
    if d 1 > 7 then refused s 2 else
    match s.sysRead (d 2) 64 with
    | none => refused s 2
    | some bs =>
      let s := s.sysFill (d 2) 64
      let map := leNat bs
      let new := (List.range 512).filter fun t => map.testBit t
      let old := (s.part (d 1)).twins
      let moved := (new.filter fun t => !old.contains t) ++ old.filter fun t => !new.contains t
      if s.busyTwins.any moved.contains then refused s 3 else
      let t := (List.range 8).foldl (fun t n => t.updPart n fun p => { p with twins := p.twins.filter fun x => !new.contains x }) s
      .done (t.updPart (d 1) fun p => { p with twins := new }) 0 0

/-! Flash (R467, R478). -/

def execFlash (s : State) : Out :=
  s.act fun s => s.command (· == 0x0A) fun d s =>
    if d 1 > 1 || !(d 4 == 512 || d 4 == 4096) || 2 ^ 32 ≤ d 3 then refused s 2 else
    let rest := s.flash.filter fun f => f.1 != d 3
    if rest.length ≥ 8 then refused s 3 else .done { s with flash := rest ++ [(d 3, d 1, d 2, d 4)] } 0 0

/-! Policy (R405, R435, R481, R482). -/

/-- The eight bytes of a value. -/
def bytesOf (v : Nat) : List Nat := (List.range 8).map fun i => field v (8 * i + 7) (8 * i)

/-- A matrix that Mortar accepts (R405). -/
def matrixOk (v : Nat) : Bool :=
  (List.range 6).all fun a => (List.range 6).all fun b =>
    v.testBit (6 * a + b) == v.testBit (6 * b + a) && !(a == 5 && v.testBit (6 * a + b))

/-- The policy with an item at a value, none where it is refused, with the counter of the item's own (R481, R482). -/
def Policy.load (p : Policy) (item v : Nat) : Option Policy × Option Nat :=
  match item with
  | 1 =>
    if v / 2 ^ 36 != 0 then (none, none)
    else if matrixOk v then (some { p with matrix := BitVec.ofNat 36 v }, none) else (none, some 4)
  | 2 => (if (bytesOf v).all (1 ≤ ·) then some { p with weights := bytesOf v } else none, none)
  | 3 => (if 2 ^ 16 ≤ v && v ≤ 2 ^ 36 then some { p with watchdog := v } else none, none)
  | 4 =>
    let n := field v 7 0
    let w := field v 31 8
    (if v / 2 ^ 32 = 0 && 2 ≤ n && 60 ≤ w && w ≤ 86400 then some { p with errCount := n, errWindow := w } else none, none)
  | 5 => if (bytesOf v).all (1 ≤ ·) then (some { p with pager := bytesOf v }, none) else (none, some 5)
  | 6 => (if 1 ≤ v && v ≤ 500 then some { p with grace := v } else none, none)
  | 7 => (if 1 ≤ v && v ≤ 1024 then some { p with escalation := v } else none, none)
  | 8 => (if 400 ≤ v && v ≤ 2600 then some { p with power := v } else none, none)
  | _ => (none, none)

/-- POLICY (R468, R481, R482): before READY an accepted value is held. -/
def execPolicy (s : State) : Out :=
  s.act fun s => s.command (· == 0x0B) fun d s =>
    match s.policy.load (d 1) (d 2) with
    | (some p, _) =>
      if s.ready then .done { s with policy := p } 0 0
      else .done { s with heldPolicy := s.heldPolicy ++ [(d 1, BitVec.ofNat 64 (d 2))] } 0 0
    | (none, own) =>
      let t := s.raiseDev 3
      refused (match own with
        | some n => t.raiseDev n
        | none => t) 2

end Sys2Proof.Machine
end

