-- ==== Sys2Proof/Machine/Boot.lean ====
section
/-!
DEFINITION. Attestation (R483), reset and bring-up (R479), the links (R490) and the package's power cap (R481).
-/

namespace Sys2Proof.Machine

/-! SPDM (R483). The codes of ERROR and the order of the requests are SPDM 1.3's (log 14). -/

/-- Answering a request on a port. -/
def State.answer (s : State) (port : Nat) (g : SpdmPort → SpdmPort) : State :=
  match s.spdm[port]? with
  | some p => { s with spdm := s.spdm.set port (g p) }
  | none => s

/-- A request that SPDM admits after NEGOTIATE_ALGORITHMS only; before it the answer is ERROR with UnexpectedRequest. -/
def SpdmPort.reply (p : SpdmPort) (x : Spdm) : SpdmPort := { p with last := some (if p.negotiated then x else .error 0x04) }

/-- GET_VERSION: the version is 1.3. -/
def execGetVersion (port : Nat) (s : State) : Out :=
  s.act fun s => s.answer port fun _ => { negotiated := false, last := some (.version 1 3) }

def execGetCapabilities (port : Nat) (s : State) : Out :=
  s.act fun s => s.answer port fun p => { p with last := some .capabilities }

/-- NEGOTIATE_ALGORITHMS: the device selects SHA-384 and brainpoolP384r1 where the request offers them. -/
def execNegotiateAlgorithms (port : Nat) (hash384 brainpool384 : Bool) (s : State) : Out :=
  s.act fun s => s.answer port fun _ =>
    { negotiated := hash384 && brainpool384, last := some (.algorithms brainpool384 hash384) }

/-- The part of the certificate chain of slot 0 that a request asks for. -/
def certPart (off len : Nat) : List Byte := (List.range (min len (Config.certLength - off))).map fun i => Config.certByte (off + i)

/-- The digest of the certificate chain of slot 0. -/
def certDigest : BitVec 384 := sha384 (certPart 0 Config.certLength)

/-- Measurement 1: the boot ROM's digest of the firmware image (R479, R483). -/
def firmwareDigest : BitVec 384 := sha384 ((List.range Config.firmwareLength).map Config.firmwareByte)

def execGetDigests (port : Nat) (s : State) : Out :=
  s.act fun s => s.answer port fun p => p.reply (.digests certDigest)

def execGetCertificate (port slot off len : Nat) (s : State) : Out :=
  s.act fun s => s.answer port fun p => p.reply (if slot = 0 then .certificate (certPart off len) else .error 0x01)

def execChallenge (port nonce : Nat) (s : State) : Out :=
  s.act fun s => s.answer port fun p => p.reply (.challengeAuth certDigest (Config.signature s.steps nonce))

/-- The bytes of the current policy over which measurement 2 is taken: its items in order, eight bytes each (log 14). -/
def Policy.bytes (p : Policy) : List Byte :=
  let packed := fun (ws : List Nat) => ws.map fun w => BitVec.ofNat 8 w
  natLe 8 p.matrix.toNat ++ packed p.weights ++ natLe 8 p.watchdog ++ natLe 8 (p.errWindow * 256 + p.errCount)
    ++ packed p.pager ++ natLe 8 p.grace ++ natLe 8 p.escalation ++ natLe 8 p.power

def execGetMeasurements (port nonce : Nat) (s : State) : Out :=
  s.act fun s => s.answer port fun p => p.reply (.measurements firmwareDigest (sha384 s.policy.bytes)
    (BitVec.ofNat 64 (s.devidWord port)) (Config.signature s.steps nonce))

/-- Any other request: ERROR with UnsupportedRequest. -/
def execUnsupportedRequest (port : Nat) (_code : Nat) (s : State) : Out :=
  s.act fun s => s.answer port fun p => { p with last := some (.error 0x07) }

/-! Reset and bring-up (R479). -/

/-- A step after which the under-stack holds nothing. -/
def State.cleared (t : State) : Out := .next { t with mem := [], efmt := [], writes := [], stores := [] }

/-- POWER_ON_RESET: what is the model's own, the ordering code and the memory outside the package stay. -/
def execPowerOnReset (wellFormedImage : Bool) (s : State) : Out :=
  State.cleared { State.reset with
    sched := s.sched, steps := s.steps, model := s.model, outside := s.outside, started := wellFormedImage }

/-- The default policy under the held POLICY commands, in doorbell order (R468, R479). -/
def applyHeld (p : Policy) (held : List (Nat × Dword)) : Policy :=
  held.foldl (fun p h => ((p.load h.1 h.2.toNat).1).getD p) p

/-- FIRMWARE_BRING_UP. -/
def execFirmwareBringUp (s : State) : Out :=
  if s.started && !s.ready then
    State.cleared { s with
      policy := applyHeld Policy.default s.heldPolicy, heldPolicy := [], devnum := Config.devnum, ready := true
      lineTag := [], marks := [], found := [], clocks := [], ctxs := [] }
  else s.act id

/-- FUNCTION_LEVEL_RESET of a port. -/
def execFunctionLevelReset (port : Nat) (s : State) : Out :=
  s.act fun s => if port ≤ 1 then s.ctxs.foldl (fun t p => t.forget p.1) s else s

/-! Links (R490). -/

def execPortLinkTraining (port : Nat) (cxl : Bool) (s : State) : Out :=
  s.act fun s => ({ s with portMode := s.portMode.set port (if cxl then 2 else 1) } : State).dropUncached

def execPortLinkDown (port : Nat) (s : State) : Out :=
  s.act fun s => ({ s with portMode := s.portMode.set port 0 } : State).dropUncached

/-- PACKAGE_CAPPED (R481); the power that leads to it is outside the model (log 6). -/
def execPackageCapped (s : State) : Out := s.act fun s => { s with capped := true }

end Sys2Proof.Machine
end

