-- ==== Sys2Proof/Machine/Control.lean ====
section
/-!
DEFINITION. Branches (R184 to R186), jumps, calls and joins (R187 to R193), and the ctl class (R194 to R199).
-/

namespace Sys2Proof.Machine

/-- pc + sign_extend(off) × 4. -/
def relTarget {n : Nat} (pc : Dword) (off : BitVec n) : Dword := pc + off.signExtend 64 * 4

/-- Splitting the fragment, or the fragment-overflow trap before any lane moves (R87, R100). `pre` is done once the split is
known to be possible. -/
def State.splitOr (s : State) (e : Env) (gs : List (Dword × Dword)) (pre : State → State) : State :=
  match s.split e gs with
  | none => s.trapAll e 0x09 0
  | some _ => ((pre s).split e gs).getD s

/-- Where a known trit sends a lane of br.t or br.f, and an unknown one under UK (R185). -/
def branchDest (want : Trit) (uk : Uk) (pc target : Dword) (c : Trit) : Dword :=
  let c' := match c, uk with
    | .u, .t => Trit.t
    | .u, .w => .u
    | .u, _ => .f
    | c, _ => c
  if c' == .u then pc + 8 else if c' == want then target else pc + 4

/-- br.t and br.f (R185). -/
def State.branchLanes (s : State) (e : Env) (want : Trit) (uk : Uk) (q : BitVec 4) (off : BitVec 18) : State :=
  let target := relTarget e.pc off
  let unknown := e.lanes.filter fun l => e.q q.toNat l == .u
  if uk == .x && !unknown.isEmpty then s.trap e 0x06 0 (maskOf unknown)
  else s.splitOr e (groupBy' [e.pc + 4, target, e.pc + 8] (fun l => branchDest want uk e.pc target (e.q q.toNat l)) e.lanes) id

/-- br.t (R185). -/
def execBrT (uk : Uk) (q : BitVec 4) (off : BitVec 18) (s : State) : Out :=
  s.issue (.brT uk q off) fun e s => s.branchLanes e .t uk q off

/-- br.f (R185). -/
def execBrF (uk : Uk) (q : BitVec 4) (off : BitVec 18) (s : State) : Out :=
  s.issue (.brF uk q off) fun e s => s.branchLanes e .f uk q off

/-- br.k (R185): an unknown trit goes on at the next word, a known one at the target. -/
def execBrK (q : BitVec 4) (off : BitVec 18) (s : State) : Out :=
  s.issue (.brK q off) fun e s =>
    let target := relTarget e.pc off
    s.splitOr e (groupBy' [e.pc + 4, target] (fun l => if e.q q.toNat l == .u then e.pc + 4 else target) e.lanes) id

/-- The uniform branches (R186). -/
def State.branchUniform (s : State) (e : Env) (c : Trit) (uk : Uk) (off : BitVec 18) : State :=
  match c, uk with
  | .u, .x => s.trapAll e 0x06 0
  | .u, .w => s.goTo e (e.pc + 8)
  | .u, .t => s.goTo e (relTarget e.pc off)
  | .u, .f => s.goTo e (e.pc + 4)
  | .t, _ => s.goTo e (relTarget e.pc off)
  | .f, _ => s.goTo e (e.pc + 4)

/-- The trits of the fragment's lanes. -/
def Env.qs (e : Env) (q : Nat) : List Trit := e.lanes.map fun l => e.q q l

/-- br.any (R186). -/
def execBrAny (uk : Uk) (q : BitVec 4) (off : BitVec 18) (s : State) : Out :=
  s.issue (.brAny uk q off) fun e s => s.branchUniform e (.orAll (e.qs q.toNat)) uk off

/-- br.all (R186). -/
def execBrAll (uk : Uk) (q : BitVec 4) (off : BitVec 18) (s : State) : Out :=
  s.issue (.brAll uk q off) fun e s => s.branchUniform e (.andAll (e.qs q.toNat)) uk off

/-- br.none (R186). -/
def execBrNone (uk : Uk) (q : BitVec 4) (off : BitVec 18) (s : State) : Out :=
  s.issue (.brNone uk q off) fun e s => s.branchUniform e (Trit.orAll (e.qs q.toNat)).not uk off

/-- A word index in the code region of a word (R188). -/
def codeAddr (pc : Dword) (w : Word) : Dword := pc.extractLsb' 34 30 ++ w ++ (0 : BitVec 2)

/-- The link of a word: bits [33:2] of the next address (R188). -/
def linkOf (pc : Dword) : Word := (pc + 4).extractLsb' 2 32

/-- Where a per-lane jump sends a lane: an absent word index names no address (R188, R189). -/
def jumpDest (e : Env) (a : Reg) (l : Nat) : Dword :=
  let w := e.v .n32 a l
  if w == BitVec.allOnes 32 then e.pc + 4 else codeAddr e.pc w

/-- The groups of a per-lane jump: one for each address, by lowest lane (R87). -/
def jumpGroups (e : Env) (a : Reg) : List (Dword × Dword) :=
  groupBy' (e.lanes.map (jumpDest e a)) (jumpDest e a) e.lanes

/-- jmp.j (R189). -/
def execJmpJ (off : BitVec 17) (s : State) : Out :=
  s.issue (.jmpJ off) fun e s => s.goTo e (relTarget e.pc off)

/-- jmp.call (R189). -/
def execJmpCall (d : Reg) (off : BitVec 17) (s : State) : Out :=
  s.issue (.jmpCall d off) fun e s => (s.putV e d fun _ => some (linkOf e.pc)).goTo e (relTarget e.pc off)

/-- jmp.joinat (R191). -/
def execJmpJoinat (off : BitVec 17) (s : State) : Out :=
  s.issue (.jmpJoinat off) fun e s =>
    if e.f.joins.length ≥ 8 then s.trapAll e 0x09 1
    else (s.updFrag e.r fun f => { f with joins := (relTarget e.pc off, f.lanes) :: f.joins }).advance e

/-- jmp.join (R95, R192). -/
def execJmpJoin (s : State) : Out :=
  s.issue .jmpJoin fun e s =>
    match e.f.joins with
    | [] => (s.raise e.c.ctx .joinMismatch).advance e
    | top :: _ =>
      if top.1 == e.pc then (s.await e .join .joined).checkJoins e.r.uid
      else (s.raise e.c.ctx .joinMismatch).advance e

/-- jmp.jx (R189). -/
def execJmpJx (a : Reg) (s : State) : Out := s.issue (.jmpJx a) fun e s => s.splitOr e (jumpGroups e a) id

/-- jmp.calx (R189): a lane whose address is absent keeps vD. -/
def execJmpCalx (d a : Reg) (s : State) : Out :=
  s.issue (.jmpCalx d a) fun e s =>
    s.splitOr e (jumpGroups e a) fun s =>
      s.putV e d fun l => if e.v .n32 a l == BitVec.allOnes 32 then none else some (linkOf e.pc)

/-- jmp.ret (R189): as jx, with the link as the address. -/
def execJmpRet (a : Reg) (s : State) : Out := s.issue (.jmpRet a) fun e s => s.splitOr e (jumpGroups e a) id

/-! ctl. -/

/-- ctl.win (R195): both bases in steps of 8. -/
def execCtlWin (ws wv : BitVec 6) (s : State) : Out :=
  s.issue (.ctlWin ws wv) fun e s =>
    (s.updCourse e.r.uid fun c => { c with ws := 8 * ws.toNat, wv := 8 * wv.toNat }).advance e

/-- ctl.yield (R109, R196). -/
def execCtlYield (s : State) : Out :=
  s.issue .ctlYield fun e s => ((s.kick e.c.age).updFrag e.r fun f => { f with readyTime := s.clock }).advance e

/-- ctl.exit (R98, R109, R197): the lanes exit, and joins and barriers that this completes go on. -/
def execCtlExit (s : State) : Out :=
  s.issue .ctlExit fun e s =>
    let t := s.updCourse e.r.uid fun c => { c with exited := c.exited ||| e.f.lanes, frags := c.frags.erase e.r.serial }
    ((t.kick e.c.age).checkJoins e.r.uid).checkBarriers e.c.age

/-- ctl.nop (R198). -/
def execCtlNop (s : State) : Out := s.issue .ctlNop fun e s => s.advance e

/-- The other course of a course pair (R104). -/
def State.pairOf (s : State) (c : Course) : Option (Nat × Course) :=
  s.courses.find? fun p => p.2.core == c.core && p.2.slot == c.slot ^^^ 1 && p.2.resident

/-- ctl.prio (R199): the holder passes the token to a course of the same wall. -/
def execCtlPrio (s : State) : Out :=
  s.issue .ctlPrio fun e s =>
    let t := match s.pairOf e.c with
      | some (uid, o) =>
        if e.c.token && o.age == e.c.age then
          (s.updCourse e.r.uid fun c => { c with token := false }).updCourse uid fun c => { c with token := true }
        else s
      | none => s
    t.advance e

end Sys2Proof.Machine
end

