-- ==== Sys2Proof/Machine/Scalar.lean ====
section
/-!
DEFINITION. Scalar arithmetic: the classes si, sii and slu (R200 to R205).
-/

namespace Sys2Proof.Machine

/-- The format of a scalar type. -/
def styFmt : STy → Fmt
  | .i64 => .i64
  | .n64 => .n64
  | .b64 => .b64

/-- A dword from a pattern. -/
def dw (n : Nat) : Dword := BitVec.ofNat 64 n

/-- add, sub, mul: typed exact and saturated, or modulo 2^64 (R52 to R54, R202). -/
def siArith (ty : STy) (op : Int → Int → Int) (x y : Nat) : Nat :=
  match ty with
  | .b64 => Fmt.b64.wrap (op x y)
  | ty => (styFmt ty).typed2 op x y

/-- mulh: bits [127:64] of the exact product (R202). -/
def siMulhi (ty : STy) (x y : Nat) : Nat :=
  match ty with
  | .b64 => x * y / 2 ^ 64
  | ty =>
    match (styFmt ty).int? x, (styFmt ty).int? y with
    | some a, some b => (styFmt ty).wrap (a * b / 2 ^ 64)
    | _, _ => (styFmt ty).absentCode

/-- div and rem (R53, R54). -/
def siQuot (ty : STy) (x y : Nat) : Nat :=
  match ty with
  | .b64 => if y = 0 then 2 ^ 64 - 1 else x / y
  | ty => (styFmt ty).typed2 (typedDiv (styFmt ty)) x y
def siRemain (ty : STy) (x y : Nat) : Nat :=
  match ty with
  | .b64 => if y = 0 then x else x % y
  | ty => (styFmt ty).typed2 typedRem x y

/-- min and max (R202): the b64 form compares patterns. -/
def siMinMax (ty : STy) (isMax : Bool) (x y : Nat) : Nat :=
  siArith ty (fun a b => if isMax then max a b else min a b) x y

/-- A binary scalar operation on the values of sA and sB in a type. -/
def State.si2 (s : State) (e : Env) (ty : STy) (d a b : Reg) (op : Nat → Nat → Nat) : State :=
  (s.setS e d (dw (op (e.s (styFmt ty) a).toNat (e.s (styFmt ty) b).toNat))).advance e

/-- A binary bit operation. -/
def State.sb2 (s : State) (e : Env) (d a b : Reg) (op : Dword → Dword → Dword) : State :=
  (s.setS e d (op (e.sb a) (e.sb b))).advance e

/-- A unary bit operation with an immediate folded in. -/
def State.sb1 (s : State) (e : Env) (d a : Reg) (op : Dword → Dword) : State := (s.setS e d (op (e.sb a))).advance e

def execSiAdd (ty : STy) (d a b : Reg) (s : State) : Out :=
  s.issue (.siAdd ty d a b) fun e s => s.si2 e ty d a b (siArith ty (· + ·))
def execSiSub (ty : STy) (d a b : Reg) (s : State) : Out :=
  s.issue (.siSub ty d a b) fun e s => s.si2 e ty d a b (siArith ty (· - ·))
def execSiMul (ty : STy) (d a b : Reg) (s : State) : Out :=
  s.issue (.siMul ty d a b) fun e s => s.si2 e ty d a b (siArith ty (· * ·))
def execSiMulh (ty : STy) (d a b : Reg) (s : State) : Out :=
  s.issue (.siMulh ty d a b) fun e s => s.si2 e ty d a b (siMulhi ty)
def execSiDiv (ty : STy) (d a b : Reg) (s : State) : Out :=
  s.issue (.siDiv ty d a b) fun e s => s.si2 e ty d a b (siQuot ty)
def execSiRem (ty : STy) (d a b : Reg) (s : State) : Out :=
  s.issue (.siRem ty d a b) fun e s => s.si2 e ty d a b (siRemain ty)
def execSiMin (ty : STy) (d a b : Reg) (s : State) : Out :=
  s.issue (.siMin ty d a b) fun e s => s.si2 e ty d a b (siMinMax ty false)
def execSiMax (ty : STy) (d a b : Reg) (s : State) : Out :=
  s.issue (.siMax ty d a b) fun e s => s.si2 e ty d a b (siMinMax ty true)
def execSiMov (d a : Reg) (s : State) : Out := s.issue (.siMov d a) fun e s => s.sb1 e d a id

/-- A comparison under a scalar type (R58, R202). -/
def siCompare (c : ICond) (ty : STy) (x y : Nat) : Trit :=
  match ty with
  | .b64 => cmpNat c x y
  | ty => cmpInt c ((styFmt ty).int? x) ((styFmt ty).int? y)

/-- si.cmp: the trit goes to qD of every lane of F (R203). -/
def execSiCmp (c : Cond) (ty : STy) (d a b : Reg) (s : State) : Out :=
  s.issue (.siCmp c ty d a b) fun e s =>
    (s.putQ e d.toNat fun _ => siCompare (condOf c) ty (e.s (styFmt ty) a).toNat (e.s (styFmt ty) b).toNat).advance e

def execSiAnd (d a b : Reg) (s : State) : Out := s.issue (.siAnd d a b) fun e s => s.sb2 e d a b (· &&& ·)
def execSiOr (d a b : Reg) (s : State) : Out := s.issue (.siOr d a b) fun e s => s.sb2 e d a b (· ||| ·)
def execSiXor (d a b : Reg) (s : State) : Out := s.issue (.siXor d a b) fun e s => s.sb2 e d a b (· ^^^ ·)
def execSiShl (d a b : Reg) (s : State) : Out :=
  s.issue (.siShl d a b) fun e s => s.sb2 e d a b fun x y => x <<< (y.toNat % 64)
def execSiShr (d a b : Reg) (s : State) : Out :=
  s.issue (.siShr d a b) fun e s => s.sb2 e d a b fun x y => x >>> (y.toNat % 64)
def execSiSra (d a b : Reg) (s : State) : Out :=
  s.issue (.siSra d a b) fun e s => s.sb2 e d a b fun x y => x.sshiftRight (y.toNat % 64)

/-! sii (R204). -/

def imm64 {n : Nat} (imm : BitVec n) : Dword := imm.signExtend 64

def execSiiAddi (d a : Reg) (imm : BitVec 10) (s : State) : Out :=
  s.issue (.siiAddi d a imm) fun e s => s.sb1 e d a (· + imm64 imm)
def execSiiAndi (d a : Reg) (imm : BitVec 10) (s : State) : Out :=
  s.issue (.siiAndi d a imm) fun e s => s.sb1 e d a (· &&& imm64 imm)
def execSiiOri (d a : Reg) (imm : BitVec 10) (s : State) : Out :=
  s.issue (.siiOri d a imm) fun e s => s.sb1 e d a (· ||| imm64 imm)
def execSiiXori (d a : Reg) (imm : BitVec 10) (s : State) : Out :=
  s.issue (.siiXori d a imm) fun e s => s.sb1 e d a (· ^^^ imm64 imm)
def execSiiShli (d a : Reg) (imm : BitVec 10) (s : State) : Out :=
  s.issue (.siiShli d a imm) fun e s => s.sb1 e d a (· <<< imm.toNat)
def execSiiShri (d a : Reg) (imm : BitVec 10) (s : State) : Out :=
  s.issue (.siiShri d a imm) fun e s => s.sb1 e d a (· >>> imm.toNat)

/-- sii.cmpi (R204): i64 with a signed IMM6, or n64 with an unsigned one. -/
def execSiiCmpi (c : ICond) (uns : Bool) (d a : Reg) (imm : BitVec 6) (s : State) : Out :=
  s.issue (.siiCmpi c uns d a imm) fun e s =>
    let t := if uns then cmpInt c (Fmt.n64.int? (e.s .n64 a).toNat) (some imm.toNat)
      else cmpInt c (Fmt.i64.int? (e.s .i64 a).toNat) (some imm.toInt)
    (s.putQ e d.toNat fun _ => t).advance e

def execSiiMovi (d : Reg) (imm : BitVec 10) (s : State) : Out :=
  s.issue (.siiMovi d imm) fun e s => (s.setS e d (imm64 imm)).advance e

/-- slu.hi and slu.pc (R205). -/
def execSluHi (d : Reg) (imm : BitVec 19) (s : State) : Out :=
  s.issue (.sluHi d imm) fun e s => (s.setS e d (imm64 imm <<< 13)).advance e
def execSluPc (d : Reg) (imm : BitVec 19) (s : State) : Out :=
  s.issue (.sluPc d imm) fun e s => (s.setS e d (e.pc + (imm64 imm <<< 2))).advance e

end Sys2Proof.Machine
end

