-- ==== Sys2Proof/Machine/Sys.lean ====
section
/-!
DEFINITION. The sys class but repair (R173 to R182): breakpoint and software trap, return from a trap, special registers,
and the state word of a fragment.
-/

namespace Sys2Proof.Machine

/-- sys.brk (R178): trap 0x0A at the word. -/
def execSysBrk (code : BitVec 21) (s : State) : Out :=
  s.issue (.sysBrk code) fun e s => s.trapAt e 0x0A code.toNat e.pc 0 e.f.lanes

/-- sys.trap (R178): trap 0x0B with TPC at the word + 4. -/
def execSysTrap (code : BitVec 21) (s : State) : Out :=
  s.issue (.sysTrap code) fun e s => s.trapAt e 0x0B code.toNat (e.pc + 4) 0 e.f.lanes

/-- sys.rft (R180). -/
def execSysRft (s : State) : Out := s.issue .sysRft fun e s => s.returnFromTrap e (encode .sysRft)

/-- The value of a special register that has an s operand (R174). -/
def State.csr (s : State) (e : Env) (n : Nat) : Dword :=
  match n with
  | 0x01 => BitVec.ofNat 64 e.c.index
  | 0x02 => BitVec.ofNat 64 e.w.index
  | 0x03 => fidOf e.c e.r.serial
  | 0x04 => BitVec.ofNat 64 (((s.grids.get? e.c.grid).map fun g => g.count).getD 0)
  | 0x05 => BitVec.ofNat 64 e.c.width
  | 0x06 => BitVec.ofNat 64 s.clock
  | 0x07 => BitVec.ofNat 64 e.c.age
  | 0x10 => BitVec.ofNat 64 e.c.wv
  | 0x11 => BitVec.ofNat 64 e.c.ws
  | 0x12 => e.c.rm.setWidth 64
  | 0x13 => e.c.fmt.setWidth 64
  | 0x20 => e.f.cause
  | 0x21 => e.f.tpc
  | 0x22 => e.f.faddr
  | 0x23 => e.f.flanes
  | _ => e.c.tvec

/-- sys.csrr (R181): %lane gives each lane its index, every other register goes to a scalar. -/
def execSysCsrr (d b : Reg) (s : State) : Out :=
  s.issue (.sysCsrr d b) fun e s =>
    if b == 0 then (s.putV e d fun l => some (BitVec.ofNat 32 l)).advance e
    else (s.setS e d (s.csr e b.toNat)).advance e

/-- A dword with bits [1:0] cleared. -/
def align4 (x : Dword) : Dword := x &&& ~~~3#64

/-- sys.csrw (R174, R181): RM keeps bits [1:0]; TPC and TVEC ignore bits [1:0]; TPC is the fragment's. -/
def execSysCsrw (a b : Reg) (s : State) : Out :=
  s.issue (.sysCsrw a b) fun e s =>
    let x := e.sb a
    let t :=
      if b == 0x12 then s.updCourse e.r.uid fun c => { c with rm := x.extractLsb' 0 2 }
      else if b == 0x21 then s.updFrag e.r fun f => { f with tpc := align4 x }
      else s.updCourse e.r.uid fun c => { c with tvec := align4 x }
    t.advance e

/-- The codes of R182. -/
def WaitKind.num : WaitKind → Nat
  | .barrier => 1 | .join => 2 | .tile => 3 | .counter => 4 | .monitor => 5 | .queue => 6 | .batch => 7 | .signal => 8

/-- The state word of a fragment (R182). -/
def stateWord (c : Course) (f : Frag) (issuing : Bool) : Nat :=
  let off := ((f.pc - align4 c.entry).sshiftRight 2).toNat % 2 ^ 32
  let st := if issuing then (2, 0) else match f.state with
    | .ready => (1, 0)
    | .waiting k _ => (3, k.num)
    | .parked code _ => (4, code)
  off * 2 ^ 32 + popMask f.lanes * 2 ^ 16 + st.2 * 2 ^ 8 + (if f.spilled then 16 else 0) + st.1

/-- sys.frinfo (R182). -/
def execSysFrinfo (d a : Reg) (s : State) : Out :=
  s.issue (.sysFrinfo d a) fun e s =>
    let word := match s.findFid e.c.ctx (e.sb a).toNat with
      | none => 0
      | some r =>
        match s.course? r.uid, s.frag? r with
        | some c, some f => stateWord c f (r == e.r)
        | _, _ => 0
    (s.setS e d (BitVec.ofNat 64 word)).advance e

end Sys2Proof.Machine
end

