-- ==== Sys2Proof/Machine/VecInt.lean ====
section
/-!
DEFINITION. Vector integer arithmetic: the classes vi and vii (R212 to R220).
-/

namespace Sys2Proof.Machine

def vtyFmt : VTy → Fmt
  | .i32 => .i32
  | .n32 => .n32
  | .b32 => .b32
  | .i16 => .i16

/-- A word from a pattern. -/
def wd (n : Nat) : Word := BitVec.ofNat 32 n

/-- The two elements of a packed register from an operation on elements (R214). -/
def pack2 (op : Bool → Nat) : Word := wd (op true * 65536 + op false)

/-- A binary operation on the elements of two registers in a type. -/
def lift2 (packed : Bool) (op : Nat → Nat → Nat) (x y : Word) : Word :=
  if packed then pack2 fun h => op (half x h) (half y h) else wd (op x.toNat y.toNat)

def lift1 (packed : Bool) (op : Nat → Nat) (x : Word) : Word :=
  if packed then pack2 fun h => op (half x h) else wd (op x.toNat)

def lift3 (packed : Bool) (op : Nat → Nat → Nat → Nat) (x y z : Word) : Word :=
  if packed then pack2 fun h => op (half x h) (half y h) (half z h) else wd (op x.toNat y.toNat z.toNat)

def VTyPacked : VTy → Bool
  | .i16 => true
  | _ => false

/-- add, sub, mul, min, max in a type: exact and saturated, or modulo 2^32 (R52 to R54, R218). -/
def viArith (ty : VTy) (op : Int → Int → Int) (x y : Nat) : Nat :=
  match ty with
  | .b32 => Fmt.b32.wrap (op x y)
  | ty => (vtyFmt ty).typed2 op x y

/-- mulh: bits [63:32] of the exact product (R218). -/
def viMulhi (ty : VTy) (x y : Nat) : Nat :=
  match ty with
  | .b32 => x * y / 2 ^ 32
  | ty =>
    match (vtyFmt ty).int? x, (vtyFmt ty).int? y with
    | some a, some b => (vtyFmt ty).wrap (a * b / 2 ^ 32)
    | _, _ => (vtyFmt ty).absentCode

/-- mad: d × a + b, formed exactly and saturated once (R218). -/
def viMadd (ty : VTy) (d x y : Nat) : Nat :=
  match ty with
  | .b32 => (d * x + y) % 2 ^ 32
  | ty =>
    match (vtyFmt ty).int? d, (vtyFmt ty).int? x, (vtyFmt ty).int? y with
    | some c, some a, some b => (vtyFmt ty).sat (c * a + b)
    | _, _, _ => (vtyFmt ty).absentCode

def viQuot (ty : VTy) (x y : Nat) : Nat :=
  match ty with
  | .b32 => if y = 0 then 2 ^ 32 - 1 else x / y
  | ty => (vtyFmt ty).typed2 (typedDiv (vtyFmt ty)) x y
def viRemain (ty : VTy) (x y : Nat) : Nat :=
  match ty with
  | .b32 => if y = 0 then x else x % y
  | ty => (vtyFmt ty).typed2 typedRem x y

/-- A typed unary operation: absent propagates, the result saturates (R53, R59). -/
def viUn (ty : VTy) (op : Int → Int) (x : Nat) : Nat :=
  match (vtyFmt ty).int? x with
  | some a => (vtyFmt ty).sat (op a)
  | none => (vtyFmt ty).absentCode

/-- The element-wise forms of vi: every lane of F receives its result, and the fragment goes on. -/
def State.vi2 (s : State) (e : Env) (ty : VTy) (d a b : Reg) (op : Nat → Nat → Nat) : State :=
  (s.putV e d fun l => some (lift2 (VTyPacked ty) op (e.v (vtyFmt ty) a l) (e.v (vtyFmt ty) b l))).advance e
def State.vi1 (s : State) (e : Env) (ty : VTy) (d a : Reg) (op : Nat → Nat) : State :=
  (s.putV e d fun l => some (lift1 (VTyPacked ty) op (e.v (vtyFmt ty) a l))).advance e

/-- The bit forms: raw words. -/
def State.vb2 (s : State) (e : Env) (d a b : Reg) (op : Word → Word → Word) : State :=
  (s.putV e d fun l => some (op (e.vb a l) (e.vb b l))).advance e
def State.vb1 (s : State) (e : Env) (d a : Reg) (op : Word → Word) : State :=
  (s.putV e d fun l => some (op (e.vb a l))).advance e

def execViAdd (ty : VTy) (d a b : Reg) (s : State) : Out :=
  s.issue (.viAdd ty d a b) fun e s => s.vi2 e ty d a b (viArith ty (· + ·))
def execViSub (ty : VTy) (d a b : Reg) (s : State) : Out :=
  s.issue (.viSub ty d a b) fun e s => s.vi2 e ty d a b (viArith ty (· - ·))
def execViMul (ty : VTy) (d a b : Reg) (s : State) : Out :=
  s.issue (.viMul ty d a b) fun e s => s.vi2 e ty d a b (viArith ty (· * ·))
def execViMulh (ty : VTy) (d a b : Reg) (s : State) : Out :=
  s.issue (.viMulh ty d a b) fun e s => s.vi2 e ty d a b (viMulhi ty)
def execViMad (ty : VTy) (d a b : Reg) (s : State) : Out :=
  s.issue (.viMad ty d a b) fun e s =>
    (s.putV e d fun l =>
      some (lift3 (VTyPacked ty) (viMadd ty) (e.v (vtyFmt ty) d l) (e.v (vtyFmt ty) a l) (e.v (vtyFmt ty) b l))).advance e
def execViDiv (ty : VTy) (d a b : Reg) (s : State) : Out :=
  s.issue (.viDiv ty d a b) fun e s => s.vi2 e ty d a b (viQuot ty)
def execViRem (ty : VTy) (d a b : Reg) (s : State) : Out :=
  s.issue (.viRem ty d a b) fun e s => s.vi2 e ty d a b (viRemain ty)
def execViMin (ty : VTy) (d a b : Reg) (s : State) : Out :=
  s.issue (.viMin ty d a b) fun e s => s.vi2 e ty d a b (viArith ty min)
def execViMax (ty : VTy) (d a b : Reg) (s : State) : Out :=
  s.issue (.viMax ty d a b) fun e s => s.vi2 e ty d a b (viArith ty max)
def execViAbs (ty : VTy) (d a : Reg) (s : State) : Out :=
  s.issue (.viAbs ty d a) fun e s => s.vi1 e ty d a (viUn ty fun x => x.natAbs)
def execViNeg (ty : VTy) (d a : Reg) (s : State) : Out :=
  s.issue (.viNeg ty d a) fun e s => s.vi1 e ty d a (viUn ty fun x => -x)

/-- Leading zero bits, and set bits, of a word (R218). -/
def clzWord (x : Word) : Word := wd (((List.range 32).find? fun i => x.getLsbD (31 - i)).getD 32)
def popWord (x : Word) : Word := wd ((List.range 32).filter fun i => x.getLsbD i).length

def execViClz (d a : Reg) (s : State) : Out := s.issue (.viClz d a) fun e s => s.vb1 e d a clzWord
def execViPopc (d a : Reg) (s : State) : Out := s.issue (.viPopc d a) fun e s => s.vb1 e d a popWord
def execViMov (d a : Reg) (s : State) : Out := s.issue (.viMov d a) fun e s => s.vb1 e d a id

/-- A comparison under a vector type (R58, R218). -/
def viCompare (c : ICond) (ty : VTy) (x y : Nat) : Trit :=
  match ty with
  | .b32 => cmpNat c x y
  | ty => cmpInt c ((vtyFmt ty).int? x) ((vtyFmt ty).int? y)

def execViCmp (c : Cond) (ty : VTy) (d a b : Reg) (s : State) : Out :=
  s.issue (.viCmp c ty d a b) fun e s =>
    (s.putQ e d.toNat fun l => viCompare (condOf c) ty (e.v (vtyFmt ty) a l).toNat (e.v (vtyFmt ty) b l).toNat).advance e

def execViAnd (d a b : Reg) (s : State) : Out := s.issue (.viAnd d a b) fun e s => s.vb2 e d a b (· &&& ·)
def execViOr (d a b : Reg) (s : State) : Out := s.issue (.viOr d a b) fun e s => s.vb2 e d a b (· ||| ·)
def execViXor (d a b : Reg) (s : State) : Out := s.issue (.viXor d a b) fun e s => s.vb2 e d a b (· ^^^ ·)
def execViShl (d a b : Reg) (s : State) : Out :=
  s.issue (.viShl d a b) fun e s => s.vb2 e d a b fun x y => x <<< (y.toNat % 32)
def execViShr (d a b : Reg) (s : State) : Out :=
  s.issue (.viShr d a b) fun e s => s.vb2 e d a b fun x y => x >>> (y.toNat % 32)
def execViSra (d a b : Reg) (s : State) : Out :=
  s.issue (.viSra d a b) fun e s => s.vb2 e d a b fun x y => x.sshiftRight (y.toNat % 32)

/-! vii (R220). -/

def imm32 {n : Nat} (imm : BitVec n) : Word := imm.signExtend 32

def execViiAddi (d a : Reg) (imm : BitVec 10) (s : State) : Out :=
  s.issue (.viiAddi d a imm) fun e s => s.vb1 e d a (· + imm32 imm)
def execViiAndi (d a : Reg) (imm : BitVec 10) (s : State) : Out :=
  s.issue (.viiAndi d a imm) fun e s => s.vb1 e d a (· &&& imm32 imm)
def execViiOri (d a : Reg) (imm : BitVec 10) (s : State) : Out :=
  s.issue (.viiOri d a imm) fun e s => s.vb1 e d a (· ||| imm32 imm)
def execViiXori (d a : Reg) (imm : BitVec 10) (s : State) : Out :=
  s.issue (.viiXori d a imm) fun e s => s.vb1 e d a (· ^^^ imm32 imm)
def execViiShli (d a : Reg) (imm : BitVec 10) (s : State) : Out :=
  s.issue (.viiShli d a imm) fun e s => s.vb1 e d a (· <<< imm.toNat)
def execViiShri (d a : Reg) (imm : BitVec 10) (s : State) : Out :=
  s.issue (.viiShri d a imm) fun e s => s.vb1 e d a (· >>> imm.toNat)

def execViiCmpi (c : ICond) (uns : Bool) (d a : Reg) (imm : BitVec 6) (s : State) : Out :=
  s.issue (.viiCmpi c uns d a imm) fun e s =>
    (s.putQ e d.toNat fun l =>
      if uns then cmpInt c (Fmt.n32.int? (e.v .n32 a l).toNat) (some imm.toNat)
      else cmpInt c (Fmt.i32.int? (e.v .i32 a l).toNat) (some imm.toInt)).advance e

def execViiMovi (d : Reg) (imm : BitVec 10) (s : State) : Out :=
  s.issue (.viiMovi d imm) fun e s => (s.putV e d fun _ => some (imm32 imm)).advance e

end Sys2Proof.Machine
end

