-- ==== Sys2Proof/Machine/VecFloat.lean ====
section
/-!
DEFINITION. Floating arithmetic: the classes vf (R221 to R224) and vd (R225, R226), rounded once under RM (R215).
-/

namespace Sys2Proof.Machine

def ftyFmt : FTy → Fmt
  | .f32 => .f32
  | .f16 => .f16
  | .bf16 => .bf16

def ftyPacked : FTy → Bool
  | .f32 => false
  | _ => true

/-- The course's rounding mode (R65, R215). -/
def Env.mode (e : Env) : RMode := .ofBits e.c.rm

/-- A binary operation on the codes of a format. -/
def State.vf2 (s : State) (e : Env) (ty : FTy) (d a b : Reg) (op : Nat → Nat → Nat) : State :=
  (s.putV e d fun l => some (lift2 (ftyPacked ty) op (e.v (ftyFmt ty) a l) (e.v (ftyFmt ty) b l))).advance e
def State.vf1 (s : State) (e : Env) (ty : FTy) (d a : Reg) (op : Nat → Nat) : State :=
  (s.putV e d fun l => some (lift1 (ftyPacked ty) op (e.v (ftyFmt ty) a l))).advance e

/-- The operations of R222 and R223 on codes. -/
def fAdd (f : Fmt) (m : RMode) (x y : Nat) : Nat := f.codeF m ((f.valF x).add m (f.valF y))
def fSub (f : Fmt) (m : RMode) (x y : Nat) : Nat := f.codeF m ((f.valF x).sub m (f.valF y))
def fMul (f : Fmt) (m : RMode) (x y : Nat) : Nat := f.codeF m ((f.valF x).mul (f.valF y))
def fFma (f : Fmt) (m : RMode) (d x y : Nat) : Nat := f.codeF m (Val.fma m (f.valF d) (f.valF x) (f.valF y))
def fDiv (f : Fmt) (m : RMode) (x y : Nat) : Nat := f.div m (f.valF x) (f.valF y)
def fMinMax (f : Fmt) (isMax : Bool) (x y : Nat) : Nat := f.codeF .rn (Val.minmax isMax (f.valF x) (f.valF y))
def fAbs (f : Fmt) (x : Nat) : Nat := f.codeF .rn (f.valF x).abs
def fNeg (f : Fmt) (x : Nat) : Nat := f.codeF .rn (f.valF x).neg
def fFloor (f : Fmt) (x : Nat) : Nat := f.codeF .rn (f.valF x).floor
def fCompare (f : Fmt) (c : ICond) (x y : Nat) : Trit := cmpVal c (f.valF x) (f.valF y)

def execVfAdd (ty : FTy) (d a b : Reg) (s : State) : Out :=
  s.issue (.vfAdd ty d a b) fun e s => s.vf2 e ty d a b (fAdd (ftyFmt ty) e.mode)
def execVfSub (ty : FTy) (d a b : Reg) (s : State) : Out :=
  s.issue (.vfSub ty d a b) fun e s => s.vf2 e ty d a b (fSub (ftyFmt ty) e.mode)
def execVfMul (ty : FTy) (d a b : Reg) (s : State) : Out :=
  s.issue (.vfMul ty d a b) fun e s => s.vf2 e ty d a b (fMul (ftyFmt ty) e.mode)
def execVfFma (ty : FTy) (d a b : Reg) (s : State) : Out :=
  s.issue (.vfFma ty d a b) fun e s =>
    (s.putV e d fun l => some (lift3 (ftyPacked ty) (fFma (ftyFmt ty) e.mode)
      (e.v (ftyFmt ty) d l) (e.v (ftyFmt ty) a l) (e.v (ftyFmt ty) b l))).advance e
def execVfDiv (ty : FTy) (d a b : Reg) (s : State) : Out :=
  s.issue (.vfDiv ty d a b) fun e s => s.vf2 e ty d a b (fDiv (ftyFmt ty) e.mode)
def execVfMin (ty : FTy) (d a b : Reg) (s : State) : Out :=
  s.issue (.vfMin ty d a b) fun e s => s.vf2 e ty d a b (fMinMax (ftyFmt ty) false)
def execVfMax (ty : FTy) (d a b : Reg) (s : State) : Out :=
  s.issue (.vfMax ty d a b) fun e s => s.vf2 e ty d a b (fMinMax (ftyFmt ty) true)
def execVfAbs (ty : FTy) (d a : Reg) (s : State) : Out :=
  s.issue (.vfAbs ty d a) fun e s => s.vf1 e ty d a (fAbs (ftyFmt ty))
def execVfNeg (ty : FTy) (d a : Reg) (s : State) : Out :=
  s.issue (.vfNeg ty d a) fun e s => s.vf1 e ty d a (fNeg (ftyFmt ty))
def execVfRcp (ty : FTy) (d a : Reg) (s : State) : Out :=
  s.issue (.vfRcp ty d a) fun e s => s.vf1 e ty d a fun x => (ftyFmt ty).rcp e.mode ((ftyFmt ty).valF x)
def execVfRsq (ty : FTy) (d a : Reg) (s : State) : Out :=
  s.issue (.vfRsq ty d a) fun e s => s.vf1 e ty d a fun x => (ftyFmt ty).rsq e.mode ((ftyFmt ty).valF x)
def execVfSqrt (ty : FTy) (d a : Reg) (s : State) : Out :=
  s.issue (.vfSqrt ty d a) fun e s => s.vf1 e ty d a fun x => (ftyFmt ty).sqrt e.mode ((ftyFmt ty).valF x)
def execVfExp2 (ty : FTy) (d a : Reg) (s : State) : Out :=
  s.issue (.vfExp2 ty d a) fun e s => s.vf1 e ty d a fun x => (ftyFmt ty).exp2 e.mode ((ftyFmt ty).valF x)
def execVfLog2 (ty : FTy) (d a : Reg) (s : State) : Out :=
  s.issue (.vfLog2 ty d a) fun e s => s.vf1 e ty d a fun x => (ftyFmt ty).log2 e.mode ((ftyFmt ty).valF x)
def execVfFloor (ty : FTy) (d a : Reg) (s : State) : Out :=
  s.issue (.vfFloor ty d a) fun e s => s.vf1 e ty d a (fFloor (ftyFmt ty))

/-- vf.mov copies all 32 bits; an unwritten source reads as the absent code of the type (R55, R223). -/
def execVfMov (ty : FTy) (d a : Reg) (s : State) : Out :=
  s.issue (.vfMov ty d a) fun e s => (s.putV e d fun l => some (e.v (ftyFmt ty) a l)).advance e

/-- vf.cmp compares f32 values (R224). -/
def execVfCmp (c : Cond) (d a b : Reg) (s : State) : Out :=
  s.issue (.vfCmp c d a b) fun e s =>
    (s.putQ e d.toNat fun l => fCompare .f32 (condOf c) (e.v .f32 a l).toNat (e.v .f32 b l).toNat).advance e

/-! vd: f64 pairs. -/

def State.vd2 (s : State) (e : Env) (d a b : Reg) (op : Nat → Nat → Nat) : State :=
  (s.putVP e d fun l => some (BitVec.ofNat 64 (op (e.vp .f64 a l).toNat (e.vp .f64 b l).toNat))).advance e

def execVdAdd (d a b : Reg) (s : State) : Out := s.issue (.vdAdd d a b) fun e s => s.vd2 e d a b (fAdd .f64 e.mode)
def execVdSub (d a b : Reg) (s : State) : Out := s.issue (.vdSub d a b) fun e s => s.vd2 e d a b (fSub .f64 e.mode)
def execVdMul (d a b : Reg) (s : State) : Out := s.issue (.vdMul d a b) fun e s => s.vd2 e d a b (fMul .f64 e.mode)
def execVdFma (d a b : Reg) (s : State) : Out :=
  s.issue (.vdFma d a b) fun e s =>
    (s.putVP e d fun l => some (BitVec.ofNat 64
      (fFma .f64 e.mode (e.vp .f64 d l).toNat (e.vp .f64 a l).toNat (e.vp .f64 b l).toNat))).advance e
def execVdDiv (d a b : Reg) (s : State) : Out := s.issue (.vdDiv d a b) fun e s => s.vd2 e d a b (fDiv .f64 e.mode)
def execVdSqrt (d a : Reg) (s : State) : Out :=
  s.issue (.vdSqrt d a) fun e s =>
    (s.putVP e d fun l => some (BitVec.ofNat 64 (Fmt.f64.sqrt e.mode (Fmt.f64.valF (e.vp .f64 a l).toNat)))).advance e
def execVdMin (d a b : Reg) (s : State) : Out := s.issue (.vdMin d a b) fun e s => s.vd2 e d a b (fMinMax .f64 false)
def execVdMax (d a b : Reg) (s : State) : Out := s.issue (.vdMax d a b) fun e s => s.vd2 e d a b (fMinMax .f64 true)
def execVdCmp (c : Cond) (d a b : Reg) (s : State) : Out :=
  s.issue (.vdCmp c d a b) fun e s =>
    (s.putQ e d.toNat fun l => fCompare .f64 (condOf c) (e.vp .f64 a l).toNat (e.vp .f64 b l).toNat).advance e

end Sys2Proof.Machine
end

