-- ==== Sys2Proof/Machine/VecAbs.lean ====
section
/-!
DEFINITION. Absent values, selection, trits and conversion: the class vx (R227 to R231).
-/

namespace Sys2Proof.Machine

/-- Writing a result of a value type in each lane from its register or pair (R121, R214). -/
def State.putVt (s : State) (e : Env) (vt : Vt) (d : Reg) (g : Nat → Option Dword) : State :=
  if vt.wide then s.putVP e d g else s.putV e d fun l => (g l).map fun x => x.extractLsb' 0 32

/-- The register or pair of a lane read in a value type. -/
def Env.vt (e : Env) (vt : Vt) (a : Reg) (l : Nat) : Dword :=
  if vt.wide then e.vp vt.fmt a l else (e.v vt.fmt a l).setWidth 64

/-- The absent code of a whole register or pair of a value type. -/
def vtAbsent (vt : Vt) : Dword := if vt.wide then BitVec.ofNat 64 vt.fmt.absentCode else (fill32 vt.fmt).setWidth 64

/-- Whether the register, or an element, is absent in a value type (R228). -/
def vtIsAbsent (vt : Vt) (x : Dword) : Bool :=
  if vt.packed then vt.fmt.isAbsent (x.toNat % 65536) || vt.fmt.isAbsent (x.toNat / 65536 % 65536) else vt.fmt.isAbsent x.toNat

def execVxIsabs (vt : Vt) (d a : Reg) (s : State) : Out :=
  s.issue (.vxIsabs vt d a) fun e s => (s.putQ e d.toNat fun l => .ofBool (vtIsAbsent vt (e.vt vt a l))).advance e

/-- vx.ora on one register: each element of A, or of B where A's is absent (R228). -/
def oraWord (vt : Vt) (x y : Dword) : Dword :=
  if vt.packed then
    dw' (fun h => let (p, q) := (half (x.setWidth 32) h, half (y.setWidth 32) h); if vt.fmt.isAbsent p then q else p)
  else if vt.fmt.isAbsent x.toNat then y else x
where
  /-- Two elements as a dword. -/
  dw' (g : Bool → Nat) : Dword := (pack2 g).setWidth 64

def execVxOra (vt : Vt) (d a b : Reg) (s : State) : Out :=
  s.issue (.vxOra vt d a b) fun e s => (s.putVt e vt d fun l => some (oraWord vt (e.vt vt a l) (e.vt vt b l))).advance e

def execVxMkabs (vt : Vt) (d a b : Reg) (s : State) : Out :=
  s.issue (.vxMkabs vt d a b) fun e s =>
    (s.putVt e vt d fun l => some (match e.q b.toNat l with
      | .f => e.vt vt a l
      | _ => vtAbsent vt)).advance e

/-- vx.sel: a true trit leaves vD unwritten (R55, R228). -/
def execVxSel (vt : Vt) (d a b : Reg) (s : State) : Out :=
  s.issue (.vxSel vt d a b) fun e s =>
    (s.putVt e vt d fun l => match e.q b.toNat l with
      | .t => none
      | .f => some (e.vt vt a l)
      | .u => some (vtAbsent vt)).advance e

/-- The mode of vx.cvt (R231). -/
def cvtMode (e : Env) : Rnd → RMode
  | .rm => e.mode
  | .rn => .rn
  | .rz => .rz
  | .rd => .rd
  | .ru => .ru

/-- vx.cvt (R66, R231). -/
def execVxCvt (rnd : Rnd) (d a : Reg) (h : Bool) (src dst : Vt) (s : State) : Out :=
  s.issue (.vxCvt rnd d a h src dst) fun e s =>
    let val := fun l =>
      let x := e.vt src a l
      convert src.fmt dst.fmt (cvtMode e rnd) (if src.packed then half (x.setWidth 32) h else x.toNat)
    (s.updCourse e.r.uid fun c => c.eachLane e.lanes fun l c =>
      if dst.wide then c.setVP (e.vreg d) l (BitVec.ofNat 64 (val l))
      else if dst.packed then c.setHalf (e.vreg d) l h (BitVec.ofNat 16 (val l))
      else c.setV (e.vreg d) l (wd (val l))).advance e

/-! Trits (R229, R230). -/

def State.q2 (s : State) (e : Env) (d a b : Reg) (op : Trit → Trit → Trit) : State :=
  (s.putQ e d.toNat fun l => op (e.q a.toNat l) (e.q b.toNat l)).advance e

def execVxQand (d a b : Reg) (s : State) : Out := s.issue (.vxQand d a b) fun e s => s.q2 e d a b Trit.and
def execVxQor (d a b : Reg) (s : State) : Out := s.issue (.vxQor d a b) fun e s => s.q2 e d a b Trit.or
def execVxQxor (d a b : Reg) (s : State) : Out := s.issue (.vxQxor d a b) fun e s => s.q2 e d a b Trit.xor
def execVxQnot (d a : Reg) (s : State) : Out :=
  s.issue (.vxQnot d a) fun e s => (s.putQ e d.toNat fun l => (e.q a.toNat l).not).advance e
def execVxQmov (d a : Reg) (s : State) : Out :=
  s.issue (.vxQmov d a) fun e s => (s.putQ e d.toNat fun l => e.q a.toNat l).advance e
def execVxQset (d code : Reg) (s : State) : Out :=
  s.issue (.vxQset d code) fun e s => (s.putQ e d.toNat fun _ => .ofBits (code.setWidth 2)).advance e

/-- vx.qpack: eight trits from q0 or q8 into bits [15:0] (R230). -/
def execVxQpack (d a : Reg) (s : State) : Out :=
  s.issue (.vxQpack d a) fun e s =>
    (s.putV e d fun l => some (wd ((List.range 8).foldl (fun n k => n + (e.q (a.toNat + k) l).bits.toNat * 4 ^ k) 0))).advance e

/-- vx.qunpack: eight trits to q0 or q8, with 0b11 as unknown (R230). -/
def execVxQunpack (d a : Reg) (s : State) : Out :=
  s.issue (.vxQunpack d a) fun e s =>
    ((List.range 8).foldl (fun t k =>
      t.putQ e (d.toNat + k) fun l => .ofBits (BitVec.ofNat 2 ((e.vb a l).toNat / 4 ^ k))) s).advance e

end Sys2Proof.Machine
end

