-- ==== Sys2Proof/Machine/VecCourse.lean ====
section
/-!
DEFINITION. Course-wide instructions: the class vc (R232 to R243).
-/

namespace Sys2Proof.Machine

/-- The element that a lane holds for a reduction: element 0 under a 16-bit type, none where it is absent (R63, R234). -/
def Env.elem (e : Env) (vt : Vt) (a : Reg) (l : Nat) : Option Nat :=
  let x := (e.vt vt a l).toNat
  let x := if vt.packed then x % 65536 else x
  if vt.fmt.isAbsent x then none else some x

/-- The lanes of a segment of the given base that are in F, with their kept elements. -/
def Env.segElems (e : Env) (vt : Vt) (a : Reg) (base size : Nat) : List (Option Nat) :=
  (List.range size).map fun i => if e.f.active.getLsbD (base + i) then e.elem vt a (base + i) else none

/-- One level of the pairwise tree: an empty child passes the other on (R63). -/
def pairUp (op : Nat → Nat → Nat) : List (Option Nat) → List (Option Nat)
  | a :: b :: t =>
    (match a, b with
      | some x, some y => some (op x y)
      | some x, none => some x
      | none, y => y) :: pairUp op t
  | t => t

/-- The whole tree over a segment of up to 64 lanes. -/
def treeSum (op : Nat → Nat → Nat) (xs : List (Option Nat)) : Option Nat :=
  ((List.range 6).foldl (fun l _ => pairUp op l) xs).head?.getD none

/-- The format in which a type's sums are formed (R63, R64). -/
def sumFmt (vt : Vt) : Fmt := if vt.packed then .f32 else vt.fmt

/-- Widening a code exactly to the format of sums, and rounding a sum back (R63). -/
def widen (vt : Vt) (x : Nat) : Nat := if vt.packed && vt.fmt.isFloat then convert vt.fmt .f32 .rn x else x
def narrow (vt : Vt) (x : Nat) : Nat := if vt.packed && vt.fmt.isFloat then convert .f32 vt.fmt .rn x else x

/-- The exact integer sum of kept elements, saturated once (R63). -/
def intSum (f : Fmt) (xs : List Nat) : Nat := f.sat (xs.foldl (fun n x => n + f.toInt x) 0)

/-- The reductions of R63. -/
inductive RedOp where
  | add | min | max
  deriving DecidableEq, Repr

/-- Minimum or maximum of two kept elements (R62). -/
def minMax2 (f : Fmt) (isMax : Bool) (x y : Nat) : Nat :=
  if f.isFloat then fMinMax f isMax x y
  else f.wrap (if isMax then max (f.toInt x) (f.toInt y) else min (f.toInt x) (f.toInt y))

/-- A NaN result is canonical (R47). -/
def canonNan (f : Fmt) (x : Nat) : Nat := if f.isFloat && f.valF x == .nan then f.nanCode else x

/-- The reduction of a segment's elements (R63); none where none is kept. -/
def reduce (op : RedOp) (vt : Vt) (xs : List (Option Nat)) : Option Nat :=
  let kept := xs.filterMap id
  match kept with
  | [] => none
  | x :: rest =>
    match op with
    | .add =>
      if vt.fmt.isFloat then (treeSum (fAdd (sumFmt vt) .rn) (xs.map fun o => o.map (widen vt))).map fun r => canonNan vt.fmt (narrow vt r)
      else some (intSum vt.fmt kept)
    | .min => some (canonNan vt.fmt (rest.foldl (minMax2 vt.fmt false) x))
    | .max => some (canonNan vt.fmt (rest.foldl (minMax2 vt.fmt true) x))

/-- The value register of a result: element 1 holds the absent code under a 16-bit type (R234). -/
def redWord (vt : Vt) (r : Option Nat) : Dword :=
  let x := r.getD vt.fmt.absentCode
  if vt.packed then BitVec.ofNat 64 (vt.fmt.absentCode * 65536 + x) else BitVec.ofNat 64 x

/-- Writing a value and its count in each lane (R234). -/
def State.putRed (s : State) (e : Env) (vt : Vt) (d : Reg) (g : Nat → Option Nat × Nat) : State :=
  (s.updCourse e.r.uid fun c => c.eachLane e.lanes fun l c =>
    let r := g l
    if vt.wide then (c.setVP (e.vreg d) l (redWord vt r.1)).setV (e.vreg d + 2) l (wd r.2)
    else (c.setV (e.vreg d) l ((redWord vt r.1).extractLsb' 0 32)).setV (e.vreg d + 1) l (wd r.2)).advance e

/-- vc.red (R234): every lane of F in a segment receives the segment's result and count. -/
def State.vcRed (s : State) (e : Env) (op : RedOp) (d a : Reg) (vt : Vt) (seg : Seg) : State :=
  let n := seg.size
  let res := (List.range (64 / n)).map fun g =>
    let xs := e.segElems vt a (g * n) n
    (reduce op vt xs, (xs.filterMap id).length)
  s.putRed e vt d fun l => res.getD (l / n) (none, 0)

def execVcRedAdd (d a : Reg) (vt : Vt) (seg : Seg) (s : State) : Out :=
  s.issue (.vcRedAdd d a vt seg) fun e s => s.vcRed e .add d a vt seg
def execVcRedMin (d a : Reg) (vt : Vt) (seg : Seg) (s : State) : Out :=
  s.issue (.vcRedMin d a vt seg) fun e s => s.vcRed e .min d a vt seg
def execVcRedMax (d a : Reg) (vt : Vt) (seg : Seg) (s : State) : Out :=
  s.issue (.vcRedMax d a vt seg) fun e s => s.vcRed e .max d a vt seg

/-- Adding one element to a running combination; integer prefixes stay exact until they are written (R64, R235). -/
inductive Prefix where
  | none
  | code (x : Nat)
  | int (x : Int)
  deriving DecidableEq, Repr

def Prefix.step (op : RedOp) (vt : Vt) (r : Prefix) (x : Nat) : Prefix :=
  match op, r with
  | .add, .none => if vt.fmt.isFloat then .code (widen vt x) else .int (vt.fmt.toInt x)
  | .add, .code y => .code (fAdd (sumFmt vt) .rn y (widen vt x))
  | .add, .int y => .int (y + vt.fmt.toInt x)
  | _, .none => .code x
  | .min, .code y => .code (minMax2 vt.fmt false y x)
  | .max, .code y => .code (minMax2 vt.fmt true y x)
  | _, r => r

def Prefix.out (op : RedOp) (vt : Vt) : Prefix → Option Nat
  | .none => Option.none
  | .code x => some (canonNan vt.fmt (if op == .add then narrow vt x else x))
  | .int x => some (vt.fmt.sat x)

/-- The inclusive scan of a segment: the run and the count at each position (R64). -/
def scanSeg (op : RedOp) (vt : Vt) : List (Option Nat) → Prefix → Nat → List (Option Nat × Nat)
  | [], _, _ => []
  | none :: t, r, n => (none, n) :: scanSeg op vt t r n
  | some x :: t, r, n =>
    let r' := r.step op vt x
    (r'.out op vt, n + 1) :: scanSeg op vt t r' (n + 1)

/-- vc.scan (R235). -/
def State.vcScan (s : State) (e : Env) (op : RedOp) (d a : Reg) (vt : Vt) (seg : Seg) : State :=
  let n := seg.size
  let res := (List.range (64 / n)).flatMap fun g => scanSeg op vt (e.segElems vt a (g * n) n) .none 0
  s.putRed e vt d fun l => res.getD l (none, 0)

def execVcScanAdd (d a : Reg) (vt : Vt) (seg : Seg) (s : State) : Out :=
  s.issue (.vcScanAdd d a vt seg) fun e s => s.vcScan e .add d a vt seg
def execVcScanMin (d a : Reg) (vt : Vt) (seg : Seg) (s : State) : Out :=
  s.issue (.vcScanMin d a vt seg) fun e s => s.vcScan e .min d a vt seg
def execVcScanMax (d a : Reg) (vt : Vt) (seg : Seg) (s : State) : Out :=
  s.issue (.vcScanMax d a vt seg) fun e s => s.vcScan e .max d a vt seg

/-- The rank order of keys: integers by value; NaN above +∞ and −0 below +0 (R236). -/
def keyAbove (f : Fmt) (x y : Nat) : Bool :=
  if f.isFloat then
    match f.valF x, f.valF y with
    | .nan, .nan => false
    | .nan, _ => true
    | _, .nan => false
    | a, b => b.ltMin a
  else f.toInt y < f.toInt x

/-- The ranking of a segment: position and element, highest first, equal keys by lower lane (R236). -/
def rankSeg (vt : Vt) (xs : List (Option Nat)) : List (Nat × Nat) :=
  sortBy (fun a b => keyAbove vt.fmt a.2 b.2)
    (((List.range xs.length).zip xs).filterMap fun p => p.2.map fun x => (p.1, x))

/-- vc.topk (R236). -/
def execVcTopk (k : BitVec 3) (d a : Reg) (vt : Vt) (seg : Seg) (s : State) : Out :=
  s.issue (.vcTopk k d a vt seg) fun e s =>
    let n := seg.size
    let ranks := (List.range (64 / n)).map fun g => rankSeg vt (e.segElems vt a (g * n) n)
    (s.updCourse e.r.uid fun c => c.eachLane e.lanes fun l c =>
      let r := l % n
      match if r ≤ k.toNat then (ranks.getD (l / n) [])[r]? else none with
      | some (pos, x) =>
        (c.setV (e.vreg d) l ((redWord vt (some (canonNan vt.fmt x))).extractLsb' 0 32)).setV (e.vreg d + 1) l (wd pos)
      | none => (c.setV (e.vreg d) l ((redWord vt none).extractLsb' 0 32)).setV (e.vreg d + 1) l (BitVec.allOnes 32)).advance e

/-- The row and offset of a flattened position over row lengths (R237). -/
def rebalFind : List Nat → Nat → Nat → Option (Nat × Nat)
  | [], _, _ => none
  | n :: t, p, r => if p < n then some (r, p) else rebalFind t (p - n) (r + 1)

/-- vc.rebal (R237). -/
def execVcRebal (d a b : Reg) (s : State) : Out :=
  s.issue (.vcRebal d a b) fun e s =>
    let lens := (List.range e.c.width).map fun l =>
      if e.f.active.getLsbD l then ((Fmt.n32.int? (e.v .n32 a l).toNat).getD 0).toNat else 0
    let start := e.s .n64 b
    (s.updCourse e.r.uid fun c => c.eachLane e.lanes fun l c =>
      match if start == BitVec.allOnes 64 then none else rebalFind lens (start.toNat + l) 0 with
      | some (r, off) => (c.setV (e.vreg d) l (wd r)).setV (e.vreg d + 1) l (wd off)
      | none => (c.setV (e.vreg d) l (BitVec.allOnes 32)).setV (e.vreg d + 1) l (BitVec.allOnes 32)).advance e

/-- vc.conflict (R238). -/
def execVcConflict (d a : Reg) (s : State) : Out :=
  s.issue (.vcConflict d a) fun e s =>
    (s.putQ e d.toNat fun l =>
      let x := e.vpb a l
      if x == BitVec.allOnes 64 then .u else .ofBool (e.lanes.any fun j => j < l && e.vpb a j == x)).advance e

/-- A shuffle: each lane copies the register of its source lane, where there is one in F (R239). -/
def State.vcShfl (s : State) (e : Env) (d a : Reg) (src : Nat → Option Nat) : State :=
  (s.putV e d fun l => (src l).bind fun j =>
    if j < e.c.width && e.f.active.getLsbD j then some (e.vb a j) else none).advance e

def execVcShflIdx (d a b : Reg) (s : State) : Out :=
  s.issue (.vcShflIdx d a b) fun e s => s.vcShfl e d a fun l => some (e.v .n32 b l).toNat
def execVcShflUp (d a b : Reg) (s : State) : Out :=
  s.issue (.vcShflUp d a b) fun e s => s.vcShfl e d a fun l =>
    let n := (e.s .n64 b).toNat; if n ≤ l then some (l - n) else none
def execVcShflDown (d a b : Reg) (s : State) : Out :=
  s.issue (.vcShflDown d a b) fun e s => s.vcShfl e d a fun l => some (l + (e.s .n64 b).toNat)
def execVcShflXor (d a b : Reg) (s : State) : Out :=
  s.issue (.vcShflXor d a b) fun e s => s.vcShfl e d a fun l => some (l ^^^ (e.s .n64 b).toNat)

/-- vc.bcast (R240). -/
def execVcBcast (d a b : Reg) (s : State) : Out :=
  s.issue (.vcBcast d a b) fun e s => s.vcShfl e d a fun _ => some (e.s .n64 b).toNat

/-- vc.wrlane (R240). -/
def execVcWrlane (d a b : Reg) (s : State) : Out :=
  s.issue (.vcWrlane d a b) fun e s =>
    (s.putV e d fun l => if l = (e.s .n64 b).toNat then some ((e.sb a).extractLsb' 0 32) else none).advance e

/-! Votes (R241). -/

def State.vcVote (s : State) (e : Env) (d : Reg) (t : Trit) : State := (s.putQ e d.toNat fun _ => t).advance e

def execVcVoteAny (d a : Reg) (s : State) : Out :=
  s.issue (.vcVoteAny d a) fun e s => s.vcVote e d (.orAll (e.lanes.map fun l => e.q a.toNat l))
def execVcVoteAll (d a : Reg) (s : State) : Out :=
  s.issue (.vcVoteAll d a) fun e s => s.vcVote e d (.andAll (e.lanes.map fun l => e.q a.toNat l))
def execVcVoteNone (d a : Reg) (s : State) : Out :=
  s.issue (.vcVoteNone d a) fun e s => s.vcVote e d (Trit.orAll (e.lanes.map fun l => e.q a.toNat l)).not

end Sys2Proof.Machine
end

