-- ==== Sys2Proof/Machine/Dispatch.lean ====
section
/-!
DEFINITION. One arm per constructor of `Instr`.
-/

namespace Sys2Proof.Machine

def exec (i : Instr) (s : State) : Host.Outcome State Fault Refusal :=
  match i with
  | .sysBrk code => Sys2Proof.Machine.execSysBrk code s
  | .sysTrap code => Sys2Proof.Machine.execSysTrap code s
  | .sysRft => Sys2Proof.Machine.execSysRft s
  | .sysCsrr d b => Sys2Proof.Machine.execSysCsrr d b s
  | .sysCsrw a b => Sys2Proof.Machine.execSysCsrw a b s
  | .sysFrinfo d a => Sys2Proof.Machine.execSysFrinfo d a s
  | .sysRepair d a => Sys2Proof.Machine.execSysRepair d a s
  | .brT uk q off => Sys2Proof.Machine.execBrT uk q off s
  | .brF uk q off => Sys2Proof.Machine.execBrF uk q off s
  | .brK q off => Sys2Proof.Machine.execBrK q off s
  | .brAny uk q off => Sys2Proof.Machine.execBrAny uk q off s
  | .brAll uk q off => Sys2Proof.Machine.execBrAll uk q off s
  | .brNone uk q off => Sys2Proof.Machine.execBrNone uk q off s
  | .jmpJ off => Sys2Proof.Machine.execJmpJ off s
  | .jmpCall d off => Sys2Proof.Machine.execJmpCall d off s
  | .jmpJoinat off => Sys2Proof.Machine.execJmpJoinat off s
  | .jmpJoin => Sys2Proof.Machine.execJmpJoin s
  | .jmpJx a => Sys2Proof.Machine.execJmpJx a s
  | .jmpCalx d a => Sys2Proof.Machine.execJmpCalx d a s
  | .jmpRet a => Sys2Proof.Machine.execJmpRet a s
  | .ctlWin ws wv => Sys2Proof.Machine.execCtlWin ws wv s
  | .ctlYield => Sys2Proof.Machine.execCtlYield s
  | .ctlExit => Sys2Proof.Machine.execCtlExit s
  | .ctlNop => Sys2Proof.Machine.execCtlNop s
  | .ctlPrio => Sys2Proof.Machine.execCtlPrio s
  | .siAdd ty d a b => Sys2Proof.Machine.execSiAdd ty d a b s
  | .siSub ty d a b => Sys2Proof.Machine.execSiSub ty d a b s
  | .siMul ty d a b => Sys2Proof.Machine.execSiMul ty d a b s
  | .siMulh ty d a b => Sys2Proof.Machine.execSiMulh ty d a b s
  | .siDiv ty d a b => Sys2Proof.Machine.execSiDiv ty d a b s
  | .siRem ty d a b => Sys2Proof.Machine.execSiRem ty d a b s
  | .siMin ty d a b => Sys2Proof.Machine.execSiMin ty d a b s
  | .siMax ty d a b => Sys2Proof.Machine.execSiMax ty d a b s
  | .siMov d a => Sys2Proof.Machine.execSiMov d a s
  | .siCmp cond ty d a b => Sys2Proof.Machine.execSiCmp cond ty d a b s
  | .siAnd d a b => Sys2Proof.Machine.execSiAnd d a b s
  | .siOr d a b => Sys2Proof.Machine.execSiOr d a b s
  | .siXor d a b => Sys2Proof.Machine.execSiXor d a b s
  | .siShl d a b => Sys2Proof.Machine.execSiShl d a b s
  | .siShr d a b => Sys2Proof.Machine.execSiShr d a b s
  | .siSra d a b => Sys2Proof.Machine.execSiSra d a b s
  | .siiAddi d a imm => Sys2Proof.Machine.execSiiAddi d a imm s
  | .siiAndi d a imm => Sys2Proof.Machine.execSiiAndi d a imm s
  | .siiOri d a imm => Sys2Proof.Machine.execSiiOri d a imm s
  | .siiXori d a imm => Sys2Proof.Machine.execSiiXori d a imm s
  | .siiShli d a imm => Sys2Proof.Machine.execSiiShli d a imm s
  | .siiShri d a imm => Sys2Proof.Machine.execSiiShri d a imm s
  | .siiCmpi cond uns d a imm => Sys2Proof.Machine.execSiiCmpi cond uns d a imm s
  | .siiMovi d imm => Sys2Proof.Machine.execSiiMovi d imm s
  | .sluHi d imm => Sys2Proof.Machine.execSluHi d imm s
  | .sluPc d imm => Sys2Proof.Machine.execSluPc d imm s
  | .viAdd ty d a b => Sys2Proof.Machine.execViAdd ty d a b s
  | .viSub ty d a b => Sys2Proof.Machine.execViSub ty d a b s
  | .viMul ty d a b => Sys2Proof.Machine.execViMul ty d a b s
  | .viMulh ty d a b => Sys2Proof.Machine.execViMulh ty d a b s
  | .viMad ty d a b => Sys2Proof.Machine.execViMad ty d a b s
  | .viDiv ty d a b => Sys2Proof.Machine.execViDiv ty d a b s
  | .viRem ty d a b => Sys2Proof.Machine.execViRem ty d a b s
  | .viMin ty d a b => Sys2Proof.Machine.execViMin ty d a b s
  | .viMax ty d a b => Sys2Proof.Machine.execViMax ty d a b s
  | .viAbs ty d a => Sys2Proof.Machine.execViAbs ty d a s
  | .viNeg ty d a => Sys2Proof.Machine.execViNeg ty d a s
  | .viClz d a => Sys2Proof.Machine.execViClz d a s
  | .viPopc d a => Sys2Proof.Machine.execViPopc d a s
  | .viMov d a => Sys2Proof.Machine.execViMov d a s
  | .viCmp cond ty d a b => Sys2Proof.Machine.execViCmp cond ty d a b s
  | .viAnd d a b => Sys2Proof.Machine.execViAnd d a b s
  | .viOr d a b => Sys2Proof.Machine.execViOr d a b s
  | .viXor d a b => Sys2Proof.Machine.execViXor d a b s
  | .viShl d a b => Sys2Proof.Machine.execViShl d a b s
  | .viShr d a b => Sys2Proof.Machine.execViShr d a b s
  | .viSra d a b => Sys2Proof.Machine.execViSra d a b s
  | .viiAddi d a imm => Sys2Proof.Machine.execViiAddi d a imm s
  | .viiAndi d a imm => Sys2Proof.Machine.execViiAndi d a imm s
  | .viiOri d a imm => Sys2Proof.Machine.execViiOri d a imm s
  | .viiXori d a imm => Sys2Proof.Machine.execViiXori d a imm s
  | .viiShli d a imm => Sys2Proof.Machine.execViiShli d a imm s
  | .viiShri d a imm => Sys2Proof.Machine.execViiShri d a imm s
  | .viiCmpi cond uns d a imm => Sys2Proof.Machine.execViiCmpi cond uns d a imm s
  | .viiMovi d imm => Sys2Proof.Machine.execViiMovi d imm s
  | .vfAdd ty d a b => Sys2Proof.Machine.execVfAdd ty d a b s
  | .vfSub ty d a b => Sys2Proof.Machine.execVfSub ty d a b s
  | .vfMul ty d a b => Sys2Proof.Machine.execVfMul ty d a b s
  | .vfFma ty d a b => Sys2Proof.Machine.execVfFma ty d a b s
  | .vfDiv ty d a b => Sys2Proof.Machine.execVfDiv ty d a b s
  | .vfMin ty d a b => Sys2Proof.Machine.execVfMin ty d a b s
  | .vfMax ty d a b => Sys2Proof.Machine.execVfMax ty d a b s
  | .vfAbs ty d a => Sys2Proof.Machine.execVfAbs ty d a s
  | .vfNeg ty d a => Sys2Proof.Machine.execVfNeg ty d a s
  | .vfRcp ty d a => Sys2Proof.Machine.execVfRcp ty d a s
  | .vfRsq ty d a => Sys2Proof.Machine.execVfRsq ty d a s
  | .vfSqrt ty d a => Sys2Proof.Machine.execVfSqrt ty d a s
  | .vfExp2 ty d a => Sys2Proof.Machine.execVfExp2 ty d a s
  | .vfLog2 ty d a => Sys2Proof.Machine.execVfLog2 ty d a s
  | .vfFloor ty d a => Sys2Proof.Machine.execVfFloor ty d a s
  | .vfMov ty d a => Sys2Proof.Machine.execVfMov ty d a s
  | .vfCmp cond d a b => Sys2Proof.Machine.execVfCmp cond d a b s
  | .vdAdd d a b => Sys2Proof.Machine.execVdAdd d a b s
  | .vdSub d a b => Sys2Proof.Machine.execVdSub d a b s
  | .vdMul d a b => Sys2Proof.Machine.execVdMul d a b s
  | .vdFma d a b => Sys2Proof.Machine.execVdFma d a b s
  | .vdDiv d a b => Sys2Proof.Machine.execVdDiv d a b s
  | .vdSqrt d a => Sys2Proof.Machine.execVdSqrt d a s
  | .vdMin d a b => Sys2Proof.Machine.execVdMin d a b s
  | .vdMax d a b => Sys2Proof.Machine.execVdMax d a b s
  | .vdCmp cond d a b => Sys2Proof.Machine.execVdCmp cond d a b s
  | .vxIsabs vt d a => Sys2Proof.Machine.execVxIsabs vt d a s
  | .vxOra vt d a b => Sys2Proof.Machine.execVxOra vt d a b s
  | .vxMkabs vt d a b => Sys2Proof.Machine.execVxMkabs vt d a b s
  | .vxSel vt d a b => Sys2Proof.Machine.execVxSel vt d a b s
  | .vxCvt rnd d a h src dst => Sys2Proof.Machine.execVxCvt rnd d a h src dst s
  | .vxQand d a b => Sys2Proof.Machine.execVxQand d a b s
  | .vxQor d a b => Sys2Proof.Machine.execVxQor d a b s
  | .vxQnot d a => Sys2Proof.Machine.execVxQnot d a s
  | .vxQxor d a b => Sys2Proof.Machine.execVxQxor d a b s
  | .vxQmov d a => Sys2Proof.Machine.execVxQmov d a s
  | .vxQset d code => Sys2Proof.Machine.execVxQset d code s
  | .vxQpack d a => Sys2Proof.Machine.execVxQpack d a s
  | .vxQunpack d a => Sys2Proof.Machine.execVxQunpack d a s
  | .vcRedAdd d a vt seg => Sys2Proof.Machine.execVcRedAdd d a vt seg s
  | .vcRedMin d a vt seg => Sys2Proof.Machine.execVcRedMin d a vt seg s
  | .vcRedMax d a vt seg => Sys2Proof.Machine.execVcRedMax d a vt seg s
  | .vcScanAdd d a vt seg => Sys2Proof.Machine.execVcScanAdd d a vt seg s
  | .vcScanMin d a vt seg => Sys2Proof.Machine.execVcScanMin d a vt seg s
  | .vcScanMax d a vt seg => Sys2Proof.Machine.execVcScanMax d a vt seg s
  | .vcTopk k d a vt seg => Sys2Proof.Machine.execVcTopk k d a vt seg s
  | .vcRebal d a b => Sys2Proof.Machine.execVcRebal d a b s
  | .vcConflict d a => Sys2Proof.Machine.execVcConflict d a s
  | .vcShflIdx d a b => Sys2Proof.Machine.execVcShflIdx d a b s
  | .vcShflUp d a b => Sys2Proof.Machine.execVcShflUp d a b s
  | .vcShflDown d a b => Sys2Proof.Machine.execVcShflDown d a b s
  | .vcShflXor d a b => Sys2Proof.Machine.execVcShflXor d a b s
  | .vcVoteAny d a => Sys2Proof.Machine.execVcVoteAny d a s
  | .vcVoteAll d a => Sys2Proof.Machine.execVcVoteAll d a s
  | .vcVoteNone d a => Sys2Proof.Machine.execVcVoteNone d a s
  | .vcBcast d a b => Sys2Proof.Machine.execVcBcast d a b s
  | .vcWrlane d a b => Sys2Proof.Machine.execVcWrlane d a b s
  | .ldG sz d a off => Sys2Proof.Machine.execLdG sz d a off s
  | .ldS sz d a off => Sys2Proof.Machine.execLdS sz d a off s
  | .ldC wide d a off => Sys2Proof.Machine.execLdC wide d a off s
  | .ldK wide d a off => Sys2Proof.Machine.execLdK wide d a off s
  | .ldStk d off => Sys2Proof.Machine.execLdStk d off s
  | .stG sz d a off => Sys2Proof.Machine.execStG sz d a off s
  | .stS sz d a off => Sys2Proof.Machine.execStS sz d a off s
  | .stK wide d a off => Sys2Proof.Machine.execStK wide d a off s
  | .stStk d off => Sys2Proof.Machine.execStStk d off s
  | .ldxG sz d a b => Sys2Proof.Machine.execLdxG sz d a b s
  | .ldxS sz d a b => Sys2Proof.Machine.execLdxS sz d a b s
  | .stxG sz d a b => Sys2Proof.Machine.execStxG sz d a b s
  | .stxS sz d a b => Sys2Proof.Machine.execStxS sz d a b s
  | .atAdd ty d a sc ord => Sys2Proof.Machine.execAtAdd ty d a sc ord s
  | .atFadd wide d a sc ord => Sys2Proof.Machine.execAtFadd wide d a sc ord s
  | .atMin ty d a sc ord => Sys2Proof.Machine.execAtMin ty d a sc ord s
  | .atMax ty d a sc ord => Sys2Proof.Machine.execAtMax ty d a sc ord s
  | .atAnd wide d a sc ord => Sys2Proof.Machine.execAtAnd wide d a sc ord s
  | .atOr wide d a sc ord => Sys2Proof.Machine.execAtOr wide d a sc ord s
  | .atXor wide d a sc ord => Sys2Proof.Machine.execAtXor wide d a sc ord s
  | .atXchg wide d a sc ord => Sys2Proof.Machine.execAtXchg wide d a sc ord s
  | .atCas wide d a sc ord => Sys2Proof.Machine.execAtCas wide d a sc ord s
  | .atSlot wide d a sc ord => Sys2Proof.Machine.execAtSlot wide d a sc ord s
  | .synBar reg obj bar => Sys2Proof.Machine.execSynBar reg obj bar s
  | .synArrive reg obj bar => Sys2Proof.Machine.execSynArrive reg obj bar s
  | .synBwait reg obj bar => Sys2Proof.Machine.execSynBwait reg obj bar s
  | .synFence sc kind => Sys2Proof.Machine.execSynFence sc kind s
  | .synWaitc loads stores tiles => Sys2Proof.Machine.execSynWaitc loads stores tiles s
  | .synWaitcmp wide ne d a b => Sys2Proof.Machine.execSynWaitcmp wide ne d a b s
  | .synSigadd sc d a b => Sys2Proof.Machine.execSynSigadd sc d a b s
  | .synSigwait sc d a b => Sys2Proof.Machine.execSynSigwait sc d a b s
  | .wqPush d a b => Sys2Proof.Machine.execWqPush d a b s
  | .wqPop d a b => Sys2Proof.Machine.execWqPop d a b s
  | .wqTrypop d a b => Sys2Proof.Machine.execWqTrypop d a b s
  | .wqLaunch d a b => Sys2Proof.Machine.execWqLaunch d a b s
  | .tlSetfmt a => Sys2Proof.Machine.execTlSetfmt a s
  | .tlDrain d a => Sys2Proof.Machine.execTlDrain d a s
  | .tlZero d => Sys2Proof.Machine.execTlZero d s
  | .tlLoad d a => Sys2Proof.Machine.execTlLoad d a s
  | .tlMma reuse kc kn d a b => Sys2Proof.Machine.execTlMma reuse kc kn d a b s
  | .cpyG2s d a b => Sys2Proof.Machine.execCpyG2s d a b s
  | .cpyS2g d a b => Sys2Proof.Machine.execCpyS2g d a b s
  | .cpyG2g d a b => Sys2Proof.Machine.execCpyG2g d a b s
  | .cpyBatch d a => Sys2Proof.Machine.execCpyBatch d a s
  | .cpyWait a => Sys2Proof.Machine.execCpyWait a s
  | .cpyBind d a b => Sys2Proof.Machine.execCpyBind d a b s
  | .cpyUnbind a => Sys2Proof.Machine.execCpyUnbind a s
  | .kvGather d a b => Sys2Proof.Machine.execKvGather d a b s
  | .kvAppend a b => Sys2Proof.Machine.execKvAppend a b s
  | .kvFork d a => Sys2Proof.Machine.execKvFork d a s
  | .kvDrop a => Sys2Proof.Machine.execKvDrop a s
  | .xfRunTranspose a b => Sys2Proof.Machine.execXfRunTranspose a b s
  | .xfRunRequant a b => Sys2Proof.Machine.execXfRunRequant a b s
  | .xfRunCompact a b => Sys2Proof.Machine.execXfRunCompact a b s
  | .xfRunExpand a b => Sys2Proof.Machine.execXfRunExpand a b s
  | .xfCancel a => Sys2Proof.Machine.execXfCancel a s
  | .lkAcq d a tryOnly lvl mode => Sys2Proof.Machine.execLkAcq d a tryOnly lvl mode s
  | .lkRel a lvl mode => Sys2Proof.Machine.execLkRel a lvl mode s
  | .lkRelall => Sys2Proof.Machine.execLkRelall s
  | .lkEsc d a lvl mode => Sys2Proof.Machine.execLkEsc d a lvl mode s
  | .lkQuery d a lvl => Sys2Proof.Machine.execLkQuery d a lvl s
  | .exAcq d a tryOnly => Sys2Proof.Machine.execExAcq d a tryOnly s
  | .exRel a => Sys2Proof.Machine.execExRel a s
  | .exHint a => Sys2Proof.Machine.execExHint a s
  | .exStat d a => Sys2Proof.Machine.execExStat d a s
  | .woundTrap => Sys2Proof.Machine.execWoundTrap s
  | .monitorPeriodicFire line => Sys2Proof.Machine.execMonitorPeriodicFire line s
  | .fragmentMerge cid one two => Sys2Proof.Machine.execFragmentMerge cid one two s
  | .fragmentRefill core => Sys2Proof.Machine.execFragmentRefill core s
  | .loadComplete op => Sys2Proof.Machine.execLoadComplete op s
  | .storePerformed op => Sys2Proof.Machine.execStorePerformed op s
  | .tileOperationComplete op => Sys2Proof.Machine.execTileOperationComplete op s
  | .copyComplete op => Sys2Proof.Machine.execCopyComplete op s
  | .xfRunComplete op => Sys2Proof.Machine.execXfRunComplete op s
  | .gatherComplete op => Sys2Proof.Machine.execGatherComplete op s
  | .engineOperationFault op => Sys2Proof.Machine.execEngineOperationFault op s
  | .pageWalkStart island ctx unit => Sys2Proof.Machine.execPageWalkStart island ctx unit s
  | .pageWalkComplete island ctx unit => Sys2Proof.Machine.execPageWalkComplete island ctx unit s
  | .faultRecordWrite core => Sys2Proof.Machine.execFaultRecordWrite core s
  | .predecessorRead queue => Sys2Proof.Machine.execPredecessorRead queue s
  | .splitChange core queue => Sys2Proof.Machine.execSplitChange core queue s
  | .wallPlace queue core => Sys2Proof.Machine.execWallPlace queue core s
  | .courseDrain cid => Sys2Proof.Machine.execCourseDrain cid s
  | .preemption part queue => Sys2Proof.Machine.execPreemption part queue s
  | .contextRestore part => Sys2Proof.Machine.execContextRestore part s
  | .watchdogExpiry age => Sys2Proof.Machine.execWatchdogExpiry age s
  | .woundGraceExpiry age => Sys2Proof.Machine.execWoundGraceExpiry age s
  | .expertFetchStart ctx id => Sys2Proof.Machine.execExpertFetchStart ctx id s
  | .expertFetchComplete ctx id ok => Sys2Proof.Machine.execExpertFetchComplete ctx id ok s
  | .writeApply write island => Sys2Proof.Machine.execWriteApply write island s
  | .lineWriteBack line => Sys2Proof.Machine.execLineWriteBack line s
  | .memoryErrorUncorrectable line ctx => Sys2Proof.Machine.execMemoryErrorUncorrectable line ctx s
  | .correctedError site => Sys2Proof.Machine.execCorrectedError site s
  | .postedReductionAck op => Sys2Proof.Machine.execPostedReductionAck op s
  | .outerStraitAtomic op pa x y => Sys2Proof.Machine.execOuterStraitAtomic op pa x y s
  | .cxlBackInvalidation line => Sys2Proof.Machine.execCxlBackInvalidation line s
  | .hostRead pa len => Sys2Proof.Machine.execHostRead pa len s
  | .hostWrite pa bytes => Sys2Proof.Machine.execHostWrite pa bytes s
  | .queueWindowStage port queue off bytes => Sys2Proof.Machine.execQueueWindowStage port queue off bytes s
  | .queueWindowPush port queue => Sys2Proof.Machine.execQueueWindowPush port queue s
  | .statusWrite value => Sys2Proof.Machine.execStatusWrite value s
  | .eventCounterClear n => Sys2Proof.Machine.execEventCounterClear n s
  | .registerWrite off value => Sys2Proof.Machine.execRegisterWrite off value s
  | .ctxCreate => Sys2Proof.Machine.execCtxCreate s
  | .ctxDestroy => Sys2Proof.Machine.execCtxDestroy s
  | .queueConfig => Sys2Proof.Machine.execQueueConfig s
  | .ertWrite => Sys2Proof.Machine.execErtWrite s
  | .invalidate => Sys2Proof.Machine.execInvalidate s
  | .repair => Sys2Proof.Machine.execRepair s
  | .irqBind => Sys2Proof.Machine.execIrqBind s
  | .window => Sys2Proof.Machine.execWindow s
  | .partSet => Sys2Proof.Machine.execPartSet s
  | .flash => Sys2Proof.Machine.execFlash s
  | .policy => Sys2Proof.Machine.execPolicy s
  | .getVersion port => Sys2Proof.Machine.execGetVersion port s
  | .getCapabilities port => Sys2Proof.Machine.execGetCapabilities port s
  | .negotiateAlgorithms port hash384 brainpool384 => Sys2Proof.Machine.execNegotiateAlgorithms port hash384 brainpool384 s
  | .getDigests port => Sys2Proof.Machine.execGetDigests port s
  | .getCertificate port slot off len => Sys2Proof.Machine.execGetCertificate port slot off len s
  | .challenge port nonce => Sys2Proof.Machine.execChallenge port nonce s
  | .getMeasurements port nonce => Sys2Proof.Machine.execGetMeasurements port nonce s
  | .unsupportedRequest port code => Sys2Proof.Machine.execUnsupportedRequest port code s
  | .powerOnReset wellFormedImage => Sys2Proof.Machine.execPowerOnReset wellFormedImage s
  | .firmwareBringUp => Sys2Proof.Machine.execFirmwareBringUp s
  | .functionLevelReset port => Sys2Proof.Machine.execFunctionLevelReset port s
  | .portLinkTraining port cxl => Sys2Proof.Machine.execPortLinkTraining port cxl s
  | .illegalInstruction word => Sys2Proof.Machine.execIllegalInstruction word s
  | .instructionFetchFault => Sys2Proof.Machine.execInstructionFetchFault s
  | .unknownCommand => Sys2Proof.Machine.execUnknownCommand s
  | .portLinkDown port => Sys2Proof.Machine.execPortLinkDown port s
  | .outerStraitAccess write pa bytes len => Sys2Proof.Machine.execOuterStraitAccess write pa bytes len s
  | .packageCapped => Sys2Proof.Machine.execPackageCapped s

end Sys2Proof.Machine
end

