-- ==== Sys2Proof/Machine/Sched.lean ====
section
/-!
DEFINITION. What runs next (log 1): waits that end (R85), the choice among a quadrant's fragments (R104, R105), the word a
fragment issues (R124, R358, R414), and the order in which events happen where the schedule names none.
-/

namespace Sys2Proof.Machine

/-! Waits that end. -/

/-- An operation for which a later access of its course need not wait any more: gone, or with every write in its place. -/
def State.opPast (s : State) (id : Nat) : Bool :=
  match s.op? id with
  | none => true
  | some o => (match o.work with
      | .store => true
      | _ => false) && s.stores.all fun w => w.op != id

/-- The sibling that has entered a wait other than this tile wait, so that the waiting fragment traps (R102): the first by serial
in the fragment table. -/
def Course.strayed (c : Course) (serial : Nat) (f : Frag) : Option Nat :=
  (c.frags.find? fun p => p.1 != serial && match p.2.state with
    | .waiting .tile .siblings => p.2.pc != f.pc
    | .waiting _ _ => true
    | _ => false).map fun p => p.1

/-- Nothing is left for a fragment that waits for its siblings to wait for (R102). -/
def Course.siblingsDone (c : Course) (serial : Nat) (f : Frag) : Bool :=
  (c.frags.all fun p => p.1 == serial) || (c.strayed serial f).isSome

/-- The condition of a wait holds. What other operations wake is not looked at here. -/
def State.waitOver (s : State) (c : Course) (serial : Nat) (f : Frag) : Until → Bool
  | .phase off token _ => match s.wall? c.age with
    | some w => (s.barObject w (islandOf c.core) off).2.2 != token
    | none => false
  | .siblings => c.siblingsDone serial f
  | .counters l t z => c.ldc ≤ l && c.stc ≤ t && c.tlc ≤ z
  | .clocks v => (List.range 4).all fun i => (List.range 4).all fun j => v.getD j 0 ≤ s.clockOf i j
  | .entry core seq => !((s.core core).side.any fun x => x.seq == seq)
  | .batches n => !(c.batches.any fun b => b.n ≤ n)
  | .batchRoom => c.batches.length < 64
  | .pinRoom k ctx pages => (s.pinAll k ctx pages).isSome
  | .ops ids => ids.all s.opPast
  | .wallBarrier _ | .joined | .fired | .pushed _ => false

/-- What a walk found is still there. -/
def State.stillFaults (s : State) (c : Course) (o : XOut) : Bool :=
  match s.walk (islandOf c.core) c.ctx (o.unit * 65536) o.write o.fetch with
  | .fault code level => code == o.code && level == o.level
  | .violation => o.code == 0x0C
  | _ => false

/-- A fragment whose wait is over is READY; a word that was done but for the wait is complete (R85, R274), and
fragments that a barrier object releases stay apart (log 102). One that unwritten
fault records hold back translates again once a page that it lacked is there (R356, R364). -/
def State.wakeFrag (s : State) (c : Course) (serial : Nat) (f : Frag) : Frag :=
  match f.state with
  | .waiting _ u =>
    if c.resident && s.waitOver c serial f u then
      (match u with
        | .phase _ _ true => (f.goTo (f.pc + 4)).wake s.clock
        | .siblings => { f.wake s.clock with diverged := c.strayed serial f }
        | _ => f.wake s.clock)
    else f
  | _ => if f.held then { f with outcomes := f.outcomes.filter (s.stillFaults c) } else f

/-- The barrier object of a fragment has completed its phase, which sets the watchdog of its wall to 0 (R109). -/
def State.phaseDone (s : State) (c : Course) (serial : Nat) (f : Frag) : Bool :=
  match f.state with
  | .waiting _ (.phase off token d) => c.resident && s.waitOver c serial f (.phase off token d)
  | _ => false

def State.wakeAll (s : State) : State :=
  let kicked := (s.courses.filter fun p => p.2.frags.any fun q => s.phaseDone p.2 q.1 q.2).map fun p => p.2.age
  let t : State := { s with courses := s.courses.map fun (p : Nat × Course) =>
    (p.1, { p.2 with frags := p.2.frags.map fun q => (q.1, s.wakeFrag p.2 q.1 q.2) }) }
  (kicked.foldl State.kick t).lateNotices

/-! Fetch. -/

/-- What fetching at a fragment's pc meets. -/
inductive FetchEnd where
  | miss
  | fails
  | marked (line : Nat)
  | word (w : Word)
  deriving DecidableEq, Repr

def State.fetch (s : State) (c : Course) (f : Frag) : FetchEnd :=
  match s.fetchLookup c f with
  | .miss => .miss
  | .fault _ _ | .violation => .fails
  | .marked line => .marked line
  | .ok l =>
    let loc := s.leafLoc l f.pc.toNat
    match s.markedIn [loc] with
    | some line => .marked line
    | none => .word (BitVec.ofNat 32 (s.viewNat (islandOf c.core) l.efmt loc 4))

/-! Eligible fragments (R104). -/

/-- An outstanding load or atomic that writes a register which an instruction of the fragment names. -/
def State.operandPending (s : State) (r : FragRef) (c : Course) (f : Frag) (i : Instr) : Bool :=
  let vs := i.operands.filterMap fun o => (o.vregs c.width).map fun p => (c.wv + p.1, p.2)
  let ss := i.operands.filterMap fun o => o.sregs.map fun p => (c.ws + p.1 - 0x40, p.2)
  s.ops.any fun p => p.2.uid == r.uid && match p.2.work with
    | .load (.vector reg size) lanes .. => lanes &&& f.lanes != 0 && overlaps vs [(reg, (size + 3) / 4)]
    | .load (.scalar reg) .. => overlaps ss [(reg, 1)]
    | .atomic _ size (.vector reg _) ls ps =>
      (ls ++ ps).any (fun l => f.lanes.getLsbD l.lane) && overlaps vs [(reg, (size + 3) / 4)]
    | .atomic _ _ (.scalar reg) _ _ => overlaps ss [(reg, 1)]
    | _ => false

/-- The outstanding counter that an instruction raises stands at 1,023 (R250). -/
def counterFull (c : Course) : Instr → Bool
  | .ldG .. | .ldS .. | .ldC .. | .ldK .. | .ldStk .. | .ldxG .. | .ldxS .. => c.ldc ≥ 1023
  | .stG .. | .stS .. | .stK .. | .stStk .. | .stxG .. | .stxS .. | .synSigadd .. => c.stc ≥ 1023
  | .atAdd .. | .atMin .. | .atMax .. | .atFadd .. | .atAnd .. | .atOr .. | .atXor .. | .atXchg .. | .atSlot .. | .atCas .. =>
    c.ldc ≥ 1023 || c.stc ≥ 1023
  | .tlDrain .. | .tlZero .. | .tlLoad .. | .tlMma .. => c.tlc ≥ 1023
  | _ => false

def Work.isTile (w : Work) : Bool := !w.tiles.isEmpty

/-- Operations of a kind in a core's engine queue, without those of a saved context, those that a fault has stopped, which have
left it, and those that only wait to complete behind one (R367). -/
def State.queued (s : State) (core : Nat) (kind : Work → Bool) : Nat :=
  (s.ops.filter fun p => p.2.core == core && kind p.2.work && s.engineRuns p.2 && !p.2.stopped && !p.2.work.spent).length

/-- The engine's queue of the core is full (R290, R315, R322, R387). -/
def State.queueFull (s : State) (core : Nat) : Instr → Bool
  | .tlDrain .. | .tlZero .. | .tlLoad .. | .tlMma .. => s.queued core Work.isTile ≥ 32
  | .cpyG2s .. | .cpyS2g .. | .cpyG2g .. => s.queued core Work.isCopy ≥ 128
  | .xfRunTranspose .. | .xfRunRequant .. | .xfRunCompact .. | .xfRunExpand .. =>
    s.queued core (fun w => w.engineKind == 2) ≥ 16
  | .kvGather .. => s.queued core (fun w => w.engineKind == 1) ≥ 32
  | _ => false

/-- What a fragment does when it issues. -/
inductive Move where
  | wound
  | fetch
  | fetchFails
  | marked (line : Nat)
  | illegal (w : Word)
  | run (i : Instr)
  deriving DecidableEq, Repr

def State.nextMove (s : State) (c : Course) (f : Frag) : Move :=
  if f.mark.isSome && !f.handler then .wound else
  match s.fetch c f with
  | .miss => .fetch
  | .fails => .fetchFails
  | .marked line => .marked line
  | .word w => match decode w with
    | .ok i => .run i
    | .error _ => .illegal w

/-- The issuing fragment makes its move. -/
def State.runMove (s : State) (c : Course) (f : Frag) : Out :=
  match s.nextMove c f with
  | .wound => exec .woundTrap s
  | .fetchFails => exec .instructionFetchFault s
  | .marked line => exec (.memoryErrorUncorrectable line c.ctx) s
  | .illegal w => exec (.illegalInstruction w) s
  | .run i => exec i s
  | .fetch => s.act fun s => match s.issuer? with
    | some e => s.await' e [f.pc.toNat / 65536] false true
    | none => s

/-- A fragment that unwritten fault records have held back would be held back again (R364). -/
def State.stillHeld (s : State) (r : FragRef) (c : Course) (f : Frag) : Bool :=
  f.held && match State.runMove { s with issuing := some r } c f with
    | .next t => match t.frag? r with
      | some g => g.held && g.pc == f.pc && g.state == .ready && g.missing.isEmpty && g.crowd.isEmpty
      | none => false
    | _ => false

/-- A merge table has no room for the units for which a fragment found it full (R355). -/
def State.crowded (s : State) (c : Course) (f : Frag) : Bool :=
  let tab := (s.island (islandOf c.core)).merge
  !f.crowd.isEmpty && decide (1024 < tab.length + (f.crowd.filter fun u => !(tab.any fun m => m.ctx == c.ctx && m.unit == u)).length)

/-- The fragment may be chosen to issue. -/
def State.eligible (s : State) (r : FragRef) (c : Course) (f : Frag) : Bool :=
  f.state == .ready && !f.spilled && c.resident && f.missing.isEmpty && !s.crowded c f
    && !(c.frags.any fun q => q.2.pending != 0) && !s.ownPending r && (match s.nextMove c f with
      | .run i => !s.operandPending r c f i && !counterFull c i && !s.queueFull c.core i
      | _ => true) && !s.stillHeld r c f

/-! The choice of a quadrant (R104, R105). -/

/-- An eligible fragment of a quadrant. -/
structure Ready where
  r : FragRef
  c : Course
  f : Frag
  prio : Nat
  deriving DecidableEq, Repr

def quadOf (slot : Nat) : Nat := slot / 12

/-- The eligible fragments of a quadrant. -/
def State.quadReady (s : State) (core quad : Nat) : List Ready :=
  (s.courses.filter fun p => p.2.core == core && quadOf p.2.slot == quad).flatMap fun p =>
    (p.2.frags.filter fun q => s.eligible ⟨p.1, q.1⟩ p.2 q.2).map fun q =>
      { r := ⟨p.1, q.1⟩, c := p.2, f := q.2, prio := ((s.wall? p.2.age).map fun w => w.prio).getD 7 }

/-- Step 1 of R104: the other course of the pair holds the token and has an eligible fragment. -/
def outranked (es : List Ready) (x : Ready) : Bool :=
  es.any fun y => y.c.slot != x.c.slot && y.c.slot / 2 == x.c.slot / 2 && y.c.token

/-- Steps 2 and 3 of R104. -/
def Ready.before (a b : Ready) : Bool :=
  if a.prio != b.prio then a.prio < b.prio
  else if a.c.age != b.c.age then a.c.age < b.c.age
  else if a.c.index != b.c.index then a.c.index < b.c.index
  else a.f.readyTime < b.f.readyTime

/-- The bound of R105 on the slots that a fragment stays eligible without issuing. -/
def fairBound (es : List Ready) : Nat := max 64 es.length

/-- The order of R104: those that step 1 leaves, then those that it holds back, which only R105 can have chosen. Of two fragments of
one course with equal READY time the one with the lower serial goes first, as the sort is stable, which R104 leaves open
(log 74). -/
def Ready.order (es : List Ready) : List Ready :=
  sortBy Ready.before (es.filter fun x => !outranked es x) ++ sortBy Ready.before (es.filter (outranked es))

def Ready.byPassed (es : List Ready) : List Ready := sortBy (fun (a b : Ready) => b.f.passed < a.f.passed) es

/-- With this slot given to x, the slots after it can keep the bound of R105 for all the others: the one passed over most often
takes the next slot, and so on (log 97). -/
def fits (es : List Ready) (x : Ready) : Bool :=
  let others := Ready.byPassed (es.filter fun y => y.r != x.r)
  ((List.range others.length).zip others).all fun p => p.2.f.passed + p.1 + 2 ≤ fairBound es

/-- The fragment that a quadrant issues: the first in the order of R104 that lets the bound of R105 be kept; where none does, the one
passed over most often. -/
def choose (es : List Ready) : Option Ready :=
  let os := Ready.order es
  (os.find? (fits es)).orElse fun _ => (Ready.byPassed os).head?

/-- The count of R105 of a fragment after a slot in which `r` issued. -/
def Frag.count (f : Frag) (es : List Ready) (me r : FragRef) : Frag :=
  let waits := es.any fun x => x.r == me
  { f with passed := if waits && r != me then f.passed + 1 else 0 }

/-- The counts of R105 after a slot of a quadrant. -/
def State.countSlot (s : State) (core quad : Nat) (es : List Ready) (r : FragRef) : State :=
  { s with courses := s.courses.map fun (p : Nat × Course) =>
      if p.2.core == core && quadOf p.2.slot == quad then
        (p.1, { p.2 with frags := p.2.frags.map fun (q : Nat × Frag) => (q.1, q.2.count es ⟨p.1, q.1⟩ r) })
      else p }

/-- An issue slot of a quadrant. In a slot without an eligible fragment none stays eligible (R105). -/
def State.issueAt (s : State) (core quad : Nat) : Out :=
  let es := s.quadReady core quad
  match choose es with
  | none => s.act fun s => s.countSlot core quad es ⟨0, 0⟩
  | some x =>
    let t := { s.countSlot core quad es x.r with issuing := some x.r }
    t.runMove x.c x.f

/-! The default order. -/

/-- The command that runs, where it can go on (R467). -/
def State.commandEvent (s : State) : Option Instr :=
  match s.running with
  | none => none
  | some ds =>
    match (ds.getD 0 0).toNat with
    | 1 => some .ctxCreate
    | 2 => some .ctxDestroy
    | 3 => some .queueConfig
    | 4 => some .ertWrite
    | 5 =>
      let n := (ds.getD 1 0).toNat
      let hit := fun (va size : Nat) => pageHits va size (ds.getD 2 0).toNat (ds.getD 3 0).toNat
      let cached := (s.cores.any fun p => p.2.tlb.any fun e => e.ctx == n && hit e.va e.size)
        || s.islands.any fun p => p.2.l2.any fun e => e.ctx == n && hit e.va e.size
      let pinned := s.islands.any fun p => p.2.pins.any fun e => e.ctx == n && hit e.vpage e.size
      if cached || !(pinned || s.laneOps n) then some .invalidate else none
    | 6 =>
      let n := (ds.getD 1 0).toNat
      if s.ready && (s.ctx? n).isSome && s.repairHeld (s.repairId n (ds.getD 2 0).toNat).1 then none else some .repair
    | 7 => some .irqBind
    | 8 => some .window
    | 9 => some .partSet
    | 10 => some .flash
    | 11 => some .policy
    | _ => some .unknownCommand

/-- A write that an island can take. -/
def State.writeEvent (s : State) : Option Instr :=
  ((s.writes.findSome? fun w => ((List.range 4).find? fun k => s.mayApply k w).map fun k => Instr.writeApply w.id k)).orElse
    fun _ => (s.stores.find? fun w => s.mayOriginate w).map fun w => Instr.writeApply w.id w.origin

/-- The completion of an operation that is ready for it. -/
def State.opEvent (s : State) (id : Nat) (o : Op) : Option Instr :=
  match o.work with
  | .load .. | .atomic .. => if s.loadReady id o then some (.loadComplete id) else none
  | .store => if s.storeReady id o then some (.storePerformed id) else none
  | .posted .. => if s.earlierAccess id o.uid o.work.touches then none else some (.postedReductionAck id)
  | .tlZero .. | .tlLoad .. | .tlMma .. | .tlDrain .. =>
    if s.tileReady id o && ((s.course? o.uid).bind fun c => s.wall? c.age).isSome then some (.tileOperationComplete id) else none
  | .copy .. =>
    if ((s.course? o.uid).bind fun c => if c.resident then s.wall? c.age else none).isSome then some (.copyComplete id) else none
  | .run .. | .gather .. =>
    if !s.engineReady id o then none else
    let e := s.engineGo o false
    match e.fail with
    | none => if o.work.spent && s.behind id o then none
      else some (if o.work.engineKind = 2 then .xfRunComplete id else .gatherComplete id)
    | some (x, _) => if s.engineWaits o e x then none else some (.engineOperationFault id)

/-- A page walk that ends or starts (R355). -/
def State.walkEvent (s : State) : Option Instr :=
  s.islands.findSome? fun p =>
    ((p.2.merge.find? fun m => m.walking).map fun m => Instr.pageWalkComplete p.1 m.ctx m.unit).orElse fun _ =>
      (p.2.merge.head?).map fun m => Instr.pageWalkStart p.1 m.ctx m.unit

/-- Where the dispatcher places the next wall of a partition, or changes a split for it (R32, R39, R79). -/
def State.placeEvent (s : State) (part : Nat) : Option Instr :=
  match s.chosen part with
  | none => none
  | some x =>
    if x.waits then none else
    let cores := (s.part part).cores
    ((cores.find? fun c => s.fitsAt (s.part part) c x.grid.kernel).map fun c => Instr.wallPlace x.queue c).orElse fun _ =>
      (cores.find? fun c => s.mayResplit x c).map fun c => Instr.splitChange c x.queue

/-- What the dispatcher does on a partition. -/
def State.partEvent (s : State) (part : Nat) : Option Instr :=
  ((s.cands part).findSome? fun x => if (s.preempts part x.queue).isSome then some (Instr.preemption part x.queue) else none).orElse
    fun _ => (if (s.restores part).isSome then some (Instr.contextRestore part) else none).orElse
    fun _ => s.placeEvent part

/-- What a pager does (R434, R437). -/
def State.pagerEvent (s : State) (pager : Nat) : Option Instr :=
  ((s.nextFetch pager).map fun x => Instr.expertFetchStart x.ctx x.id).orElse fun _ =>
    s.ctxs.findSome? fun p => (p.2.ert.find? fun (q : Nat × Expert) =>
      q.2.st == 2 && pagerOf q.1 == pager && (s.endFetch p.1 q.1 true).isSome).map fun q => Instr.expertFetchComplete p.1 q.1 true

/-- Timers of walls (R109, R415). -/
def State.timerEvent (s : State) (age : Nat) (w : Wall) : Option Instr :=
  if w.resident && s.policy.watchdog ≤ w.watchdog then some (.watchdogExpiry age)
  else if s.graceOver w then some (.woundGraceExpiry age) else none

/-- The event that happens next where the schedule names none: the first that can happen, in this order. What comes from
outside the device, errors, write-backs and the merges that R96 leaves to the hardware happen only where the schedule names
them. -/
def State.defaultEvent (s : State) : Option Instr :=
  s.commandEvent.orElse fun _ =>
  (if !s.ready && s.started then some .firmwareBringUp else none).orElse fun _ =>
  s.writeEvent.orElse fun _ =>
  (s.ops.findSome? fun p => s.opEvent p.1 p.2).orElse fun _ =>
  s.walkEvent.orElse fun _ =>
  (s.cores.findSome? fun p => if (s.deliver p.1).isSome then some (.faultRecordWrite p.1) else none).orElse fun _ =>
  (s.monitors.findSome? fun m => if s.monitorDue m.line then some (.monitorPeriodicFire m.line) else none).orElse fun _ =>
  (s.courses.findSome? fun p => if s.courseQuiet p.1 p.2 then some (.courseDrain p.1) else none).orElse fun _ =>
  (s.walls.findSome? fun p => s.timerEvent p.1 p.2).orElse fun _ =>
  (s.courses.findSome? fun p => if p.2.resident then (s.refillCourse p.1 p.2).map fun _ => .fragmentRefill p.2.core else none).orElse
    fun _ =>
  ((List.range 4).findSome? s.pagerEvent).orElse fun _ =>
  (s.queues.findSome? fun p => (s.headStep p.1).map fun _ => .predecessorRead p.1).orElse fun _ =>
  (List.range 8).findSome? s.partEvent

/-- The quadrants with an eligible fragment, in turn by the step counter. -/
def State.defaultQuad (s : State) : Option (Nat × Nat) :=
  let qs := dedup (s.courses.map fun p => (p.2.core, quadOf p.2.slot))
  let live := qs.filter fun q => !(s.quadReady q.1 q.2).isEmpty
  live[s.steps % live.length]?

end Sys2Proof.Machine
end

