-- ==== Sys2Proof/Machine/Step.lean ====
section
/-!
DEFINITION. One step of the machine: waits that are over end, then one move is made — the schedule's next, or else the first
event that can happen, or else an issue slot — and a cycle passes (log 1). Last, `withFetchWord` places one instruction where
the next step issues it.
-/

namespace Sys2Proof.Machine

/-- Whether a schedule may name an event: the words and the traps in place of a word belong to an issue slot. -/
def schedulable (i : Instr) : Bool :=
  !i.isWord && match i with
    | .woundTrap | .illegalInstruction _ | .instructionFetchFault => false
    | _ => true

/-- The state in which a step makes its move. -/
def State.begin (s : State) : State := { s.wakeAll with steps := s.steps + 1, issuing := none }

/-- The move of a step. An error that an access has found is reported next, and a wall's watchdog expires at the latest 1,024
counted cycles past the budget, whatever the schedule names (R109, R449). -/
def State.move (s : State) : Out :=
  match s.overdue with
  | some i => exec i s
  | none =>
  match s.sched with
  | .progress op :: rest => State.act { s with sched := rest } fun s => s.engineStep op
  | .event i :: rest => if schedulable i then exec i { s with sched := rest } else State.act { s with sched := rest } id
  | .issue core quad :: rest => State.issueAt { s with sched := rest } core quad
  | [] =>
    match s.defaultEvent with
    | some i => exec i s
    | none =>
      match s.defaultQuad with
      | some q => s.issueAt q.1 q.2
      | none => s.act id

/-- A move ends: no fragment is ISSUING, and a cycle passes. -/
def State.finish (s : State) : State := { s.tick with issuing := none }

def step (s : State) : Host.Outcome State Fault Refusal :=
  match s.begin.move with
  | .next t => .next t.finish
  | .fault r => .fault r
  | .refused r => .refused r

/-! Placing an instruction. -/

/-- The physical page, virtual address and course of a placed program. -/
def placedPa : Nat := 0x10000
def placedPc : Dword := 0x40000000

/-- A context, a wall of one course of width 16 on core 0, and the translation of its code page. -/
def placedCtx : Ctx :=
  { root := 0, tvec := 0x40000100, spill := 0, fqdesc := 0, report := 0, counters := 0, parts := 1, vec := 0, nexp := 0,
    nframe := 0, framelog := 0, arena := 0 }
def placedWall : Wall :=
  { ctx := 0, grid := 0, index := 0, prio := 7, part := 0, core := 0, twin := false, courses := 1, width := 16, cap := 256,
    ztiles := 8, win := 65536 }
def placedFrag : Frag := { pc := placedPc, lanes := 0xFFFF, reserved := true }
def placedCourse : Course :=
  { core := 0, slot := 0, gen := 0, age := 0, ctx := 0, grid := 0, index := 0, width := 16, cap := 256, entry := placedPc,
    stack := 0, tvec := 0x40000100, frags := [(0, placedFrag)] }
def placedTlb : Tlb := { ctx := 0, va := 0x40000000, size := 65536, loc := placedPa, w := true, x := true, efmt := 31 }

/-- The state with an instruction where the next step issues it: a device that is ready, with the placed course alone on core
0, whose next issue slot comes first (log 15). -/
def State.withFetchWord (s : State) (_nbits w : Nat) : State :=
  { s with
    sched := [.issue 0 0], ready := true, ctxs := [(0, placedCtx)], walls := [(0, placedWall)], courses := [(0, placedCourse)],
    ops := [], stores := [], writes := [], lineTag := [], marks := [], found := [], efmt := [], windows := []
    cores := [(0, { split := 1, tlb := [placedTlb] })]
    mem := retireMem s.mem (cellsAt placedPa (natLe 4 w)) }

end Sys2Proof.Machine
end

