-- ==== Sys2Proof/Safety.lean ====
section
/-!
DEFINITION. What counts as a safe state and a safe run: the invariant that every step keeps.
-/

namespace Sys2Proof.Machine

/-- The oldest write in flight still has an island to reach; a write that every island has applied is plain memory. -/
def headWaits (ws : List Write) : Bool := match ws with
  | [] => true
  | w :: _ => !w.everywhere

/-- The invariant: the under-stack's bytes and the element formats of its lines are in canonical form, no write in flight is one that every island has applied with
nothing before it, and no fragment is ISSUING between steps. -/
structure State.Inv (s : State) : Prop where
  mem : memWf s.mem = true
  fmt : fmtWf s.efmt = true
  writes : headWaits s.writes = true
  idle : s.issuing = none

/-- A run of n steps that meets no fault and no refusal and ends in a state that meets the invariant. -/
def SafeRun (n : Nat) (s : State) : Prop := ∃ t, Host.Core.run Sys2Proof.core n s = .next t ∧ t.Inv

end Sys2Proof.Machine
end

