-- ==== Sys2Proof/Certificates/Slice0/Obligations.lean ====
section
/-!
DEFINITION. The statements for the provers, with the words they are said in. `Issues s i e` says that the fragment of `e`
issues `i` in `s` and that the first checks of every instruction pass; `Gives s i t` says that `exec` answers the next state
`t`, in which writes that every island has applied have become plain memory (`State.settle`, which by `SettleIsInvisible`
changes no byte that an island reads). Where a claim says that `exec` gives a state as a change of `s`, everything the change
does not name is as it was: the claim is its own frame.
-/

namespace Sys2Proof.Claims

open Sys2Proof.Machine

/-- The fragment of `e` is the issuing fragment of `s`, and the checks that come first in every instruction pass for `i`: the
checks at issue of R124, the register cap (R118) and the tiles (R288). -/
structure Issues (s : State) (i : Instr) (e : Env) : Prop where
  issuer : s.issuer? = some e
  width : i.issueLegal e.c.width = true
  cap : capBad i e = none
  tile : tileBad i e.w = none

/-- `exec` answers the next state: the change `t` of `s`, with the writes retired that every island has applied. -/
def Gives (s : State) (i : Instr) (t : State) : Prop := exec i s = .next (s.settle t)

/-- The instruction changes the state as `f` says; nothing else changes. -/
def Runs (s : State) (i : Instr) (e : Env) (f : State → State) : Prop := Issues s i e → Gives s i (f s)

/-- The instruction writes x to sD and goes on at the next word; nothing else changes. -/
def WritesS (s : State) (i : Instr) (e : Env) (d : Reg) (x : Dword) : Prop :=
  Runs s i e fun s => (s.setS e d x).advance e

/-- The instruction writes `g l` to vD of each lane l of F and goes on at the next word; nothing else changes. -/
def WritesV (s : State) (i : Instr) (e : Env) (d : Reg) (g : Nat → Word) : Prop :=
  Runs s i e fun s => (s.putV e d fun l => some (g l)).advance e

/-- The same of the pair vD, vD + 1. -/
def WritesVP (s : State) (i : Instr) (e : Env) (d : Reg) (g : Nat → Dword) : Prop :=
  Runs s i e fun s => (s.putVP e d fun l => some (g l)).advance e

/-- The instruction writes `g l` to qD of each lane l of F and goes on at the next word; nothing else changes. -/
def WritesQ (s : State) (i : Instr) (e : Env) (d : Reg) (g : Nat → Trit) : Prop :=
  Runs s i e fun s => (s.putQ e d.toNat g).advance e

/-! Integer results as the manual's tables give them (R52 to R54). -/

def i64Absent : Dword := 0x8000000000000000
def i32Absent : Word := 0x80000000
def i16Absent : Half := 0x8000

/-- Saturation to a range (R53). -/
def clamp (lo hi x : Int) : Int := max lo (min hi x)

def satI64 (x : Int) : Dword := BitVec.ofInt 64 (clamp (-(2 ^ 63 - 1)) (2 ^ 63 - 1) x)
def satN64 (x : Int) : Dword := BitVec.ofInt 64 (clamp 0 (2 ^ 64 - 2) x)
def satI32 (x : Int) : Word := BitVec.ofInt 32 (clamp (-(2 ^ 31 - 1)) (2 ^ 31 - 1) x)
def satN32 (x : Int) : Word := BitVec.ofInt 32 (clamp 0 (2 ^ 32 - 2) x)
def satI16 (x : Int) : Half := BitVec.ofInt 16 (clamp (-32767) 32767 x)

/-- An operation in i64: an absent operand gives absent (R59), and the exact result saturates. -/
def onI64 (op : Int → Int → Int) (x y : Dword) : Dword :=
  if x = i64Absent ∨ y = i64Absent then i64Absent else satI64 (op x.toInt y.toInt)
def onN64 (op : Int → Int → Int) (x y : Dword) : Dword :=
  if x = BitVec.allOnes 64 ∨ y = BitVec.allOnes 64 then BitVec.allOnes 64 else satN64 (op x.toNat y.toNat)
def onI32 (op : Int → Int → Int) (x y : Word) : Word :=
  if x = i32Absent ∨ y = i32Absent then i32Absent else satI32 (op x.toInt y.toInt)
def onN32 (op : Int → Int → Int) (x y : Word) : Word :=
  if x = BitVec.allOnes 32 ∨ y = BitVec.allOnes 32 then BitVec.allOnes 32 else satN32 (op x.toNat y.toNat)
def onI16 (op : Int → Int → Int) (x y : Half) : Half :=
  if x = i16Absent ∨ y = i16Absent then i16Absent else satI16 (op x.toInt y.toInt)

/-- Element 0 in bits [15:0], element 1 in bits [31:16] (R44). -/
def lo16 (x : Word) : Half := x.extractLsb' 0 16
def hi16 (x : Word) : Half := x.extractLsb' 16 16
def both16 (op : Half → Half → Half) (x y : Word) : Word := op (hi16 x) (hi16 y) ++ op (lo16 x) (lo16 y)

/-- The quotient of R53 in a format with the given range. -/
def quotient (lo hi x y : Int) : Int :=
  if y = 0 then (if 0 < x then hi else if x < 0 then lo else 0) else x.tdiv y

/-- The remainder of R53: x for a division by 0, else x − quotient × y. -/
def remainder (x y : Int) : Int := if y = 0 then x else x - x.tdiv y * y

/-- A comparison of two integers (R58): unknown where either is absent. -/
def compareI (c : ICond) (x y : Option Int) : Trit :=
  match x, y with
  | some a, some b => .ofBool (match c with
    | .eq => a = b
    | .ne => a ≠ b
    | .lt => a < b
    | .le => a ≤ b
    | .gt => b < a
    | .ge => b ≤ a)
  | _, _ => .u

/-- The value of a pattern, none where it is absent (R52). -/
def valI64 (x : Dword) : Option Int := if x = i64Absent then none else some x.toInt
def valN64 (x : Dword) : Option Int := if x = BitVec.allOnes 64 then none else some x.toNat
def valI32 (x : Word) : Option Int := if x = i32Absent then none else some x.toInt
def valN32 (x : Word) : Option Int := if x = BitVec.allOnes 32 then none else some x.toNat

/-- The condition of a two-bit condition field (R121). -/
def cond4 : Cond → ICond
  | .eq => .eq
  | .ne => .ne
  | .lt => .lt
  | .le => .le

/-! The vector forms: one word of a lane in a type (R52 to R54, R214). -/

/-- A typed operation of two operands under i32, n32 or, element by element, i16 (R218). -/
def onVec (ty : VTy) (op : Int → Int → Int) (x y : Word) : Word :=
  match ty with
  | .i32 => onI32 op x y
  | .n32 => onN32 op x y
  | .i16 => both16 (onI16 op) x y
  | .b32 => BitVec.ofInt 32 (op x.toNat y.toNat)

/-- mad (R218): d × a + b, formed exactly and saturated once. -/
def madI32 (d x y : Word) : Word :=
  if d = i32Absent ∨ x = i32Absent ∨ y = i32Absent then i32Absent else satI32 (d.toInt * x.toInt + y.toInt)
def madN32 (d x y : Word) : Word :=
  if d = BitVec.allOnes 32 ∨ x = BitVec.allOnes 32 ∨ y = BitVec.allOnes 32 then BitVec.allOnes 32
  else satN32 (d.toNat * x.toNat + y.toNat)
def madI16 (d x y : Half) : Half :=
  if d = i16Absent ∨ x = i16Absent ∨ y = i16Absent then i16Absent else satI16 (d.toInt * x.toInt + y.toInt)

/-- abs and neg of an element (R218): exact; absent propagates. -/
def unI32 (op : Int → Int) (x : Word) : Word := if x = i32Absent then i32Absent else BitVec.ofInt 32 (op x.toInt)
def unI16 (op : Int → Int) (x : Half) : Half := if x = i16Absent then i16Absent else BitVec.ofInt 16 (op x.toInt)

/-- The format that an unwritten register of a type supplies (R55). -/
def vecFmt : VTy → Fmt
  | .i32 => .i32
  | .n32 => .n32
  | .b32 => .b32
  | .i16 => .i16
def fltFmt : FTy → Fmt
  | .f32 => .f32
  | .f16 => .f16
  | .bf16 => .bf16

/-- An operation on floating codes: on the word under f32, on each element of a packed type (R214). -/
def onFlt (ty : FTy) (op : Nat → Nat → Nat) (x y : Word) : Word :=
  match ty with
  | .f32 => BitVec.ofNat 32 (op x.toNat y.toNat)
  | _ => BitVec.ofNat 16 (op (hi16 x).toNat (hi16 y).toNat) ++ BitVec.ofNat 16 (op (lo16 x).toNat (lo16 y).toNat)

def onFlt3 (ty : FTy) (op : Nat → Nat → Nat → Nat) (x y z : Word) : Word :=
  match ty with
  | .f32 => BitVec.ofNat 32 (op x.toNat y.toNat z.toNat)
  | _ => BitVec.ofNat 16 (op (hi16 x).toNat (hi16 y).toNat (hi16 z).toNat) ++
      BitVec.ofNat 16 (op (lo16 x).toNat (lo16 y).toNat (lo16 z).toNat)

/-- A comparison of two floating values (R58): unknown where either is absent; a NaN is unequal to everything; the zeros are
equal. -/
def compareF (c : ICond) (x y : Val) : Trit :=
  if x = .absent ∨ y = .absent then .u
  else if x = .nan ∨ y = .nan then .ofBool (c = .ne)
  else .ofBool (match c with
    | .eq => !x.ltNum y && !y.ltNum x
    | .ne => x.ltNum y || y.ltNum x
    | .lt => x.ltNum y
    | .le => !y.ltNum x
    | .gt => y.ltNum x
    | .ge => !x.ltNum y)

/-! One rounding of an exact number (R65, R215). A number is given by the rationals at or below it and those at or above it, so
that a root is given as well as a quotient. -/

/-- ±m × 2^e. -/
def ratOf (neg : Bool) (m : Nat) (e : Int) : Rat := (if neg then -1 else 1) * (m : Rat) * (2 : Rat) ^ e

/-- The value of a code, where it is a finite number. -/
def finiteOf (f : Fmt) (c : Nat) : Option Rat :=
  match f.valF c with
  | .fin neg m e => if c < 2 ^ f.bits then some (ratOf neg m e) else none
  | _ => none

/-- The largest finite value of a format. -/
def topOf (f : Fmt) : Rat := (finiteOf f f.maxFinite).getD 0

/-- The code c is the number rounded to the format under a mode: to the nearest finite value, on a tie to the even code; or to
the nearest one below, above, or toward zero. `le r` says that r is at or below the number, `ge r` that it is at or above it. -/
def Rounds (f : Fmt) (mode : RMode) (le ge : Rat → Prop) (c : Nat) : Prop :=
  ∃ y, finiteOf f c = some y ∧
    let down := le y ∧ ∀ c' y', finiteOf f c' = some y' → le y' → y' ≤ y
    let up := ge y ∧ ∀ c' y', finiteOf f c' = some y' → ge y' → y ≤ y'
    match mode with
    | .rn => ∀ c' y', finiteOf f c' = some y' →
        (y < y' → ge ((y + y') / 2) ∧ (le ((y + y') / 2) → c % 2 = 0)) ∧
        (y' < y → le ((y + y') / 2) ∧ (ge ((y + y') / 2) → c % 2 = 0))
    | .rd => down
    | .ru => up
    | .rz => (le 0 → down) ∧ (ge 0 → up)

/-- A finite number as an integer rounded under a mode (R66). -/
def RoundsInt (mode : RMode) (x : Rat) (n : Int) : Prop :=
  let down := (n : Rat) ≤ x ∧ x < n + 1
  let up := (n : Rat) - 1 < x ∧ x ≤ n
  match mode with
  | .rn => 2 * (n : Rat) - 1 ≤ 2 * x ∧ 2 * x ≤ 2 * n + 1 ∧ (2 * x = 2 * n - 1 ∨ 2 * x = 2 * n + 1 → n % 2 = 0)
  | .rd => down
  | .ru => up
  | .rz => (0 ≤ x → down) ∧ (x ≤ 0 → up)

/-- The number of set bits of a word. -/
def countBits (x : Word) : Nat := ((List.range 32).filter fun i => x.getLsbD i).length

/-! Value types (R121, R214). -/

/-- The absent code of an element of a value type (R43, R52). -/
def absentOf : Vt → Nat
  | .i32 => 0x80000000
  | .n32 | .f32 => 0xFFFFFFFF
  | .f16 | .bf16 | .n16 => 0xFFFF
  | .i16 => 0x8000
  | .f64 => 0xFFFFFFFFFFFFFFFF

/-- The absent code of a whole register, or pair, of a value type. -/
def absentReg : Vt → Dword
  | .i32 => 0x80000000
  | .n32 | .f32 => 0xFFFFFFFF
  | .f16 | .bf16 | .n16 => 0xFFFFFFFF
  | .i16 => 0x80008000
  | .f64 => 0xFFFFFFFFFFFFFFFF

/-- The elements of a register: two under a 16-bit type, else one. -/
def elements (vt : Vt) (x : Dword) : List Nat :=
  if vt.packed then [x.toNat % 65536, x.toNat / 65536 % 65536] else [x.toNat]

/-- The register with the given elements. -/
def ofElements (xs : List Nat) : Dword := BitVec.ofNat 64 (xs.getD 0 0 + 65536 * xs.getD 1 0)

/-- The exact sum of row lengths before row r (R237). -/
def rowStart (lens : List Nat) (r : Nat) : Nat := (lens.take r).sum

/-- The integer that a code of an integer type stands for (R52). -/
def intOf (vt : Vt) (x : Nat) : Int :=
  match vt with
  | .i32 => (BitVec.ofNat 32 x).toInt
  | .i16 => (BitVec.ofNat 16 x).toInt
  | _ => x

/-- The code of an integer saturated to an integer type (R53). -/
def codeOf (vt : Vt) (n : Int) : Nat :=
  match vt with
  | .i32 => (satI32 n).toNat
  | .n32 => (satN32 n).toNat
  | .i16 => (satI16 n).toNat
  | _ => (clamp 0 65534 n).toNat

/-- The first of two floating values lies below the second; -0 lies below +0 (R62). -/
def Below (x y : Val) : Prop :=
  match x, y with
  | .inf s, .inf t => s = true ∧ t = false
  | .inf s, .fin _ _ _ => s = true
  | .fin _ _ _, .inf t => t = false
  | .fin s m e, .fin t n d => ratOf s m e < ratOf t n d ∨ (m = 0 ∧ n = 0 ∧ s = true ∧ t = false)
  | _, _ => False

/-- The key of code x lies below that of code y: integers by value; floating values as under R62, with a NaN above all (R236). -/
def KeyBelow (vt : Vt) (x y : Nat) : Prop :=
  if vt.fmt.isFloat then Below (vt.fmt.valF x) (vt.fmt.valF y) ∨ (vt.fmt.valF x ≠ .nan ∧ vt.fmt.valF y = .nan)
  else intOf vt x < intOf vt y

/-- The elements of a segment are codes of the type that are not absent, as the lanes of F hold them. -/
def Kept (vt : Vt) (xs : List (Option Nat)) : Prop := ∀ x, some x ∈ xs → x < 2 ^ vt.fmt.bits ∧ x ≠ absentOf vt

/-- A NaN is written as the canonical one (R47). -/
def canonicalNan (vt : Vt) (x : Nat) : Nat := if vt.fmt.isFloat = true ∧ vt.fmt.valF x = .nan then vt.fmt.nanCode else x

/-- The value register, or pair, of a reduction: the absent code where there is no result, and in element 1 under a 16-bit type
(R234). -/
def resultReg (vt : Vt) (r : Option Nat) : Dword :=
  if vt.packed then ofElements [r.getD (absentOf vt), absentOf vt] else BitVec.ofNat 64 (r.getD (absentOf vt))

/-- Each lane of F receives a value and a count, and the fragment goes on (R234, R235). A lane outside F keeps its registers. -/
def redWrites (e : Env) (vt : Vt) (d : Reg) (g : Nat → Option Nat × Nat) (s : State) : State :=
  (s.updCourse e.r.uid fun c => c.eachLane e.lanes fun l c =>
    let n := BitVec.ofNat 32 (g l).2
    if vt = .f64 then (c.setVP (e.vreg d) l (resultReg vt (g l).1)).setV (e.vreg d + 2) l n
    else (c.setV (e.vreg d) l ((resultReg vt (g l).1).setWidth 32)).setV (e.vreg d + 1) l n).advance e

/-! Control flow (R87, R184 to R193). -/

/-- Where br.t (want TRUE) or br.f (want FALSE) sends a lane whose trit is c (R185). -/
def branchTo (want : Trit) (uk : Uk) (pc target : Dword) (c : Trit) : Dword :=
  if c = .u ∧ uk = .w then pc + 8
  else if (if c = .u then (if uk = .t then Trit.t else .f) else c) = want then target else pc + 4

/-- pc + sign_extend(off) × 4 (R185, R189). -/
def branchTarget {n : Nat} (pc : Dword) (off : BitVec n) : Dword := pc + BitVec.ofInt 64 (4 * off.toInt)

/-- The code address of a word index: in the aligned 16 GiB region of the word that uses it (R188). -/
def codeAddress (pc : Dword) (w : Word) : Dword := BitVec.ofNat 64 (pc.toNat / 2 ^ 34 * 2 ^ 34 + 4 * w.toNat)

/-- The link of a word: bits [33:2] of the next address (R188). -/
def linkWord (pc : Dword) : Word := BitVec.ofNat 32 ((pc + 4).toNat / 4)

/-- Where a per-lane jump sends a lane (R189). -/
def jumpTo (e : Env) (a : Reg) (l : Nat) : Dword :=
  if e.v .n32 a l = BitVec.allOnes 32 then e.pc + 4 else codeAddress e.pc (e.v .n32 a l)

/-- The fragment goes on at `pc` with nothing else changed. -/
def GoesTo (s : State) (i : Instr) (e : Env) (pc : Dword) : Prop := Runs s i e fun s => s.goTo e pc

/-- The course has no load, store, atomic or tile operation outstanding: a release has nothing to wait for (R276). -/
def Quiet (e : Env) : Prop := e.c.ldc = 0 ∧ e.c.stc = 0 ∧ e.c.tlc = 0

/-- The state word of a fragment (R182). -/
def stateWordOf (c : Course) (f : Frag) (issuing : Bool) : Dword :=
  let st := if issuing then (2, 0) else match f.state with
    | .ready => (1, 0)
    | .waiting .barrier _ => (3, 1)
    | .waiting .join _ => (3, 2)
    | .waiting .tile _ => (3, 3)
    | .waiting .counter _ => (3, 4)
    | .waiting .monitor _ => (3, 5)
    | .waiting .queue _ => (3, 6)
    | .waiting .batch _ => (3, 7)
    | .waiting .signal _ => (3, 8)
    | .parked code _ => (4, code)
  BitVec.ofNat 32 ((f.pc - (c.entry &&& ~~~3#64)).toNat / 4) ++ (0 : BitVec 8) ++ BitVec.ofNat 8 (lanesOf f.lanes).length ++
    BitVec.ofNat 8 st.2 ++ (0 : BitVec 3) ++ BitVec.ofBool f.spilled ++ BitVec.ofNat 4 st.1

/-! Accesses of lanes (R245, R248, R252, R258). -/

/-- Bytes of an access size. -/
def bytesOf : MSz → Nat
  | .b16 => 2
  | .b32 => 4
  | .b64 => 8
  | .b128 => 16

/-- The global address of a lane: an absent base makes no access; a scalar base is stepped by lane (R245, R252). -/
def globalOf (e : Env) (a : Reg) (off : BitVec 9) (size l : Nat) : Option Nat :=
  if isS a then
    (if e.sb a = BitVec.allOnes 64 then none
     else some (e.sb a + BitVec.ofNat 64 (l * size) + BitVec.ofInt 64 (off.toInt * size)).toNat)
  else if e.vpb a l = BitVec.allOnes 64 then none
  else some (e.vpb a l + BitVec.ofInt 64 (off.toInt * size)).toNat

/-- The global address of a lane of an indexed form: base + index × size, modulo 2^64 (R248, R258). -/
def indexedOf (e : Env) (a b : Reg) (size l : Nat) : Option Nat :=
  if e.sb a = BitVec.allOnes 64 ∨ e.v .i32 b l = i32Absent then none
  else some (e.sb a + BitVec.ofInt 64 ((e.v .i32 b l).toInt * size)).toNat

/-- The stash offset of a lane, exact (R247, R252). -/
def stashOf (e : Env) (a : Reg) (off : BitVec 9) (size l : Nat) : Option Int :=
  if isS a then
    (if e.sb a = BitVec.allOnes 64 then none else some ((e.sb a).toNat + l * size + off.toInt * size))
  else if e.vb a l = BitVec.allOnes 32 then none else some ((e.vb a l).toNat + off.toInt * size)

def stashIndexedOf (e : Env) (a b : Reg) (size l : Nat) : Option Int :=
  if e.sb a = BitVec.allOnes 64 ∨ e.v .i32 b l = i32Absent then none
  else some ((e.sb a).toNat + (e.v .i32 b l).toInt * size)

/-- The stack slot's address for a lane (R206). -/
def slotOf (s : State) (e : Env) (off : BitVec 9) (l : Nat) : Nat :=
  (BitVec.ofNat 64 (s.stackBase e.c) +
    BitVec.ofInt 64 (((e.f.s1.toInt + off.toInt) * e.c.width + l) * 4)).toNat

/-- The accesses of the lanes that have an address. -/
def accesses (e : Env) (size : Nat) (g : Nat → Option Nat) : List Acc :=
  e.lanes.filterMap fun l => (g l).map fun va => ⟨l, va, size⟩

/-- Lanes without an address receive all ones (R245). -/
def onesFor {α : Type} (e : Env) (size : Nat) (g : Nat → Option α) : Tab (List Byte) :=
  (e.lanes.filter fun l => (g l).isNone).foldl (fun t l => t.set l (List.replicate size 0xFF)) []

/-- Nothing holds the accesses back: no side-log entry of the course overlaps them and every unit translates. -/
def Reaches (s : State) (e : Env) (accs : List Acc) (write : Bool) (ok : Tab Leaf) : Prop :=
  s.sideHit e accs = none ∧ s.plan e accs write = .go ok []

/-- A new operation of the fragment's course. -/
def newOp (e : Env) (w : Work) : Op := { uid := e.r.uid, ctx := e.c.ctx, core := e.c.core, work := w }

/-- An outstanding load: a new operation with the pieces of each lane's access, and LDC one higher. -/
def loadOp (e : Env) (dst : Dest) (got : Tab (List Byte)) (accs : List Acc) (ok : Tab Leaf) (const : Bool) (s : State) : State :=
  (s.addOp (newOp e (.load dst (maskOf (got.map (fun p => p.1) ++ accs.map fun a => a.lane)) (accs.flatMap (s.pieces ok)) got
    const))).addLdc e.r.uid true

/-- The same, and the fragment goes on at the next word. -/
def startsLoad (e : Env) (dst : Dest) (got : Tab (List Byte)) (accs : List Acc) (ok : Tab Leaf) (const : Bool) (s : State) :
    State :=
  (loadOp e dst got accs ok const s).advance e

/-- An outstanding store: a new operation, STC one higher, its writes to memory queued as atomic units (R333), and its stash
bytes written. -/
def storeOp (e : Env) (row : Bool) (stash : List (Nat × Byte)) (accs : List StAcc) (ok : Tab Leaf) (s : State) : State :=
  ((((s.addOp (newOp e .store)).addStc e.r.uid true).queueWrites e
      s.nextOp (atomicUnits row (accs.map fun a => (a.acc.va, cellsOfPieces (s.pieces ok a.acc) a.data)))).stashWrite
        e.c.age e.island stash e.r.uid s.nextOp)

/-- The same, and the fragment goes on at the next word. -/
def startsStore (e : Env) (row : Bool) (stash : List (Nat × Byte)) (accs : List StAcc) (ok : Tab Leaf) (s : State) : State :=
  (storeOp e row stash accs ok s).advance e

/-- The instruction is held back by records that are not written yet (R364). -/
def heldBack (e : Env) (s : State) : State :=
  (s.raise e.c.ctx .faultqFull).updFrag e.r fun f => { f with held := true }

/-- The stores of the lanes that have an address. -/
def stores (e : Env) (d : Reg) (size : Nat) (g : Nat → Option Nat) : List StAcc :=
  e.lanes.filterMap fun l => (g l).map fun va => ⟨⟨l, va, size⟩, e.dataBytes d size l⟩

/-- Every byte of a lane's access lies in the stash window. -/
def inWindow (e : Env) (size : Nat) (g : Nat → Option Int) : Prop :=
  ∀ l ∈ e.lanes, ∀ o, g l = some o → 0 ≤ o ∧ o + size ≤ e.w.window

/-- The stash offsets that the lanes of F access. -/
def offsetsOf (e : Env) (size : Nat) (g : Nat → Option Int) : List Nat :=
  e.lanes.flatMap fun l => match g l with
    | some o => (List.range size).map fun j => o.toNat + j
    | none => []

/-- The offsets outside the window that the lanes of F name. -/
def outsideWindow (e : Env) (size : Nat) (g : Nat → Option Int) : List Int :=
  e.lanes.flatMap fun l => match g l with
    | some o => ((List.range size).map fun (j : Nat) => o + (j : Int)).filter fun x => x < 0 ∨ (e.w.window : Int) ≤ x
    | none => []

/-- The lanes of F that name such an offset. -/
def lanesOutside (e : Env) (size : Nat) (g : Nat → Option Int) : Dword :=
  maskOf (e.lanes.filter fun l => match g l with
    | some o => o < 0 ∨ (e.w.window : Int) < o + size
    | none => False)

/-- The least element of a list of offsets. -/
def Least (x : Int) (xs : List Int) : Prop := x ∈ xs ∧ ∀ y ∈ xs, x ≤ y

/-- An access to stash offsets goes on, in the state u: no line is bound, or the global lines that the offsets name wait for no
side-log entry and no operation of the course, reach something and are not marked, and they are filled (R262, R330, R345, R473,
R485). -/
def StashOpen (s : State) (e : Env) (offs : List Nat) (u : State) : Prop :=
  let b := e.w.boundVas offs
  let locs := b.map fun p => s.place p.2
  (e.w.regions = [] ∧ u = s) ∨
    (e.w.regions ≠ [] ∧ s.sideAt e (fun va => b.any fun p => p.1 == va) = none ∧ (∀ p ∈ b, s.mapped p.2 = true) ∧
      s.courseBusy e.r.uid locs = [] ∧ s.markedIn locs = none ∧ u = s.updWall e.c.age fun w => w.touch offs)

/-- The bytes that lanes load from stash. -/
def stashLoads (s : State) (e : Env) (size : Nat) (g : Nat → Option Int) : Tab (List Byte) :=
  (e.lanes.filter fun l => (g l).isNone).foldl (fun t l => t.set l (List.replicate size 0xFF))
    ((e.lanes.filterMap fun l => (g l).map fun o => (l, o)).foldl
      (fun t p => t.set p.1 (s.stashBytes e.w e.island p.2.toNat size)) [])

/-- The bytes that lanes store to stash, a later lane's after an earlier one's. -/
def stashStores (e : Env) (d : Reg) (size : Nat) (g : Nat → Option Int) : List (Nat × Byte) :=
  e.lanes.flatMap fun l => match g l with
    | some o => cellsAt o.toNat (e.dataBytes d size l)
    | none => []

/-! Atomics (R264 to R270) and synchronisation (R271 to R282). -/

/-- The formats of at.add, min and max. -/
def addFmt : AtTy → Fmt
  | .i32 => .i32 | .i64 => .i64 | .n32 => .n32 | .n64 => .n64 | .b32 => .b32 | .b64 => .b64
def minFmt : AtMm → Fmt
  | .i32 => .i32 | .i64 => .i64 | .n32 => .n32 | .n64 => .n64 | .f32 => .f32 | .f64 => .f64

/-- The lanes of an atomic that access memory, with operand and address: neither the address nor a typed operand is absent. -/
def atomicLanes (e : Env) (op : AtOp) (size : Nat) (d a : Reg) : List (Acc × Nat × Nat) :=
  e.lanes.filterMap fun l =>
    if op.isAbsent size (e.atomicOperands op size d l).1 then none
    else if (if isS a then e.sb a else e.vpb a l) = BitVec.allOnes 64 then none
    else some (⟨l, (if isS a then e.sb a else e.vpb a l).toNat, if op = .slot then 2 * size else size⟩,
      e.atomicOperands op size d l)

/-- What lanes without an access receive at once (R265): all ones for an absent address, the absent code for an absent operand. -/
def atomicAbsent (e : Env) (op : AtOp) (size : Nat) (d a : Reg) (s : State) : State :=
  let noAddress := fun l => (if isS a then e.sb a else e.vpb a l) = BitVec.allOnes 64
  s.updCourse e.r.uid fun c =>
    let c := c.eachLane (e.lanes.filter fun l => !noAddress l && op.isAbsent size (e.atomicOperands op size d l).1) fun l c =>
      c.setAt (e.vreg d) size l (op.absentCode size)
    c.eachLane (e.lanes.filter fun l => noAddress l) fun l c => c.setAt (e.vreg d) size l (2 ^ (8 * size) - 1)

/-- The course's state for an atomic that goes to memory: a new operation, LDC and STC one higher. Under acq and ar the
fragment waits for it (R269). -/
def startsAtomic (e : Env) (op : AtOp) (size : Nat) (d a : Reg) (ord : Ord4) (ok : Tab Leaf) (s : State) : State :=
  let lanes := (atomicLanes e op size d a).map fun p => AtLane.ofAcc s ok p.1 p.2
  let t := ((((atomicAbsent e op size d a s).addOp (newOp e (.atomic op size (.vector (e.vreg d) size) lanes []))).addLdc e.r.uid true).addStc e.r.uid true).advance e
  if ord = .acq ∨ ord = .ar then
    t.updFrag e.r fun f => if f.state = .ready then { f with state := .waiting .counter (.ops [s.nextOp]) } else f
  else t

/-- COUNT and PHASE of a stash barrier object after n arrivals (R274). -/
def objectAfter (expected count phase n : Nat) : Nat × Nat :=
  if expected = 0 then (count, (phase + 1) % 2 ^ 32)
  else if expected ≤ count + n then (0, (phase + 1) % 2 ^ 32)
  else (count + n, phase)

/-- A word of the stash window. -/
def stashWord (s : State) (e : Env) (off : Nat) : Nat := leNat (s.stashBytes e.w e.island off 4)

/-- The stash barrier object at an offset after the lanes of F arrive. -/
def arrives (e : Env) (off : Nat) (s : State) : State :=
  let n := (lanesOf e.f.lanes).length
  let expected := stashWord s e off
  let after := objectAfter expected (stashWord s e (off + 4)) (stashWord s e (off + 8)) n
  let t := if expected ≠ 0 ∧ expected < stashWord s e (off + 4) + n then s.raise e.w.ctx .sbarExcess else s
  t.stashWrite e.c.age e.island (cellsAt (off + 4) (natLe 4 after.1 ++ natLe 4 after.2))

/-- The lanes of F recorded at wall barrier b; BAR_REARRIVE rises by the lanes that were recorded already (R272). -/
def arrivesAt (e : Env) (b : Nat) (s : State) : State :=
  (s.raiseBy e.c.ctx .barRearrive (lanesOf (e.w.arrivedAt b e.c.index &&& e.f.lanes)).length).updWall e.c.age fun w =>
    { w with arrived := w.arrived.set (64 * b + e.c.index) (e.w.arrivedAt b e.c.index ||| e.f.lanes) }

/-- A once-per-course read at a virtual address reaches a physical address and a location: nothing holds it back, its unit
translates, the course has no access to come there, and the bytes are not marked. -/
def ReadsAt (s : State) (e : Env) (va size pa loc efmt : Nat) : Prop :=
  ∃ ok l, Reaches s e [⟨lowestLane e.f.active, va, size⟩] false ok ∧ ok.get? (va / 65536) = some l ∧
    pa = l.pa + (va - l.va) ∧ loc = s.leafLoc l va ∧ efmt = l.efmt ∧ s.courseBusy e.r.uid ((List.range size).map fun i => loc + i) = [] ∧
    s.markedIn ((List.range size).map fun i => loc + i) = none

/-! Queues, tiles and copies (R283 to R317). -/

/-- The fragment is the only live one of its course, and no sibling that it waited for has gone elsewhere: a tile instruction acts
for the whole course (R102). -/
def Alone (e : Env) : Prop := (∀ p ∈ e.c.frags, p.1 = e.r.serial) ∧ e.f.diverged = none

/-- A tile operation joins the sequencer with its pins: TLC rises, and the fragment goes on (R290, R291). -/
def startsTile (e : Env) (pins : List (Nat × Nat × Nat)) (w : Work) (s : State) : State :=
  ((s.addOp { newOp e w with pins := pins }).addTlc e.r.uid true).advance e

/-- A copy is accepted and pending (R315, R316). -/
def startsCopy (e : Env) (pins : List (Nat × Nat × Nat)) (w : Work) (s : State) : State :=
  ((s.addOp { newOp e w with pins := pins }).updCourse e.r.uid fun c => { c with copies := c.copies ++ [s.nextOp] }).advance e

/-- A step of a tile operation or a copy from lo to hi meets nothing: the global addresses that it accesses are mapped, what it
reads is not marked, and neither is true otherwise of the lines of bound regions that it accesses in stash; the same of the word of
an absolute maximum in the last step of a drain (R473, R485). -/
def Unhindered (s : State) (o : Op) (w : Wall) (lo hi : Nat) : Prop :=
  let am := (w.amIn (w.halfOf o.core) hi o.work).toList
  s.unmappedIn o.work.units (o.work.vasIn lo hi ++ am.flatMap Drain.amVas) = none ∧
    s.boundFail w (o.work.stashIn lo hi ++ am.flatMap Drain.amOffs) = none ∧
    s.markedIn (o.work.readsIn lo hi ++ (am.flatMap Drain.amVas).map fun va => (unitLoc o.work.units va).1) = none

/-- The ranges of an operation's global side translate on the fragment's island, whose L2 TLB keeps the translations (R356; log
77), and their pages are pinned. -/
def Pinned (s : State) (e : Env) (write : Bool) (ranges : List (Nat × Nat)) (g : Rng) (u : State) : Prop :=
  s.xlateUnits e.island e.c.ctx write (rangeUnits ranges) = .ok g ∧
    (s.learn e.island e.c.ctx g.leaves).pinAll e.island e.c.ctx g.pages = some u

/-- The reading and the writing side of a copy, translated together. -/
def bothSides (g h : Rng) : Rng :=
  { units := h.units.foldl (fun t p => t.set p.1 p.2) g.units, pages := dedup (g.pages ++ h.pages), leaves := g.leaves ++ h.leaves }

/-- The shape of a copy (R314): row length, rows, and the stride, where 0 stands for the row length. -/
def copyShape (x : Dword) : Nat × Nat × Nat :=
  let len := x.toNat % 2 ^ 24
  (len, x.toNat / 2 ^ 24 % 2 ^ 16, if x.toNat / 2 ^ 40 = 0 then len else 16 * (x.toNat / 2 ^ 40))

/-- The rows of a copy's global side. -/
def copyRows (base : Nat) (x : Dword) : List (Nat × Nat) :=
  (List.range (copyShape x).2.1).map fun r => ((base + r * (copyShape x).2.2) % 2 ^ 64, (copyShape x).1)

/-- A shape that a copy accepts: whole 16-byte pieces, at least one row. -/
def shapeOk (x : Dword) : Prop := (copyShape x).1 % 16 = 0 ∧ (copyShape x).1 ≠ 0 ∧ (copyShape x).2.1 ≠ 0

/-- What an instruction that acts for F as a whole does where a global range does not translate (R308, R358, R359, R364, R485): an
error ends the context, a violation is trap 0x0C, and a fault parks F with one record, or holds it back while the core has no room for
the record. `u` is the state by then. -/
def FailsOn (s u : State) (e : Env) (i : Instr) (write : Bool) (x : XFail) : Prop :=
  (x.code = eccCode → Runs s i e fun _ => u.memError x.va e.c.ctx) ∧
  (x.code = 0x0C → Runs s i e fun _ => u.trapAt e 0x0C 0 e.pc (BitVec.ofNat 64 x.va) e.f.lanes) ∧
  (x.code ≠ eccCode → x.code ≠ 0x0C →
    (u.heldFull e.c.core 1 = true → Runs s i e fun _ => u.holdBack e) ∧
    (u.heldFull e.c.core 1 = false → Runs s i e fun _ => u.park e [
      { lanes := e.f.active, code := x.code, on := .service,
        info := some { unit := x.va / 65536, vaddr := x.va, aux := x.level, write := write, origin := 0,
                       word := (encode i).toNat } }]))

/-- The lowest offsets of ranges outside the stash window, where a range is not empty. -/
def Beyond (e : Env) (rs : List (Int × Nat)) (x : Int) : Prop := ∃ r ∈ rs, r.2 ≠ 0 ∧ e.w.window < r.1 + r.2 ∧ x = max r.1 e.w.window

/-- Every range lies in the stash window. -/
def Inside (e : Env) (rs : List (Int × Nat)) : Prop := ∀ r ∈ rs, r.2 ≠ 0 → 0 ≤ r.1 ∧ r.1 + r.2 ≤ e.w.window

/-- The value of element kk of row i of A in K-step t; a row of an exited lane is absent (R102, R304). -/
def valueA (f : TileFmt) (sc : List Byte) (t i kk : Nat) (slice : List (Option (List Byte))) : Val :=
  match slice[i]?.join with
  | none => .absent
  | some row => elemVal f.a (elemCode f.a.bits kk row) (scaleAt f.a f.group sc (t * f.k + kk) i)

/-- The K-steps of tl.mma from the slices of A and from B in stash. -/
def mmaSteps (s : State) (e : Env) (steps off : Nat) (w : MmaWord) (slice : Nat → Option (List (Option (List Byte)))) : List KStep :=
  let f := e.fmtInfo
  let n := f.k * steps
  let scA := s.stashBytes e.w e.island w.asc (scaleBytes f.a f.group n)
  let scB := s.stashBytes e.w e.island w.bsc (scaleBytes f.b f.group n)
  (List.range steps).filterMap fun t => (slice t).map fun sl =>
    { a := (List.range 64).map fun i => (List.range f.k).map fun kk => valueA f scA t i kk sl
      b := (List.range f.k).map fun kk => (List.range 64).map fun j =>
        elemVal f.b (elemCode f.b.bits j
          (s.stashBytesSwz e.w e.island (off + (t * f.k + kk) * w.pitch) (64 * f.b.bits / 8) w.span))
          (scaleAt f.b f.group scB (t * f.k + kk) j) }

/-! Engines (R318 to R324, R377 to R395). -/

/-- The course has nothing to come at the bytes of ranges, in its side log or among its operations, and none of them is marked. -/
def Clear (s : State) (e : Env) (us : Tab (Nat × Nat)) (ranges : List (Nat × Nat)) : Prop :=
  let vas := ranges.flatMap fun r => (List.range r.2).map fun i => (r.1 + i) % 2 ^ 64
  let locs := vas.map fun va => s.place (unitLoc us va).1
  s.sideAt e vas.contains = none ∧ s.courseBusy e.r.uid locs = [] ∧ s.markedIn locs = none

/-- Ranges translate for the island of F, for reading or for writing, and its L2 TLB keeps the translations in the state u (R356;
log 77). -/
def Translates (s : State) (e : Env) (write : Bool) (ranges : List (Nat × Nat)) (g : Rng) (u : State) : Prop :=
  s.xlateUnits e.island e.c.ctx write (rangeUnits ranges) = .ok g ∧ u = s.learn e.island e.c.ctx g.leaves

/-- The bytes of a record that an instruction reads, and the state after its translation. -/
def ReadsRecord (s : State) (e : Env) (va n : Nat) (bs : List Byte) (u : State) : Prop :=
  ∃ g, Translates s e false [(va, n)] g u ∧ Clear u e g.units [(va, n)] ∧ bs = u.readUnits e.island g.units va n

/-- A block map record and its pool record, both valid under R381. -/
def ReadsMap (s : State) (e : Env) (va : Nat) (m : KvMap) (p : KvPool) (u : State) : Prop :=
  ∃ x y t, ReadsRecord s e va 64 x t ∧ m = KvMap.ofBytes va x ∧ m.bad = false ∧ m.pool % 64 = 0 ∧
    ReadsRecord t e m.pool 64 y u ∧ p = KvPool.ofBytes m.pool y ∧ p.bad = false

/-- The ids that an ENTRIES array names, none where an entry is absent. -/
def namedIds (ids : List Nat) (p : KvPool) : List Nat := ids.filter fun id => id ≠ 2 ^ 32 - 1 ∧ id < p.nblk

/-- An engine operation is accepted at the end of its engine's queue, under the next sequence number of the core. -/
def startsEngine (e : Env) (w : Work) (s : State) : State :=
  ((s.takeSeq e.c.core).2.addOp { newOp e w with seq := (s.takeSeq e.c.core).1 }).advance e

/-- The handle of a run. -/
def handleOf : Work → Option Nat
  | .run h _ _ => some h
  | _ => none

/-- Codes of a width stand in bytes in their order, from the lowest address; two 4-bit codes share a byte, the even one below (R44). -/
def Packs (bits : Nat) (codes : List Nat) (bs : List Byte) : Prop :=
  bs.length = codes.length * bits / 8 ∧ ∀ t < codes.length,
    (bits ≠ 4 → ∀ m < bits / 8, (bs.getD (t * (bits / 8) + m) 0).toNat = codes.getD t 0 / 256 ^ m % 256) ∧
    (bits = 4 → (bs.getD (t / 2) 0).toNat / (if t % 2 = 0 then 1 else 16) % 16 = codes.getD t 0 % 16)

/-- The address of element (i, j) of a dense record (R44, R164). -/
def elementAt (l : Layout) (i j : Nat) : Nat := (l.base + i * l.stride + j * l.bits / 8) % 2 ^ 64

/-- The bytes that hold element (i, j), and its code as the island reads it. -/
def elementRange (l : Layout) (i j : Nat) : Nat × Nat := (elementAt l i j, (l.bits + 7) / 8)
def elementCode (s : State) (k : Nat) (us : Tab (Nat × Nat)) (l : Layout) (i j : Nat) : Nat :=
  let bs := s.readUnits k us (elementAt l i j) ((l.bits + 7) / 8)
  if l.bits = 4 then (bs.headD 0).toNat / (if j % 2 = 0 then 1 else 16) % 16 else leNat bs

/-- An item of a dense destination: one element, or two neighbours of 4 bits; its row, and the columns of it that exist. -/
def itemPlace (l : Layout) (n : Nat) : Nat × List Nat :=
  let w := if l.bits = 4 then 2 else 1
  let m := (l.cols + w - 1) / w
  (n / m, (if l.bits = 4 then [2 * (n % m), 2 * (n % m) + 1] else [n % m]).filter fun j => j < l.cols)

/-- The codes of an item stand at its elements; the upper half of a byte that has no second element is open (log 48). -/
def ItemWrites (l : Layout) (i j : Nat) (codes : List Nat) (cells : List (Nat × Byte)) : Prop :=
  if l.bits = 4 then ∃ b : Byte, cells = [(elementAt l i j, b)] ∧ b.toNat % 16 = codes.headD 0 ∧ ∀ y ∈ codes[1]?, b.toNat / 16 = y
  else cells = (List.range (l.bits / 8)).map fun m => ((elementAt l i j + m) % 2 ^ 64, BitVec.ofNat 8 (codes.headD 0 / 256 ^ m))

/-- The first block's address in a compressed buffer, and the size of a block (R456). -/
def dataOf (l : Layout) : Nat := l.base + 128 + ((l.rows * ((l.cols + 31) / 32) + 7) / 8 + 127) / 128 * 128
def blockOf (l : Layout) : Nat := 32 * l.bits / 8

/-- Byte n of the scales and then the zero points of the source, and where the run copies it to (R320). -/
def sidePlace (src dst : Layout) (n : Nat) : Nat × Nat :=
  let scales := src.rows * src.groups * src.scaleSize
  if n < scales then (src.scales + n, (dst.scales + n) % 2 ^ 64) else (src.zeros + (n - scales), (dst.zeros + (n - scales)) % 2 ^ 64)

/-! The dispatcher, the host and its commands (R74 to R83, R463 to R482). -/

/-- The dword i of the command that runs, or of the one that is staged. -/
def dword (s : State) (i : Nat) : Nat := ((s.running.getD s.cmd).getD i 0).toNat

/-- The command runs. -/
def begun (s : State) : State := { s with running := some (s.running.getD s.cmd) }

/-- A command ends: BUSY is 0, CMDSTAT holds ERR and RESULT, and vector 0 is sent (R467, R472). -/
def ends (t : State) (err result : Nat) : State :=
  { t with running := none, cmdErr := err, cmdResult := result }.send 0

/-- A command step of a device that is READY ends in a state with ERR and RESULT. -/
def Answers (s : State) (i : Instr) (t : State) (err result : Nat) : Prop := Gives s i (ends t err result)

/-- A command that is refused changes nothing but CMDSTAT. -/
def Refuses (s : State) (i : Instr) (err : Nat) : Prop := Answers s i (begun s) err 0

/-! Frames. -/

/-- The scalar register that an instruction of the scalar classes writes, and nothing else. -/
def scalarDest : Instr → Option Reg
  | .siAdd _ d _ _ | .siSub _ d _ _ | .siMul _ d _ _ | .siMulh _ d _ _ | .siDiv _ d _ _ | .siRem _ d _ _ | .siMin _ d _ _
  | .siMax _ d _ _ | .siMov d _ | .siAnd d _ _ | .siOr d _ _ | .siXor d _ _ | .siShl d _ _ | .siShr d _ _ | .siSra d _ _
  | .siiAddi d _ _ | .siiAndi d _ _ | .siiOri d _ _ | .siiXori d _ _ | .siiShli d _ _ | .siiShri d _ _ | .siiMovi d _
  | .sluHi d _ | .sluPc d _ => some d
  | _ => none

/-- The vector registers that an instruction of the vector classes writes in lanes of F, and nothing else: the first and how
many follow on from it, two for a pair, and one more for the count, the positions or the offsets of the course-wide forms. -/
def vectorDest : Instr → Option (Reg × Nat)
  | .viAdd _ d _ _ | .viSub _ d _ _ | .viMul _ d _ _ | .viMulh _ d _ _ | .viMad _ d _ _ | .viDiv _ d _ _ | .viRem _ d _ _
  | .viMin _ d _ _ | .viMax _ d _ _ | .viAbs _ d _ | .viNeg _ d _ | .viClz d _ | .viPopc d _ | .viMov d _ | .viAnd d _ _
  | .viOr d _ _ | .viXor d _ _ | .viShl d _ _ | .viShr d _ _ | .viSra d _ _ | .viiAddi d _ _ | .viiAndi d _ _
  | .viiOri d _ _ | .viiXori d _ _ | .viiShli d _ _ | .viiShri d _ _ | .viiMovi d _ | .vfAdd _ d _ _ | .vfSub _ d _ _
  | .vfMul _ d _ _ | .vfFma _ d _ _ | .vfDiv _ d _ _ | .vfMin _ d _ _ | .vfMax _ d _ _ | .vfAbs _ d _ | .vfNeg _ d _
  | .vfRcp _ d _ | .vfRsq _ d _ | .vfSqrt _ d _ | .vfExp2 _ d _ | .vfLog2 _ d _ | .vfFloor _ d _ | .vfMov _ d _
  | .vxQpack d _ | .vcShflIdx d _ _ | .vcShflUp d _ _ | .vcShflDown d _ _ | .vcShflXor d _ _ | .vcBcast d _ _
  | .vcWrlane d _ _ => some (d, 1)
  | .vdAdd d _ _ | .vdSub d _ _ | .vdMul d _ _ | .vdFma d _ _ | .vdDiv d _ _ | .vdSqrt d _ | .vdMin d _ _ | .vdMax d _ _
  | .vcTopk _ d _ _ _ | .vcRebal d _ _ => some (d, 2)
  | .vxOra vt d _ _ | .vxMkabs vt d _ _ | .vxSel vt d _ _ | .vxCvt _ d _ _ _ vt => some (d, if vt.wide then 2 else 1)
  | .vcRedAdd d _ vt _ | .vcRedMin d _ vt _ | .vcRedMax d _ vt _ | .vcScanAdd d _ vt _ | .vcScanMin d _ vt _
  | .vcScanMax d _ vt _ => some (d, if vt.wide then 3 else 2)
  | _ => none

/-- The trit registers that a comparison or an instruction of the classes vx and vc writes in lanes of F, and nothing else: the
first and how many follow on from it. -/
def tritDest : Instr → Option (Reg × Nat)
  | .siCmp _ _ d _ _ | .siiCmpi _ _ d _ _ | .viCmp _ _ d _ _ | .viiCmpi _ _ d _ _ | .vfCmp _ d _ _ | .vdCmp _ d _ _
  | .vxIsabs _ d _ | .vxQand d _ _ | .vxQor d _ _ | .vxQnot d _ | .vxQxor d _ _ | .vxQmov d _ | .vxQset d _ | .vcConflict d _
  | .vcVoteAny d _ | .vcVoteAll d _ | .vcVoteNone d _ => some (d, 1)
  | .vxQunpack d _ => some (d, 8)
  | _ => none

/-- A wall holds no lock, folded or not, and asks for none, on any Mortar. -/
def OffMortar (age : Nat) (t : State) : Prop :=
  (∀ k ∈ t.locks, (∀ h ∈ k.holds, h.age ≠ age) ∧ ∀ q ∈ k.queue, q.age ≠ age) ∧
  (∀ i < 4, ∀ o ∈ (t.island i).overflow, o.req.age ≠ age) ∧ ∀ x ∈ t.skips, x.age ≠ age

/-- Nothing of a context is there: neither the context nor a wall, course, grid, operation, queue, signal binding, translation,
merge-table entry, fetch, side-log entry or fault record of it, and no partition has it. -/
def ContextGone (n : Nat) (t : State) : Prop :=
  t.ctx? n = none ∧ (∀ p ∈ t.walls, p.2.ctx ≠ n) ∧ (∀ p ∈ t.courses, p.2.ctx ≠ n) ∧ (∀ p ∈ t.grids, p.2.ctx ≠ n) ∧
  (∀ p ∈ t.ops, p.2.ctx ≠ n) ∧ (∀ p ∈ t.queues, p.2.ctx ≠ n) ∧ (∀ q ∈ t.irqs, q.ctx ≠ n) ∧
  (∀ p ∈ t.cores, (∀ e ∈ p.2.tlb, e.ctx ≠ n) ∧ (∀ x ∈ p.2.side, x.ctx ≠ n) ∧ ∀ x ∈ p.2.held, x.ctx ≠ n) ∧
  (∀ p ∈ t.islands, (∀ e ∈ p.2.l2, e.ctx ≠ n) ∧ (∀ m ∈ p.2.merge, m.ctx ≠ n) ∧ ∀ x ∈ p.2.fetches, x.ctx ≠ n) ∧
  (∀ p ∈ t.parts, p.2.occupant ≠ some n) ∧ ∀ i < 8, (t.part i).saved ≠ some n ∧ (t.part i).preemptor ≠ some n

/-- Every island reads every byte of memory as before, as a byte and through a leaf of any element format. -/
def KeepsBytes (s t : State) : Prop := ∀ k < 4, ∀ loc, t.byteAt k loc = s.byteAt k loc ∧ ∀ f, t.viewAt k f loc = s.viewAt k f loc

/-- Nothing changes but courses (and how writes in flight are kept), and only the course of F. -/
def OnlyCourse (s t : State) (uid : Nat) : Prop :=
  t = { s with courses := t.courses, mem := t.mem, outside := t.outside, efmt := t.efmt, writes := t.writes } ∧ KeepsBytes s t ∧
    ∀ n, n ≠ uid → t.course? n = s.course? n

/-- Where the next issue slot is: the schedule names it, or it is due in the default order. -/
def SlotAt (s u : State) (core quad : Nat) : Prop := s.begin.overdue = none ∧
  ((∃ rest, s.begin.sched = .issue core quad :: rest ∧ u = { s.begin with sched := rest }) ∨
    (s.begin.sched = [] ∧ u = s.begin ∧ u.defaultEvent = none ∧ u.defaultQuad = some (core, quad)))

/-- What a step adds to an instruction: no fragment is ISSUING between steps, and a cycle passes. -/
def thenFinish (o : Host.Outcome State Fault Refusal) : Host.Outcome State Fault Refusal :=
  match o with
  | .next t => .next t.finish
  | .fault r => .fault r
  | .refused r => .refused r

end Sys2Proof.Claims

section

open Sys2Proof Sys2Proof.Machine Sys2Proof.Claims

/-! Scalar arithmetic (R200 to R205). -/

/-- si.add, sub, mul, min and max in i64 and n64 (R52, R53, R59, R202): the exact result, saturated; absent propagates. -/
def Sys2Proof.Claims.ScalarTypedArithmetic : Prop := ∀ (s : State) (e : Env) (d a b : Reg),
  WritesS s (.siAdd .i64 d a b) e d (onI64 (· + ·) (e.s .i64 a) (e.s .i64 b)) ∧
  WritesS s (.siSub .i64 d a b) e d (onI64 (· - ·) (e.s .i64 a) (e.s .i64 b)) ∧
  WritesS s (.siMul .i64 d a b) e d (onI64 (· * ·) (e.s .i64 a) (e.s .i64 b)) ∧
  WritesS s (.siMin .i64 d a b) e d (onI64 min (e.s .i64 a) (e.s .i64 b)) ∧
  WritesS s (.siMax .i64 d a b) e d (onI64 max (e.s .i64 a) (e.s .i64 b)) ∧
  WritesS s (.siAdd .n64 d a b) e d (onN64 (· + ·) (e.s .n64 a) (e.s .n64 b)) ∧
  WritesS s (.siSub .n64 d a b) e d (onN64 (· - ·) (e.s .n64 a) (e.s .n64 b)) ∧
  WritesS s (.siMul .n64 d a b) e d (onN64 (· * ·) (e.s .n64 a) (e.s .n64 b)) ∧
  WritesS s (.siMin .n64 d a b) e d (onN64 min (e.s .n64 a) (e.s .n64 b)) ∧
  WritesS s (.siMax .n64 d a b) e d (onN64 max (e.s .n64 a) (e.s .n64 b))

/-- si.mulh, div and rem in i64 and n64 (R53, R202): bits [127:64] of the exact product; the quotient truncated toward zero
and the remainder, with the table of R53 for a division by 0. -/
def Sys2Proof.Claims.ScalarTypedDivision : Prop := ∀ (s : State) (e : Env) (d a b : Reg),
  WritesS s (.siMulh .i64 d a b) e d
    (if e.s .i64 a = i64Absent ∨ e.s .i64 b = i64Absent then i64Absent
     else BitVec.ofInt 64 ((e.s .i64 a).toInt * (e.s .i64 b).toInt / 2 ^ 64)) ∧
  WritesS s (.siMulh .n64 d a b) e d
    (if e.s .n64 a = BitVec.allOnes 64 ∨ e.s .n64 b = BitVec.allOnes 64 then BitVec.allOnes 64
     else BitVec.ofNat 64 ((e.s .n64 a).toNat * (e.s .n64 b).toNat / 2 ^ 64)) ∧
  WritesS s (.siDiv .i64 d a b) e d (onI64 (quotient (-(2 ^ 63 - 1)) (2 ^ 63 - 1)) (e.s .i64 a) (e.s .i64 b)) ∧
  WritesS s (.siRem .i64 d a b) e d (onI64 remainder (e.s .i64 a) (e.s .i64 b)) ∧
  WritesS s (.siDiv .n64 d a b) e d (onN64 (quotient 0 (2 ^ 64 - 2)) (e.s .n64 a) (e.s .n64 b)) ∧
  WritesS s (.siRem .n64 d a b) e d (onN64 remainder (e.s .n64 a) (e.s .n64 b))

/-- The b64 forms of si (R54, R202): modulo 2^64 on raw patterns, with the division by 0 of R54; the moves, the logic and the
shifts, whose counts are taken modulo 64. -/
def Sys2Proof.Claims.ScalarBitForms : Prop := ∀ (s : State) (e : Env) (d a b : Reg),
  WritesS s (.siAdd .b64 d a b) e d (e.sb a + e.sb b) ∧
  WritesS s (.siSub .b64 d a b) e d (e.sb a - e.sb b) ∧
  WritesS s (.siMul .b64 d a b) e d (e.sb a * e.sb b) ∧
  WritesS s (.siMulh .b64 d a b) e d (BitVec.ofNat 64 ((e.sb a).toNat * (e.sb b).toNat / 2 ^ 64)) ∧
  WritesS s (.siDiv .b64 d a b) e d (if e.sb b = 0 then BitVec.allOnes 64 else e.sb a / e.sb b) ∧
  WritesS s (.siRem .b64 d a b) e d (if e.sb b = 0 then e.sb a else e.sb a % e.sb b) ∧
  WritesS s (.siMin .b64 d a b) e d (if (e.sb a).toNat ≤ (e.sb b).toNat then e.sb a else e.sb b) ∧
  WritesS s (.siMax .b64 d a b) e d (if (e.sb a).toNat ≤ (e.sb b).toNat then e.sb b else e.sb a) ∧
  WritesS s (.siMov d a) e d (e.sb a) ∧
  WritesS s (.siAnd d a b) e d (e.sb a &&& e.sb b) ∧
  WritesS s (.siOr d a b) e d (e.sb a ||| e.sb b) ∧
  WritesS s (.siXor d a b) e d (e.sb a ^^^ e.sb b) ∧
  WritesS s (.siShl d a b) e d (e.sb a <<< ((e.sb b).toNat % 64)) ∧
  WritesS s (.siShr d a b) e d (e.sb a >>> ((e.sb b).toNat % 64)) ∧
  WritesS s (.siSra d a b) e d ((e.sb a).sshiftRight ((e.sb b).toNat % 64))

/-- The immediate forms of sii (R204) and their illegal operands. -/
def Sys2Proof.Claims.ScalarImmediates : Prop :=
  (∀ (s : State) (e : Env) (d a : Reg) (m : BitVec 10),
    WritesS s (.siiAddi d a m) e d (e.sb a + m.signExtend 64) ∧
    WritesS s (.siiAndi d a m) e d (e.sb a &&& m.signExtend 64) ∧
    WritesS s (.siiOri d a m) e d (e.sb a ||| m.signExtend 64) ∧
    WritesS s (.siiXori d a m) e d (e.sb a ^^^ m.signExtend 64) ∧
    (m.toNat < 64 → WritesS s (.siiShli d a m) e d (e.sb a <<< m.toNat)) ∧
    (m.toNat < 64 → WritesS s (.siiShri d a m) e d (e.sb a >>> m.toNat)) ∧
    WritesS s (.siiMovi d m) e d (m.signExtend 64)) ∧
  (∀ (s : State) (e : Env) (c : ICond) (d a : Reg) (m : BitVec 6),
    WritesQ s (.siiCmpi c false d a m) e d (fun _ => compareI c (valI64 (e.s .i64 a)) (some m.toInt)) ∧
    WritesQ s (.siiCmpi c true d a m) e d (fun _ => compareI c (valN64 (e.s .n64 a)) (some m.toNat))) ∧
  (∀ (d a : Reg) (m : BitVec 10), 64 ≤ m.toNat →
    (Instr.siiShli d a m).legal = false ∧ (Instr.siiShri d a m).legal = false) ∧
  (∀ (d a : Reg) (m : BitVec 10), a ≠ 0 → decode (packI 0x06 7 d a m) = .error .reservedNotZero)

/-- slu.hi and slu.pc (R205). -/
def Sys2Proof.Claims.ScalarUpperImmediates : Prop := ∀ (s : State) (e : Env) (d : Reg) (m : BitVec 19),
  WritesS s (.sluHi d m) e d (m.signExtend 64 <<< 13) ∧
  WritesS s (.sluPc d m) e d (e.f.pc + (m.signExtend 64 <<< 2))

/-- si.cmp in its three types (R58, R202, R203): the trit goes to qD of every lane of F, and to no other lane. -/
def Sys2Proof.Claims.ScalarCompares : Prop := ∀ (s : State) (e : Env) (c : Cond) (d a b : Reg),
  WritesQ s (.siCmp c .i64 d a b) e d (fun _ => compareI (cond4 c) (valI64 (e.s .i64 a)) (valI64 (e.s .i64 b))) ∧
  WritesQ s (.siCmp c .n64 d a b) e d (fun _ => compareI (cond4 c) (valN64 (e.s .n64 a)) (valN64 (e.s .n64 b))) ∧
  WritesQ s (.siCmp c .b64 d a b) e d
    (fun _ => compareI (cond4 c) (some (e.sb a).toNat) (some (e.sb b).toNat))

/-! Vector arithmetic (R212 to R231). -/

/-- vi.add, sub, mul, min, max and cmp in their four types, lane by lane (R218): exact and saturated, per element under i16,
modulo 2^32 under b32; absent propagates, and makes a comparison unknown. -/
def Sys2Proof.Claims.VectorTypedArithmetic : Prop := ∀ (s : State) (e : Env) (d a b : Reg),
  (∀ ty : VTy,
    WritesV s (.viAdd ty d a b) e d (fun l => onVec ty (· + ·) (e.v (vecFmt ty) a l) (e.v (vecFmt ty) b l)) ∧
    WritesV s (.viSub ty d a b) e d (fun l => onVec ty (· - ·) (e.v (vecFmt ty) a l) (e.v (vecFmt ty) b l)) ∧
    WritesV s (.viMul ty d a b) e d (fun l => onVec ty (· * ·) (e.v (vecFmt ty) a l) (e.v (vecFmt ty) b l)) ∧
    WritesV s (.viMin ty d a b) e d (fun l => onVec ty min (e.v (vecFmt ty) a l) (e.v (vecFmt ty) b l)) ∧
    WritesV s (.viMax ty d a b) e d (fun l => onVec ty max (e.v (vecFmt ty) a l) (e.v (vecFmt ty) b l))) ∧
  (∀ c : Cond,
    WritesQ s (.viCmp c .i32 d a b) e d (fun l => compareI (cond4 c) (valI32 (e.v .i32 a l)) (valI32 (e.v .i32 b l))) ∧
    WritesQ s (.viCmp c .n32 d a b) e d (fun l => compareI (cond4 c) (valN32 (e.v .n32 a l)) (valN32 (e.v .n32 b l))) ∧
    WritesQ s (.viCmp c .b32 d a b) e d
      (fun l => compareI (cond4 c) (some (e.vb a l).toNat) (some (e.vb b l).toNat)))

/-- vi.mulh, div, rem, mad, abs and neg (R53, R54, R218). -/
def Sys2Proof.Claims.VectorTypedDivision : Prop := ∀ (s : State) (e : Env) (d a b : Reg),
  WritesV s (.viMulh .i32 d a b) e d (fun l =>
    if e.v .i32 a l = i32Absent ∨ e.v .i32 b l = i32Absent then i32Absent
    else BitVec.ofInt 32 ((e.v .i32 a l).toInt * (e.v .i32 b l).toInt / 2 ^ 32)) ∧
  WritesV s (.viMulh .n32 d a b) e d (fun l =>
    if e.v .n32 a l = BitVec.allOnes 32 ∨ e.v .n32 b l = BitVec.allOnes 32 then BitVec.allOnes 32
    else BitVec.ofNat 32 ((e.v .n32 a l).toNat * (e.v .n32 b l).toNat / 2 ^ 32)) ∧
  WritesV s (.viMulh .b32 d a b) e d (fun l => BitVec.ofNat 32 ((e.vb a l).toNat * (e.vb b l).toNat / 2 ^ 32)) ∧
  WritesV s (.viDiv .i32 d a b) e d
    (fun l => onI32 (quotient (-(2 ^ 31 - 1)) (2 ^ 31 - 1)) (e.v .i32 a l) (e.v .i32 b l)) ∧
  WritesV s (.viRem .i32 d a b) e d (fun l => onI32 remainder (e.v .i32 a l) (e.v .i32 b l)) ∧
  WritesV s (.viDiv .n32 d a b) e d (fun l => onN32 (quotient 0 (2 ^ 32 - 2)) (e.v .n32 a l) (e.v .n32 b l)) ∧
  WritesV s (.viRem .n32 d a b) e d (fun l => onN32 remainder (e.v .n32 a l) (e.v .n32 b l)) ∧
  WritesV s (.viDiv .b32 d a b) e d (fun l => if e.vb b l = 0 then BitVec.allOnes 32 else e.vb a l / e.vb b l) ∧
  WritesV s (.viRem .b32 d a b) e d (fun l => if e.vb b l = 0 then e.vb a l else e.vb a l % e.vb b l) ∧
  WritesV s (.viMad .i32 d a b) e d (fun l => madI32 (e.v .i32 d l) (e.v .i32 a l) (e.v .i32 b l)) ∧
  WritesV s (.viMad .n32 d a b) e d (fun l => madN32 (e.v .n32 d l) (e.v .n32 a l) (e.v .n32 b l)) ∧
  WritesV s (.viMad .b32 d a b) e d (fun l => e.vb d l * e.vb a l + e.vb b l) ∧
  WritesV s (.viMad .i16 d a b) e d (fun l =>
    madI16 (hi16 (e.v .i16 d l)) (hi16 (e.v .i16 a l)) (hi16 (e.v .i16 b l)) ++
    madI16 (lo16 (e.v .i16 d l)) (lo16 (e.v .i16 a l)) (lo16 (e.v .i16 b l))) ∧
  WritesV s (.viAbs .i32 d a) e d (fun l => unI32 (fun x => x.natAbs) (e.v .i32 a l)) ∧
  WritesV s (.viNeg .i32 d a) e d (fun l => unI32 (fun x => -x) (e.v .i32 a l)) ∧
  WritesV s (.viAbs .i16 d a) e d
    (fun l => unI16 (fun x => x.natAbs) (hi16 (e.v .i16 a l)) ++ unI16 (fun x => x.natAbs) (lo16 (e.v .i16 a l))) ∧
  WritesV s (.viNeg .i16 d a) e d
    (fun l => unI16 (fun x => -x) (hi16 (e.v .i16 a l)) ++ unI16 (fun x => -x) (lo16 (e.v .i16 a l)))

/-- The bit forms of vi and the immediate forms of vii (R218, R220), with the illegal shift counts. clz is stated by its
defining property: the word shifted right by 32 − n is zero, and, for a word that is not zero, by 31 − n it is not; of 0 it is 32. -/
def Sys2Proof.Claims.VectorBitForms : Prop :=
  (∀ (s : State) (e : Env) (d a b : Reg),
    (∃ z : Word → Nat, WritesV s (.viClz d a) e d (fun l => BitVec.ofNat 32 (z (e.vb a l))) ∧
      z 0 = 32 ∧ ∀ x, z x ≤ 32 ∧ x.toNat < 2 ^ (32 - z x) ∧ (x ≠ 0 → 2 ^ (31 - z x) ≤ x.toNat)) ∧
    WritesV s (.viPopc d a) e d (fun l => BitVec.ofNat 32 (countBits (e.vb a l))) ∧
    WritesV s (.viMov d a) e d (e.vb a) ∧
    WritesV s (.viAnd d a b) e d (fun l => e.vb a l &&& e.vb b l) ∧
    WritesV s (.viOr d a b) e d (fun l => e.vb a l ||| e.vb b l) ∧
    WritesV s (.viXor d a b) e d (fun l => e.vb a l ^^^ e.vb b l) ∧
    WritesV s (.viShl d a b) e d (fun l => e.vb a l <<< ((e.vb b l).toNat % 32)) ∧
    WritesV s (.viShr d a b) e d (fun l => e.vb a l >>> ((e.vb b l).toNat % 32)) ∧
    WritesV s (.viSra d a b) e d (fun l => (e.vb a l).sshiftRight ((e.vb b l).toNat % 32))) ∧
  (∀ (s : State) (e : Env) (d a : Reg) (m : BitVec 10),
    WritesV s (.viiAddi d a m) e d (fun l => e.vb a l + m.signExtend 32) ∧
    WritesV s (.viiAndi d a m) e d (fun l => e.vb a l &&& m.signExtend 32) ∧
    WritesV s (.viiOri d a m) e d (fun l => e.vb a l ||| m.signExtend 32) ∧
    WritesV s (.viiXori d a m) e d (fun l => e.vb a l ^^^ m.signExtend 32) ∧
    WritesV s (.viiShli d a m) e d (fun l => e.vb a l <<< m.toNat) ∧
    WritesV s (.viiShri d a m) e d (fun l => e.vb a l >>> m.toNat) ∧
    WritesV s (.viiMovi d m) e d (fun _ => m.signExtend 32)) ∧
  (∀ (s : State) (e : Env) (c : ICond) (d a : Reg) (m : BitVec 6),
    WritesQ s (.viiCmpi c false d a m) e d (fun l => compareI c (valI32 (e.v .i32 a l)) (some m.toInt)) ∧
    WritesQ s (.viiCmpi c true d a m) e d (fun l => compareI c (valN32 (e.v .n32 a l)) (some m.toNat))) ∧
  (∀ (d a : Reg) (m : BitVec 10), 32 ≤ m.toNat →
    (Instr.viiShli d a m).legal = false ∧ (Instr.viiShri d a m).legal = false)

/-- vf (R221 to R223): each lane, and each element of a packed register, receives the operation on exact values, rounded once
under RM; vf.mov copies all 32 bits. That exp2 and log2 are the exact values rounded once rests on the precision of their
evaluation, which is the model's reading (log 7). -/
def Sys2Proof.Claims.FloatArithmetic : Prop := ∀ (s : State) (e : Env) (ty : FTy) (d a b : Reg),
  let f := fltFmt ty
  let m := e.mode
  let x := fun l => e.v f a l
  let y := fun l => e.v f b l
  WritesV s (.vfAdd ty d a b) e d (fun l => onFlt ty (fun p q => f.codeF m ((f.valF p).add m (f.valF q))) (x l) (y l)) ∧
  WritesV s (.vfSub ty d a b) e d
    (fun l => onFlt ty (fun p q => f.codeF m ((f.valF p).add m (f.valF q).neg)) (x l) (y l)) ∧
  WritesV s (.vfMul ty d a b) e d (fun l => onFlt ty (fun p q => f.codeF m ((f.valF p).mul (f.valF q))) (x l) (y l)) ∧
  WritesV s (.vfDiv ty d a b) e d (fun l => onFlt ty (fun p q => f.div m (f.valF p) (f.valF q)) (x l) (y l)) ∧
  WritesV s (.vfMin ty d a b) e d
    (fun l => onFlt ty (fun p q => f.codeF .rn (Val.minmax false (f.valF p) (f.valF q))) (x l) (y l)) ∧
  WritesV s (.vfMax ty d a b) e d
    (fun l => onFlt ty (fun p q => f.codeF .rn (Val.minmax true (f.valF p) (f.valF q))) (x l) (y l)) ∧
  WritesV s (.vfAbs ty d a) e d (fun l => onFlt ty (fun p _ => f.codeF .rn (f.valF p).abs) (x l) 0) ∧
  WritesV s (.vfNeg ty d a) e d (fun l => onFlt ty (fun p _ => f.codeF .rn (f.valF p).neg) (x l) 0) ∧
  WritesV s (.vfFloor ty d a) e d (fun l => onFlt ty (fun p _ => f.codeF .rn (f.valF p).floor) (x l) 0) ∧
  WritesV s (.vfRcp ty d a) e d (fun l => onFlt ty (fun p _ => f.rcp m (f.valF p)) (x l) 0) ∧
  WritesV s (.vfRsq ty d a) e d (fun l => onFlt ty (fun p _ => f.rsq m (f.valF p)) (x l) 0) ∧
  WritesV s (.vfSqrt ty d a) e d (fun l => onFlt ty (fun p _ => f.sqrt m (f.valF p)) (x l) 0) ∧
  WritesV s (.vfExp2 ty d a) e d (fun l => onFlt ty (fun p _ => f.exp2 m (f.valF p)) (x l) 0) ∧
  WritesV s (.vfLog2 ty d a) e d (fun l => onFlt ty (fun p _ => f.log2 m (f.valF p)) (x l) 0) ∧
  WritesV s (.vfMov ty d a) e d x ∧
  WritesV s (.vfFma ty d a b) e d (fun l => onFlt3 ty (fun r p q => f.codeF m (Val.fma m (f.valF r) (f.valF p) (f.valF q)))
    (e.v f d l) (x l) (y l))

/-- vd on f64 pairs and the comparisons of vf and vd (R58, R224 to R226). -/
def Sys2Proof.Claims.PairArithmetic : Prop := ∀ (s : State) (e : Env) (d a b : Reg),
  let f := Fmt.f64
  let m := e.mode
  let x := fun l => f.valF (e.vp .f64 a l).toNat
  let y := fun l => f.valF (e.vp .f64 b l).toNat
  WritesVP s (.vdAdd d a b) e d (fun l => BitVec.ofNat 64 (f.codeF m ((x l).add m (y l)))) ∧
  WritesVP s (.vdSub d a b) e d (fun l => BitVec.ofNat 64 (f.codeF m ((x l).add m (y l).neg))) ∧
  WritesVP s (.vdMul d a b) e d (fun l => BitVec.ofNat 64 (f.codeF m ((x l).mul (y l)))) ∧
  WritesVP s (.vdFma d a b) e d
    (fun l => BitVec.ofNat 64 (f.codeF m (Val.fma m (f.valF (e.vp .f64 d l).toNat) (x l) (y l)))) ∧
  WritesVP s (.vdDiv d a b) e d (fun l => BitVec.ofNat 64 (f.div m (x l) (y l))) ∧
  WritesVP s (.vdSqrt d a) e d (fun l => BitVec.ofNat 64 (f.sqrt m (x l))) ∧
  WritesVP s (.vdMin d a b) e d (fun l => BitVec.ofNat 64 (f.codeF .rn (Val.minmax false (x l) (y l)))) ∧
  WritesVP s (.vdMax d a b) e d (fun l => BitVec.ofNat 64 (f.codeF .rn (Val.minmax true (x l) (y l)))) ∧
  (∀ c : Cond, WritesQ s (.vdCmp c d a b) e d (fun l => compareF (cond4 c) (x l) (y l))) ∧
  (∀ c : Cond, WritesQ s (.vfCmp c d a b) e d
    (fun l => compareF (cond4 c) (Fmt.f32.valF (e.v .f32 a l).toNat) (Fmt.f32.valF (e.v .f32 b l).toNat)))

/-- The exact cases of the floating rules (R45 to R47, R58, R59, R62, R65, R222, R223): a NaN or absent operand, the invalid
operations, zeros and infinities, in every format of vf and vd and in every rounding mode. Minimum and maximum choose the operand
that lies below or above the other, -0 below +0, and give NaN for a NaN; floor gives the greatest integer that is not above its
operand and keeps the sign of a zero; neg flips and abs clears the sign of a finite number or an infinity. Each of these five keeps
NaN and gives absent for an absent operand. -/
def Sys2Proof.Claims.FloatSpecialCases : Prop := ∀ (f : Fmt), f ∈ [Fmt.f64, .f32, .f16, .bf16] → ∀ (m : RMode) (p q : Nat),
  (f.isAbsent p = true → f.codeF m ((f.valF p).add m (f.valF q)) = f.absentCode ∧
    f.codeF m ((f.valF q).mul (f.valF p)) = f.absentCode ∧ f.div m (f.valF p) (f.valF q) = f.absentCode ∧
    f.sqrt m (f.valF p) = f.absentCode) ∧
  (f.valF p = .nan → f.isAbsent q = false → f.codeF m ((f.valF p).add m (f.valF q)) = f.nanCode ∧
    f.codeF m ((f.valF q).mul (f.valF p)) = f.nanCode ∧ f.div m (f.valF p) (f.valF q) = f.nanCode) ∧
  (∀ n : Bool, (Val.inf n).add m (.inf !n) = .nan ∧ (Val.inf n).mul (.fin false 0 0) = .nan ∧
    f.div m (.inf n) (.inf n) = f.nanCode ∧ f.sqrt m (.inf true) = f.nanCode) ∧
  f.div m (.fin false 0 0) (.fin false 0 0) = f.nanCode ∧
  f.codeF m (Val.add m (.fin false 1 0) (.fin true 1 0)) = (if m = .rd then 2 ^ (f.bits - 1) else 0) ∧
  f.codeF m (Val.add m (.fin true 0 0) (.fin true 0 0)) = 2 ^ (f.bits - 1) ∧
  f.rsq m (.fin true 0 0) = f.codeF m (.inf true) ∧ f.rcp m (.inf true) = 2 ^ (f.bits - 1) ∧
  f.log2 m (.fin false 1 0) = 0 ∧ f.exp2 m (.fin true 0 0) = f.codeF m (.fin false 1 0) ∧
  (∀ x y : Val, x ≠ .absent → y ≠ .absent → ∀ k : Bool,
    let r := Val.minmax k x y
    (x = .nan ∨ y = .nan → r = .nan) ∧
    (x ≠ .nan → y ≠ .nan → (r = x ∨ r = y) ∧
      (k = false → ¬ Below x r ∧ ¬ Below y r) ∧ (k = true → ¬ Below r x ∧ ¬ Below r y))) ∧
  (∀ s m e, ∃ t n d, Val.floor (.fin s m e) = .fin t n d ∧ (n = 0 → t = s) ∧
    ∃ k : Int, ratOf t n d = k ∧ (k : Rat) ≤ ratOf s m e ∧ ratOf s m e < k + 1) ∧
  (∀ b, Val.floor (.inf b) = .inf b) ∧ Val.floor .nan = .nan ∧
  (∀ (k : Bool) (x : Val), Val.minmax k x .absent = .absent ∧ Val.minmax k .absent x = .absent) ∧
  Val.floor .absent = .absent ∧ Val.neg .absent = .absent ∧ Val.abs .absent = .absent ∧ Val.neg .nan = .nan ∧ Val.abs .nan = .nan ∧
  (∀ s m e, Val.neg (.inf s) = .inf (!s) ∧ Val.abs (.inf s) = .inf false ∧
    Val.neg (.fin s m e) = .fin (!s) m e ∧ Val.abs (.fin s m e) = .fin false m e ∧
    ratOf (!s) m e = -ratOf s m e ∧ ratOf false m e = if ratOf s m e < 0 then -ratOf s m e else ratOf s m e)

/-- Absent, NaN, infinite and zero operands of the floating operations with a rounded result (R46, R47, R65, R222, R223): an absent
operand in any place makes the result absent, and else a NaN makes it NaN. 0 × ∞, also as the product of a multiply-add, ∞ − ∞, 0 ÷ 0, ∞ ÷ ∞ and a
root, reciprocal root or logarithm of a negative number are NaN. An infinity keeps or combines its sign; a finite number over a zero
is an infinity, and over an infinity a zero, each with the exclusive or of the signs. -/
def Sys2Proof.Claims.FloatExceptionalOperands : Prop := ∀ (f : Fmt), f ∈ [Fmt.f64, .f32, .f16, .bf16] → ∀ (m : RMode),
  f.codeF m .absent = f.absentCode ∧ f.codeF m .nan = f.nanCode ∧
  (∀ (b : Bool) (c : Nat), f.infCode = some c → f.codeF m (.inf b) = (if b then 2 ^ (f.bits - 1) else 0) + c) ∧
  (∀ x : Val, x.add m .absent = .absent ∧ Val.add m .absent x = .absent ∧ x.mul .absent = .absent ∧ Val.mul .absent x = .absent ∧
    f.div m x .absent = f.absentCode ∧ f.div m .absent x = f.absentCode) ∧
  (∀ x : Val, x ≠ .absent → x.add m .nan = .nan ∧ Val.add m .nan x = .nan ∧ x.mul .nan = .nan ∧ Val.mul .nan x = .nan ∧
    f.div m x .nan = f.nanCode ∧ f.div m .nan x = f.nanCode) ∧
  (∀ x y z : Val, (x = .absent ∨ y = .absent ∨ z = .absent → Val.fma m x y z = .absent) ∧
    (x ≠ .absent → y ≠ .absent → z ≠ .absent → x = .nan ∨ y = .nan ∨ z = .nan → Val.fma m x y z = .nan)) ∧
  (∀ g ∈ [f.sqrt m, f.rcp m, f.rsq m, f.exp2 m, f.log2 m], g .absent = f.absentCode ∧ g .nan = f.nanCode) ∧
  (∀ (a b : Bool) (n : Nat) (e d : Int),
    (Val.inf a).add m (.fin b n e) = .inf a ∧ (Val.fin b n e).add m (.inf a) = .inf a ∧ (Val.inf a).add m (.inf a) = .inf a ∧
    (Val.inf a).add m (.inf !a) = .nan ∧ (Val.inf a).mul (.inf b) = .inf (a != b) ∧
    (Val.inf a).mul (.fin b n e) = (if n = 0 then .nan else .inf (a != b)) ∧
    (Val.fin b n e).mul (.inf a) = (if n = 0 then .nan else .inf (a != b)) ∧
    (∀ z : Val, z ≠ .absent → Val.fma m (.inf a) (.fin b 0 e) z = .nan ∧ Val.fma m (.fin b 0 e) (.inf a) z = .nan) ∧
    Val.fma m (.inf a) (.inf b) (.inf (a == b)) = .nan ∧
    (n ≠ 0 → Val.fma m (.inf a) (.fin b n e) (.inf (a == b)) = .nan) ∧
    f.codeF m (Val.add m (.fin a n e) (.fin (!a) n e)) = (if m = .rd then 2 ^ (f.bits - 1) else 0) ∧
    f.div m (.inf a) (.inf b) = f.nanCode ∧ f.div m (.inf a) (.fin b n e) = f.codeF m (.inf (a != b)) ∧
    f.div m (.fin a n e) (.inf b) = (if a != b then 2 ^ (f.bits - 1) else 0) ∧
    f.div m (.fin a n e) (.fin b 0 d) = (if n = 0 then f.nanCode else f.codeF m (.inf (a != b))) ∧
    (n ≠ 0 → f.div m (.fin a 0 d) (.fin b n e) = if a != b then 2 ^ (f.bits - 1) else 0) ∧
    (n ≠ 0 → f.sqrt m (.fin true n e) = f.nanCode ∧ f.rsq m (.fin true n e) = f.nanCode ∧ f.log2 m (.fin true n e) = f.nanCode) ∧
    f.rcp m (.fin b 0 e) = f.codeF m (.inf b) ∧ f.rcp m (.inf b) = (if b then 2 ^ (f.bits - 1) else 0) ∧
    f.rsq m (.fin b 0 e) = f.codeF m (.inf b) ∧ f.rsq m (.inf false) = 0 ∧ f.rsq m (.inf true) = f.nanCode ∧
    f.sqrt m (.fin b 0 e) = (if b then 2 ^ (f.bits - 1) else 0) ∧ f.sqrt m (.inf false) = f.codeF m (.inf false) ∧
    f.sqrt m (.inf true) = f.nanCode ∧
    f.exp2 m (.fin b 0 e) = f.codeF m (.fin false 1 0) ∧ f.exp2 m (.inf false) = f.codeF m (.inf false) ∧ f.exp2 m (.inf true) = 0 ∧
    f.log2 m (.fin b 0 e) = f.codeF m (.inf true) ∧ f.log2 m (.inf false) = f.codeF m (.inf false) ∧
    f.log2 m (.inf true) = f.nanCode)

/-- A result that is rounded is the exact number rounded once (R65, R66, R215, R222, R223): sums, products and multiply-adds are
exact, and the code is that of an exact number in the range of the format, of a quotient, of a reciprocal, of a square root and the
reciprocal of one, in every floating format of vf and vd and in every mode. A number or a quotient beyond the largest finite value
gives that value or an infinity, as the mode says; to nearest it gives an infinity from half a step beyond it on. A zero keeps its
sign. -/
def Sys2Proof.Claims.CorrectRounding : Prop := ∀ (f : Fmt), f ∈ [Fmt.f64, .f32, .f16, .bf16] → ∀ (mode : RMode),
  let inRange := fun (le ge : Rat → Prop) => le (-topOf f) ∧ ge (topOf f)
  let half := (topOf f - (finiteOf f (f.maxFinite - 1)).getD 0) / 2
  let beyond := fun (neg : Bool) (x : Rat) => (if neg then 2 ^ (f.bits - 1) else 0) +
    (if (mode = .rn ∧ topOf f + half ≤ x) ∨ (mode = .rd ∧ neg = true) ∨ (mode = .ru ∧ neg = false) then f.infCode.getD 0
     else f.maxFinite)
  (∀ r k g s m e t n d, ∃ u l h, Val.fma mode (.fin r k g) (.fin s m e) (.fin t n d) = .fin u l h ∧
    ratOf u l h = ratOf r k g * ratOf s m e + ratOf t n d) ∧
  (∀ s m e t n d, (∃ u k g, Val.add mode (.fin s m e) (.fin t n d) = .fin u k g ∧ ratOf u k g = ratOf s m e + ratOf t n d) ∧
    ∃ u k g, Val.mul (.fin s m e) (.fin t n d) = .fin u k g ∧ ratOf u k g = ratOf s m e * ratOf t n d) ∧
  (∀ neg m e, let x := ratOf neg m e
    (inRange (· ≤ x) (x ≤ ·) → Rounds f mode (· ≤ x) (x ≤ ·) (f.codeF mode (.fin neg m e))) ∧
    (m = 0 → f.codeF mode (.fin neg m e) = if neg then 2 ^ (f.bits - 1) else 0)) ∧
  (∀ s m e t n d, n ≠ 0 → let q := ratOf s m e / ratOf t n d
    (inRange (· ≤ q) (q ≤ ·) → Rounds f mode (· ≤ q) (q ≤ ·) (f.div mode (.fin s m e) (.fin t n d))) ∧
    (∀ r, r = q ∨ r = -q → topOf f < r → f.div mode (.fin s m e) (.fin t n d) = beyond (s != t) r)) ∧
  (∀ t n d, n ≠ 0 → let q := 1 / ratOf t n d
    (inRange (· ≤ q) (q ≤ ·) → Rounds f mode (· ≤ q) (q ≤ ·) (f.rcp mode (.fin t n d))) ∧
    (∀ r, r = q ∨ r = -q → topOf f < r → f.rcp mode (.fin t n d) = beyond t r)) ∧
  (∀ m e, m ≠ 0 → let x := ratOf false m e
    let le := fun r : Rat => r ≤ 0 ∨ r * r ≤ x
    let ge := fun r : Rat => 0 ≤ r ∧ x ≤ r * r
    inRange le ge → Rounds f mode le ge (f.sqrt mode (.fin false m e))) ∧
  (∀ m e, m ≠ 0 → let x := ratOf false m e
    let le := fun r : Rat => r ≤ 0 ∨ r * r * x ≤ 1
    let ge := fun r : Rat => 0 ≤ r ∧ 1 ≤ r * r * x
    inRange le ge → Rounds f mode le ge (f.rsq mode (.fin false m e))) ∧
  (∀ neg m e, topOf f < ratOf false m e → f.codeF mode (.fin neg m e) = beyond neg (ratOf false m e))

/-- The codes of the floating formats (R43, R45, R46): the value of a code by its fields S, E and M, in every format with its bias; the
absent, NaN and infinite codes; the canonical NaN, the infinity and the largest finite value. -/
def Sys2Proof.Claims.FloatCodes : Prop :=
  (∀ (f : Fmt) (w m bias : Nat), (f, w, m, bias) ∈ [(Fmt.f64, 11, 52, 1023), (.f32, 8, 23, 127), (.f16, 5, 10, 15), (.bf16, 8, 7, 127),
      (.e5m2, 5, 2, 15), (.e4m3, 4, 3, 7), (.e2m1, 2, 1, 1)] →
    ∀ (s : Bool) (E M : Nat), E < 2 ^ w → M < 2 ^ m →
      let x := s.toNat * 2 ^ (w + m) + E * 2 ^ m + M
      let wide := f ∈ [Fmt.f64, .f32, .f16, .bf16]
      let absent := (wide ∧ x = 2 ^ f.bits - 1) ∨ (¬ wide ∧ s = true ∧ E = 0 ∧ M = 0)
      let top := E = 2 ^ w - 1 ∧ (wide ∨ f = .e5m2)
      let nan := (top ∧ M ≠ 0) ∨ (f = .e4m3 ∧ E = 15 ∧ M = 7)
      f.bits = 1 + w + m ∧ (f.isAbsent x = true ↔ absent) ∧ (absent → f.valF x = .absent) ∧ (¬ absent → nan → f.valF x = .nan) ∧
      (¬ absent → top → M = 0 → f.valF x = .inf s) ∧
      (¬ absent → ¬ nan → ¬ top → ∃ k g, f.valF x = .fin s k g ∧ ratOf s k g = (if s then -1 else 1) *
        (if E = 0 then (M : Rat) / 2 ^ m * 2 ^ (1 - (bias : Int)) else (1 + (M : Rat) / 2 ^ m) * 2 ^ ((E : Int) - bias)))) ∧
  (∀ (f : Fmt) (absent nan : Nat) (inf : Option Nat) (top : Rat), (f, absent, nan, inf, top) ∈ [
      (Fmt.f64, 2 ^ 64 - 1, 0x7FF8000000000000, some 0x7FF0000000000000, (2 - 2 ^ (-52 : Int)) * 2 ^ (1023 : Int)),
      (.f32, 2 ^ 32 - 1, 0x7FC00000, some 0x7F800000, (2 - 2 ^ (-23 : Int)) * 2 ^ (127 : Int)),
      (.f16, 0xFFFF, 0x7E00, some 0x7C00, 65504), (.bf16, 0xFFFF, 0x7FC0, some 0x7F80, (2 - 2 ^ (-7 : Int)) * 2 ^ (127 : Int)),
      (.e5m2, 0x80, 0x7E, some 0x7C, 57344), (.e4m3, 0x80, 0x7F, none, 448)] →
    f.absentCode = absent ∧ f.nanCode = nan ∧ f.infCode = inf ∧ topOf f = top ∧
      ∀ c y, finiteOf f c = some y → -top ≤ y ∧ y ≤ top) ∧
  (Fmt.e2m1.absentCode = 8 ∧ Fmt.e2m1.infCode = none ∧ topOf .e2m1 = 6 ∧
    ∀ c y, finiteOf .e2m1 c = some y → -6 ≤ y ∧ y ≤ 6)

/-- The exact cases of exp2 and log2, and the powers of two between which the other results lie (R223). The precision of those
others is the model's reading (log 7). -/
def Sys2Proof.Claims.ExponentialCases : Prop := ∀ (f : Fmt), f ∈ [Fmt.f32, .f16, .bf16] → ∀ (mode : RMode),
  (∀ neg m, m ≠ 0 → m ≤ 2048 → f.exp2 mode (.fin neg m 0) = f.codeF mode (.fin false 1 (if neg then -(m : Int) else m))) ∧
  (∀ (n : Nat) (e : Int), f.log2 mode (.fin false (2 ^ n) e) = f.codeF mode (.fin (e + n < 0) (e + n).natAbs 0)) ∧
  (∀ neg m (d : Nat), m < 2 ^ 11 * 2 ^ d → ∀ n : Int, (n : Rat) ≤ ratOf neg m (-(d : Int)) → ratOf neg m (-(d : Int)) < n + 1 →
    f.codeF mode (.fin false 1 n) ≤ f.exp2 mode (.fin neg m (-(d : Int))) ∧
    f.exp2 mode (.fin neg m (-(d : Int))) ≤ f.codeF mode (.fin false 1 (n + 1)))

/-! Absent values, selection and trits (R227 to R231). -/

/-- vx.isabs, ora, mkabs and sel (R228): the absent test, the fallback element by element, and the selections, whose chosen
operand is copied bit for bit; a true trit leaves vD as it is. -/
def Sys2Proof.Claims.AbsentAndSelection : Prop := ∀ (s : State) (e : Env) (vt : Vt) (d a b : Reg),
  WritesQ s (.vxIsabs vt d a) e d
    (fun l => .ofBool ((elements vt (e.vt vt a l)).any fun x => x == absentOf vt)) ∧
  Runs s (.vxOra vt d a b) e (fun s => (s.putVt e vt d fun l => some (ofElements
    (((elements vt (e.vt vt a l)).zip (elements vt (e.vt vt b l))).map fun p =>
      if p.1 = absentOf vt then p.2 else p.1))).advance e) ∧
  Runs s (.vxMkabs vt d a b) e (fun s => (s.putVt e vt d fun l =>
    some (if e.q b.toNat l = .f then e.vt vt a l else absentReg vt)).advance e) ∧
  Runs s (.vxSel vt d a b) e (fun s => (s.putVt e vt d fun l =>
    if e.q b.toNat l = .t then none else some (if e.q b.toNat l = .f then e.vt vt a l else absentReg vt)).advance e)

/-- vx.cvt (R66, R231): each lane converts one value, element H of a 16-bit source, and writes the pair, the register, or
element H of vD, whose other element keeps its bits. An absent source gives the absent code of the target, NaN gives 0 in an
integer format, an infinity stays one or saturates, and a finite value is rounded once, to a floating code or to an integer that
then saturates. R66 has no row for f16 to bf16 or back: that they are one rounding under the mode with the overflow of R65 is the
model's choice (log 99). -/
def Sys2Proof.Claims.Conversion : Prop :=
  (∀ (s : State) (e : Env) (rnd : Rnd) (d a : Reg) (h : Bool) (src dst : Vt),
    Runs s (.vxCvt rnd d a h src dst) e fun s =>
      let m := if rnd = .rm then e.mode else if rnd = .rn then .rn else if rnd = .rz then .rz
        else if rnd = .rd then .rd else .ru
      let x := fun l => convert src.fmt dst.fmt m
        (if src.packed then (elements src (e.vt src a l)).getD (if h then 1 else 0) 0 else (e.vt src a l).toNat)
      (s.updCourse e.r.uid fun c => c.eachLane e.lanes fun l c =>
        if dst = .f64 then c.setVP (e.vreg d) l (BitVec.ofNat 64 (x l))
        else if dst.packed then c.setHalf (e.vreg d) l h (BitVec.ofNat 16 (x l))
        else c.setV (e.vreg d) l (BitVec.ofNat 32 (x l))).advance e) ∧
  (∀ (src dst : Vt) (m : RMode) (x : Nat), src.fmt.isAbsent x = true → convert src.fmt dst.fmt m x = absentOf dst) ∧
  (∀ (src dst : Vt) (m : RMode) (x : Nat), src.fmt.val x = .nan → dst.fmt.isFloat = false →
    convert src.fmt dst.fmt m x = 0) ∧
  (∀ (src dst : Vt) (mode : RMode) (x : Nat) (neg : Bool) (m : Nat) (e : Int), src.fmt.val x = .fin neg m e →
    (dst.fmt.isFloat = true → convert src.fmt dst.fmt mode x = dst.fmt.codeF mode (.fin neg m e)) ∧
    (dst.fmt.isFloat = false → ∃ n, RoundsInt mode (ratOf neg m e) n ∧ convert src.fmt dst.fmt mode x = dst.fmt.sat n)) ∧
  (∀ (src dst : Vt) (mode : RMode) (x : Nat) (neg : Bool), src.fmt.val x = .inf neg →
    convert src.fmt dst.fmt mode x = if dst.fmt.isFloat then dst.fmt.codeF mode (.inf neg)
      else dst.fmt.sat (if neg then dst.fmt.minInt else dst.fmt.maxInt))

/-- Kleene's three-valued logic (R57), by its truth tables. -/
def Obligations.KleeneLogic : Prop :=
  (Trit.not .f = .t ∧ Trit.not .t = .f ∧ Trit.not .u = .u) ∧
  (Trit.and .f .f = .f ∧ Trit.and .f .t = .f ∧ Trit.and .f .u = .f ∧
   Trit.and .t .f = .f ∧ Trit.and .t .t = .t ∧ Trit.and .t .u = .u ∧
   Trit.and .u .f = .f ∧ Trit.and .u .t = .u ∧ Trit.and .u .u = .u) ∧
  (Trit.or .f .f = .f ∧ Trit.or .f .t = .t ∧ Trit.or .f .u = .u ∧
   Trit.or .t .f = .t ∧ Trit.or .t .t = .t ∧ Trit.or .t .u = .t ∧
   Trit.or .u .f = .u ∧ Trit.or .u .t = .t ∧ Trit.or .u .u = .u) ∧
  (Trit.xor .f .f = .f ∧ Trit.xor .f .t = .t ∧ Trit.xor .f .u = .u ∧
   Trit.xor .t .f = .t ∧ Trit.xor .t .t = .f ∧ Trit.xor .t .u = .u ∧
   Trit.xor .u .f = .u ∧ Trit.xor .u .t = .u ∧ Trit.xor .u .u = .u)

/-- The trit forms of vx (R56, R229, R230). Code 0b11 reads as unknown; qpack gathers eight trits and qunpack scatters them,
so unpacking what was packed gives the eight trits back. -/
def Obligations.TritForms : Prop :=
  (∀ (s : State) (e : Env) (d a b : Reg),
    WritesQ s (.vxQand d a b) e d (fun l => (e.q a.toNat l).and (e.q b.toNat l)) ∧
    WritesQ s (.vxQor d a b) e d (fun l => (e.q a.toNat l).or (e.q b.toNat l)) ∧
    WritesQ s (.vxQxor d a b) e d (fun l => (e.q a.toNat l).xor (e.q b.toNat l)) ∧
    WritesQ s (.vxQnot d a) e d (fun l => (e.q a.toNat l).not) ∧
    WritesQ s (.vxQmov d a) e d (fun l => e.q a.toNat l) ∧
    WritesQ s (.vxQset d b) e d (fun _ => if b.toNat % 4 = 0 then .f else if b.toNat % 4 = 1 then .t else .u) ∧
    (∃ p : (Nat → Trit) → Word, WritesV s (.vxQpack d a) e d (fun l => p fun k => e.q (a.toNat + k) l) ∧
      (∀ g, (p g).toNat < 65536) ∧ ∀ g k, k < 8 → Trit.ofBits ((p g).extractLsb' (2 * k) 2) = g k) ∧
    Runs s (.vxQunpack d a) e (fun s => ((List.range 8).foldl (fun t k =>
      t.putQ e (d.toNat + k) fun l => .ofBits ((e.vb a l).extractLsb' (2 * k) 2)) s).advance e)) ∧
  (∀ d b : Reg, (Instr.vxQset d b).legal = true → b.toNat ≤ 2) ∧
  (∀ t : Trit, Trit.ofBits t.bits = t ∧ t.bits ≠ 3) ∧ Trit.ofBits 3 = .u

/-! Course-wide instructions (R232 to R243). -/

/-- vc.red and vc.scan (R63, R64, R234, R235): in each segment the result and the count of kept elements go to every lane of
F of the segment (red), or the result and the count up to the lane (scan), absent where the lane's own element is. A lane outside F
keeps its registers, which is the model's reading where R64 meets R212 (log 76). An integer sum is exact and saturated once; an f32
or f64 sum is the rounded sum of its two halves, an empty half passing the other on and one element being its own sum; a scan adds
one element after another; a 16-bit sum is the f32 sum of the widened elements, rounded once; a minimum or maximum is a kept element
that no other lies below or above, or NaN where one is kept. A segment with no kept element gives absent and the count 0 (R243). -/
def Obligations.ReductionsAndScans : Prop :=
  (∀ (s : State) (e : Env) (d a : Reg) (vt : Vt) (seg : Seg),
    let n := seg.size
    let xs := fun g => e.segElems vt a (g * n) n
    let red := fun op => redWrites e vt d fun l => (reduce op vt (xs (l / n)), ((xs (l / n)).filterMap id).length)
    let scan := fun op => redWrites e vt d fun l => (scanSeg op vt (xs (l / n)) .none 0).getD (l % n) (none, 0)
    Runs s (.vcRedAdd d a vt seg) e (red .add) ∧ Runs s (.vcRedMin d a vt seg) e (red .min) ∧
    Runs s (.vcRedMax d a vt seg) e (red .max) ∧
    Runs s (.vcScanAdd d a vt seg) e (scan .add) ∧ Runs s (.vcScanMin d a vt seg) e (scan .min) ∧
    Runs s (.vcScanMax d a vt seg) e (scan .max)) ∧
  (∀ (op : RedOp) (vt : Vt) (n : Nat), reduce op vt (List.replicate n none) = none) ∧
  (∀ (vt : Vt) (xs : List (Option Nat)), vt.fmt.isFloat = false → Kept vt xs → xs.filterMap id ≠ [] →
    reduce .add vt xs = some (codeOf vt ((xs.filterMap id).map (intOf vt)).sum)) ∧
  (∀ (vt : Vt) (x : Nat), vt ∈ [Vt.f32, .f64] → reduce .add vt [some x] = some (canonicalNan vt x)) ∧
  (∀ (vt : Vt) (k : Nat) (xs ys : List (Option Nat)), vt ∈ [Vt.f32, .f64] → k ≤ 5 → xs.length = 2 ^ k → ys.length = 2 ^ k →
    reduce .add vt (xs ++ ys) = match reduce .add vt xs, reduce .add vt ys with
      | none, r => r
      | r, none => r
      | some x, some y => some (vt.fmt.codeF .rn ((vt.fmt.valF x).add .rn (vt.fmt.valF y)))) ∧
  (∀ (vt : Vt) (xs : List (Option Nat)), vt ∈ [Vt.f16, .bf16] → reduce .add vt xs =
    (reduce .add .f32 (xs.map fun o => o.map (convert vt.fmt .f32 .rn))).map (convert .f32 vt.fmt .rn)) ∧
  (∀ (vt : Vt) (xs : List (Option Nat)), Kept vt xs → xs.filterMap id ≠ [] → ∀ op ∈ [RedOp.min, .max],
    let kept := xs.filterMap id
    (vt.fmt.isFloat = true → (∃ x ∈ kept, vt.fmt.valF x = .nan) → reduce op vt xs = some vt.fmt.nanCode) ∧
    ((∀ x ∈ kept, vt.fmt.isFloat = true → vt.fmt.valF x ≠ .nan) → ∃ x ∈ kept, reduce op vt xs = some x ∧
      ∀ y ∈ kept, (op = .min → ¬ KeyBelow vt y x) ∧ (op = .max → ¬ KeyBelow vt x y))) ∧
  (∀ (op : RedOp) (vt : Vt) (xs : List (Option Nat)) (p : Nat), Kept vt xs → p < xs.length →
    let kept := (xs.take (p + 1)).filterMap id
    let r := (scanSeg op vt xs .none 0).getD p (none, 0)
    r.2 = kept.length ∧ (xs[p]? = some none → r.1 = none) ∧
    (∀ x, xs[p]? = some (some x) →
      (op ≠ .add ∨ vt.fmt.isFloat = false → r.1 = reduce op vt (xs.take (p + 1))) ∧
      (op = .add → vt ∈ [Vt.f32, .f64] → ∀ k ks, kept = k :: ks → r.1 = some (canonicalNan vt (ks.foldl (fun u y =>
        vt.fmt.codeF .rn ((vt.fmt.valF u).add .rn (vt.fmt.valF y))) k))) ∧
      (op = .add → vt ∈ [Vt.f16, .bf16] → r.1 = ((scanSeg .add .f32 (xs.map fun o => o.map (convert vt.fmt .f32 .rn))
        .none 0).getD p (none, 0)).1.map (convert .f32 vt.fmt .rn))))

/-- vc.topk (R236): in each segment, rank r below k holds the r-th highest key and its position, and every other position of
the segment is absent. The ranking is a rearrangement of the kept elements in which no later key is above an earlier one and
equal keys keep the lower lane first: integers rank by value, a NaN above every number and -0 below +0. -/
def Sys2Proof.Claims.TopK : Prop :=
  (∀ (s : State) (e : Env) (k : BitVec 3) (d a : Reg) (vt : Vt) (seg : Seg), vt ≠ .f64 →
    Runs s (.vcTopk k d a vt seg) e fun s =>
      (s.updCourse e.r.uid fun c => c.eachLane e.lanes fun l c =>
        let base := l / seg.size * seg.size
        match (rankSeg vt (e.segElems vt a base seg.size))[l % seg.size]?, decide (l % seg.size ≤ k.toNat) with
        | some (pos, x), true =>
          (c.setV (e.vreg d) l ((redWord vt (some (canonNan vt.fmt x))).extractLsb' 0 32)).setV (e.vreg d + 1) l
            (BitVec.ofNat 32 pos)
        | _, _ =>
          (c.setV (e.vreg d) l ((absentReg vt).extractLsb' 0 32)).setV (e.vreg d + 1) l 0xFFFFFFFF).advance e) ∧
  (∀ (vt : Vt) (xs : List (Option Nat)), Kept vt xs →
    (rankSeg vt xs).Perm (((List.range xs.length).zip xs).filterMap fun p => p.2.map fun x => (p.1, x)) ∧
    (rankSeg vt xs).Pairwise fun p q =>
      ¬ KeyBelow vt p.2 q.2 ∧ (¬ KeyBelow vt q.2 p.2 → p.1 < q.1))

/-- vc.rebal (R237): position p of the flattened rows is offset p − P(r) of the row r that holds it, and a position past the
last row, or an absent start, gives absent. -/
def Sys2Proof.Claims.Rebalance : Prop :=
  (∀ (s : State) (e : Env) (d a b : Reg),
    Runs s (.vcRebal d a b) e fun s =>
      let lens := (List.range e.c.width).map fun l =>
        if e.f.active.getLsbD l ∧ e.v .n32 a l ≠ 0xFFFFFFFF then (e.v .n32 a l).toNat else 0
      (s.updCourse e.r.uid fun c => c.eachLane e.lanes fun l c =>
        match rebalFind lens ((e.s .n64 b).toNat + l) 0, decide (e.s .n64 b = BitVec.allOnes 64) with
        | some (r, off), false =>
          (c.setV (e.vreg d) l (BitVec.ofNat 32 r)).setV (e.vreg d + 1) l (BitVec.ofNat 32 off)
        | _, _ => (c.setV (e.vreg d) l 0xFFFFFFFF).setV (e.vreg d + 1) l 0xFFFFFFFF).advance e) ∧
  (∀ (lens : List Nat) (p r off : Nat), rebalFind lens p 0 = some (r, off) ↔
    r < lens.length ∧ p = rowStart lens r + off ∧ off < lens.getD r 0) ∧
  (∀ (lens : List Nat) (p : Nat), rebalFind lens p 0 = none ↔ rowStart lens lens.length ≤ p)

/-- vc.conflict (R238): an absent address is unknown, and otherwise the trit says whether a lower lane of F holds the same
address, so that lanes whose trit is false hold pairwise distinct addresses. -/
def Sys2Proof.Claims.ConflictDetection : Prop := ∀ (s : State) (e : Env) (d a : Reg),
  ∃ g : Nat → Trit, WritesQ s (.vcConflict d a) e d g ∧
    (∀ l, g l = .u ↔ e.vpb a l = BitVec.allOnes 64) ∧
    (∀ l, g l = .t ↔ e.vpb a l ≠ BitVec.allOnes 64 ∧ ∃ j ∈ e.lanes, j < l ∧ e.vpb a j = e.vpb a l) ∧
    (∀ i ∈ e.lanes, ∀ j ∈ e.lanes, i < j → g i = .f → g j = .f → e.vpb a i ≠ e.vpb a j)

/-- The shuffles, vc.bcast, vc.wrlane and the votes (R239 to R241): a lane copies the register of a source lane that lies
below the course width and in F, and keeps its own otherwise; a vote is the Kleene combination over F. -/
def Sys2Proof.Claims.ShufflesAndVotes : Prop := ∀ (s : State) (e : Env) (d a b : Reg),
  let from' := fun (src : Int) =>
    if 0 ≤ src ∧ src < e.c.width ∧ e.f.active.getLsbD src.toNat = true then some (e.vb a src.toNat) else none
  let shfl := fun (g : Nat → Int) (s : State) => (s.putV e d fun l => from' (g l)).advance e
  let n : Int := (e.s .n64 b).toNat
  Runs s (.vcShflIdx d a b) e (shfl fun l => (e.v .n32 b l).toNat) ∧
  Runs s (.vcShflUp d a b) e (shfl fun l => l - n) ∧
  Runs s (.vcShflDown d a b) e (shfl fun l => l + n) ∧
  Runs s (.vcShflXor d a b) e (shfl fun l => (l ^^^ (e.s .n64 b).toNat : Nat)) ∧
  Runs s (.vcBcast d a b) e (shfl fun _ => n) ∧
  Runs s (.vcWrlane d a b) e (fun s =>
    (s.putV e d fun l => if l = (e.s .n64 b).toNat then some ((e.sb a).extractLsb' 0 32) else none).advance e) ∧
  WritesQ s (.vcVoteAny d a) e d (fun _ => (e.lanes.map fun l => e.q a.toNat l).foldr Trit.or .f) ∧
  WritesQ s (.vcVoteAll d a) e d (fun _ => (e.lanes.map fun l => e.q a.toNat l).foldr Trit.and .t) ∧
  WritesQ s (.vcVoteNone d a) e d (fun _ => ((e.lanes.map fun l => e.q a.toNat l).foldr Trit.or .f).not)

/-! Traps and the checks that come first (R118, R124, R249, R369, R370). -/

/-- Taking a trap (R369): CAUSE holds the code and the argument, TPC, FADDR and FLANES receive the given values, the handler
flag is set and the fragment goes on at the course's TVEC; a wait or a fetch that the word had begun is forgotten, and nothing
else changes. Inside a handler, or with TVEC = 0, the trap is context-fatal, with cause 5, the code and the FID in the report. -/
def Sys2Proof.Claims.TrapEntry : Prop := ∀ (s : State) (e : Env) (code arg : Nat) (tpc faddr flanes : Dword),
  (e.f.handler = false → e.c.tvec ≠ 0 → s.trapAt e code arg tpc faddr flanes = s.updFrag e.r fun f =>
    { f with
      cause := BitVec.ofNat 64 (code + 256 * arg), tpc := tpc, faddr := faddr, flanes := flanes, handler := true,
      pc := e.c.tvec, outcomes := [], crowd := [], diverged := none, held := false, totV := none }) ∧
  (e.f.handler = true ∨ e.c.tvec = 0 → s.trapAt e code arg tpc faddr flanes =
    s.fatal e.c.ctx { cause := .trap, code := code, addr := tpc.toNat, who := (fidOf e.c e.r.serial).toNat })

/-- Every instruction word makes the first checks before any effect (R118, R124, R249, R288): a word that the course's width
makes illegal traps with code 0x01 and the word in FADDR; else a register at or above the cap traps with code 0x02 and the
lowest such index; else a tile at or above ZTILES traps with code 0x02 and its number. TPC is the word's address and FLANES the
lanes of F. -/
def Sys2Proof.Claims.ChecksAtIssue : Prop := ∀ (i : Instr) (s : State) (e : Env), i.isWord = true → s.issuer? = some e →
  (i.issueLegal e.c.width = false →
    Gives s i (s.trapAt e 0x01 0 e.pc (BitVec.ofNat 64 (encode i).toNat) e.f.lanes)) ∧
  (∀ k, i.issueLegal e.c.width = true → capBad i e = some k →
    Gives s i (s.trapAt e 0x02 0 e.pc (BitVec.ofNat 64 k) e.f.lanes)) ∧
  (∀ z, i.issueLegal e.c.width = true → capBad i e = none → tileBad i e.w = some z →
    Gives s i (s.trapAt e 0x02 0 e.pc (BitVec.ofNat 64 z) e.f.lanes))

/-- What the register cap's check finds (R118): an index at or above the cap that an operand names, and none when every
operand lies below the cap. -/
def Sys2Proof.Claims.RegisterCapCheck : Prop := ∀ (i : Instr) (e : Env),
  (capBad i e = none ↔ ∀ o ∈ i.operands, ∀ first n, o.vregs e.c.width = some (first, n) → e.c.wv + first + n ≤ e.c.cap) ∧
  (∀ k, capBad i e = some k → e.c.cap ≤ k ∧
    (∀ o ∈ i.operands, ∀ first n j, o.vregs e.c.width = some (first, n) → e.c.cap ≤ j → e.c.wv + first ≤ j →
      j < e.c.wv + first + n → k ≤ j) ∧
    ∃ o ∈ i.operands, ∃ first n, o.vregs e.c.width = some (first, n) ∧ e.c.wv + first ≤ k ∧
      (k < e.c.wv + first + n ∨ n = 0))

/-- A context-fatal fault (R111, R376): no wall, course, grid, operation or record of the context is left, its queues are
empty, no partition is occupied by it, saves it or counts it as the one that pre-empted, and the fault is pending. -/
def Sys2Proof.Claims.ContextFatal : Prop := ∀ (s : State) (ctx : Nat) (r : Report),
  let t := s.fatal ctx r
  (∀ p ∈ t.walls, p.2.ctx ≠ ctx) ∧ (∀ p ∈ t.courses, p.2.ctx ≠ ctx) ∧ (∀ p ∈ t.grids, p.2.ctx ≠ ctx) ∧
  (∀ p ∈ t.ops, p.2.ctx ≠ ctx) ∧ (∀ p ∈ t.cores, ∀ x ∈ p.2.held, x.ctx ≠ ctx) ∧
  (∀ p ∈ t.cores, ∀ x ∈ p.2.side, x.ctx ≠ ctx) ∧
  (∀ p ∈ t.queues, p.2.ctx = ctx → p.2.entries = [] ∧ p.2.head = none) ∧
  (∀ n < 8, (t.part n).occupant ≠ some ctx ∧ (t.part n).saved ≠ some ctx ∧ (t.part n).preemptor ≠ some ctx) ∧
  ((s.ctx? ctx).isSome = true → t.faultPend = true)

/-- sys.brk and sys.trap (R178): the breakpoint and the software trap, with the code in CAUSE.ARG. -/
def Sys2Proof.Claims.BreakpointAndSoftwareTrap : Prop := ∀ (s : State) (e : Env) (code : BitVec 21),
  let taken := fun (cause : Nat) (tpc : Dword) (s : State) => s.updFrag e.r fun f =>
    { f with
      cause := BitVec.ofNat 64 (cause + 256 * code.toNat), tpc := tpc, faddr := 0, flanes := e.f.lanes, handler := true,
      pc := e.c.tvec, outcomes := [], crowd := [], diverged := none, held := false, totV := none }
  e.f.handler = false → e.c.tvec ≠ 0 →
    Runs s (.sysBrk code) e (taken 0x0A e.pc) ∧ Runs s (.sysTrap code) e (taken 0x0B (e.pc + 4))

/-- sys.rft (R180): with the handler flag clear the word traps with code 0x01; otherwise the flag is cleared and the fragment
goes on at TPC, and CAUSE, FADDR and FLANES keep their values. -/
def Obligations.ReturnFromTrap : Prop := ∀ (s : State) (e : Env),
  (e.f.handler = true → Runs s .sysRft e fun s => s.updFrag e.r fun f => { f with handler := false, pc := f.tpc }) ∧
  (e.f.handler = false → Runs s .sysRft e fun s =>
    s.trapAt e 0x01 0 e.pc (BitVec.ofNat 64 (encode .sysRft).toNat) e.f.lanes)

/-- sys.csrr (R174, R181): each special register's value. -/
def Sys2Proof.Claims.SpecialRegisterReads : Prop := ∀ (s : State) (e : Env) (d : Reg),
  WritesV s (.sysCsrr d 0x00) e d (fun l => BitVec.ofNat 32 l) ∧
  WritesS s (.sysCsrr d 0x01) e d (BitVec.ofNat 64 e.c.index) ∧
  WritesS s (.sysCsrr d 0x02) e d (BitVec.ofNat 64 e.w.index) ∧
  WritesS s (.sysCsrr d 0x03) e d (fidOf e.c e.r.serial) ∧
  (∀ g, s.grids.get? e.c.grid = some g → WritesS s (.sysCsrr d 0x04) e d (BitVec.ofNat 64 g.count)) ∧
  WritesS s (.sysCsrr d 0x05) e d (BitVec.ofNat 64 e.c.width) ∧
  WritesS s (.sysCsrr d 0x06) e d (BitVec.ofNat 64 s.clock) ∧
  WritesS s (.sysCsrr d 0x07) e d (BitVec.ofNat 64 e.c.age) ∧
  WritesS s (.sysCsrr d 0x10) e d (BitVec.ofNat 64 e.c.wv) ∧
  WritesS s (.sysCsrr d 0x11) e d (BitVec.ofNat 64 e.c.ws) ∧
  WritesS s (.sysCsrr d 0x12) e d (e.c.rm.setWidth 64) ∧
  WritesS s (.sysCsrr d 0x13) e d (e.c.fmt.setWidth 64) ∧
  WritesS s (.sysCsrr d 0x20) e d e.f.cause ∧
  WritesS s (.sysCsrr d 0x21) e d e.f.tpc ∧
  WritesS s (.sysCsrr d 0x22) e d e.f.faddr ∧
  WritesS s (.sysCsrr d 0x23) e d e.f.flanes ∧
  WritesS s (.sysCsrr d 0x24) e d e.c.tvec

/-- sys.csrw, sys.frinfo and sys.repair (R174, R181 to R183, R366): RM keeps bits [1:0] of the source, TPC and TVEC ignore
them, and every other special register is illegal to write; frinfo writes the state word of the fragment that a FID names, or 0;
repair waits for a release, whose writes are then performed at dev, presents the id and writes the status; where the records
that it would form find no room, it is held back (R364; the count of records that fit is log 36). That every write which the island
has applied reaches every island in that step, whatever the status, is the model's reading (log 19). What a replay does beside other
accesses of its course is log 86. -/
def Sys2Proof.Claims.SpecialRegisterWrites : Prop :=
  (∀ (s : State) (e : Env) (a : Reg),
    Runs s (.sysCsrw a 0x12) e (fun s =>
      (s.updCourse e.r.uid fun c => { c with rm := (e.sb a).setWidth 2 }).advance e) ∧
    Runs s (.sysCsrw a 0x21) e (fun s => (s.updFrag e.r fun f => { f with tpc := e.sb a &&& ~~~3#64 }).advance e) ∧
    Runs s (.sysCsrw a 0x24) e (fun s =>
      (s.updCourse e.r.uid fun c => { c with tvec := e.sb a &&& ~~~3#64 }).advance e)) ∧
  (∀ a b : Reg, (Instr.sysCsrw a b).legal = true → b = 0x12 ∨ b = 0x21 ∨ b = 0x24) ∧
  (∀ (s : State) (e : Env) (d a : Reg),
    (s.findFid e.c.ctx (e.sb a).toNat = none → WritesS s (.sysFrinfo d a) e d 0) ∧
    (∀ (r : FragRef) (c : Course) (f : Frag), s.findFid e.c.ctx (e.sb a).toNat = some r → s.course? r.uid = some c →
      s.frag? r = some f → (∀ code on, f.state = .parked code on → code < 256) →
      WritesS s (.sysFrinfo d a) e d (stateWordOf c f (r = e.r)))) ∧
  (∀ (s : State) (e : Env) (d a : Reg),
    let done := (s.flush e.island).repairId e.c.ctx (e.sb a).toNat
    (Quiet e → s.repairHeld done.1 = false →
      Runs s (.sysRepair d a) e fun _ => (done.1.setS e d (BitVec.ofNat 64 done.2)).advance e) ∧
    (Quiet e → s.repairHeld done.1 = true → e.f.held = false → Runs s (.sysRepair d a) e (heldBack e)) ∧
    (¬ Quiet e → Runs s (.sysRepair d a) e fun s => s.await e .counter (.counters 0 0 0))) ∧
  (∀ (s : State) (ctx id : Nat), id < 2 ^ 63 →
    (s.findFid ctx id = none → s.repairId ctx id = (s, 1)) ∧
    (∀ r f, s.findFid ctx id = some r → s.frag? r = some f →
      (∀ code on, f.state = .parked code on → code < 0x20 ∨ 0x24 < code) → s.repairId ctx id = (s, 2)))

/-- What a repair with status 0 does (R92, R93, R345, R361, R366): the pending entries for the page of the oldest record of a
fragment parked with a code 0x20 to 0x24 are replayed, in the order in which each core made them, and then the fragment is READY at
its instruction, or in a degraded stall has that record's lanes taken from its pending mask. An EID of KIND 0 replays its entry
with every pending entry of the context for its page; one of a stopped operation resumes it, with status 3 for an operation that is
not stopped, and 1 for what is not there. A replay performs the store or the reduction at .dev and the entry is gone; an access
that faults again keeps the entry under a new record. That an entry behind an earlier one that it overlaps falls due, and is
replayed with the next, is the model's reading; in a run no two entries of a course overlap (log 86). -/
def Sys2Proof.Claims.RepairPresentations : Prop :=
  (∀ (s : State) (ctx id code : Nat) (on : ParkOn) (r : FragRef) (f : Frag), id < 2 ^ 63 → s.findFid ctx id = some r →
    s.frag? r = some f → f.state = .parked code on → 0x20 ≤ code → code ≤ 0x24 →
    (f.records = [] → s.repairId ctx id = (s.release r isService, 0)) ∧
    (∀ rec' more, f.records = rec' :: more →
      (f.pending = 0 → s.repairId ctx id = ((s.replayUnit ctx rec'.unit).release r isService, 0)) ∧
      (f.pending ≠ 0 → let t := s.replayUnit ctx rec'.unit
        s.repairId ctx id = (t.updFrag r fun f => f.clearPending t.clock rec'.lanes, 0)))) ∧
  (∀ (s : State) (ctx unit : Nat), s.replayUnit ctx unit =
    (s.cores.flatMap fun p => (p.2.side.filter fun x => decide (x.ctx = ctx ∧ (x.unit = unit ∨ x.due = true))).map fun x =>
      (p.1, x.seq)).foldl (fun t p => t.replay p.1 p.2) s) ∧
  (∀ (s : State) (r : FragRef) (c : Course) (f : Frag), s.course? r.uid = some c → c.frags.get? r.serial = some f →
    s.release r isService = s.updFrag r fun f =>
      match f.state with
      | .parked code _ => if 0x20 ≤ code ∧ code ≤ 0x24 then
          { f with state := .ready, readyTime := s.clock, outcomes := [], pending := 0, records := [] } else f
      | _ => f) ∧
  (∀ (f : Frag) (clock : Nat) (lanes : Dword),
    (f.pending &&& ~~~lanes ≠ 0 → f.clearPending clock lanes =
      { f with pending := f.pending &&& ~~~lanes, records := f.records.filter fun r => decide (r.lanes &&& lanes = 0) }) ∧
    (f.pending &&& ~~~lanes = 0 → f.clearPending clock lanes =
      { f with state := .ready, readyTime := clock, outcomes := [], pending := 0, records := [] })) ∧
  (∀ (s : State) (core seq : Nat) (x : SideEntry), s.entry? core seq = some x →
    (s.entryBehind core x = true → s.replay core seq = s.updEntry core seq fun y => { y with due := true }) ∧
    (s.entryBehind core x = false →
      let k := islandOf core
      (∀ g, s.xlateUnits k x.ctx true x.units = .ok g →
        let t := s.finishBefore x.uid x.op (x.cells.map fun c => s.place (unitLoc g.units c.1).1)
        let gone := fun (t : State) => ((t.updCore core fun c => { c with side := c.side.filter fun y => y.seq != x.seq }).addStc
          x.uid false).claim x.ctx
        (t.entry? core x.seq = none → s.replay core seq = t) ∧
        ((t.entry? core x.seq).isSome = true → x.sig = none → s.replay core seq = gone (t.performUnits k g.units x.cells)) ∧
        (∀ add c more, (t.entry? core x.seq).isSome = true → x.sig = some add → x.cells = c :: more →
          let l := unitLoc g.units c.1
          (t.markedIn [l.1] = none → s.replay core seq = gone (t.rmwNat k l.1 l.2 8 fun old => (old + add.toNat) % 2 ^ 64)) ∧
          (∀ line, t.markedIn [l.1] = some line → s.replay core seq = t.memError line x.ctx))) ∧
      (∀ code level va, s.xlateUnits k x.ctx true x.units = .error ⟨code, level, va⟩ →
        let eid := s.entryEid core x
        (code = eccCode → s.replay core seq = s.memError va x.ctx) ∧
        (code = 0x0C → s.replay core seq = s.fatal x.ctx { cause := .trap, code := 0x0C, addr := va, who := eid }) ∧
        (code ≠ eccCode → code ≠ 0x0C → s.replay core seq =
          (s.updEntry core seq fun y => { y with unit := va / 65536, vaddr := va, code := code, due := false,
                                                 efmt := s.unitEfmt k x.ctx (va / 65536) }).formRecord core
            { ctx := x.ctx, aux := level, pc := 0, lanes := x.lanes, word := x.word, write := true, origin := 2, code := code,
              vaddr := va, id := eid, time := s.clock })))) ∧
  (∀ (s : State) (ctx core slot seq : Nat), core < 2 ^ 10 → slot < 2 ^ 6 → seq < 2 ^ 32 →
    let eid := fun kind => 2 ^ 63 + kind * 2 ^ 48 + core * 2 ^ 38 + slot * 2 ^ 32 + seq
    ((∀ x, s.entry? core seq = some x → x.ctx ≠ ctx ∨ s.entryEid core x ≠ eid 0) → s.repairId ctx (eid 0) = (s, 1)) ∧
    (∀ x, s.entry? core seq = some x → x.ctx = ctx → s.entryEid core x = eid 0 →
      s.repairId ctx (eid 0) = (s.replayUnit ctx x.unit, 0)) ∧
    ∀ kind, kind = 1 ∨ kind = 2 →
      (s.findOp ctx kind core slot seq = none → s.repairId ctx (eid kind) = (s, 1)) ∧
      (∀ n o, s.findOp ctx kind core slot seq = some n → s.op? n = some o →
        (o.stopped = true → s.repairId ctx (eid kind) = (s.updOp n fun o => { o with stopped := false }, 0)) ∧
        (o.stopped = false → s.repairId ctx (eid kind) = (s, 3))))

/-! Branches, jumps and joins. -/

/-- The per-lane branches (R185): with no unknown trit, or with UK other than x, each lane goes where its trit and UK say, and
the fragment splits by destination (R87); an unknown trit under UK = x takes trap 0x06 with those lanes in FLANES; a split that
finds no descriptor takes trap 0x09, and no lane moves. -/
def Sys2Proof.Claims.DivergentBranches : Prop := ∀ (s : State) (e : Env) (uk : Uk) (q : BitVec 4) (off : BitVec 18),
  let target := branchTarget e.pc off
  let unknown := e.lanes.filter fun l => e.q q.toNat l = .u
  let groups := fun (dest : Trit → Dword) =>
    groupBy' [e.pc + 4, target, e.pc + 8] (fun l => dest (e.q q.toNat l)) e.lanes
  let kgroups := groupBy' [e.pc + 4, target] (fun l => if e.q q.toNat l = .u then e.pc + 4 else target) e.lanes
  (∀ t, uk ≠ .x ∨ unknown = [] → s.split e (groups (branchTo .t uk e.pc target)) = some t →
    Runs s (.brT uk q off) e fun _ => t) ∧
  (∀ t, uk ≠ .x ∨ unknown = [] → s.split e (groups (branchTo .f uk e.pc target)) = some t →
    Runs s (.brF uk q off) e fun _ => t) ∧
  (∀ t, s.split e kgroups = some t → Runs s (.brK q off) e fun _ => t) ∧
  (uk = .x → unknown ≠ [] →
    Runs s (.brT uk q off) e (fun s => s.trapAt e 0x06 0 e.pc 0 (maskOf unknown)) ∧
    Runs s (.brF uk q off) e (fun s => s.trapAt e 0x06 0 e.pc 0 (maskOf unknown))) ∧
  (uk ≠ .x ∨ unknown = [] → s.split e (groups (branchTo .t uk e.pc target)) = none →
    Runs s (.brT uk q off) e fun s => s.trapAt e 0x09 0 e.pc 0 e.f.lanes) ∧
  (uk ≠ .x ∨ unknown = [] → s.split e (groups (branchTo .f uk e.pc target)) = none →
    Runs s (.brF uk q off) e fun s => s.trapAt e 0x09 0 e.pc 0 e.f.lanes) ∧
  (s.split e kgroups = none → Runs s (.brK q off) e fun s => s.trapAt e 0x09 0 e.pc 0 e.f.lanes)

/-- A split puts every lane where its destination says (R87): each lane is held by a fragment of the course whose pc is the
lane's destination and whose join stack is F's, and the fragments that were there beside F are as they were, but that a
monitor on a line of the save area may fire where a descriptor is written there (R100, R279; log 68). -/
def Sys2Proof.Claims.SplitPlacesLanes : Prop := ∀ (s t : State) (e : Env) (order : List Dword) (dest : Nat → Dword),
  s.issuer? = some e → s.courses.sorted = true → e.c.frags.sorted = true → e.f.only = 0 → e.f.lanes ≠ 0 →
  e.c.frags.length ≤ 4096 → (∀ p ∈ e.c.frags, p.1 < 65536) → (∀ l ∈ e.lanes, dest l ∈ order) →
  s.split e (groupBy' order dest e.lanes) = some t →
  (∀ l ∈ e.lanes, ∃ n f, t.frag? ⟨e.r.uid, n⟩ = some f ∧ f.lanes.getLsbD l = true ∧ f.pc = dest l ∧ f.joins = e.f.joins ∧
    f.s1 = e.f.s1 ∧ f.s2 = e.f.s2) ∧
  (∀ n f, n ≠ e.r.serial → s.frag? ⟨e.r.uid, n⟩ = some f → ∃ f', t.frag? ⟨e.r.uid, n⟩ = some f' ∧ f'.lanes = f.lanes ∧
    f'.pc = f.pc ∧ f'.joins = f.joins ∧ (s.monitors = [] → f' = f))

/-- The uniform branches (R186): the Kleene combination of F's trits decides for all of F, which never splits. -/
def Obligations.UniformBranches : Prop := ∀ (s : State) (e : Env) (q : BitVec 4) (off : BitVec 18),
  let a := (e.lanes.map fun l => e.q q.toNat l).foldr Trit.or .f
  let b := (e.lanes.map fun l => e.q q.toNat l).foldr Trit.and .t
  let target := branchTarget e.pc off
  let decides := fun (i : Uk → Instr) (c : Trit) =>
    (∀ uk, c = .t → GoesTo s (i uk) e target) ∧ (∀ uk, c = .f → GoesTo s (i uk) e (e.pc + 4)) ∧
    (c = .u → GoesTo s (i .t) e target ∧ GoesTo s (i .f) e (e.pc + 4) ∧ GoesTo s (i .w) e (e.pc + 8) ∧
      Runs s (i .x) e fun s => s.trapAt e 0x06 0 e.pc 0 e.f.lanes)
  decides (fun uk => .brAny uk q off) a ∧ decides (fun uk => .brAll uk q off) b ∧ decides (fun uk => .brNone uk q off) a.not

/-- The jumps and calls (R188, R189): every source register is read before vD is written, an absent word index names no
address, and a lane with one keeps vD under calx; a split that finds no descriptor takes trap 0x09, and no lane moves (R87, R98). -/
def Sys2Proof.Claims.JumpsAndCalls : Prop := ∀ (s : State) (e : Env) (d a : Reg) (off : BitVec 17),
  let groups := groupBy' (e.lanes.map (jumpTo e a)) (jumpTo e a) e.lanes
  GoesTo s (.jmpJ off) e (branchTarget e.pc off) ∧
  Runs s (.jmpCall d off) e (fun s => (s.putV e d fun _ => some (linkWord e.pc)).goTo e (branchTarget e.pc off)) ∧
  (∀ t, s.split e groups = some t → Runs s (.jmpJx a) e (fun _ => t) ∧ Runs s (.jmpRet a) e (fun _ => t)) ∧
  (∀ t, (s.split e groups).isSome = true →
    (s.putV e d fun l => if e.v .n32 a l = BitVec.allOnes 32 then none else some (linkWord e.pc)).split e groups = some t →
    Runs s (.jmpCalx d a) e fun _ => t) ∧
  (s.split e groups = none →
    Runs s (.jmpJx a) e (fun s => s.trapAt e 0x09 0 e.pc 0 e.f.lanes) ∧
    Runs s (.jmpRet a) e (fun s => s.trapAt e 0x09 0 e.pc 0 e.f.lanes) ∧
    Runs s (.jmpCalx d a) e fun s => s.trapAt e 0x09 0 e.pc 0 e.f.lanes)

/-- jmp.joinat and jmp.join (R95, R191, R192): joinat pushes its target with the lanes of F, and a push onto 8 entries takes
trap 0x09 with FADDR = 1; join at the address of the top entry waits and completes the joins that are complete, and elsewhere
counts JOIN_MISMATCH and goes on. That a spilled fragment which waits there is there is the model's reading (log 80). -/
def Sys2Proof.Claims.JoinPoints : Prop := ∀ (s : State) (e : Env) (off : BitVec 17),
  (e.f.joins.length < 8 → Runs s (.jmpJoinat off) e fun s =>
    (s.updFrag e.r fun f => { f with joins := (branchTarget e.pc off, f.lanes) :: f.joins }).advance e) ∧
  (8 ≤ e.f.joins.length → Runs s (.jmpJoinat off) e fun s => s.trapAt e 0x09 0 e.pc 1 e.f.lanes) ∧
  ((∀ top ∈ e.f.joins.head?, top.1 ≠ e.pc) → Runs s .jmpJoin e fun s => (s.raise e.c.ctx .joinMismatch).advance e) ∧
  ((∃ top ∈ e.f.joins.head?, top.1 = e.pc) →
    Runs s .jmpJoin e fun s => (s.await e .join .joined).checkJoins e.r.uid)

/-- How joins complete (R95, R192, R193): the fragments of the course that wait with one top entry merge, once every lane of the
entry's lane set is in one of them or has exited; no other fragment merges. The merged fragment pops the entry, goes on at the
next word and is READY, and the watchdog falls to 0. -/
def Sys2Proof.Claims.JoinCompletion : Prop := ∀ (s : State) (uid : Nat) (c : Course), s.course? uid = some c →
  c.frags.sorted = true →
  let waits := fun (top : Dword × Dword) (p : Nat × Frag) => p.2.state = .waiting .join .joined ∧ p.2.joins.head? = some top
  let complete := fun (top : Dword × Dword) => ∀ l, top.2.getLsbD l = true →
    c.exited.getLsbD l = true ∨ ∃ p ∈ c.frags, waits top p ∧ p.2.lanes.getLsbD l = true
  let on := fun (f : Frag) => { (f.goTo (f.pc + 4)).wake s.clock with joins := f.joins.drop 1 }
  (∃ ends : List (List Nat),
    (ends.Pairwise fun a b => ∀ n ∈ a, n ∉ b) ∧
    (∀ ns ∈ ends, ns ≠ [] ∧ ns.Nodup ∧ ∃ top, complete top ∧ ∀ n, n ∈ ns ↔ ∃ f, (n, f) ∈ c.frags ∧ waits top (n, f)) ∧
    (∀ p ∈ c.frags, ∀ top, waits top p → complete top → ∃ ns ∈ ends, p.1 ∈ ns) ∧
    s.checkJoins uid = ends.foldl (fun t ns => (t.merge uid ns on).kick c.age) s) ∧
  (∀ f, (on f).pc = f.pc + 4 ∧ (on f).state = .ready ∧ (on f).joins = f.joins.tail ∧ (on f).lanes = f.lanes ∧
    (on f).s1 = f.s1 ∧ (on f).s2 = f.s2)

/-- What a merge makes of the fragments of a course (R95, R96, R175, R190, R207): the one that holds the lowest lane keeps its
identity, and with it its pc, its join stack, s1, s2 and its trap registers, and has the lanes of all of them; the others are
gone, and every other fragment is as it was. Where s1 or s2 differ, STACK_MERGE_MISMATCH rises. -/
def Sys2Proof.Claims.MergedFragments : Prop := ∀ (s : State) (uid : Nat) (serials : List Nat) (g : Frag → Frag) (c : Course) (n : Nat)
    (f : Frag),
  s.course? uid = some c → c.frags.sorted = true → serials.Nodup → n ∈ serials → c.frags.get? n = some f →
  (∀ m ∈ serials, m ≠ n → ∀ h, c.frags.get? m = some h → lowestLane f.lanes < lowestLane h.lanes) →
  let parts := serials.filterMap fun m => c.frags.get? m
  ∃ (one : Frag) (frags : Tab Frag),
    (∀ l, one.lanes.getLsbD l = parts.any fun h => h.lanes.getLsbD l) ∧
    (∀ l, one.granted.getLsbD l = parts.any fun h => h.granted.getLsbD l) ∧
    (∀ l, one.denied.getLsbD l = parts.any fun h => h.denied.getLsbD l) ∧
    (∀ p, p ∈ one.pinned ↔ ∃ h ∈ parts, p ∈ h.pinned) ∧
    (one.mark.isSome = parts.any fun h => h.mark.isSome) ∧
    one.spilled = (parts.all fun h => h.spilled) ∧ one.reserved = (parts.any fun h => h.reserved) ∧
    one = { f with lanes := one.lanes, granted := one.granted, denied := one.denied, pinned := one.pinned, mark := one.mark,
                   spilled := one.spilled, reserved := one.reserved, diverged := one.diverged, outcomes := [], totV := none } ∧
    frags.get? n = some (g one) ∧ (∀ m ∈ serials, m ≠ n → frags.get? m = none) ∧
    (∀ m, m ∉ serials → frags.get? m = c.frags.get? m) ∧
    let t := s.updCourse uid fun c => { c with frags := frags }
    ((∀ h ∈ parts, h.s1 = f.s1 ∧ h.s2 = f.s2) → s.merge uid serials g = t) ∧
    ((∃ h ∈ parts, h.s1 ≠ f.s1 ∨ h.s2 ≠ f.s2) → s.merge uid serials g = t.raise c.ctx .stackMergeMismatch)

/-- ctl.nop has no effect (R198) but that the fragment goes on. -/
def Sys2Proof.Claims.Nop : Prop := ∀ (s : State) (e : Env), GoesTo s .ctlNop e (e.pc + 4)

/-- ctl.win, yield, exit and prio (R116, R195 to R197, R199; spilled fragments at joins and barriers: log 80): prio has no effect for a course without the token, in a pair that
holds no other course, and in one that it shares with another wall. -/
def Sys2Proof.Claims.CourseControl : Prop := ∀ (s : State) (e : Env),
  (∀ ws wv, Runs s (.ctlWin ws wv) e fun s =>
    (s.updCourse e.r.uid fun c => { c with ws := 8 * ws.toNat, wv := 8 * wv.toNat }).advance e) ∧
  (∀ ws wv, (Instr.ctlWin ws wv).legal = true ↔ 8 * ws.toNat ≤ 320 ∧ 8 * wv.toNat ≤ 192) ∧
  Runs s .ctlYield e (fun s =>
    ((s.updWall e.c.age fun w => { w with watchdog := 0 }).updFrag e.r fun f => { f with readyTime := s.clock }).advance e) ∧
  Runs s .ctlExit e (fun s =>
    (((s.updCourse e.r.uid fun c => { c with exited := c.exited ||| e.f.lanes, frags := c.frags.erase e.r.serial }).updWall
      e.c.age fun w => { w with watchdog := 0 }).checkJoins e.r.uid).checkBarriers e.c.age) ∧
  (∀ uid o, s.pairOf e.c = some (uid, o) → e.c.token = true → o.age = e.c.age → Runs s .ctlPrio e fun s =>
    ((s.updCourse e.r.uid fun c => { c with token := false }).updCourse uid fun c => { c with token := true }).advance e) ∧
  ((e.c.token = false ∨ s.pairOf e.c = none ∨ ∃ uid o, s.pairOf e.c = some (uid, o) ∧ o.age ≠ e.c.age) →
    GoesTo s .ctlPrio e (e.pc + 4))

/-! Loads and stores (R206, R208, R244 to R259). -/

/-- The loads from global memory (R206, R208, R252 to R255, R258): where no side-log entry holds an access back and every unit
translates, the instruction becomes an outstanding operation with the bytes of each lane's own address, and the fragment goes
on. ld.k accesses memory once. How s2 is read is log 81. -/
def Sys2Proof.Claims.GlobalLoads : Prop := ∀ (s : State) (e : Env) (ok : Tab Leaf) (d a b : Reg) (off : BitVec 9),
  let loads := fun (i : Instr) (size : Nat) (const : Bool) (g : Nat → Option Nat) =>
    e.f.active ≠ 0 → Reaches s e (accesses e size g) false ok →
      Runs s i e (startsLoad e (.vector (e.vreg d) size) (onesFor e size g) (accesses e size g) ok const)
  (∀ sz : MSz, loads (.ldG sz d a off) (bytesOf sz) false (globalOf e a off (bytesOf sz)) ∧
    loads (.ldxG sz d a b) (bytesOf sz) false (indexedOf e a b (bytesOf sz))) ∧
  (∀ wide : Bool, loads (.ldC wide d a off) (if wide then 8 else 4) true (globalOf e a off (if wide then 8 else 4))) ∧
  (0 ≤ e.f.s1.toInt + off.toInt → e.f.s1.toInt + off.toInt < (min e.f.s2.toNat e.c.stack : Nat) →
    loads (.ldStk d off) 4 false (fun l => some (slotOf s e off l))) ∧
  (∀ wide : Bool, let size : Nat := if wide then 8 else 4
    let va := (e.sb a + BitVec.ofInt 64 (off.toInt * size)).toNat
    e.sb a ≠ BitVec.allOnes 64 → Reaches s e [⟨0, va, size⟩] false ok →
      Runs s (.ldK wide d a off) e (startsLoad e (e.sDest d) [] [⟨0, va, size⟩] ok false)) ∧
  (∀ wide : Bool, e.sb a = BitVec.allOnes 64 → Reaches s e [] false ok →
    Runs s (.ldK wide d a off) e (startsLoad e (e.sDest d) [(0, List.replicate 8 0xFF)] [] ok false))

/-- The loads from stash (R245, R247, R252, R258, R262): inside the window the bytes are those at acceptance, which is the model's
choice (log 66); in a bound region those of the global lines. A byte outside takes trap 0x04 with the lowest such offset in FADDR
and the lanes that name one in FLANES (log 11). -/
def Sys2Proof.Claims.StashLoads : Prop := ∀ (s : State) (e : Env) (d a b : Reg) (off : BitVec 9) (sz : MSz),
  let loads := fun (i : Instr) (g : Nat → Option Int) =>
    (∀ u, e.f.active ≠ 0 → inWindow e (bytesOf sz) g → StashOpen s e (offsetsOf e (bytesOf sz) g) u →
      Runs s i e fun _ =>
        startsLoad e (.vector (e.vreg d) (bytesOf sz)) (stashLoads u e (bytesOf sz) g) [] [] false u) ∧
    (∀ lowest, Least lowest (outsideWindow e (bytesOf sz) g) → Runs s i e fun s =>
      s.trapAt e 0x04 0 e.pc (BitVec.ofInt 64 lowest) (lanesOutside e (bytesOf sz) g))
  loads (.ldS sz d a off) (stashOf e a off (bytesOf sz)) ∧ loads (.ldxS sz d a b) (stashIndexedOf e a b (bytesOf sz))

/-- A stash access of lanes that a bound region holds back (R262, R330, R345, R359, R473, R485): an entry of the side log or an
operation of the course that is to come there makes it wait; an address that no window maps is trap 0x0C with the lowest such
address and its lanes; a marked line ends the context. -/
def Sys2Proof.Claims.BoundAccesses : Prop := ∀ (s : State) (e : Env) (d a b : Reg) (off : BitVec 9) (sz : MSz),
  let held := fun (i : Instr) (g : Nat → Option Int) =>
    let bound := e.w.boundVas (offsetsOf e (bytesOf sz) g)
    let locs := bound.map fun p => s.place p.2
    let entry := s.sideAt e fun va => bound.any fun p => p.1 == va
    let lost := (bound.filter fun p => !s.mapped p.2).map fun p => p.1
    let lanes := maskOf (e.lanes.filter fun l => match g l with
      | some o => (List.range (bytesOf sz)).any fun j => (e.w.boundVas [o.toNat + j]).any fun p => !s.mapped p.2
      | none => false)
    e.w.regions ≠ [] → inWindow e (bytesOf sz) g →
    (∀ n, entry = some n → Runs s i e fun s => s.await e .counter (.entry e.c.core n)) ∧
    (∀ va, entry = none → va ∈ lost → (∀ x ∈ lost, va ≤ x) →
      Runs s i e fun s => s.trapAt e 0x0C 0 e.pc (BitVec.ofNat 64 va) lanes) ∧
    (entry = none → lost = [] → s.courseBusy e.r.uid locs ≠ [] →
      Runs s i e fun s => s.await e .counter (.ops (s.courseBusy e.r.uid locs))) ∧
    (∀ line, entry = none → lost = [] → s.courseBusy e.r.uid locs = [] → s.markedIn locs = some line →
      Runs s i e fun s => s.memError line e.c.ctx)
  held (.ldS sz d a off) (stashOf e a off (bytesOf sz)) ∧ held (.ldxS sz d a b) (stashIndexedOf e a b (bytesOf sz)) ∧
  held (.stS sz d a off) (stashOf e a off (bytesOf sz)) ∧ held (.stxS sz d a b) (stashIndexedOf e a b (bytesOf sz))

/-- The stores (R206, R208, R247, R250, R252 to R255, R258, R262, R333): where nothing holds them back, the data of each lane with
an address is queued for memory at that address, or written to the stash window at acceptance, which is the model's choice (log
66): in a bound region as writes of the operation. A lane with an absent base or index stores nothing; a byte outside the window
takes trap 0x04 with the lowest such offset in FADDR (log 11). st.k stores once for the course; its access counts as one of F's
lowest lane, which is the model's reading (log 22), as is how s2 is read (log 81). The records of one store stand in the order of its units (log 49). -/
def Sys2Proof.Claims.Stores : Prop := ∀ (s : State) (e : Env) (ok : Tab Leaf) (d a b : Reg) (off : BitVec 9),
  let puts := fun (i : Instr) (size : Nat) (row : Bool) (g : Nat → Option Nat) =>
    Reaches s e ((stores e d size g).map fun a => a.acc) true ok → Runs s i e (startsStore e row [] (stores e d size g) ok)
  let puts' := fun (i : Instr) (size : Nat) (g : Nat → Option Int) =>
    (∀ u, inWindow e size g → StashOpen s e (offsetsOf e size g) u →
      Runs s i e fun _ => startsStore e false (stashStores e d size g) [] [] u) ∧
    (∀ lowest, Least lowest (outsideWindow e size g) → Runs s i e fun s =>
      s.trapAt e 0x04 0 e.pc (BitVec.ofInt 64 lowest) (lanesOutside e size g))
  (∀ sz : MSz, puts (.stG sz d a off) (bytesOf sz) (isS a) (globalOf e a off (bytesOf sz)) ∧
    puts (.stxG sz d a b) (bytesOf sz) false (indexedOf e a b (bytesOf sz)) ∧
    puts' (.stS sz d a off) (bytesOf sz) (stashOf e a off (bytesOf sz)) ∧
    puts' (.stxS sz d a b) (bytesOf sz) (stashIndexedOf e a b (bytesOf sz))) ∧
  (0 ≤ e.f.s1.toInt + off.toInt → e.f.s1.toInt + off.toInt < (min e.f.s2.toNat e.c.stack : Nat) →
    puts (.stStk d off) 4 true (fun l => some (slotOf s e off l))) ∧
  (∀ wide : Bool, let size : Nat := if wide then 8 else 4
    let va := (e.sb a + BitVec.ofInt 64 (off.toInt * size)).toNat
    let st : StAcc := ⟨⟨lowestLane e.f.active, va, size⟩, natLe size (e.sb d).toNat⟩
    (e.sb a ≠ BitVec.allOnes 64 → Reaches s e [st.acc] true ok → Runs s (.stK wide d a off) e (startsStore e false [] [st] ok)) ∧
    (e.sb a = BitVec.allOnes 64 → Reaches s e [] true ok → Runs s (.stK wide d a off) e (startsStore e false [] [] ok)))

/-- A stack slot outside the limit (R208): trap 0x05 with the slot number in FADDR; and a violation (R359): trap 0x0C with the
lowest violating address, before any lane has an effect; FLANES of ld.k and st.k is F (log 22). -/
def Sys2Proof.Claims.AccessTraps : Prop := ∀ (s : State) (e : Env) (d a b : Reg) (off : BitVec 9),
  let inside := 0 ≤ e.f.s1.toInt + off.toInt ∧ e.f.s1.toInt + off.toInt < (min e.f.s2.toNat e.c.stack : Nat)
  let violates := fun (i : Instr) (accs : List Acc) (write : Bool) (whole : Bool) =>
    ∀ va lanes, s.sideHit e accs = none → s.plan e accs write = .violation va lanes →
      Runs s i e fun s => s.trapAt e 0x0C 0 e.pc (BitVec.ofNat 64 va) (if whole then e.f.lanes else lanes)
  (¬ inside →
    Runs s (.ldStk d off) e (fun s => s.trapAt e 0x05 0 e.pc (BitVec.ofInt 64 (e.f.s1.toInt + off.toInt)) e.f.lanes) ∧
    Runs s (.stStk d off) e (fun s => s.trapAt e 0x05 0 e.pc (BitVec.ofInt 64 (e.f.s1.toInt + off.toInt)) e.f.lanes)) ∧
  (inside →
    violates (.ldStk d off) (accesses e 4 fun l => some (slotOf s e off l)) false false ∧
    violates (.stStk d off) (accesses e 4 fun l => some (slotOf s e off l)) true false) ∧
  (∀ sz : MSz,
    violates (.ldG sz d a off) (accesses e (bytesOf sz) (globalOf e a off (bytesOf sz))) false false ∧
    violates (.ldxG sz d a b) (accesses e (bytesOf sz) (indexedOf e a b (bytesOf sz))) false false ∧
    violates (.stG sz d a off) (accesses e (bytesOf sz) (globalOf e a off (bytesOf sz))) true false ∧
    violates (.stxG sz d a b) (accesses e (bytesOf sz) (indexedOf e a b (bytesOf sz))) true false) ∧
  (∀ wide : Bool, let size : Nat := if wide then 8 else 4
    let va := (e.sb a + BitVec.ofInt 64 (off.toInt * size)).toNat
    violates (.ldC wide d a off) (accesses e size (globalOf e a off size)) false false ∧
    (e.sb a ≠ BitVec.allOnes 64 → violates (.ldK wide d a off) [⟨0, va, size⟩] false true ∧
      violates (.stK wide d a off) [⟨lowestLane e.f.active, va, size⟩] true true))

/-- The loads that meet repairable faults (R89, R250, R358, R362, R364): the lanes whose units all translate become the
operation, and the others park, in one group for each unit and code, a lane over two with the lowest (log 10); where their records
find no room (log 36), the instruction is held back. -/
def Sys2Proof.Claims.FaultingLoads : Prop := ∀ (s : State) (e : Env) (ok : Tab Leaf) (bad : Tab (Nat × Nat)) (d a b : Reg)
    (off : BitVec 9),
  let parks := fun (i : Instr) (dst : Dest) (got : Tab (List Byte)) (accs : List Acc) (whole : Option Dword) (const : Bool) =>
    let good := accs.filter fun a => (faultOf bad a).isNone
    let groups := faultGroups bad accs false (encode i).toNat whole
    s.sideHit e accs = none → s.plan e accs false = .go ok bad → groups ≠ [] →
    (s.heldFull e.c.core groups.length = false → Runs s i e fun s =>
      (if got = [] ∧ good = [] then s else loadOp e dst got good ok const s).park e groups) ∧
    (s.heldFull e.c.core groups.length = true → e.f.held = false → Runs s i e (heldBack e))
  let lanes := fun (i : Instr) (size : Nat) (g : Nat → Option Nat) (const : Bool) =>
    parks i (.vector (e.vreg d) size) (onesFor e size g) (accesses e size g) none const
  (∀ sz : MSz, lanes (.ldG sz d a off) (bytesOf sz) (globalOf e a off (bytesOf sz)) false ∧
    lanes (.ldxG sz d a b) (bytesOf sz) (indexedOf e a b (bytesOf sz)) false) ∧
  (∀ wide : Bool, let size : Nat := if wide then 8 else 4
    lanes (.ldC wide d a off) size (globalOf e a off size) true ∧
    (e.sb a ≠ BitVec.allOnes 64 → parks (.ldK wide d a off) (e.sDest d) []
      [⟨0, (e.sb a + BitVec.ofInt 64 (off.toInt * size)).toNat, size⟩] (some e.f.active) false)) ∧
  (0 ≤ e.f.s1.toInt + off.toInt → e.f.s1.toInt + off.toInt < (min e.f.s2.toNat e.c.stack : Nat) →
    lanes (.ldStk d off) 4 (fun l => some (slotOf s e off l)) false)

/-- The stores that meet repairable faults (R253, R358, R360, R362, R364): the lanes whose units all translate are stored; the units
of the others, a lane over two counting for the lowest (log 10), enter the side log one after another while it has room for all the
entries of a unit, in entries of one unit and code for each half of a 64-lane course, two for b128; where all have, the fragment goes
on, and otherwise the lanes of the units without room park, and SIDELOG_FULL rises for each. Where their records find no room, the
store is held back (log 36). That the lanes of a unit whose entries do not all fit park together is the model's reading (log 92). -/
def Sys2Proof.Claims.FaultingStores : Prop := ∀ (s : State) (e : Env) (ok : Tab Leaf) (bad : Tab (Nat × Nat)) (d a b : Reg)
    (off : BitVec 9),
  let logs := fun (i : Instr) (row : Bool) (accs : List StAcc) (whole : Option Dword) =>
    let good := accs.filter fun a => (faultOf bad a.acc).isNone
    let keys := dedup (accs.filterMap fun a => faultOf bad a.acc)
    let parts := fun (k : Nat × Nat × Nat) => sideSplit (accs.filter fun a => faultOf bad a.acc == some k)
    let room := sideRoom (fun k => (parts k).length) (s.sideUsed e.c.core) keys
    let count := (room.1.flatMap parts).length + room.2.length
    let enters := fun (t : State) => room.1.foldl (fun t k => (parts k).foldl (fun t l =>
      t.sideAdd e (encode i).toNat k.1 k.2.1 k.2.2 accs l none) t) (storeOp e row [] good ok t)
    s.sideHit e (accs.map fun a => a.acc) = none → s.plan e (accs.map fun a => a.acc) true = .go ok bad → keys ≠ [] →
    (s.heldFull e.c.core count = false → room.2 = [] → Runs s i e fun s => (enters s).advance e) ∧
    (s.heldFull e.c.core count = false → room.2 ≠ [] → Runs s i e fun s =>
      (room.2.foldl (fun (t : State) _ => t.raise e.c.ctx .sidelogFull) (enters s)).park e (faultGroups bad
        ((accs.map fun a => a.acc).filter fun a => (faultOf bad a).any fun k => room.2.contains k) true (encode i).toNat whole)) ∧
    (s.heldFull e.c.core count = true → e.f.held = false → Runs s i e (heldBack e))
  (∀ sz : MSz, logs (.stG sz d a off) (isS a) (stores e d (bytesOf sz) (globalOf e a off (bytesOf sz))) none ∧
    logs (.stxG sz d a b) false (stores e d (bytesOf sz) (indexedOf e a b (bytesOf sz))) none) ∧
  (∀ wide : Bool, let size : Nat := if wide then 8 else 4
    e.sb a ≠ BitVec.allOnes 64 → logs (.stK wide d a off) false
      [⟨⟨lowestLane e.f.active, (e.sb a + BitVec.ofInt 64 (off.toInt * size)).toNat, size⟩, natLe size (e.sb d).toNat⟩]
      (some e.f.active)) ∧
  (0 ≤ e.f.s1.toInt + off.toInt → e.f.s1.toInt + off.toInt < (min e.f.s2.toNat e.c.stack : Nat) →
    logs (.stStk d off) true (stores e d 4 fun l => some (slotOf s e off l)) none)

/-- The lanes of a store that enter the side log (R252, R360, R362, R363): one entry holds the addresses and bytes of its lanes, but
for those that a higher lane of the store writes too, and the unit, with the size of a lane's bytes and EFMT of the unit's leaf, if it has
one (log 109); STC rises by one, and a record of origin 2 with the entry's EID
and its lowest address in the unit is formed. A unit enters where the log's 256 entries have room for all of its entries. -/
def Sys2Proof.Claims.SideLogEntries : Prop := (∀ (s : State) (e : Env) (word unit code level : Nat) (store accs : List StAcc),
  let t := s.sideAdd e word unit code level store accs none
  let bytes := fun (a : StAcc) => (List.range a.data.length).map fun i => ((a.acc.va + i) % 2 ^ 64, a.data.getD i 0)
  let n := (s.core e.c.core).seq
  let lanes := maskOf (accs.map fun a => a.acc.lane)
  (∃ x, (t.core e.c.core).side = (s.core e.c.core).side ++ [x] ∧ x.seq = n ∧ x.uid = e.r.uid ∧ x.ctx = e.c.ctx ∧
    x.unit = unit ∧ x.code = code ∧ x.lanes = lanes ∧ x.sig = none ∧ x.due = false ∧ x.op = s.nextOp ∧
    (∀ a more, accs = a :: more → x.size = a.acc.len) ∧
    (∀ l, s.xlate e.island e.c.ctx (unit * 65536) false = .ok l → x.efmt = some l.efmt) ∧
    ((∀ l, s.xlate e.island e.c.ctx (unit * 65536) false ≠ .ok l) → x.efmt = none) ∧
    x.cells = accs.flatMap fun a => (bytes a).filter fun c =>
      !store.any fun b => a.acc.lane < b.acc.lane && ((bytes b).map fun d => d.1).contains c.1) ∧
  (∃ x, (t.core e.c.core).held = (s.core e.c.core).held ++ [x] ∧ x.origin = 2 ∧ x.code = code ∧ x.aux = level ∧
    x.lanes = lanes ∧ x.word = word ∧ x.write = true ∧ x.id = eidOf 0 e.c.core e.c.slot n ∧ x.time = s.clock ∧
    (accs ≠ [] → (∀ a ∈ accs, a.acc.len ≤ 16 ∧ ∃ i < a.acc.len, (a.acc.va + i) % 2 ^ 64 / 65536 = unit) →
      (∃ a ∈ accs, ∃ i < a.acc.len, x.vaddr = (a.acc.va + i) % 2 ^ 64 ∧ x.vaddr / 65536 = unit) ∧
      ∀ a ∈ accs, ∀ i < a.acc.len, (a.acc.va + i) % 2 ^ 64 / 65536 = unit → x.vaddr ≤ (a.acc.va + i) % 2 ^ 64)) ∧
  (t.core e.c.core).seq = (n + 1) % 2 ^ 32 ∧
  (s.courses.sorted = true → s.course? e.r.uid = some e.c →
    (t.course? e.r.uid).map (fun c => c.stc) = some (e.c.stc + 1))) ∧
  (∀ (need : Nat × Nat × Nat → Nat) (used : Nat) (keys : List (Nat × Nat × Nat)), used ≤ 256 →
    let r := sideRoom need used keys
    r.1.Sublist keys ∧ r.2.Sublist keys ∧ (∀ k ∈ keys, k ∈ r.1 ∨ k ∈ r.2) ∧ r.1.length + r.2.length = keys.length ∧
    used + (r.1.map need).sum ≤ 256 ∧ ∀ k ∈ r.2, 256 < used + (r.1.map need).sum + need k)

/-- Parking lanes while every group finds an entry and some lane goes on (R88, R89, R99): each group is held by a fragment parked
with its code at the word, the other lanes of F go on, and one record for each group that has one joins the core's unwritten
records. -/
def Sys2Proof.Claims.ParkingLanes : Prop := ∀ (s : State) (e : Env) (gs : List PGroup),
  let all := gs.foldl (fun m g => m ||| g.lanes) 0#64
  let t := s.park e gs
  s.issuer? = some e → s.courses.sorted = true → e.c.frags.sorted = true → e.c.frags.length ≤ 4096 →
  (∀ p ∈ e.c.frags, p.1 < 65536) → (∀ g ∈ gs, g.lanes ≠ 0 ∧ g.lanes &&& e.f.lanes = g.lanes) →
  gs.Pairwise (fun g h => g.lanes &&& h.lanes = 0) → e.f.lanes &&& ~~~all ≠ 0 → gs.length ≤ s.entryRoom e.c.core →
  (∀ g ∈ gs, ∀ l < 64, g.lanes.getLsbD l = true → ∃ n f, t.frag? ⟨e.r.uid, n⟩ = some f ∧ f.lanes = g.lanes ∧
    f.state = .parked g.code g.on ∧ f.pc = e.f.pc ∧ f.joins = e.f.joins) ∧
  (∃ f, t.frag? e.r = some f ∧ f.lanes = e.f.lanes &&& ~~~all ∧ f.pc = e.f.pc + 4) ∧
  (t.core e.c.core).held.length = (s.core e.c.core).held.length + (gs.filter fun g => g.info.isSome).length

/-- The translation of an instruction's accesses (R354, R355, R359): where every unit that they touch translates, the plan has
exactly those leaves; where none misses and one violates, it is a violation. -/
def Sys2Proof.Claims.PlanOfAccesses : Prop := ∀ (s : State) (e : Env) (accs : List Acc) (write : Bool),
  let units := accs.flatMap fun a => unitsOf a.va a.len
  let at' := fun u => s.lookup e.c.core e.c.ctx e.f.outcomes u write false
  ((∀ u ∈ units, ∃ l, at' u = .ok l) → ∃ ok, s.plan e accs write = .go ok [] ∧
    ∀ u l, ok.get? u = some l ↔ u ∈ units ∧ at' u = .ok l) ∧
  ((∀ u ∈ units, at' u ≠ .miss) → (∃ u ∈ units, at' u = .violation) →
    ∃ va lanes, s.plan e accs write = .violation va lanes) ∧
  ((∃ u ∈ units, at' u = .miss) → ∃ us, s.plan e accs write = .miss us ∧ ∀ u, u ∈ us ↔ u ∈ units ∧ at' u = .miss)

/-- LOAD_COMPLETE of a load (R250, R252, R254, R474): when no earlier access of the course to its bytes is left and no line that it
reads is marked, each lane's destination receives its bytes, those known at acceptance or those that the course's island sees now, under
ld.c the one that the core's constant cache holds or the present one, as a free value says (log 3); the constant cache takes the lines
that ld.c read, and the caching slices those of a C = 1 window; the operation is gone and LDC falls by one. That all lanes read at one
moment is the model's reading (log 100). -/
def Sys2Proof.Claims.LoadCompletion : Prop := ∀ (s : State) (id : Nat) (o : Op) (dst : Dest) (lanes : Dword) (ps : List Piece)
    (got : Tab (List Byte)) (const : Bool),
  s.op? id = some o → o.work = .load dst lanes ps got const → s.earlierAccess id o.uid o.work.touches = false →
  s.markedIn o.work.readLocs = none →
  let k := islandOf o.core
  let lines := dedup ((o.work.readLocs.filter s.cacheable).map lineOf)
  let u : State := { s with cached := s.cached ++ lines.filter fun l => l ∉ s.cached }
  let byte := fun (f loc : Nat) => match (s.core o.core).cc.get? (32 * lineOf loc + f) with
    | some line => if const = true ∧ Config.freeBool s.steps (lineOf loc) = true then line.getD (loc % 128) 0 else s.viewAt k f loc
    | none => s.viewAt k f loc
  let loaded := u.updCourse o.uid fun c => (lanesOf lanes).foldl (fun c l => c.putLoaded dst l (match got.get? l with
      | some bs => bs
      | none => (sortBy (fun (a b : Piece) => a.at' < b.at') (ps.filter fun p => p.lane == l)).flatMap fun p =>
          match p.tgt with
          | .mem loc f => (List.range p.len).map fun i => byte f (loc + i)
          | .stash _ => [])) c
  (const = false → Gives s (.loadComplete id) ((loaded.dropOp id).addLdc o.uid false)) ∧
  (const = true → (∀ p ∈ ps, ∀ loc g, p.tgt = .mem loc g → g < 32) → ∃ cc : Tab (List Byte),
    Gives s (.loadComplete id) (((loaded.updCore o.core fun c => { c with cc := cc }).dropOp id).addLdc o.uid false) ∧
    ∀ line f, f < 32 → let old := (s.core o.core).cc.get? (32 * line + f)
      let reads := ∃ p ∈ ps, ∃ loc, p.tgt = .mem loc f ∧ lineOf loc = line
      (old.isSome = true ∨ ¬ reads → cc.get? (32 * line + f) = old) ∧
      (old = none → reads → cc.get? (32 * line + f) = some (s.viewBytes k f (128 * line) 128))) ∧
  (∀ loc, s.cacheable loc = true ↔ isUnder loc = false ∧ ∃ p ∈ s.windows, s.winLive p.2 = true ∧ p.2.c = true ∧
    spaceOfWin p.2 = spaceOf loc ∧ p.2.tbase ≤ loc % 2 ^ 64 ∧ loc % 2 ^ 64 < p.2.tbase + p.2.size * 2 ^ 36)

/-- WRITE_APPLY (R327, R330, R332, R340): a queued write of under-stack memory first takes its place in the coherence order on
its own island, which then reads its bytes, while every byte elsewhere reads as before on every island; each other island then
applies it where its vector clock permits, and reads its bytes, unless a write later in the coherence order that it has applied
covers them. -/
def Obligations.StoresReachMemory : Prop := (∀ (s : State) (w : Write),
  (s.stores.find? fun x => x.id == w.id) = some w → w.origin < 4 → s.mayOriginate w = true →
  (∀ x ∈ s.writes, x.id ≠ w.id) → headWaits s.writes = true → (w.cells.map fun c => c.1).Nodup → w.cells ≠ [] →
  (∀ c ∈ w.cells, isUnder c.1 = true) →
  ∃ t, exec (.writeApply w.id w.origin) s = .next t ∧
    (∀ c ∈ w.cells, t.byteAt w.origin c.1 = c.2) ∧
    (∀ k loc, k < 4 → loc ∉ (w.cells.map fun c => c.1) → t.byteAt k loc = s.byteAt k loc) ∧
    (∀ k loc, k < 4 → k ≠ w.origin → t.byteAt k loc = s.byteAt k loc) ∧
    (∀ x ∈ t.stores, x.id ≠ w.id)) ∧
  (∀ (s : State) (w : Write) (before after : List Write) (k : Nat), (∀ x ∈ s.stores, x.id ≠ w.id) →
    s.writes = before ++ w :: after → (∀ x ∈ before ++ after, x.id ≠ w.id) → headWaits s.writes = true → k < 4 →
    s.mayApply k w = true → (w.cells.map fun c => c.1).Nodup → memWf s.mem = true →
    ∃ t, exec (.writeApply w.id k) s = .next t ∧
      (∀ c ∈ w.cells, (∀ x ∈ after, x.applied.getLsbD k = true → c.1 ∉ x.cells.map fun c => c.1) → t.byteAt k c.1 = c.2) ∧
      (∀ j loc, j < 4 → loc ∉ (w.cells.map fun c => c.1) → t.byteAt j loc = s.byteAt j loc) ∧
      (∀ j loc, j < 4 → j ≠ k → t.byteAt j loc = s.byteAt j loc))

/-- STORE_PERFORMED (R250): an operation whose writes are all performed is gone, and STC falls by one. -/
def Sys2Proof.Claims.StoreCompletion : Prop := ∀ (s : State) (id : Nat) (o : Op),
  s.op? id = some o → o.work = .store → (∀ w ∈ s.stores ++ s.writes, w.op ≠ id) →
  Gives s (.storePerformed id) ((s.dropOp id).addStc o.uid false)

/-! Atomics (R61, R264 to R270). -/

/-- The atomics (R246, R265, R269): where every access is aligned, reaches its unit and goes on under-stack memory, the
instruction becomes one operation with each lane's location and operand; rel and ar wait for the course's counters first. A lane
without an access has its result at once, and an instruction of such lanes only is done with that. A misaligned access takes trap 0x07
before any effect, with the lowest such address in FADDR and its lanes in FLANES. -/
def Sys2Proof.Claims.Atomics : Prop := ∀ (s : State) (e : Env) (ok : Tab Leaf) (d a : Reg) (sc : Sc) (ord : Ord4),
  let runs := fun (i : Instr) (op : AtOp) (size : Nat) =>
    ((ord = .rel ∨ ord = .ar → Quiet e) → e.f.only = 0 → atomicLanes e op size d a ≠ [] →
      (∀ p ∈ atomicLanes e op size d a, p.1.va % p.1.len = 0) →
      Reaches s e ((atomicLanes e op size d a).map fun p => p.1) true ok →
      (∀ p ∈ ok, ∀ x, p.1 * 65536 ≤ x → x < p.1 * 65536 + 65536 → isUnder (p.2.pa + (x - p.2.va)) = true) →
      Runs s i e (startsAtomic e op size d a ord ok)) ∧
    ((ord = .rel ∨ ord = .ar → Quiet e) → atomicLanes e op size d a = [] →
      Runs s i e fun s => (atomicAbsent e op size d a s).advance e) ∧
    (ord = .rel ∨ ord = .ar → ¬ Quiet e → (∀ p ∈ atomicLanes e op size d a, p.1.va % p.1.len = 0) →
      Runs s i e fun s => s.await e .counter (.counters 0 0 0)) ∧
    ((∃ p ∈ atomicLanes e op size d a, p.1.va % p.1.len ≠ 0) →
      ∃ va lanes, (∃ p ∈ atomicLanes e op size d a, p.1.va = va ∧ va % p.1.len ≠ 0) ∧
        (∀ p ∈ atomicLanes e op size d a, p.1.va % p.1.len ≠ 0 → va ≤ p.1.va) ∧
        (∀ l < 64, lanes.getLsbD l = true ↔ ∃ p ∈ atomicLanes e op size d a, p.1.lane = l ∧ p.1.va % p.1.len ≠ 0) ∧
        Runs s i e fun s => s.trapAt e 0x07 0 e.pc (BitVec.ofNat 64 va) lanes)
  let wide := fun (w : Bool) => if w then 8 else 4
  (∀ ty, runs (.atAdd ty d a sc ord) (.add (addFmt ty)) ((addFmt ty).bits / 8)) ∧
  (∀ ty, runs (.atMin ty d a sc ord) (.min (minFmt ty)) ((minFmt ty).bits / 8)) ∧
  (∀ ty, runs (.atMax ty d a sc ord) (.max (minFmt ty)) ((minFmt ty).bits / 8)) ∧
  (∀ w, runs (.atFadd w d a sc ord) (.fadd (if w then .f64 else .f32)) (wide w) ∧
    runs (.atAnd w d a sc ord) .and (wide w) ∧ runs (.atOr w d a sc ord) .or (wide w) ∧
    runs (.atXor w d a sc ord) .xor (wide w) ∧ runs (.atXchg w d a sc ord) .xchg (wide w) ∧
    runs (.atCas w d a sc ord) .cas (wide w) ∧ runs (.atSlot w d a sc ord) .slot (wide w))

/-- An atomic whose lanes do not all reach memory of the package (R265, R345, R355, R358, R359, R362, R364, R475 to R477). It waits for
a side-log entry that it overlaps and for units that miss; a violation is trap 0x0C before any effect. The lanes of a unit that faults
park, in one group for each unit and code, and so do those, with 0x22, of a unit whose path does not carry the form; none enters the side
log. The other lanes become the operation: those that are posted have all ones at once and count in STC only. Where the records find no
room (log 36) the instruction is held back. -/
def Sys2Proof.Claims.AtomicFaults : Prop := ∀ (s : State) (e : Env) (d a : Reg) (sc : Sc) (ord : Ord4),
  let runs := fun (i : Instr) (op : AtOp) (size : Nat) =>
    let lanes := atomicLanes e op size d a
    let accs := lanes.map fun p => p.1
    (ord = .rel ∨ ord = .ar → Quiet e) → (∀ p ∈ lanes, p.1.va % p.1.len = 0) →
    (∀ n, s.sideHit e accs = some n → Runs s i e fun s => s.await e .counter (.entry e.c.core n)) ∧
    (s.sideHit e accs = none →
      (∀ us, s.plan e accs true = .miss us → Runs s i e fun s => s.await' e us true false) ∧
      (∀ va ls, s.plan e accs true = .violation va ls → Runs s i e fun s => s.trapAt e 0x0C 0 e.pc (BitVec.ofNat 64 va) ls) ∧
      (∀ ok bad, e.f.only = 0 → s.plan e accs true = .go ok bad →
        let routes := s.routeBad ok op size ((encode i).toNat / 2 ^ 21 % 64)
        let stuck := faultOf (routes.foldl (fun t p => t.set p.1 p.2) bad)
        let groups := faultGroups (routes.foldl (fun t p => t.set p.1 p.2) bad) accs true (encode i).toNat none
        let later := lanes.filter fun p => (stuck p.1).isNone && s.isPosted ok op size ord p.1.va
        let now := lanes.filter fun p => (stuck p.1).isNone && !s.isPosted ok op size ord p.1.va
        let al := fun (p : Acc × Nat × Nat) => AtLane.ofAcc s ok p.1 p.2
        (groups ≠ [] → s.heldFull e.c.core groups.length = true → e.f.held = false → Runs s i e (heldBack e)) ∧
        (groups = [] ∨ s.heldFull e.c.core groups.length = false → Runs s i e fun s =>
          let t := (atomicAbsent e op size d a s).updCourse e.r.uid fun c =>
            c.eachLane (later.map fun p => p.1.lane) fun l c => c.setAt (e.vreg d) size l (2 ^ (8 * size) - 1)
          let t := if now ≠ [] then ((t.addOp (newOp e (.atomic op size (.vector (e.vreg d) size) (now.map al) (later.map al)))).addLdc
                e.r.uid true).addStc e.r.uid true
            else if later ≠ [] then (t.addOp (newOp e (.posted op size (later.map al)))).addStc e.r.uid true else t
          let t := if groups = [] then t.advance e else t.park e groups
          if (ord = .acq ∨ ord = .ar) ∧ now ≠ [] then
            t.updFrag e.r fun f => if f.state = .ready then { f with state := .waiting .counter (.ops [s.nextOp]) } else f
          else t)))
  let wide := fun (w : Bool) => if w then 8 else 4
  (∀ ty, runs (.atAdd ty d a sc ord) (.add (addFmt ty)) ((addFmt ty).bits / 8)) ∧
  (∀ ty, runs (.atMin ty d a sc ord) (.min (minFmt ty)) ((minFmt ty).bits / 8)) ∧
  (∀ ty, runs (.atMax ty d a sc ord) (.max (minFmt ty)) ((minFmt ty).bits / 8)) ∧
  (∀ w, runs (.atFadd w d a sc ord) (.fadd (if w then .f64 else .f32)) (wide w) ∧
    runs (.atAnd w d a sc ord) .and (wide w) ∧ runs (.atOr w d a sc ord) .or (wide w) ∧
    runs (.atXor w d a sc ord) .xor (wide w) ∧ runs (.atXchg w d a sc ord) .xchg (wide w) ∧
    runs (.atCas w d a sc ord) .cas (wide w) ∧ runs (.atSlot w d a sc ord) .slot (wide w))

/-- The paths of atomics (R475 to R477): what each kind of window carries; a unit whose window does not carry a form, with the AUX of
its record; and when a lane is posted. -/
def Sys2Proof.Claims.AtomicRoutes : Prop :=
  (∀ (w : Window) (op : AtOp) (size : Nat), carries w op size = true ↔ w.c = true ∨
    (w.target = 1 ∧ (op = .add .b32 ∨ op = .add .b64 ∨ op = .xchg ∨ op = .cas)) ∨
    (w.target = 3 ∧ ((∃ f, op = .add f) ∨ op = .xchg ∨ op = .cas ∨
      (∃ f ∈ [Fmt.i32, .n32, .i64, .n64], op = .min f ∨ op = .max f) ∨ (w.red = true ∧ size = 4 ∧ ∃ f, op = .fadd f)))) ∧
  (∀ (s : State) (ok : Tab Leaf) (op : AtOp) (size opcode u : Nat) (x : Nat × Nat), ok.sorted = true →
    ((s.routeBad ok op size opcode).get? u = some x ↔ ∃ l n w, ok.get? u = some l ∧
      isUnder (l.pa + (u * 65536 - l.va)) = false ∧ s.winOf (l.pa + (u * 65536 - l.va)) = some (n, w) ∧
      carries w op size = false ∧ x = (0x22, opcode + 256 * w.target + 1024 * n))) ∧
  (∀ (s : State) (ok : Tab Leaf) (op : AtOp) (size va : Nat) (ord : Ord4), s.isPosted ok op size ord va = true ↔
    ord = .rlx ∧ ((∃ f, op = .add f) ∨ (size = 4 ∧ ∃ f, op = .fadd f)) ∧
      ∃ l n w, ok.get? (va / 65536) = some l ∧ isUnder (l.pa + (va - l.va)) = false ∧
        s.winOf (l.pa + (va - l.va)) = some (n, w) ∧ w.red = true ∧ w.target = 3)

/-- The new values of the atomics (R47, R61, R62, R266, R267): an absent old value of a typed form is replaced by the operand, a
NaN by the canonical one; else the exact saturated sum, the sum modulo 2^32 or 2^64, the rounded sum of two floating values (which
CorrectRounding says is one rounding), minimum and maximum by value, the bitwise forms, the exchange and the compare and swap. The
lanes of one address are served in order: each receives the value that it found. -/
def Sys2Proof.Claims.AtomicNewValues : Prop :=
  (∀ (f : Fmt) (x y : Nat), f ∈ [Fmt.i32, .i64, .n32, .n64] →
    AtOp.new (.add f) (f.bits / 8) f.absentCode x y = x ∧ AtOp.new (.min f) (f.bits / 8) f.absentCode x y = x ∧
    AtOp.new (.max f) (f.bits / 8) f.absentCode x y = x) ∧
  (∀ (old x : Word), AtOp.new (.add .b32) 4 old.toNat x.toNat 0 = (old + x).toNat ∧
    AtOp.new .and 4 old.toNat x.toNat 0 = (old &&& x).toNat ∧ AtOp.new .or 4 old.toNat x.toNat 0 = (old ||| x).toNat ∧
    AtOp.new .xor 4 old.toNat x.toNat 0 = (old ^^^ x).toNat ∧ AtOp.new .xchg 4 old.toNat x.toNat 0 = x.toNat ∧
    (old ≠ i32Absent → x ≠ i32Absent →
      AtOp.new (.add .i32) 4 old.toNat x.toNat 0 = (onI32 (· + ·) old x).toNat ∧
      AtOp.new (.min .i32) 4 old.toNat x.toNat 0 = (onI32 min old x).toNat ∧
      AtOp.new (.max .i32) 4 old.toNat x.toNat 0 = (onI32 max old x).toNat) ∧
    (old ≠ BitVec.allOnes 32 → x ≠ BitVec.allOnes 32 →
      AtOp.new (.add .n32) 4 old.toNat x.toNat 0 = (onN32 (· + ·) old x).toNat ∧
      AtOp.new (.min .n32) 4 old.toNat x.toNat 0 = (onN32 min old x).toNat ∧
      AtOp.new (.max .n32) 4 old.toNat x.toNat 0 = (onN32 max old x).toNat)) ∧
  (∀ (old x : Dword), AtOp.new (.add .b64) 8 old.toNat x.toNat 0 = (old + x).toNat ∧
    AtOp.new .and 8 old.toNat x.toNat 0 = (old &&& x).toNat ∧ AtOp.new .or 8 old.toNat x.toNat 0 = (old ||| x).toNat ∧
    AtOp.new .xor 8 old.toNat x.toNat 0 = (old ^^^ x).toNat ∧ AtOp.new .xchg 8 old.toNat x.toNat 0 = x.toNat ∧
    (old ≠ i64Absent → x ≠ i64Absent →
      AtOp.new (.add .i64) 8 old.toNat x.toNat 0 = (onI64 (· + ·) old x).toNat ∧
      AtOp.new (.min .i64) 8 old.toNat x.toNat 0 = (onI64 min old x).toNat ∧
      AtOp.new (.max .i64) 8 old.toNat x.toNat 0 = (onI64 max old x).toNat) ∧
    (old ≠ BitVec.allOnes 64 → x ≠ BitVec.allOnes 64 →
      AtOp.new (.add .n64) 8 old.toNat x.toNat 0 = (onN64 (· + ·) old x).toNat ∧
      AtOp.new (.min .n64) 8 old.toNat x.toNat 0 = (onN64 min old x).toNat ∧
      AtOp.new (.max .n64) 8 old.toNat x.toNat 0 = (onN64 max old x).toNat)) ∧
  (∀ (f : Fmt) (old x y : Nat), f ∈ [Fmt.f32, .f64] →
    (old = f.absentCode → ∀ op ∈ [AtOp.fadd f, .min f, .max f],
      op.new (f.bits / 8) old x y = if f.valF x = .nan then f.nanCode else x) ∧
    (old ≠ f.absentCode →
      AtOp.new (.fadd f) (f.bits / 8) old x y = f.codeF .rn ((f.valF old).add .rn (f.valF x)) ∧
      AtOp.new (.min f) (f.bits / 8) old x y = f.codeF .rn (Val.minmax false (f.valF old) (f.valF x)) ∧
      AtOp.new (.max f) (f.bits / 8) old x y = f.codeF .rn (Val.minmax true (f.valF old) (f.valF x)))) ∧
  (∀ size old x y : Nat, AtOp.new .cas size old x y = if old = x then y else old) ∧
  (∀ (op : AtOp) (size old : Nat) (ls : List AtLane),
    (op.serve size old ls).1 = ls.foldl (fun v l => op.new size v l.x l.y) old ∧
    (op.serve size old ls).2.length = ls.length ∧
    ∀ n l, ls[n]? = some l →
      (op.serve size old ls).2[n]? = some (l.lane, (ls.take n).foldl (fun v l => op.new size v l.x l.y) old))

/-- at.slot (R268): requests are granted while the exact running sum of all requests so far fits below CAP, so granted ranges
are contiguous from NEXT in lane order; a request that does not fit receives absent. -/
def Sys2Proof.Claims.SlotReservation : Prop := ∀ (absent next cap : Nat) (ls : List AtLane),
  let sum := fun n => ((ls.take n).map fun l => l.x).sum
  (slotServe absent next cap 0 0 ls).2.length = ls.length ∧
  (∀ n l, ls[n]? = some l → (slotServe absent next cap 0 0 ls).2[n]? =
    some (l.lane, if next + sum n + l.x ≤ cap then next + sum n else absent)) ∧
  (next ≤ cap → next + (slotServe absent next cap 0 0 ls).1 ≤ cap) ∧
  (next + sum ls.length ≤ cap → (slotServe absent next cap 0 0 ls).1 = sum ls.length)

/-- LOAD_COMPLETE of an atomic (R250, R265): one location after another, its lanes in order, read the last value of the
coherence order and write the new one; the old values go to the destination, LDC falls, and the operation is then a store. -/
def Sys2Proof.Claims.AtomicCompletion : Prop := ∀ (s : State) (id : Nat) (o : Op) (op : AtOp) (size reg n : Nat)
    (lanes : List AtLane),
  s.op? id = some o → o.work = .atomic op size (.vector reg n) lanes [] → s.earlierAccess id o.uid o.work.touches = false →
  s.settledAt (islandOf o.core) o.work.touches = true → s.markedIn o.work.readLocs = none →
  (∀ l ∈ o.work.readLocs, isUnder l = true) →
  Gives s (.loadComplete id)
    ((((s.serveLocs id o op size lanes).1.updCourse o.uid fun c =>
      (s.serveLocs id o op size lanes).2.foldl (fun c r => c.setAt reg size r.1 r.2) c).addLdc o.uid false).updOp id
        fun o => { o with work := .store })

/-- The service of an atomic's lanes (R265, R268, R335): the locations are served one after another, each with its lanes in
ascending order; the lanes at one location read its last value in the coherence order, each receives the value that the lanes
before it left, and the value after the last lane is written in the same step, so that the write is adjacent to the read. at.slot
reads NEXT and CAP and adds to NEXT what it grants; absent words leave memory as it is. Afterwards the last byte of the order at
each location that was written is that of the new value, and at every other location what it was. That a compare-and-swap in which
no lane finds its value performs no write (log 21), and that the action is one indivisible step (log 12), are the model's
readings. -/
def Sys2Proof.Claims.AtomicService : Prop :=
  (∀ (s : State) (id : Nat) (o : Op) (op : AtOp) (size : Nat), s.serveLocs id o op size [] = (s, [])) ∧
  (∀ (s : State) (id : Nat) (o : Op) (op : AtOp) (size : Nat) (l : AtLane) (ls : List AtLane),
    let here := fun (m : AtLane) => decide (m.loc = l.loc ∧ m.efmt = l.efmt)
    let p := s.serveLocs id o op size ((l :: ls).filter here)
    let q := p.1.serveLocs id o op size ((l :: ls).filter fun m => !here m)
    s.serveLocs id o op size (l :: ls) = (q.1, p.2 ++ q.2)) ∧
  (∀ (s : State) (id : Nat) (o : Op) (op : AtOp) (size loc f : Nat) (lanes : List AtLane), lanes ≠ [] →
    (∀ l ∈ lanes, l.loc = loc ∧ l.efmt = f) →
    let old := s.latestNat f loc size
    let cap := s.latestNat f (loc + size) size
    let none' := 2 ^ (8 * size) - 1
    let out := s.serveLocs id o op size lanes
    let wrote := fun (x : Nat) => s.write (islandOf o.core) (cellsAt loc (natLe size x)) (some f) o.uid id
    (op ≠ .slot → out.2 = (op.serve size old lanes).2 ∧
      ((op = .cas → ∃ l ∈ lanes, l.x = old) → out.1 = wrote (op.serve size old lanes).1) ∧
      (op = .cas → (∀ l ∈ lanes, l.x ≠ old) → out.1 = s)) ∧
    (op = .slot → old ≠ none' → cap ≠ none' →
      let r := slotServe none' old cap 0 0 lanes
      out = (wrote (old + r.1), r.2)) ∧
    (op = .slot → old = none' ∨ cap = none' → out = (s, lanes.map fun l => (l.lane, none')))) ∧
  (∀ (s : State) (k loc f uid id size x a : Nat), (∀ i < size, isUnder (loc + i) = true ∨ 2 ^ 64 ≤ loc + i) →
    (s.write k (cellsAt loc (natLe size x)) (some f) uid id).byteLatest a =
      if loc ≤ a ∧ a < loc + size then BitVec.ofNat 8 (x / 2 ^ (8 * (a - loc))) else s.byteLatest a)

/-! Barriers, fences and waits (R271 to R282). -/

/-- The wall barriers (R272): arrive records F and goes on, bwait waits where a lane of F is recorded and has no effect
otherwise, bar does both; a barrier that is then full completes. arrive and bar wait first for the course's counters, as a release
does. A spilled fragment that waits at it counts (log 80). -/
def Sys2Proof.Claims.WallBarriers : Prop := ∀ (s : State) (e : Env) (reg : Reg) (b : BitVec 4),
  (Quiet e → Runs s (.synArrive reg false b) e fun s => ((arrivesAt e b.toNat s).advance e).checkBarrier e.c.age b.toNat) ∧
  (Quiet e → Runs s (.synBar reg false b) e fun s =>
    ((arrivesAt e b.toNat s).await e .barrier (.wallBarrier b.toNat)).checkBarrier e.c.age b.toNat) ∧
  (e.w.arrivedAt b.toNat e.c.index &&& e.f.lanes = 0 → GoesTo s (.synBwait reg false b) e (e.pc + 4)) ∧
  (e.w.arrivedAt b.toNat e.c.index &&& e.f.lanes ≠ 0 →
    Runs s (.synBwait reg false b) e fun s => s.await e .barrier (.wallBarrier b.toNat)) ∧
  (¬ Quiet e → ∀ i ∈ [Instr.synArrive reg false b, .synBar reg false b],
    Runs s i e fun s => s.await e .counter (.counters 0 0 0))

/-- A full wall barrier completes (R97, R103, R272): no lane is recorded at it any more, and no fragment of the wall waits for
it; those of one course that waited with equal pcs and join stacks merge, and go on at the next word. That the lanes of a spilled
fragment which waits at it have arrived is the model's reading (log 80). -/
def Sys2Proof.Claims.BarrierCompletion : Prop := ∀ (s : State) (age b : Nat) (w : Wall),
  s.wall? age = some w → s.barrierFull age b w = true → (∃ p ∈ w.arrived, p.1 / 64 = b) → s.courses.sorted = true →
  (∀ p ∈ s.courses, p.2.frags.sorted = true) →
  (∀ w', (s.checkBarrier age b).wall? age = some w' → ∀ p ∈ w'.arrived, p.1 / 64 ≠ b) ∧
  (∀ p ∈ (s.checkBarrier age b).courses, p.2.age = age → ∀ q ∈ p.2.frags, ∀ k, q.2.state ≠ .waiting k (.wallBarrier b)) ∧
  ∃ ends : List (Nat × List Nat),
    (ends.Pairwise fun x y => x.1 = y.1 → ∀ n ∈ x.2, n ∉ y.2) ∧
    (∀ m ∈ ends, m.2 ≠ [] ∧ m.2.Nodup ∧ ∀ n ∈ m.2, ∃ p ∈ s.courses, p.1 = m.1 ∧ p.2.age = age ∧
      ∃ q ∈ p.2.frags, q.1 = n ∧ ∃ k, q.2.state = .waiting k (.wallBarrier b)) ∧
    (∀ p ∈ s.courses, p.2.age = age → ∀ q ∈ p.2.frags, ∀ q' ∈ p.2.frags, (∃ k, q.2.state = .waiting k (.wallBarrier b)) →
      (∃ k, q'.2.state = .waiting k (.wallBarrier b)) →
      ((∃ m ∈ ends, m.1 = p.1 ∧ q.1 ∈ m.2 ∧ q'.1 ∈ m.2) ↔ q.2.pc = q'.2.pc ∧ q.2.joins = q'.2.joins)) ∧
    s.checkBarrier age b = ends.foldl (fun t m => t.merge m.1 m.2 fun f => (f.goTo (f.pc + 4)).wake s.clock)
      ((s.updWall age fun w => w.clearArrived b).kick age)

/-- The stash barrier objects (R246, R247, R262, R273, R274): an aligned object inside the window takes the arrivals of F; the wait
compares the phase with its token; a misaligned object takes trap 0x07, and one beyond the window trap 0x04. -/
def Sys2Proof.Claims.StashBarriers : Prop := ∀ (s : State) (e : Env) (reg : Reg) (b : BitVec 4),
  let off := (e.sb reg).toNat % 2 ^ 32
  let token := (e.sb reg).toNat / 2 ^ 32
  let phase := stashWord s e (off + 8)
  let after := objectAfter (stashWord s e off) (stashWord s e (off + 4)) phase (lanesOf e.f.lanes).length
  (∀ u, off % 16 = 0 → off + 16 ≤ e.w.window → StashOpen s e ((List.range 16).map fun i => off + i) u →
    (Quiet e → Runs s (.synArrive reg true b) e fun _ => (arrives e off u).advance e) ∧
    (Quiet e → after.2 ≠ phase → Runs s (.synBar reg true b) e fun _ => (arrives e off u).advance e) ∧
    (Quiet e → after.2 = phase →
      Runs s (.synBar reg true b) e fun _ => (arrives e off u).await e .barrier (.phase off phase true)) ∧
    (phase ≠ token → Runs s (.synBwait reg true b) e fun _ => u.advance e) ∧
    (phase = token → Runs s (.synBwait reg true b) e fun _ => u.await e .barrier (.phase off token false))) ∧
  (∀ i ∈ [Instr.synBwait reg true b, .synBar reg true b, .synArrive reg true b],
    (off % 16 ≠ 0 → Runs s i e fun s => s.trapAt e 0x07 0 e.pc (BitVec.ofNat 64 off) e.f.lanes) ∧
    (off % 16 = 0 → e.w.window < off + 16 → Runs s i e fun s =>
      s.trapAt e 0x04 0 e.pc (BitVec.ofNat 64 (max off e.w.window)) e.f.lanes) ∧
    (off % 16 = 0 → off + 16 ≤ e.w.window → i ≠ .synBwait reg true b → ¬ Quiet e →
      Runs s i e fun s => s.await e .counter (.counters 0 0 0)))

/-- syn.fence and syn.waitc (R276, R277, R341): each goes on as soon as what it waits for holds, and waits otherwise; a total
fence waits for the counters, records its island's vector clock when they are zero, and goes on, then or when it issues again, when
every island's clock has reached the recorded one; under sys it also waits for the island's writes to memory outside the package, those
of stores, atomics and posted reductions alike, which is the model's reading (log 54). -/
def Sys2Proof.Claims.FencesAndCounterWaits : Prop := ∀ (s : State) (e : Env) (sc : Sc),
  (e.c.ldc = 0 → GoesTo s (.synFence sc .acq) e (e.pc + 4)) ∧
  (e.c.ldc ≠ 0 → Runs s (.synFence sc .acq) e fun s => s.await e .counter (.counters 0 2047 2047)) ∧
  (Quiet e → GoesTo s (.synFence sc .rel) e (e.pc + 4) ∧ GoesTo s (.synFence sc .ar) e (e.pc + 4)) ∧
  (¬ Quiet e → Runs s (.synFence sc .rel) e (fun s => s.await e .counter (.counters 0 0 0)) ∧
    Runs s (.synFence sc .ar) e (fun s => s.await e .counter (.counters 0 0 0))) ∧
  (Quiet e → e.f.totV = none → (∀ i < 4, ∀ j < 4, s.clockOf e.island j ≤ s.clockOf i j) →
    (sc = .sys → s.outPending e.island = []) →
    Runs s (.synFence sc .tot) e fun s => (s.updFrag e.r fun f => { f with totV := none }).advance e) ∧
  (Quiet e → e.f.totV = none → (∃ i < 4, ∃ j < 4, s.clockOf i j < s.clockOf e.island j) →
    Runs s (.synFence sc .tot) e fun s => (s.updFrag e.r fun f => { f with totV := some (s.clockRow e.island) }).await e
      .counter (.clocks (s.clockRow e.island))) ∧
  (¬ Quiet e → e.f.totV = none → Runs s (.synFence sc .tot) e fun s => s.await e .counter (.counters 0 0 0)) ∧
  (Quiet e → e.f.totV = none → (∀ i < 4, ∀ j < 4, s.clockOf e.island j ≤ s.clockOf i j) → sc = .sys →
    s.outPending e.island ≠ [] → Runs s (.synFence sc .tot) e fun s =>
      (s.updFrag e.r fun f => { f with totV := some (s.clockRow e.island) }).await e .counter (.ops (s.outPending e.island))) ∧
  (∀ v : List Nat, e.f.totV = some v →
    ((∀ i < 4, ∀ j < 4, v.getD j 0 ≤ s.clockOf i j) → (sc = .sys → s.outPending e.island = []) →
      Runs s (.synFence sc .tot) e fun s => (s.updFrag e.r fun f => { f with totV := none }).advance e) ∧
    ((∀ i < 4, ∀ j < 4, v.getD j 0 ≤ s.clockOf i j) → sc = .sys → s.outPending e.island ≠ [] →
      Runs s (.synFence sc .tot) e fun s => s.await e .counter (.ops (s.outPending e.island))) ∧
    ((∃ i < 4, ∃ j < 4, s.clockOf i j < v.getD j 0) →
      Runs s (.synFence sc .tot) e fun s => s.await e .counter (.clocks v))) ∧
  (∀ l t z : BitVec 3,
    (e.c.ldc ≤ l.toNat → e.c.stc ≤ t.toNat → e.c.tlc ≤ z.toNat → GoesTo s (.synWaitc l t z) e (e.pc + 4)) ∧
    (l.toNat < e.c.ldc ∨ t.toNat < e.c.stc ∨ z.toNat < e.c.tlc →
      Runs s (.synWaitc l t z) e fun s => s.await e .counter (.counters l.toNat t.toNat z.toNat)))

/-- The condition monitors and the signals (R245, R246, R279, R281, R282): an absent address gives all ones; a misaligned one
takes trap 0x07; a read that meets its condition writes the value and goes on, and one that does not sets a monitor and waits;
sigadd waits for the course's counters and is then an atomic add of the course, with no destination where D is 0; that it counts
as an access of F's lowest lane is the model's reading (log 22). -/
def Sys2Proof.Claims.MonitorsAndSignals : Prop := ∀ (s : State) (e : Env) (d a b : Reg) (sc : Sc) (wide ne : Bool),
  let size : Nat := if wide then 8 else 4
  let va := (e.sb a).toNat
  let out := fun (x : Dword) (s : State) => (if d = 0 then s else s.setS e d x).advance e
  (e.sb a = BitVec.allOnes 64 →
    WritesS s (.synWaitcmp wide ne d a b) e d (BitVec.allOnes 64) ∧
    Runs s (.synSigwait sc d a b) e (out (BitVec.allOnes 64)) ∧
    (Quiet e → Runs s (.synSigadd sc d a b) e (out (BitVec.allOnes 64)))) ∧
  (e.sb a ≠ BitVec.allOnes 64 → va % size ≠ 0 →
    Runs s (.synWaitcmp wide ne d a b) e fun s => s.trapAt e 0x07 0 e.pc (e.sb a) e.f.lanes) ∧
  (e.sb a ≠ BitVec.allOnes 64 → va % 8 ≠ 0 → ∀ i ∈ [Instr.synSigadd sc d a b, .synSigwait sc d a b],
    Runs s i e fun s => s.trapAt e 0x07 0 e.pc (e.sb a) e.f.lanes) ∧
  (e.sb a = BitVec.allOnes 64 ∨ va % 8 = 0 → ¬ Quiet e →
    Runs s (.synSigadd sc d a b) e fun s => s.await e .counter (.counters 0 0 0)) ∧
  (e.sb a ≠ BitVec.allOnes 64 → va % size = 0 → ∀ pa loc efmt, ReadsAt s e va size pa loc efmt →
    let v := s.viewNat e.island efmt loc size
    let equal : Bool := v = (e.sb b).toNat % 2 ^ (8 * size)
    (equal ≠ ne → WritesS s (.synWaitcmp wide ne d a b) e d (BitVec.ofNat 64 v)) ∧
    (equal = ne → Runs s (.synWaitcmp wide ne d a b) e fun s => s.setMonitor e pa loc .monitor)) ∧
  (e.sb a ≠ BitVec.allOnes 64 → va % 8 = 0 → ∀ pa loc efmt, ReadsAt s e va 8 pa loc efmt →
    let v := BitVec.ofNat 64 (s.viewNat e.island efmt loc 8)
    (v.toInt ≤ (e.sb b).toInt → Runs s (.synSigwait sc d a b) e (out v)) ∧
    ((e.sb b).toInt < v.toInt → Runs s (.synSigwait sc d a b) e fun s => s.setMonitor e pa loc .signal)) ∧
  (e.sb a ≠ BitVec.allOnes 64 → va % 8 = 0 → Quiet e → ∀ ok l, Reaches s e [⟨lowestLane e.f.active, va, 8⟩] true ok →
    ok.get? (va / 65536) = some l →
    Runs s (.synSigadd sc d a b) e fun s => ((s.addOp (newOp e (.atomic (.add .b64) 8 (if d = 0 then .nowhere else e.sDest d)
      [⟨lowestLane e.f.active, s.leafLoc l va, l.efmt, (e.sb b).toNat, 0⟩] []))).addStc e.r.uid true).advance e)

/-- Setting a monitor (R279): the fragment waits for the line to fire, on the slice that holds the line; where that slice holds 64
monitored lines and not this one, the line whose monitor was set longest ago fires first. -/
def Sys2Proof.Claims.MonitorSlots : Prop := ∀ (s : State) (e : Env) (pa loc : Nat) (k : WaitKind),
  let slice := sliceOf pa loc
  let lines := dedup ((s.monitors.filter fun m => m.slice == slice).map fun m => m.line)
  let set := fun (t : State) => ({ t with
    monitors := t.monitors ++ [⟨lineOf loc, slice, e.r, e.island, s.clock⟩] } : State).await e k .fired
  (lineOf loc ∈ lines ∨ lines.length < 64 → s.setMonitor e pa loc k = set s) ∧
  (∀ oldest rest, lines = oldest :: rest → lineOf loc ∉ lines → 64 ≤ lines.length →
    s.setMonitor e pa loc k = set ((List.range 4).foldl (fun t i => t.fire i oldest) s))

/-! Queues (R73, R84, R283 to R286). -/

/-- wq.push and wq.launch (R246, R247, R262, R283 to R285, R336): once the release's wait is over and what the island has applied is
performed at dev, the record in stash joins the queue, its ring slot is written and waiting pops wake, with status 0; a full queue
gives 1, and a number that is no such queue of the context, or of none (log 83), 2; neither reads the record (log 82). A ring slot
that a window no longer maps is trap 0x0C (R473). That everything the island has applied reaches every island in that step, also
where nothing is pushed, is the model's reading (log 19). -/
def Sys2Proof.Claims.QueuePushes : Prop := ∀ (s : State) (e : Env) (d a b : Reg),
  let off := (e.sb b).toNat
  let n := (e.sb a).toNat
  let pushes := fun (i : Instr) (work : Bool) =>
    (off % 64 = 0 → off + 64 ≤ e.w.window → Quiet e →
      let v := s.flush e.island
      (∀ q, v.ownQueue e.c.ctx n work = some q → q.entries.length < q.cap →
        let va := q.ring + (q.headNo + q.entries.length) % q.cap * 64
        let lost := v.unmappedIn q.units ((List.range 64).map fun i => va + i)
        (∀ u, lost = none → StashOpen v e ((List.range 64).map fun i => off + i) u →
          let record := u.stashBytes e.w e.island off 64
          Runs s i e fun _ => (((((u.updQueue n fun q =>
          { q with entries := q.entries ++ [record] }).writeUnits (n / 1024) q.units (cellsAt va record)).wakePush n).setS e d
            0)).advance e) ∧
        (∀ x, lost = some x → Runs s i e fun _ => v.trapAt e 0x0C 0 e.pc (BitVec.ofNat 64 x) e.f.lanes)) ∧
      (∀ q, v.ownQueue e.c.ctx n work = some q → q.cap ≤ q.entries.length → Runs s i e fun _ => (v.setS e d 1).advance e) ∧
      (v.ownQueue e.c.ctx n work = none → Runs s i e fun _ => (v.setS e d 2).advance e)) ∧
    (off % 64 = 0 → off + 64 ≤ e.w.window → ¬ Quiet e → Runs s i e fun s => s.await e .counter (.counters 0 0 0)) ∧
    (off % 64 ≠ 0 → Runs s i e fun s => s.trapAt e 0x07 0 e.pc (e.sb b) e.f.lanes) ∧
    (off % 64 = 0 → e.w.window < off + 64 → Runs s i e fun s =>
      s.trapAt e 0x04 0 e.pc (BitVec.ofNat 64 (max off e.w.window)) e.f.lanes)
  pushes (.wqPush d a b) true ∧ pushes (.wqLaunch d a b) false

/-- wq.pop and wq.trypop (R84, R246, R247, R262, R286): the first queue of the successor ring that has an entry delivers its oldest
one to stash and its number to sD, where its slot is mapped and not marked (R473, R485); the bytes are those that were pushed, or,
where another agent has written the slot, free values (log 20). With none, pop waits for a push to one of them and trypop writes
absent; a number that is no work queue of the context gives absent; neither touches the record (log 82). A misaligned record is trap
0x07, one beyond the window trap 0x04, an unmapped slot trap 0x0C, and a marked slot ends the context. -/
def Sys2Proof.Claims.QueuePops : Prop := ∀ (s : State) (e : Env) (d a b : Reg),
  let off := (e.sb b).toNat
  let ring := s.stealRing e.c.ctx 64 [] (e.sb a).toNat
  let pops := fun (i : Instr) =>
    (off % 64 ≠ 0 → Runs s i e fun s => s.trapAt e 0x07 0 e.pc (e.sb b) e.f.lanes) ∧
    (off % 64 = 0 → e.w.window < off + 64 → Runs s i e fun s =>
      s.trapAt e 0x04 0 e.pc (BitVec.ofNat 64 (max off e.w.window)) e.f.lanes) ∧
    (off % 64 = 0 → off + 64 ≤ e.w.window → ring = [] → WritesS s i e d (BitVec.allOnes 64)) ∧
    (∀ (m n : Nat) (q : Queue) (entry : List Byte) (rest : List (List Byte)), off % 64 = 0 → off + 64 ≤ e.w.window →
      ring[m]? = some n → (∀ j < m, ∀ k ∈ ring[j]?, ∀ q, s.queue? k = some q → q.entries = []) →
      s.queue? n = some q → q.entries = entry :: rest →
      let vas := (List.range 64).map fun i => q.ring + q.headNo % q.cap * 64 + i
      (∀ u, s.unmappedIn q.units vas = none → s.markedIn (vas.map fun va => (unitLoc q.units va).1) = none →
        StashOpen s e ((List.range 64).map fun i => off + i) u → Runs s i e fun _ =>
          (((u.stashWrite e.c.age e.island (cellsAt off (u.headBytes q entry))).updQueue n fun q =>
            { q with entries := q.entries.drop 1, headNo := q.headNo + 1 }).setS e d (BitVec.ofNat 64 n)).advance e) ∧
      (∀ va, s.unmappedIn q.units vas = some va →
        Runs s i e fun s => s.trapAt e 0x0C 0 e.pc (BitVec.ofNat 64 va) e.f.lanes) ∧
      (∀ line, s.unmappedIn q.units vas = none → s.markedIn (vas.map fun va => (unitLoc q.units va).1) = some line →
        Runs s i e fun s => s.memError line e.c.ctx))
  pops (.wqPop d a b) ∧ pops (.wqTrypop d a b) ∧
    (off % 64 = 0 → off + 64 ≤ e.w.window → ring ≠ [] → (∀ n ∈ ring, ∀ q, s.queue? n = some q → q.entries = []) →
      Runs s (.wqPop d a b) e (fun s => s.await e .queue (.pushed ring)) ∧
      WritesS s (.wqTrypop d a b) e d (BitVec.allOnes 64))

/-! Tiles (R287 to R311). -/

/-- The tile instructions but tl.mma (R102, R291, R295, R307 to R311). The page of the word of an absolute maximum is tagged with
those of the drain (log 27), and the second register of a pair at field 0x40 or 0x42 is that of the next field (log 81), which are
the model's readings. -/
def Sys2Proof.Claims.TileInstructions : Prop := ∀ (s : State) (e : Env) (d a : Reg), Alone e →
  ((tileFmt (e.sb a).toNat).isSome = true → Runs s (.tlSetfmt a) e fun s =>
    (s.updCourse e.r.uid fun c => { c with fmt := (e.sb a).setWidth 12 }).advance e) ∧
  (tileFmt (e.sb a).toNat = none → Runs s (.tlSetfmt a) e fun s => s.trapAt e 0x0D 0 e.pc (e.sb a) e.f.lanes) ∧
  Runs s (.tlZero d) e (startsTile e [] (.tlZero d.toNat (if e.fmtInfo.acc32 then i32Absent else BitVec.allOnes 32))) ∧
  (e.sb a = BitVec.allOnes 64 → Runs s (.tlLoad d a) e (startsTile e [] (.tlLoad d.toNat none []))) ∧
  (e.sb a ≠ BitVec.allOnes 64 → (e.sb a).toNat % 128 ≠ 0 →
    Runs s (.tlLoad d a) e fun s => s.trapAt e 0x07 0 e.pc (e.sb a) e.f.lanes) ∧
  (∀ g u, e.sb a ≠ BitVec.allOnes 64 → (e.sb a).toNat % 128 = 0 → Pinned s e false [((e.sb a).toNat, 16384)] g u →
    Runs s (.tlLoad d a) e fun _ => startsTile e g.pages (.tlLoad d.toNat (some (e.sb a).toNat) g.units) u) ∧
  (let w := drainWord (e.sb2 a).toNat
   let dst := (e.sb a).toNat
   let off := dst % 2 ^ 32
   let amOff := w.amOff * 8
   let work := fun us => Work.tlDrain d.toNat
     { dst := if w.stash then off else dst, absentDst := !w.stash && e.sb a == BitVec.allOnes 64, stash := w.stash,
       span := w.span, pitch := w.pitch, scale := w.scale, tgt := w.tgt, amax := w.amax, amOff := amOff,
       acc32 := e.fmtInfo.acc32 } us
   let ranges : List (Int × Nat) := ((List.range 64).map fun i => (((off + i * w.pitch : Nat) : Int), tgtRow w.tgt)) ++
     (if w.amax then [((off : Int) + amOff, 4)] else [])
   w.valid e.fmtInfo.acc32 = true →
    (w.stash = true → off % 16 = 0 → Inside e ranges → Runs s (.tlDrain d a) e fun s =>
      startsTile e [] (work []) (s.updWall e.c.age fun x =>
        x.setTags (pagesOfAll (ranges.map fun r => (r.1.toNat, r.2))) w.span)) ∧
    (w.stash = false → e.sb a = BitVec.allOnes 64 → Runs s (.tlDrain d a) e (startsTile e [] (work []))) ∧
    (∀ g u, w.stash = false → e.sb a ≠ BitVec.allOnes 64 → dst % 16 = 0 → w.amax = false →
      Pinned s e true [(dst, 63 * w.pitch + tgtRow w.tgt)] g u →
      Runs s (.tlDrain d a) e fun _ => startsTile e g.pages (work g.units) u) ∧
    (∀ g t, w.stash = false → e.sb a ≠ BitVec.allOnes 64 → dst % 16 = 0 → w.amax = true →
      let word := (((dst : Int) + amOff) % 2 ^ 64).toNat
      Translates s e true [(dst, 63 * w.pitch + tgtRow w.tgt), (word, 4)] g t →
      (∀ u, (∀ p ∈ t.windowAt e.island e.c.ctx word, carries p.2 (.max .f32) 4 = true) → t.pinAll e.island e.c.ctx g.pages = some u →
        Runs s (.tlDrain d a) e fun _ => startsTile e g.pages (work g.units) u) ∧
      (∀ n x, t.windowAt e.island e.c.ctx word = some (n, x) → carries x (.max .f32) 4 = false → t.heldFull e.c.core 1 = false →
        Runs s (.tlDrain d a) e fun _ => t.park e [
          { lanes := e.f.active, code := 0x22, on := .service,
            info := some { unit := word / 65536, vaddr := word, aux := 0x10 + 256 * x.target + 1024 * n, write := true,
                           origin := 0, word := (encode (.tlDrain d a)).toNat } }])))

/-- The conversion of R68, and the code that a drain gives to an accumulator word under TGT and SCALE (R45, R68, R304, R310, R311):
a floating target takes the exact number x × 2^(127 − SCALE) rounded once to nearest, ties to even; beyond the largest finite value
f32, f16 and bf16 give an infinity and the narrow formats saturate, which also turn a negative zero into +0; i8 and i4 saturate; i32
and b32 keep the bits; a count saturates to the target's range. -/
def Sys2Proof.Claims.DrainConversion : Prop :=
  (∀ f ∈ [Fmt.f32, .f16, .bf16, .e5m2, .e4m3, .e2m1],
    let wide := f == .f32 || f == .f16 || f == .bf16
    let sgn := fun (neg : Bool) => if neg then 2 ^ (f.bits - 1) else 0
    let half := (topOf f - (finiteOf f (f.maxFinite - 1)).getD 0) / 2
    f.drain .absent = f.absentCode ∧ f.drain .nan = f.nanCode ∧
    (∀ b, f.drain (.inf b) = sgn b + f.infCode.getD f.maxFinite) ∧
    (∀ neg m e, let x := ratOf neg m e
      let a := ratOf false m e
      let c := f.drain (.fin neg m e)
      (a ≤ topOf f → Rounds f .rn (· ≤ x) (x ≤ ·) c ∧ (finiteOf f c = some 0 → c = if wide then sgn neg else 0)) ∧
      (topOf f < a → a < topOf f + half → c = sgn neg + f.maxFinite) ∧
      (topOf f + half ≤ a → c = sgn neg + if wide then f.infCode.getD 0 else f.maxFinite))) ∧
  ([Fmt.e5m2, .e4m3, .e2m1].map (fun f => (f.drain .absent, f.drain .nan, f.drain (.inf false), f.drain (.inf true))) =
    [(0x80, 0x7E, 0x7C, 0xFC), (0x80, 0x7F, 0x7E, 0xFE), (8, 0, 7, 15)]) ∧
  (∀ f ∈ [Fmt.i8, .i4], let top : Int := 2 ^ (f.bits - 1) - 1
    f.drain .absent = f.absentCode ∧ ∀ neg m e n, RoundsInt .rn (ratOf neg m e) n →
      f.drain (.fin neg m e) = (clamp (-top) top n % 2 ^ f.bits).toNat) ∧
  (∀ (tgt : Nat) (f : Fmt) (sc : Nat) (x : Word), Fmt.ofCode tgt = some f →
    let c := fun acc32 => drainCode acc32 tgt sc x
    let top : Int := 2 ^ (f.bits - 1) - 1
    (tgt ≤ 5 → c false = match Fmt.f32.valF x.toNat with
      | .fin neg m e => f.drain (.fin neg m (e + 127 - (sc : Int)))
      | v => f.drain v) ∧
    (tgt = 6 ∨ tgt = 7 → c true = if x = i32Absent then f.absentCode else (clamp (-top) top x.toInt % 2 ^ f.bits).toNat) ∧
    (tgt = 10 ∨ tgt = 17 → ∀ acc32, c acc32 = x.toNat) ∧
    (tgt = 11 ∨ tgt = 13 → ∀ acc32, c acc32 = min (if x.toNat < 65536 then x.toNat else 0) (2 ^ f.bits - 2)))

/-- What a drain writes (R44, R311): each row's codes, packed, at its PITCH, and nothing where the destination is absent, where
DRAIN_NAN_LOST rises all the same (log 70); after its elements the absolute maximum of what is neither absent nor NaN, as one
max.f32 on the word at AMOFF, and none where there is no such element. -/
def Sys2Proof.Claims.DrainResults : Prop := ∀ (s : State) (o : Op) (w : Wall) (half z : Nat) (d : Drain) (f : Fmt) (us : Tab (Nat × Nat)),
  Fmt.ofCode d.tgt = some f →
  let k := islandOf o.core
  let word := fun i j => w.z.getD (32768 * half + 4096 * z + 64 * i + j) (BitVec.allOnes 32)
  let row := fun i => w.drainRow half z d i
  (∀ i, Packs f.bits ((List.range 64).map fun j => drainCode d.acc32 d.tgt d.scale (word i j)) (row i)) ∧
  (∀ lo hi, let rows := (List.range (hi - lo)).map (lo + ·)
    let lost := (rows.flatMap fun i => (List.range 64).filter fun j => d.tgt = 5 ∧ Fmt.f32.valF (word i j).toNat = .nan).length
    let t := s.raiseBy o.ctx .drainNanLost lost
    let cells := rows.flatMap fun i => (List.range (row i).length).map fun n => (d.dst + i * d.pitch + n, (row i).getD n 0)
    (d.absentDst = true → s.drainRows o w half z d us lo hi = t) ∧
    (d.absentDst = false → d.stash = false →
      s.drainRows o w half z d us lo hi = t.performUnits k us (cells.map fun c => (c.1 % 2 ^ 64, c.2))) ∧
    (d.absentDst = false → d.stash = true →
      s.drainRows o w half z d us lo hi = t.stashPerform ((s.ageOf o.uid).getD 0) k (cells.map fun c => (swz c.1 d.span, c.2)))) ∧
  (let xs := (List.range 4096).map fun n => word (n / 64) (n % 64)
   let counted := fun (x : Word) => Fmt.f32.valF x.toNat ≠ .absent ∧ Fmt.f32.valF x.toNat ≠ .nan
   let at' := (d.dst : Int) + d.amOff
   (d.amax = false ∨ d.absentDst = true ∨ (∀ x ∈ xs, ¬ counted x) → s.drainMax o w half z d us = s) ∧
   (∀ m v age, d.amax = true → d.absentDst = false → s.ageOf o.uid = some age → s.wall? age = some v →
      (∃ x ∈ xs, counted x ∧ x.toNat % 2 ^ 31 = m) → (∀ x ∈ xs, counted x → x.toNat % 2 ^ 31 ≤ m) →
      (d.stash = false → let l := unitLoc us (at' % 2 ^ 64).toNat
        s.drainMax o w half z d us = s.rmwNat k l.1 l.2 4 fun old => AtOp.new (.max .f32) 4 old m 0) ∧
      (d.stash = true → s.drainMax o w half z d us = s.stashPerform age k
        (cellsAt at'.toNat (natLe 4 (AtOp.new (.max .f32) 4 (leNat (s.stashBytes v k at'.toNat 4)) m 0))))))

/-- tl.mma (R262, R296 to R304): B and the scale factors are read from stash, A from the lanes' registers or, under reuse, from
the latch, all of them at acceptance (log 16), with the pair sB and the next field (log 81), which are the model's readings; the K-steps that have a slice of A become one
operation, and MMA_LATCH_EMPTY rises for the others. -/
def Sys2Proof.Claims.MatrixMultiply : Prop := ∀ (s : State) (e : Env) (reuse kc : Bool) (kn : BitVec 3) (d a b : Reg),
  let f := e.fmtInfo
  let steps := kn.toNat + 1
  let off := (e.sb b).toNat
  let w := mmaWord (e.sb2 b).toNat
  let rows := (List.range (f.k * steps)).map fun k => (off + k * w.pitch, 64 * f.b.bits / 8)
  let scales := [(w.asc, scaleBytes f.a f.group (f.k * steps)), (w.bsc, scaleBytes f.b f.group (f.k * steps))]
  let slice := fun t => if reuse then e.c.latch[t]? else some (e.aSlice f.a a t)
  let empty := ((List.range steps).filter fun t => (slice t).isNone).length
  let offs := (rows.flatMap fun r => (List.range r.2).map fun i => swz (r.1 + i) w.span) ++
    scales.flatMap fun r => (List.range r.2).map fun i => r.1 + i
  Alone e → off % 16 = 0 → Inside e ((rows ++ scales).map fun r => ((r.1 : Int), r.2)) → 64 * f.b.bits / 8 ≤ w.pitch →
  w.reserved = 0 → (∀ p ∈ pagesOfAll rows, e.w.tagOf p = w.span) →
  ∀ u, StashOpen s e offs u → Runs s (.tlMma reuse kc kn d a b) e fun _ =>
    let t := u.raiseBy e.c.ctx .mmaLatchEmpty empty
    startsTile e [] (.tlMma d.toNat kc f.acc32 (mmaSteps u e steps off w slice))
      (if reuse then t else t.updCourse e.r.uid fun c => { c with latch := (List.range steps).map (e.aSlice f.a a) })

/-- The traps of tl.mma (R247, R249, R302): s(B) that is no multiple of 16 is trap 0x07; a row of B or a scale range beyond the window is
trap 0x04 with the lowest offset; a pitch below the row, reserved bits that are set or a page of a row of B with another span tag is trap
0x0D with s(B). -/
def Sys2Proof.Claims.MmaTraps : Prop := ∀ (s : State) (e : Env) (reuse kc : Bool) (kn : BitVec 3) (d a b : Reg), Alone e →
  let f := e.fmtInfo
  let n := f.k * (kn.toNat + 1)
  let off := (e.sb b).toNat
  let w := mmaWord (e.sb2 b).toNat
  let row := 64 * f.b.bits / 8
  let rows := (List.range n).map fun k => (off + k * w.pitch, row)
  let scales := [(w.asc, scaleBytes f.a f.group n), (w.bsc, scaleBytes f.b f.group n)]
  let ranges := (rows ++ scales).map fun r => ((r.1 : Int), r.2)
  let traps := fun (code : Nat) (faddr : Dword) =>
    Runs s (.tlMma reuse kc kn d a b) e fun s => s.trapAt e code 0 e.pc faddr e.f.lanes
  (off % 16 ≠ 0 → traps 0x07 (e.sb b)) ∧
  (off % 16 = 0 →
    (∀ x, Beyond e ranges x → (∀ y, Beyond e ranges y → x ≤ y) → traps 0x04 (BitVec.ofInt 64 x)) ∧
    (Inside e ranges → w.pitch < row ∨ w.reserved ≠ 0 ∨ (∃ p ∈ pagesOfAll rows, e.w.tagOf p ≠ w.span) → traps 0x0D (e.sb b)))

/-- The traps of tl.load and tl.drain and the faults that they meet at issue (R245, R249, R308, R310, R311, R357 to R359): a misaligned
destination of a drain is trap 0x07; a row, or the word of the absolute maximum, outside the window is trap 0x04 with the lowest offset;
then a drain word that R310 does not allow is trap 0x0D with that word, which is checked where the destination is absent too (log 110);
a global range that does not translate parks F or is trap 0x0C; without room for the pins F waits. The row of a target that is not
allowed is that of the code's format (log 106). -/
def Sys2Proof.Claims.TileTraps : Prop := ∀ (s : State) (e : Env) (d a : Reg), Alone e →
  let traps := fun (code : Nat) (faddr : Dword) => Runs s (.tlDrain d a) e fun s => s.trapAt e code 0 e.pc faddr e.f.lanes
  let fails := fun (i : Instr) (write : Bool) (ranges : List (Nat × Nat)) => ∀ x,
    s.xlateUnits e.island e.c.ctx write (rangeUnits ranges) = .error x → FailsOn s s e i write x
  let waits := fun (i : Instr) (g : Rng) (t : State) => t.pinAll e.island e.c.ctx g.pages = none →
    Runs s i e fun _ => (t.raise e.c.ctx .pinWait).await e .tile (.pinRoom e.island e.c.ctx g.pages)
  let dst := (e.sb a).toNat
  let off := dst % 2 ^ 32
  let acc32 := e.fmtInfo.acc32
  let w := drainWord (e.sb2 a).toNat
  let ranges : List (Int × Nat) := ((List.range 64).map fun i => (((off + i * w.pitch : Nat) : Int), tgtRow w.tgt)) ++
    (if w.amax then [((off : Int) + w.amOff * 8, 4)] else [])
  let outside := fun (x : Int) => ∃ r ∈ ranges, r.2 ≠ 0 ∧
    (r.1 < 0 ∧ x = r.1 ∨ 0 ≤ r.1 ∧ e.w.window < r.1 + r.2 ∧ x = max r.1 e.w.window)
  let word := (((dst : Int) + w.amOff * 8) % 2 ^ 64).toNat
  let global := (dst, 63 * w.pitch + tgtRow w.tgt) :: if w.amax then [(word, 4)] else []
  let plain := w.scale = 0x7F ∧ w.amax = false
  (e.sb a ≠ BitVec.allOnes 64 → dst % 128 = 0 → fails (.tlLoad d a) false [(dst, 16384)] ∧
    ∀ g t, Translates s e false [(dst, 16384)] g t → waits (.tlLoad d a) g t) ∧
  (w.stash = true → off % 16 ≠ 0 → traps 0x07 (BitVec.ofNat 64 off)) ∧
  (w.stash = false → e.sb a ≠ BitVec.allOnes 64 → dst % 16 ≠ 0 → traps 0x07 (e.sb a)) ∧
  (w.stash = true → off % 16 = 0 → ∀ x, outside x → (∀ y, outside y → x ≤ y) → traps 0x04 (BitVec.ofInt 64 x)) ∧
  (w.valid acc32 = false → (w.stash = true ∧ off % 16 = 0 ∧ Inside e ranges) ∨ (w.stash = false ∧ (e.sb a = BitVec.allOnes 64 ∨ dst % 16 = 0)) →
    traps 0x0D (e.sb2 a)) ∧
  (w.valid acc32 = true → w.stash = false → e.sb a ≠ BitVec.allOnes 64 → dst % 16 = 0 → fails (.tlDrain d a) true global ∧
    ∀ g t, Translates s e true global g t →
      (w.amax = true → ∀ p ∈ t.windowAt e.island e.c.ctx word, carries p.2 (.max .f32) 4 = true) → waits (.tlDrain d a) g t) ∧
  (w.valid acc32 = true ↔
    (acc32 = false ∧ w.tgt ≤ 5 ∧ w.scale ≤ 0xFE ∨ acc32 = true ∧ (w.tgt = 10 ∨ w.tgt = 6 ∨ w.tgt = 7) ∧ plain ∨
      (w.tgt = 13 ∨ w.tgt = 11 ∨ w.tgt = 17) ∧ plain) ∧
    w.pitch % 16 = 0 ∧ tgtRow w.tgt ≤ w.pitch ∧ w.reserved = 0 ∧ (w.stash = false → w.span = 0) ∧
    (w.amax = true → w.stash = false → w.amSc ≤ 5))

/-- One element of a K-step (R67): with no kept product the accumulator stays; an i32 accumulator takes the exact sum and
saturates once, from 0 where it was absent; an f32 accumulator takes the rounded sum where it was absent, and otherwise its
value plus the rounded sum, rounded again. -/
def Sys2Proof.Claims.MatrixElement : Prop :=
  (∀ acc32 z, mmaElem acc32 z [] = none) ∧
  (∀ (z : Word) (xs : List Int), xs ≠ [] → mmaElem true z (xs.map fun x => .fin (x < 0) x.natAbs 0) =
    some (satI32 ((if z = i32Absent then 0 else z.toInt) + xs.sum))) ∧
  (∀ (z : Word) (v : Val) (vs : List Val),
    let sum := Fmt.f32.codeF .rn (vs.foldl (Val.add .rn) v)
    mmaElem false z (v :: vs) = some (BitVec.ofNat 32 (if z = BitVec.allOnes 32 then sum
      else Fmt.f32.codeF .rn ((Fmt.f32.valF z.toNat).add .rn (Fmt.f32.valF sum)))))

/-- The contents of tiles (R67, R304, R307): filling a tile and filling rows write each element its word; a K-step gives element (i, j)
the element's new accumulator from its kept products, those of A(i, k) and B(k, j) where neither is absent, and under KC its count in
the tile after, which rises by their number up to 65,535; every other element, and everything else of the wall, stays. -/
def Sys2Proof.Claims.TileContents : Prop := ∀ (w : Wall) (half z : Nat), w.z.sorted = true →
  let key := fun t i j => 32768 * half + 4096 * t + 64 * i + j
  let word := fun (v : Wall) n => v.z.getD n (BitVec.allOnes 32)
  let tile := fun t n => 32768 * half + 4096 * t ≤ n ∧ n < 32768 * half + 4096 * t + 4096
  let onlyZ := fun (v : Wall) => v.z.sorted = true ∧ v = { w with z := v.z }
  (∀ g, let v := w.fillTile half z g
    onlyZ v ∧ (∀ i < 64, ∀ j < 64, word v (key z i j) = g (64 * i + j)) ∧ ∀ n, ¬ tile z n → word v n = word w n) ∧
  (∀ lo hi g, lo ≤ hi → hi ≤ 64 → let v := w.fillRows half z lo hi g
    onlyZ v ∧ (∀ i, lo ≤ i → i < hi → ∀ j < 64, word v (key z i j) = g (64 * i + j)) ∧
      ∀ n, n < key z lo 0 ∨ key z hi 0 ≤ n → word v n = word w n) ∧
  (∀ kc acc32 k, let v := w.applyStep half z kc acc32 k
    let new := fun i j => mmaElem acc32 (word w (key z i j)) (k.prods i j)
    onlyZ v ∧ (∀ n, ¬ tile z n → ¬ (kc = true ∧ tile (z + 1) n) → word v n = word w n) ∧
    ∀ i < 64, ∀ j < 64, word v (key z i j) = (new i j).getD (word w (key z i j)) ∧
      let old := (word w (key (z + 1) i j)).toNat
      word v (key (z + 1) i j) = if kc = true ∧ (new i j).isSome = true then
          BitVec.ofNat 32 (min ((if old < 65536 then old else 0) + (k.prods i j).length) 65535)
        else word w (key (z + 1) i j)) ∧
  (∀ (k : KStep) (i j : Nat), (k.a.getD i []).length = k.b.length →
    k.prods i j = (List.range k.b.length).filterMap fun n =>
      let x := (k.a.getD i []).getD n .absent
      let y := (k.b.getD n []).getD j .absent
      if x = .absent ∨ y = .absent then none else some (x.mul y))

/-- TILE_OPERATION_COMPLETE (R290, R291, R307, R311): when no earlier operation of the wall on the core names its tiles, and what
it accesses is mapped and not marked, in a bound region too, what is left of the operation acts on its tiles, its pins go, it is gone and TLC falls. That
what is left happens within this step is the model's choice (log 16), and so is a word of the absolute maximum tagged as the
drain's pages are (log 27). -/
def Sys2Proof.Claims.TileCompletion : Prop := ∀ (s : State) (id : Nat) (o : Op) (c : Course) (w : Wall),
  s.op? id = some o → s.course? o.uid = some c → s.wall? c.age = some w → s.tileReady id o = true →
  Unhindered s o w o.done o.work.size →
  let half := if w.twin then o.core % 2 else 0
  let done := fun (t : State) => Gives s (.tileOperationComplete id)
    (((t.unpin (islandOf o.core) o.ctx o.pins).dropOp id).addTlc o.uid false)
  (∀ z code, o.work = .tlZero z code → done (s.updWall c.age fun w => w.fillTile half z fun _ => code)) ∧
  (∀ z us, o.work = .tlLoad z none us → done (s.updWall c.age fun w => w.fillRows half z o.done 64 fun _ => BitVec.allOnes 32)) ∧
  (∀ z va us, o.work = .tlLoad z (some va) us → done (s.updWall c.age fun w => w.fillRows half z o.done 64 fun n =>
    BitVec.ofNat 32 (leNat (s.readUnits (islandOf o.core) us (va + 4 * n) 4)))) ∧
  (∀ z kc acc32 steps, o.work = .tlMma z kc acc32 steps →
    done (s.updWall c.age fun w => (steps.drop o.done).foldl (fun w k => w.applyStep half z kc acc32 k) w)) ∧
  (∀ z d us, o.work = .tlDrain z d us →
    done (((s.drainRows o w half z d us o.done 64).drainMax o w half z d us).claim o.ctx))

/-- The steps at which an engine may stop (R292): one K-step of tl.mma, a band of 8 rows of tl.load and tl.drain, one 128-byte
line of a copy's destination, whose bytes it writes as CopyCompletion says; a step that does not end the operation leaves it with its
progress, and the step that ends it is left to its completion. Which step the engine takes next is named by the schedule (log 16), which is the model's choice, as it is that tl.mma
has read its sources at acceptance. -/
def Sys2Proof.Claims.EngineSteps : Prop := ∀ (s : State) (id : Nat) (o : Op) (c : Course) (w : Wall),
  s.op? id = some o → s.course? o.uid = some c → s.wall? c.age = some w →
  let half := if w.twin then o.core % 2 else 0
  let next := o.nextStop
  let keeps := fun (t : State) => s.engineStep id = t.updOp id fun x => { x with done := next }
  (s.tileReady id o = true →
    Unhindered s o w o.done next →
    (∀ z kc acc32 steps k, o.work = .tlMma z kc acc32 steps → steps[o.done]? = some k → o.done + 1 < steps.length →
      next = o.done + 1 ∧ keeps (s.updWall c.age fun w => w.applyStep half z kc acc32 k)) ∧
    (∀ z us, o.work = .tlLoad z none us → o.done < 56 →
      next = 8 * (o.done / 8 + 1) ∧ keeps (s.updWall c.age fun w => w.fillRows half z o.done next fun _ => BitVec.allOnes 32)) ∧
    (∀ z va us, o.work = .tlLoad z (some va) us → o.done < 56 →
      next = 8 * (o.done / 8 + 1) ∧ keeps (s.updWall c.age fun w => w.fillRows half z o.done next fun n =>
        BitVec.ofNat 32 (leNat (s.readUnits (islandOf o.core) us (va + 4 * n) 4)))) ∧
    (∀ z d us, o.work = .tlDrain z d us → o.done < 56 →
      next = 8 * (o.done / 8 + 1) ∧ keeps ((s.drainRows o w half z d us o.done next).claim o.ctx))) ∧
  (∀ dstS srcS dst src span len rows stride us, o.work = .copy dstS srcS dst src span len rows stride us → o.done < len * rows →
    let k := islandOf o.core
    let global := fun base n => (base + n / len * stride + n % len) % 2 ^ 64
    let line := fun n => (if dstS then swz (dst + n) span else global dst n) / 128
    let now := (List.range (next - o.done)).map fun i => o.done + i
    let cells := now.map fun n =>
      let byte := if srcS then s.stashByte w k (swz (src + n) span)
        else s.viewAt k (unitLoc us (global src n)).2 (unitLoc us (global src n)).1
      (if dstS then swz (dst + n) span else global dst n, byte)
    let t := (if dstS then s.stashWrite c.age k cells else s.performUnits k us cells).claim o.ctx
    o.done < next ∧ next ≤ len * rows ∧ next ≤ o.done + 128 ∧ (∀ n, o.done ≤ n → n < next → line n = line o.done) ∧
    (next < len * rows → next < o.done + 128 → line next ≠ line o.done) ∧
    (c.resident = true → next < len * rows → Unhindered s o w o.done next →
      keeps (if srcS then t.updWall c.age fun w => w.touch (now.map fun n => swz (src + n) span) else t))) ∧
  (o.work.engineKind = 0 → o.work.size ≤ next → s.engineStep id = s) ∧
  (s.tileReady id o = false → o.work.isCopy = false → o.work.engineKind = 0 → s.engineStep id = s)

/-! Copies and bound regions (R260 to R263, R312 to R317). -/

/-- The copies (R312 to R315): an absent side makes no copy; aligned sides inside the window, with the span tags that a stash
source needs, whose global sides translate and are pinned, become a pending copy; a stash destination takes its span tag. -/
def Sys2Proof.Claims.Copies : Prop := ∀ (s : State) (e : Env) (d a b : Reg),
  let h := copyShape (e.sb b)
  let st := fun (x : Dword) => (x.toNat % 2 ^ 32, x.toNat / 2 ^ 32 % 8)
  let stOk := fun (x : Dword) => (st x).1 % 16 = 0 ∧ x.toNat / 2 ^ 35 = 0 ∧ (st x).1 + h.2.1 * h.1 ≤ e.w.window
  let D := e.sb d
  let A := e.sb a
  let side := fun (write : Bool) (x : Dword) (g : Rng) =>
    x.toNat % 16 = 0 ∧ s.xlateUnits e.island e.c.ctx write (rangeUnits (copyRows x.toNat (e.sb b))) = .ok g
  let pins := fun (g : Rng) (u : State) => (s.learn e.island e.c.ctx g.leaves).pinAll e.island e.c.ctx g.pages = some u
  (D = BitVec.allOnes 64 ∨ A = BitVec.allOnes 64 → GoesTo s (.cpyG2s d a b) e (e.pc + 4) ∧
    GoesTo s (.cpyS2g d a b) e (e.pc + 4) ∧ GoesTo s (.cpyG2g d a b) e (e.pc + 4)) ∧
  (D ≠ BitVec.allOnes 64 → A ≠ BitVec.allOnes 64 → shapeOk (e.sb b) → ∀ g g' u,
    (stOk D → side false A g → pins (bothSides g {}) u → Runs s (.cpyG2s d a b) e fun _ =>
      startsCopy e (bothSides g {}).pages (.copy true false (st D).1 A.toNat (st D).2 h.1 h.2.1 h.2.2 g.units)
        (u.updWall e.c.age fun x => x.setTags (pagesOf (st D).1 (h.2.1 * h.1)) (st D).2)) ∧
    (stOk A → side true D g → (∀ p ∈ pagesOf (st A).1 (h.2.1 * h.1), e.w.tagOf p = (st A).2) → pins (bothSides {} g) u →
      Runs s (.cpyS2g d a b) e fun _ => startsCopy e (bothSides {} g).pages
        (.copy false true D.toNat (st A).1 (st A).2 h.1 h.2.1 h.2.2 (bothSides {} g).units) u) ∧
    (side false A g → side true D g' → pins (bothSides g g') u → Runs s (.cpyG2g d a b) e fun _ =>
      startsCopy e (bothSides g g').pages
        (.copy false false D.toNat A.toNat 0 h.1 h.2.1 h.2.2 (bothSides g g').units) u))

/-- The traps of the copies and the faults that they meet at issue (R246, R249, R308, R313, R314, R357): misaligned addresses are trap
0x07 with the lowest one, and so is a shape with rows of no or odd length or with none, where FADDR is a free value (log 23); stash
rows beyond the window are 0x04; reserved bits of the stash word, or under s2g a page with another span tag, are 0x0D with that word; a
side that does not translate parks F or is trap 0x0C, and of two such sides a violation decides, and else the lower address; without
room for the pins F waits. -/
def Sys2Proof.Claims.CopyTraps : Prop := ∀ (s : State) (e : Env) (d a b : Reg),
  let h := copyShape (e.sb b)
  let D := e.sb d
  let A := e.sb a
  D ≠ BitVec.allOnes 64 → A ≠ BitVec.allOnes 64 →
  ∀ (i : Instr) (reads writes : List Nat) (stash : Option (Dword × Bool)), (i, reads, writes, stash) ∈ [
      (.cpyG2s d a b, [A.toNat], [], some (D, false)), (.cpyS2g d a b, [], [D.toNat], some (A, true)),
      (.cpyG2g d a b, [A.toNat], [D.toNat], none)] →
  let off := fun (x : Dword) => x.toNat % 2 ^ 32
  let odd := fun (x : Nat) => x % 16 ≠ 0 ∧ (x ∈ reads ++ writes ∨ ∃ p ∈ stash, off p.1 = x)
  let traps := fun (code : Nat) (faddr : Dword) => Runs s i e fun s => s.trapAt e code 0 e.pc faddr e.f.lanes
  let wrongTag := fun (p : Dword × Bool) => p.1.toNat / 2 ^ 35 ≠ 0 ∨
    (p.2 = true ∧ ∃ q ∈ pagesOf (off p.1) (h.2.1 * h.1), e.w.tagOf q ≠ p.1.toNat / 2 ^ 32 % 8)
  let rd := s.xlateUnits e.island e.c.ctx false (rangeUnits (reads.flatMap fun x => copyRows x (e.sb b)))
  let wr := s.xlateUnits e.island e.c.ctx true (rangeUnits (writes.flatMap fun x => copyRows x (e.sb b)))
  (∀ x, odd x → (∀ y, odd y → x ≤ y) → traps 0x07 (BitVec.ofNat 64 x)) ∧
  ((∀ x, ¬ odd x) →
    (¬ shapeOk (e.sb b) → ∃ faddr, traps 0x07 faddr) ∧
    (shapeOk (e.sb b) →
      (∀ p ∈ stash, e.w.window < off p.1 + h.2.1 * h.1 → traps 0x04 (BitVec.ofNat 64 (max (off p.1) e.w.window))) ∧
      (∀ p ∈ stash, off p.1 + h.2.1 * h.1 ≤ e.w.window → wrongTag p → traps 0x0D p.1) ∧
      ((∀ p ∈ stash, off p.1 + h.2.1 * h.1 ≤ e.w.window ∧ ¬ wrongTag p) →
        (∀ x g, rd = .error x → wr = .ok g → FailsOn s s e i false x) ∧
        (∀ g x, rd = .ok g → wr = .error x → FailsOn s s e i true x) ∧
        (∀ x y, rd = .error x → wr = .error y → x.code ≠ eccCode → y.code ≠ eccCode →
          (x.code = 0x0C → y.code = 0x0C → FailsOn s s e i false { x with va := min x.va y.va }) ∧
          (x.code = 0x0C → y.code ≠ 0x0C → FailsOn s s e i false x) ∧ (x.code ≠ 0x0C → y.code = 0x0C → FailsOn s s e i true y) ∧
          (x.code ≠ 0x0C → y.code ≠ 0x0C → if y.va < x.va then FailsOn s s e i true y else FailsOn s s e i false x)) ∧
        (∀ x y, rd = .error x → wr = .error y →
          (x.code = eccCode → FailsOn s s e i false x) ∧ (x.code ≠ eccCode → y.code = eccCode → FailsOn s s e i true y)) ∧
        (∀ g g', rd = .ok g → wr = .ok g' →
          let t := s.learn e.island e.c.ctx (g.leaves ++ g'.leaves)
          let pages := dedup (g.pages ++ g'.pages)
          t.pinAll e.island e.c.ctx pages = none →
          Runs s i e fun _ => (t.raise e.c.ctx .pinWait).await e .tile (.pinRoom e.island e.c.ctx pages)))))

/-- The traps of cpy.bind and the faults that it meets (R261, R357, R358): a misaligned base is trap 0x07; a region above 7 or bound
already, a range that is misaligned, empty, beyond the window or over another bound range is trap 0x04 with the offset; a page that
does not translate parks F or is trap 0x0C; without room for the pins F waits. -/
def Sys2Proof.Claims.BindTraps : Prop := ∀ (s : State) (e : Env) (d a b : Reg),
  let off := (e.sb d).toNat % 2 ^ 32
  let len := (e.sb d).toNat / 2 ^ 32
  let n := (e.sb b).toNat
  let i := Instr.cpyBind d a b
  let traps := fun (code : Nat) (faddr : Dword) => Runs s i e fun s => s.trapAt e code 0 e.pc faddr e.f.lanes
  let wrong := 7 < n ∨ (e.w.regions.get? n).isSome = true ∨ off % 4096 ≠ 0 ∨ len % 4096 ≠ 0 ∨ len = 0 ∨ e.w.window < off + len ∨
    ∃ p ∈ e.w.regions, off < p.2.off + p.2.len ∧ p.2.off < off + len
  let pages := s.xlateUnits e.island e.c.ctx true (rangeUnits [((e.sb a).toNat, len)])
  ((e.sb a).toNat % 4096 ≠ 0 → traps 0x07 (e.sb a)) ∧
  ((e.sb a).toNat % 4096 = 0 →
    (wrong → traps 0x04 (BitVec.ofNat 64 off)) ∧
    (∀ x, ¬ wrong → pages = .error x → FailsOn s s e i true x) ∧
    (∀ g, ¬ wrong → pages = .ok g → let t := s.learn e.island e.c.ctx g.leaves
      t.pinAll e.island e.c.ctx g.pages = none →
      Runs s i e fun _ => (t.raise e.c.ctx .pinWait).await e .batch (.pinRoom e.island e.c.ctx g.pages)))

/-- Batches and bound regions (R246, R247, R261, R263, R316, R317). A batch may name a stash object at which it arrives. An unbind
goes on in the step that performs what its island has applied (log 19; R263 makes F wait), and a line counts as filled that was
filled before a pre-emption (log 34). -/
def Sys2Proof.Claims.BatchesAndRegions : Prop := ∀ (s : State) (e : Env) (d a b : Reg),
  (e.c.batches.length < 64 → Runs s (.cpyBatch d 0) e fun s =>
    let n := (e.c.batchNo + 1) % 2 ^ 64
    let t := s.updCourse e.r.uid fun c =>
      { c with batchNo := n, copies := [], batches := c.batches ++ [⟨n, c.copies, none⟩] }
    ((if d = 0 then t else t.setS e d (BitVec.ofNat 64 n)).checkBatches e.r.uid).advance e) ∧
  (64 ≤ e.c.batches.length → Runs s (.cpyBatch d 0) e fun s => s.await e .batch .batchRoom) ∧
  (a ≠ 0 → let off := (e.sb a).toNat % 2 ^ 32
    (off % 16 = 0 → off + 16 ≤ e.w.window → e.c.batches.length < 64 → Runs s (.cpyBatch d a) e fun s =>
      let n := (e.c.batchNo + 1) % 2 ^ 64
      let t := s.updCourse e.r.uid fun c =>
        { c with batchNo := n, copies := [], batches := c.batches ++ [⟨n, c.copies, some off⟩] }
      ((if d = 0 then t else t.setS e d (BitVec.ofNat 64 n)).checkBatches e.r.uid).advance e) ∧
    (off % 16 = 0 → off + 16 ≤ e.w.window → 64 ≤ e.c.batches.length → Runs s (.cpyBatch d a) e fun s =>
      s.await e .batch .batchRoom) ∧
    (off % 16 ≠ 0 → Runs s (.cpyBatch d a) e fun s => s.trapAt e 0x07 0 e.pc (BitVec.ofNat 64 off) e.f.lanes) ∧
    (off % 16 = 0 → e.w.window < off + 16 → Runs s (.cpyBatch d a) e fun s =>
      s.trapAt e 0x04 0 e.pc (BitVec.ofNat 64 (max off e.w.window)) e.f.lanes)) ∧
  ((∀ x ∈ e.c.batches, (e.sb a).toNat < x.n) → GoesTo s (.cpyWait a) e (e.pc + 4)) ∧
  ((∃ x ∈ e.c.batches, x.n ≤ (e.sb a).toNat) →
    Runs s (.cpyWait a) e fun s => s.await e .batch (.batches (e.sb a).toNat)) ∧
  (let off := (e.sb d).toNat % 2 ^ 32
   let len := (e.sb d).toNat / 2 ^ 32
   let n := (e.sb b).toNat
   ∀ g u, (e.sb a).toNat % 4096 = 0 → n ≤ 7 → e.w.regions.get? n = none → off % 4096 = 0 → len % 4096 = 0 → len ≠ 0 →
    off + len ≤ e.w.window → (∀ p ∈ e.w.regions, p.2.off + p.2.len ≤ off ∨ off + len ≤ p.2.off) →
    Pinned s e true [((e.sb a).toNat, len)] g u → Runs s (.cpyBind d a b) e fun _ =>
      (u.updWall e.c.age fun w =>
        { w with regions := w.regions.set n { off := off, len := len, va := (e.sb a).toNat, units := g.units, pins := g.pages },
                 stash := w.stash.filter fun c => !(off ≤ c.1 && c.1 < off + len) }).advance e) ∧
  ((e.sb a).toNat % 4096 ≠ 0 → Runs s (.cpyBind d a b) e fun s => s.trapAt e 0x07 0 e.pc (e.sb a) e.f.lanes) ∧
  (e.w.regions.get? (e.sb a).toNat = none → s.wall? e.c.age = some e.w → GoesTo s (.cpyUnbind a) e (e.pc + 4)) ∧
  (∀ r, s.wall? e.c.age = some e.w → e.w.regions.get? (e.sb a).toNat = some r → Runs s (.cpyUnbind a) e fun s =>
    let k := islandOf e.w.core
    let t := s.flush k
    let cells := r.filled.flatMap fun l => (List.range 128).map fun j => (128 * l + j, t.stashByte e.w k (128 * l + j))
    ((t.updWall e.c.age fun w =>
      { w with regions := w.regions.erase (e.sb a).toNat,
               stash := cells.foldl (fun m c => if c.2 = 0xFF then m.erase c.1 else m.set c.1 c.2) e.w.stash }).unpin k e.w.ctx
        r.pins).advance e)

/-- COPY_COMPLETE (R262, R314 to R316): what is left of the rows is read and written, by stash offset under the swizzle of the
span or by global address, lines of a bound region that it read are filled, the pins go, and the copy leaves its batch, which may
complete. That what is left happens within this step (log 16), through the bindings in force then (log 85), is the model's choice. -/
def Sys2Proof.Claims.CopyCompletion : Prop := ∀ (s : State) (id : Nat) (o : Op) (c : Course) (w : Wall) (dstS srcS : Bool)
    (dst src span len rows stride : Nat) (us : Tab (Nat × Nat)),
  s.op? id = some o → o.work = .copy dstS srcS dst src span len rows stride us → s.course? o.uid = some c →
  s.wall? c.age = some w → c.resident = true →
  let k := islandOf o.core
  let left := (List.range (len * rows - o.done)).map fun i => o.done + i
  let global := fun base n => (base + n / len * stride + n % len) % 2 ^ 64
  let offs := left.map fun n => swz (src + n) span
  let cells := left.map fun n =>
    let byte := if srcS then s.stashByte w k (swz (src + n) span)
      else s.viewAt k (unitLoc us (global src n)).2 (unitLoc us (global src n)).1
    (if dstS then swz (dst + n) span else global dst n, byte)
  let t := (if dstS then s.stashWrite c.age k cells else s.performUnits k us cells).claim o.ctx
  let t := if srcS then t.updWall c.age fun w => w.touch offs else t
  Unhindered s o w o.done o.work.size →
  Gives s (.copyComplete id) ((((t.unpin k o.ctx o.pins).dropOp id).updCourse o.uid fun c =>
    { c with copies := c.copies.filter (· ≠ id)
             batches := c.batches.map fun (b : Batch) => { b with ops := b.ops.filter (· ≠ id) } }).checkBatches o.uid)

/-! The kv class (R377 to R395). -/

/-- kv.gather (R357, R384 to R386, R388): an absent map only arrives at the object; else a gather over the map's present LEN is
accepted, which holds the ids of the blocks that it needs as far as their pages translate and can be pinned. That it takes those
ids at acceptance and not page by page as it reaches them (R387) is the model's reading (log 17). -/
def Sys2Proof.Claims.KvGather : Prop :=
  (∀ (s : State) (e : Env) (d a b : Reg),
    let x := (e.sb d).toNat
    let off := x % 2 ^ 32
    let span := x / 2 ^ 32 % 8
    let obj : Option Nat := if x / 2 ^ 48 = 0xFFFF then none else some (16 * (x / 2 ^ 48))
    let object : List (Int × Nat) := match obj with
      | some o => [((o : Int), 16)]
      | none => []
    off % 16 = 0 →
    (e.sb a = BitVec.allOnes 64 → Inside e object →
      (∀ o, obj = some o → s.boundFail e.w ((List.range 16).map fun i => o + i) = none) →
      Runs s (.kvGather d a b) e fun s => (match obj with
      | some o => s.arriveObject e.c.age e.island o 1
      | none => s).advance e) ∧
    (∀ m p u, e.sb a ≠ BitVec.allOnes 64 → (e.sb a).toNat % 64 = 0 → ReadsMap s e (e.sb a).toNat m p u →
      x / 2 ^ 35 % 2 ^ 13 = 0 → Inside e (((off : Int), 64 * p.rowBytes) :: object) →
      (∀ q ∈ pagesOf off (64 * p.rowBytes), e.w.tagOf q = span) →
      let g : Gather :=
        { off := off, span := span, start := if e.sb b = BitVec.allOnes 64 then none else some (e.sb b).toNat, len := m.len,
          entries := m.entries, nblk := p.nblk, rowBytes := p.rowBytes, elem := p.elem, data := p.data }
      Runs s (.kvGather d a b) e fun _ =>
        startsEngine e (.gather obj ((u.takeSeq e.c.core).2.fetchIds e.island e.c.ctx g)) u)) ∧
  (∀ (s : State) (k ctx : Nat) (g : Gather) (b row : Nat) (h : Rng), g.start = some b → row < 64 → b + row < g.len →
    let va := g.entries + 4 * ((b + row) / 16)
    s.reach k ctx [(va, 4)] = .ok h → (s.pinAll k ctx h.pages).isSome = true →
    (s.fetchIds k ctx g).ids.get? ((b + row) / 16) = some (leNat (s.readUnits k h.units va 4)))

/-- The traps of kv.gather and the faults that it meets at acceptance (R249, R358, R380, R381, R385): a misaligned offset, record or pool
record is trap 0x07; rows or an object beyond the window are 0x04; a record that R381 rejects is 0x0D with its address, and reserved
bits of sD or a page with another span tag are 0x0D with sD; a record that does not translate parks F or is trap 0x0C. -/
def Sys2Proof.Claims.KvGatherTraps : Prop := ∀ (s : State) (e : Env) (d a b : Reg),
  let i := Instr.kvGather d a b
  let x := (e.sb d).toNat
  let off := x % 2 ^ 32
  let A := (e.sb a).toNat
  let object : List (Int × Nat) := if x / 2 ^ 48 = 0xFFFF then [] else [(((16 * (x / 2 ^ 48) : Nat) : Int), 16)]
  let traps := fun (u : State) (code : Nat) (faddr : Dword) => Runs s i e fun _ => u.trapAt e code 0 e.pc faddr e.f.lanes
  (e.sb a = BitVec.allOnes 64 →
    (off % 16 ≠ 0 → traps s 0x07 (BitVec.ofNat 64 off)) ∧
    (∀ y, off % 16 = 0 → Beyond e object y → traps s 0x04 (BitVec.ofInt 64 y))) ∧
  (e.sb a ≠ BitVec.allOnes 64 →
    (let odd := fun (y : Nat) => (y = off ∧ off % 16 ≠ 0) ∨ (y = A ∧ A % 64 ≠ 0)
     ∀ y, odd y → (∀ z, odd z → y ≤ z) → traps s 0x07 (BitVec.ofNat 64 y)) ∧
    (off % 16 = 0 → A % 64 = 0 →
      (∀ c, s.xlateUnits e.island e.c.ctx false (rangeUnits [(A, 64)]) = .error c → FailsOn s s e i false c) ∧
      (∀ bs u, ReadsRecord s e A 64 bs u → let m := KvMap.ofBytes A bs
        (m.pool % 64 ≠ 0 → traps u 0x07 (BitVec.ofNat 64 m.pool)) ∧
        (m.pool % 64 = 0 →
          (∀ c, u.xlateUnits e.island e.c.ctx false (rangeUnits [(m.pool, 64)]) = .error c → FailsOn s u e i false c) ∧
          (∀ cs v, ReadsRecord u e m.pool 64 cs v → let p := KvPool.ofBytes m.pool cs
            let beyond := Beyond e (((off : Int), 64 * p.rowBytes) :: object)
            (∀ y, beyond y → (∀ z, beyond z → y ≤ z) → traps v 0x04 (BitVec.ofInt 64 y)) ∧
            ((∀ y, ¬ beyond y) →
              (m.bad = true → traps v 0x0D (e.sb a)) ∧
              (m.bad = false → p.bad = true → traps v 0x0D (BitVec.ofNat 64 m.pool)) ∧
              (m.bad = false → p.bad = false →
                (x / 2 ^ 35 % 2 ^ 13 ≠ 0 ∨ ∃ q ∈ pagesOf off (64 * p.rowBytes), e.w.tagOf q ≠ x / 2 ^ 32 % 8) →
                traps v 0x0D (e.sb d))))))))

/-- What each row of a gather delivers (R386), where nothing stops its reads: the row of the block that ENTRIES named when the
gather read it, and absent codes for a row without a place, beyond LEN, or whose id is absent or names no block of the pool. The
page of the row's place in ENTRIES is among those that it reads (R387). -/
def Sys2Proof.Claims.GatherRows : Prop := ∀ (s : State) (k ctx b : Nat) (g : Gather),
  let absent := (List.range g.rowBytes).map fun i => (absentByteOf g.elem i).getD 0xFF
  let p := b + g.row
  let gives := fun (bytes : List Byte) (bad : Bool) => ∃ r, s.gatherRow k ctx g = .ok r ∧ r.bytes = bytes ∧ r.badId = bad
  (g.start = none → gives absent false) ∧
  (g.start = some b → g.len ≤ p → gives absent false) ∧
  (∀ id h, g.start = some b → p < g.len → s.reach k ctx [(g.entries + 4 * (p / 16), 4)] = .ok h →
    id = (g.ids.get? (p / 16)).getD (leNat (s.readUnits k h.units (g.entries + 4 * (p / 16)) 4)) →
    (id = 2 ^ 32 - 1 → gives absent false) ∧
    (id ≠ 2 ^ 32 - 1 → g.nblk ≤ id → gives absent true) ∧
    (∀ bs, id ≠ 2 ^ 32 - 1 → id < g.nblk → s.vread k ctx (g.data + (16 * id + p % 16) * g.rowBytes) g.rowBytes = .ok bs →
      gives bs false) ∧
    ∀ r, s.gatherRow k ctx g = .ok r → r.ids.get? (p / 16) = some id ∧ ∀ x ∈ h.pages, x ∈ r.pages)

/-- kv.append (R276, R336, R389 to R391): with the release's wait over, and every write in flight applied, which is the model's
choice (log 12; that it waits as a fence does is log 25), the maps are served one after another, each from its LEN, its lanes in
ascending order; when no lane parks, vB + 1 holds each lane's position, absent where it has none. A lane that appends takes the
position and the next lane the next one; a lane beyond the map, or with an id beyond the pool, takes none and is counted; one that
parks takes the later lanes of its record with it, in one group; a violation or an error met there ends the context. -/
def Sys2Proof.Claims.KvAppend : Prop :=
  (∀ (s : State) (e : Env) (a b : Reg),
    let i := Instr.kvAppend a b
    let addr := fun l => (e.vpb a l).toNat
    let offs := fun l => e.v .n32 b l
    let named := e.lanes.filter fun l => e.vpb a l ≠ BitVec.allOnes 64
    let load := fun va => s.flushAll.kvLoad e.island e.c.ctx va
    let out0 := (e.lanes.filter fun l => e.vpb a l = BitVec.allOnes 64).foldl (fun t l => Tab.set t l (BitVec.allOnes 32)) []
    let served := (dedup (named.map addr)).foldl (fun (acc : KvAcc) va =>
      acc.serve e (encode i).toNat (if named.any (fun l => addr l = va ∧ offs l ≠ BitVec.allOnes 32) then some (load va) else none)
        offs (match acc.s.vread e.island e.c.ctx (va + 16) 4 with
          | .ok w => leNat w
          | .error _ => 0) (named.filter fun l => addr l = va)) { s := s.flushAll, out := out0 }
    s.heldFull e.c.core 0 = false → ((∃ l ∈ named, offs l ≠ BitVec.allOnes 32) → Quiet e) →
    (∀ l ∈ named, offs l ≠ BitVec.allOnes 32 → addr l % 64 = 0 ∧ (offs l).toNat % 16 = 0 ∧
      ∃ m p, load (addr l) = .record m p none ∧ (offs l).toNat + p.rowBytes ≤ e.w.window) →
    served.dead = none → served.parks = [] →
    Runs s i e fun _ => (served.s.updCourse e.r.uid fun c =>
      served.out.foldl (fun c p => c.setV (e.vreg b + 1) p.1 p.2) c).advance e) ∧
  (∀ (s : State) (e : Env) (a b : Reg) (l : Nat), s.heldFull e.c.core 0 = false → l ∈ e.lanes → e.vpb a l ≠ BitVec.allOnes 64 →
    e.v .n32 b l ≠ BitVec.allOnes 32 → ¬ Quiet e →
    (∀ l ∈ e.lanes, e.vpb a l ≠ BitVec.allOnes 64 → e.v .n32 b l ≠ BitVec.allOnes 32 →
      (e.vpb a l).toNat % 64 = 0 ∧ (e.v .n32 b l).toNat % 16 = 0) →
    Runs s (.kvAppend a b) e fun s => s.await e .counter (.counters 0 0 0)) ∧
  (∀ (acc : KvAcc) (e : Env) (word pos l : Nat) (ls : List Nat) (offs : Nat → Word) (m : KvMap) (p : KvPool) (t : State),
    let load := some (KvLoad.record m p none)
    acc.dead = none → offs l ≠ BitVec.allOnes 32 →
    (∀ id fresh entry ref row len, acc.s.laneMeets e.island e.c.ctx m p pos = (t, .go id fresh entry ref row len) →
      acc.serve e word load offs pos (l :: ls) =
        KvAcc.serve { acc with s := t.laneAppend e.island e.c.age e.w m p pos (offs l).toNat id fresh entry ref row len,
                               out := acc.out.set l (BitVec.ofNat 32 pos) } e word load offs (pos + 1) ls) ∧
    (16 * m.cap ≤ pos → acc.serve e word load offs pos (l :: ls) =
      KvAcc.serve { acc with s := acc.s.raise e.c.ctx .kvMapFull, out := acc.out.set l (BitVec.allOnes 32) }
        e word load offs pos ls) ∧
    (acc.s.laneMeets e.island e.c.ctx m p pos = (t, .badId) → acc.serve e word load offs pos (l :: ls) =
      KvAcc.serve { acc with s := t.raise e.c.ctx .kvBadId, out := acc.out.set l (BitVec.allOnes 32) } e word load offs pos ls) ∧
    (let parks := fun (code aux va : Nat) => acc.serve e word load offs pos (l :: ls) = { acc with
       s := t, parks := acc.parks ++ [{ lanes := maskOf (l :: ls), code := code, on := .service, info := some {
         unit := va / 65536, vaddr := va, aux := aux, write := true, origin := 0, word := word } }] }
     (∀ code aux va, acc.s.laneMeets e.island e.c.ctx m p pos = (t, .parks code aux va) → parks code aux va) ∧
     (∀ x, acc.s.laneMeets e.island e.c.ctx m p pos = (t, .fails x) →
       (x.code ≠ 0x0C → x.code ≠ eccCode → parks x.code x.level x.va) ∧
       (x.code = 0x0C ∨ x.code = eccCode → acc.serve e word load offs pos (l :: ls) = { acc with s := t, dead := some x }))))

/-- What a lane of kv.append meets at its position, and what it does (R380, R389 to R391): a full map, or an id beyond the pool; a block
that others share, which parks it with 0x21 and AUX 7; for an absent entry the head of FREEQ, where ids beyond the pool are
discarded and counted, and 0x23 where none is left. A fresh block leaves FREEQ, has its count set to 1 and its id put into ENTRIES;
the row is copied from stash into the block, and then LEN is the position after. -/
def Sys2Proof.Claims.KvAppendLane : Prop := ∀ (s : State) (k ctx : Nat) (m : KvMap) (p : KvPool) (pos : Nat),
  let entryVa := m.entries + 4 * (pos / 16)
  let meets := s.laneMeets k ctx m p pos
  let refVa := fun id => p.refs + 2 * id
  let rowVa := fun id => p.data + (16 * id + pos % 16) * p.rowBytes
  (m.cap ≤ pos / 16 → meets = (s, .full)) ∧
  (∀ x, pos / 16 < m.cap → s.vread k ctx entryVa 4 = .error x → meets = (s, .fails x)) ∧
  (∀ w, pos / 16 < m.cap → s.vread k ctx entryVa 4 = .ok w → let id := leNat w
    (id ≠ 2 ^ 32 - 1 → p.nblk ≤ id → meets = (s, .badId)) ∧
    (∀ entry ref n, id ≠ 2 ^ 32 - 1 → id < p.nblk → s.xlateRange k ctx entryVa 4 false = .ok entry →
      s.xlateRange k ctx (refVa id) 2 false = .ok ref → s.vread k ctx (refVa id) 2 = .ok n →
      (1 < leNat n → meets = (s, .parks 0x21 7 entryVa)) ∧
      (∀ row len, leNat n ≤ 1 → s.xlateRange k ctx (rowVa id) p.rowBytes true = .ok row →
        s.xlateRange k ctx (m.va + 16) 4 true = .ok len → meets = (s, .go id false entry ref row len))) ∧
    (∀ entry t head, id = 2 ^ 32 - 1 → s.xlateRange k ctx entryVa 4 true = .ok entry → s.freeHead ctx p.freeq p.nblk = (t, head) →
      (head = none → meets = (t, .parks 0x23 p.va m.va)) ∧
      (∀ new ref row len, head = some new → t.xlateRange k ctx (refVa new) 2 true = .ok ref →
        t.xlateRange k ctx (rowVa new) p.rowBytes true = .ok row → t.xlateRange k ctx (m.va + 16) 4 true = .ok len →
        meets = (t, .go new true entry ref row len)))) ∧
  (∀ q n, (s.ownQueue ctx q true = none → s.freeHead ctx q n = (s, none)) ∧
    (∀ x, s.ownQueue ctx q true = some x →
      (x.entries = [] → s.freeHead ctx q n = (s, none)) ∧
      (∀ b bs, x.entries = b :: bs → let id := leNat ((s.headBytes x b).take 4)
        (id < n → s.freeHead ctx q n = (s, some id)) ∧
        (n ≤ id → s.freeHead ctx q n = ((s.updQueue q Queue.dropHead).raise ctx .kvBadId).freeHead ctx q n)))) ∧
  (∀ (age off id : Nat) (w : Wall) (fresh : Bool) (entry ref row len : Rng),
    let taken := if fresh = true then
        ((s.updQueue p.freeq Queue.dropHead).performUnits k ref.units (vcells (refVa id) (natLe 2 1))).performUnits k entry.units
          (vcells entryVa (natLe 4 id))
      else s
    let copied := (taken.performUnits k row.units (vcells (rowVa id) (taken.stashBytes w k off p.rowBytes))).updWall age fun w =>
      w.touch ((List.range p.rowBytes).map (off + ·))
    s.laneAppend k age w m p pos off id fresh entry ref row len =
      copied.performUnits k len.units (vcells (m.va + 16) (natLe 4 (pos + 1)))) ∧
  (∀ q : Queue, q.dropHead = { q with entries := q.entries.drop 1, headNo := q.headNo + 1 })

/-- kv.fork and kv.drop (R285, R336, R392, R393): an absent record does nothing. kv.fork copies ENTRIES, POOL and LEN and raises
the count of each block that it now shares; the destination's old pool record is not looked at, which is the model's reading (log
24). kv.drop writes only the entries that name a block, the counts above 0, and LEN: it lowers the count of each block, makes its
entry absent and sets LEN to 0. A block at or above NBLK is counted as KV_BAD_ID, one of count 0 as KV_REF_UNDERFLOW; one that
reaches 0 is pushed to FREEQ, or counted as KV_FREE_LOST where that is full. Both first
wait as a release does and then act at once (log 25), and every write in flight is applied before they read (log 12), which are the
model's choices. -/
def Sys2Proof.Claims.KvForkAndDrop : Prop := ∀ (s : State) (e : Env) (d a : Reg),
  let A := (e.sb a).toNat
  let D := (e.sb d).toNat
  let k := e.island
  (e.sb a = BitVec.allOnes 64 ∨ e.sb d = BitVec.allOnes 64 → GoesTo s (.kvFork d a) e (e.pc + 4)) ∧
  (e.sb a = BitVec.allOnes 64 → GoesTo s (.kvDrop a) e (e.pc + 4)) ∧
  (∀ m p x g1 g2 g3 u1 u2 u3 u4 v, e.sb a ≠ BitVec.allOnes 64 → e.sb d ≠ BitVec.allOnes 64 → A % 64 = 0 → D % 64 = 0 → A ≠ D →
    ReadsMap s e A m p u1 → ReadsRecord u1 e D 64 x u2 →
    let dst := KvMap.ofBytes D x
    let n := (m.len + 15) / 16
    let f := (u4.flush k).flushAll
    let ids := idsOf (f.readUnits k g1.units m.entries (4 * n))
    let held := namedIds ids p
    let counts := held.map fun id => (p.refAddr id, 2)
    dst.bad = false → n ≤ dst.cap →
    Translates u2 e false [(m.entries, 4 * n)] g1 u3 → Translates u3 e true [(dst.entries, 4 * dst.cap), (D, 64)] g2 u4 →
    Clear u4 e g1.units [(m.entries, 4 * n)] → Clear u4 e g2.units [(dst.entries, 4 * dst.cap)] →
    (¬ Quiet e → Runs s (.kvFork d a) e fun _ => u4.await e .counter (.counters 0 0 0)) ∧
    (Quiet e → Translates f e true counts g3 v → Clear v e g3.units counts →
      (∀ id ∈ held, v.refOf k g3.units p id ≠ 65535) →
      Runs s (.kvFork d a) e fun _ =>
        let t := held.foldl (fun t id => t.performUnits k g3.units
          (vcells (p.refAddr id) (natLe 2 (min (t.refOf k g3.units p id + 1) 65535)))) v
        let t := t.raiseBy e.c.ctx .kvBadId (ids.filter fun id => id ≠ 2 ^ 32 - 1 ∧ p.nblk ≤ id).length
        let t := t.performUnits k g2.units
          (vcells dst.entries ((ids ++ List.replicate (dst.cap - n) (2 ^ 32 - 1)).flatMap (natLe 4)))
        let t := t.performUnits k g2.units (vcells D (natLe 8 m.pool))
        (t.performUnits k g2.units (vcells (D + 16) (natLe 4 m.len))).advance e)) ∧
  (∀ m p g1 g2 g3 g4 u1 u2 v w x, e.sb a ≠ BitVec.allOnes 64 → A % 64 = 0 → ReadsMap s e A m p u1 →
    let f := (u2.flush k).flushAll
    let all := idsOf (f.readUnits k g1.units m.entries (4 * m.cap))
    let own := ((List.range all.length).filter fun n => all.getD n (2 ^ 32 - 1) ≠ 2 ^ 32 - 1).map fun n => (m.entries + 4 * n, 4)
    let ids := all.filter fun id => id ≠ 2 ^ 32 - 1
    let held := namedIds ids p
    let counts := fun (ids : List Nat) => ids.map fun id => (p.refAddr id, 2)
    Translates u1 e false [(m.entries, 4 * m.cap)] g1 u2 → Clear u2 e g1.units [(m.entries, 4 * m.cap)] →
    (¬ Quiet e → Runs s (.kvDrop a) e fun _ => u2.await e .counter (.counters 0 0 0)) ∧
    (Quiet e → Translates f e true (own ++ [(A + 16, 4)]) g2 v → Translates v e false (counts held) g3 w →
      Clear w e g3.units (counts held) → Translates w e true (counts (held.filter fun id => w.refOf k g3.units p id ≠ 0)) g4 x →
      Runs s (.kvDrop a) e fun _ =>
        let t := ids.foldl (fun t id => t.dropBlock e g3.units p id) x
        let t := t.performUnits k g2.units (own.flatMap fun r => vcells r.1 (List.replicate 4 0xFF))
        (t.performUnits k g2.units (vcells (A + 16) (natLe 4 0))).advance e)) ∧
  (∀ (t : State) (us : Tab (Nat × Nat)) (p : KvPool) (id : Nat),
    let n := t.refOf k us p id
    let u := t.performUnits k us (vcells (p.refAddr id) (natLe 2 (n - 1)))
    (p.nblk ≤ id → t.dropBlock e us p id = t.raise e.c.ctx .kvBadId) ∧
    (id < p.nblk → n = 0 → t.dropBlock e us p id = t.raise e.c.ctx .kvRefUnderflow) ∧
    (id < p.nblk → 1 < n → t.dropBlock e us p id = u) ∧
    (∀ q, id < p.nblk → n = 1 → u.ownQueue e.c.ctx p.freeq true = some q →
      (q.entries.length < q.cap → t.dropBlock e us p id = u.pushRecord p.freeq q (natLe 4 id ++ List.replicate 60 0)) ∧
      (q.cap ≤ q.entries.length → t.dropBlock e us p id = u.raise e.c.ctx .kvFreeLost)))

/-- The traps of kv.fork and kv.drop and the parking of a fork (R249, R358, R359, R364, R381, R392): misaligned records are trap 0x07 with
the lowest one; a record forked to itself, a record that R381 rejects and, of a fork, a destination that is rejected or has fewer entries
than the source has blocks are trap 0x0D with that record; a record that does not translate parks F or is trap 0x0C. A block whose
count is 65,535 parks F with code 0x24 and the lowest such block's id, and nothing changes. -/
def Sys2Proof.Claims.KvForkTraps : Prop := ∀ (s : State) (e : Env) (d a : Reg), e.sb a ≠ BitVec.allOnes 64 →
  let A := (e.sb a).toNat
  let D := (e.sb d).toNat
  let k := e.island
  let stops := fun (i : Instr) (u : State) (code x : Nat) => Runs s i e fun _ => u.trapAt e code 0 e.pc (BitVec.ofNat 64 x) e.f.lanes
  let source := fun (i : Instr) =>
    (∀ x, s.xlateUnits k e.c.ctx false (rangeUnits [(A, 64)]) = .error x → FailsOn s s e i true x) ∧
    (∀ x t, ReadsRecord s e A 64 x t → let m := KvMap.ofBytes A x
      (m.pool % 64 ≠ 0 → stops i t 0x07 m.pool) ∧
      (∀ y, m.pool % 64 = 0 → t.xlateUnits k e.c.ctx false (rangeUnits [(m.pool, 64)]) = .error y → FailsOn s t e i true y))
  (A % 64 ≠ 0 → stops (.kvDrop a) s 0x07 A) ∧
  (A % 64 = 0 → source (.kvDrop a) ∧ ∀ x y t u, ReadsRecord s e A 64 x t → let m := KvMap.ofBytes A x
    m.pool % 64 = 0 → ReadsRecord t e m.pool 64 y u → let p := KvPool.ofBytes m.pool y
    (m.bad = true → stops (.kvDrop a) u 0x0D A) ∧ (m.bad = false → p.bad = true → stops (.kvDrop a) u 0x0D m.pool)) ∧
  (e.sb d ≠ BitVec.allOnes 64 →
    (∀ x ∈ [A, D], x % 64 ≠ 0 → (∀ y ∈ [A, D], y % 64 ≠ 0 → x ≤ y) → stops (.kvFork d a) s 0x07 x) ∧
    (A % 64 = 0 → A = D → stops (.kvFork d a) s 0x0D D) ∧
    (A % 64 = 0 → D % 64 = 0 → A ≠ D → source (.kvFork d a) ∧
      (∀ x y z t u v, ReadsRecord s e A 64 x t → let m := KvMap.ofBytes A x
        m.pool % 64 = 0 → ReadsRecord t e m.pool 64 y u → let p := KvPool.ofBytes m.pool y
        (∀ w, u.xlateUnits k e.c.ctx false (rangeUnits [(D, 64)]) = .error w → FailsOn s u e (.kvFork d a) true w) ∧
        (ReadsRecord u e D 64 z v → let dst := KvMap.ofBytes D z
          (m.bad = true → stops (.kvFork d a) v 0x0D A) ∧ (m.bad = false → p.bad = true → stops (.kvFork d a) v 0x0D m.pool) ∧
          (m.bad = false → p.bad = false → dst.bad = true ∨ dst.cap < (m.len + 15) / 16 → stops (.kvFork d a) v 0x0D D))) ∧
      (∀ m p x g1 g2 g3 u1 u2 u3 u4 v, ReadsMap s e A m p u1 → ReadsRecord u1 e D 64 x u2 →
        let dst := KvMap.ofBytes D x
        let n := (m.len + 15) / 16
        let f := (u4.flush k).flushAll
        let held := namedIds (idsOf (f.readUnits k g1.units m.entries (4 * n))) p
        let counts := held.map fun id => (p.refAddr id, 2)
        dst.bad = false → n ≤ dst.cap →
        Translates u2 e false [(m.entries, 4 * n)] g1 u3 → Translates u3 e true [(dst.entries, 4 * dst.cap), (D, 64)] g2 u4 →
        Clear u4 e g1.units [(m.entries, 4 * n)] → Clear u4 e g2.units [(dst.entries, 4 * dst.cap)] →
        Quiet e → Translates f e true counts g3 v → Clear v e g3.units counts →
        ∀ pre id post, held = pre ++ id :: post → (∀ j ∈ pre, v.refOf k g3.units p j ≠ 65535) → v.refOf k g3.units p id = 65535 →
          (v.heldFull e.c.core 1 = true → Runs s (.kvFork d a) e fun _ => v.holdBack e) ∧
          (v.heldFull e.c.core 1 = false → Runs s (.kvFork d a) e fun _ => v.park e [
            { lanes := e.f.active, code := 0x24, on := .service,
              info := some { unit := A / 65536, vaddr := A, aux := id, write := true, origin := 0,
                             word := (encode (.kvFork d a)).toNat } }]))))

/-! The transform engine (R318 to R324, R457) and the completions of engine work. -/

/-- xf.run and xf.cancel (R246, R318, R319, R321, R324, R457): a run whose records meet the conditions of its operation is accepted;
records that do not are a descriptor trap with the handle. A misaligned handle, of xf.cancel too, or a misaligned object is trap 0x07
with the lowest such address, and an object beyond the window trap 0x04; a handle that does not translate parks F or is trap 0x0C
(R249, R358, R359). xf.cancel discards the course's runs of
a handle, or all of them, each unpinning its pages, arriving at its object and counted. -/
def Sys2Proof.Claims.TransformRuns : Prop := ∀ (s : State) (e : Env) (a b : Reg),
  let h := (e.sb a).toNat
  let obj : Option Nat := if e.sb b = BitVec.allOnes 64 then none else some ((e.sb b).toNat % 2 ^ 32)
  let runs := fun (i : Instr) (xop : Nat) => ∀ (bs : List Byte) (u : State),
    let src := Layout.ofBytes (bs.take 64)
    let dst := Layout.ofBytes (bs.drop 64)
    let run : Work := .run h obj { xop := xop, src := src, dst := dst }
    h % 64 = 0 → (∀ o ∈ obj, o % 16 = 0 ∧ o + 16 ≤ e.w.window) → ReadsRecord s e h 128 bs u →
    (∀ hd v, xop = 3 → recordsOk xop src dst = true → ReadsRecord u e src.base 64 hd v → headerOk src (leNat hd) = true →
      Runs s i e fun _ => startsEngine e run v) ∧
    (∀ hd v, xop = 3 → ReadsRecord u e src.base 64 hd v → (recordsOk xop src dst && headerOk src (leNat hd)) = false →
      Runs s i e fun _ => v.trapAt e 0x0D 0 e.pc (e.sb a) e.f.lanes) ∧
    (xop ≠ 3 → recordsOk xop src dst = true → Runs s i e fun _ => startsEngine e run u) ∧
    (xop ≠ 3 → recordsOk xop src dst = false → Runs s i e fun _ => u.trapAt e 0x0D 0 e.pc (e.sb a) e.f.lanes)
  runs (.xfRunTranspose a b) 0 ∧ runs (.xfRunRequant a b) 1 ∧ runs (.xfRunCompact a b) 2 ∧ runs (.xfRunExpand a b) 3 ∧
  (∀ i ∈ [Instr.xfRunTranspose a b, .xfRunRequant a b, .xfRunCompact a b, .xfRunExpand a b],
    let odd := fun (x : Nat) => (x = h ∧ h % 64 ≠ 0) ∨ (obj = some x ∧ x % 16 ≠ 0)
    (∀ x, odd x → (∀ y, odd y → x ≤ y) → Runs s i e fun s => s.trapAt e 0x07 0 e.pc (BitVec.ofNat 64 x) e.f.lanes) ∧
    (∀ o, h % 64 = 0 → obj = some o → o % 16 = 0 → e.w.window < o + 16 →
      Runs s i e fun s => s.trapAt e 0x04 0 e.pc (BitVec.ofNat 64 (max o e.w.window)) e.f.lanes) ∧
    (∀ x, h % 64 = 0 → (∀ o ∈ obj, o % 16 = 0 ∧ o + 16 ≤ e.w.window) →
      s.xlateUnits e.island e.c.ctx false (rangeUnits [(h, 128)]) = .error x → FailsOn s s e i false x)) ∧
  (e.sb a ≠ BitVec.allOnes 64 → h % 64 ≠ 0 →
    Runs s (.xfCancel a) e fun s => s.trapAt e 0x07 0 e.pc (e.sb a) e.f.lanes) ∧
  (e.sb a = BitVec.allOnes 64 ∨ h % 64 = 0 → Runs s (.xfCancel a) e fun s =>
    ((s.ops.filter fun p => p.2.uid = e.r.uid ∧ (handleOf p.2.work).any (fun x =>
      e.sb a = BitVec.allOnes 64 ∨ x = h)).foldl (fun (t : State) p =>
        (((t.unpin e.island e.c.ctx p.2.pins).dropOp p.1).arriveObj p.2 p.2.work.object).raise e.c.ctx .xfCancel) s).advance e)

/-- The conditions on an operation's records and on a buffer's header (R164, R319, R456, R457): known formats, matching shapes,
GROUP as each operation needs it, a buffer at a line's start, and a header that agrees with its record. That equal records of an
unknown ELEM trap is the model's reading (log 91). -/
def Sys2Proof.Claims.TransformRecords : Prop := ∀ (src dst : Layout),
  (∀ l : Layout, l.elem ≤ 18 → (l.groupOk = true ↔
    if l.elem = 4 ∨ l.elem = 5 then l.group = 1 else if l.elem = 8 ∨ l.elem = 9 then l.group ≠ 0 else l.group = 0)) ∧
  (let same := src.elem = dst.elem ∧ src.elem < 15 ∧ src.rows = dst.rows ∧ src.cols = dst.cols ∧ src.group = dst.group
   (recordsOk 2 src dst = true ↔ same ∧ dst.base % 128 = 0) ∧ (recordsOk 3 src dst = true ↔ same ∧ src.base % 128 = 0)) ∧
  (∀ (l : Layout) (h : Nat), headerOk l h = true ↔ h / 2 ^ 64 % 2 ^ 32 = l.rows ∧ h / 2 ^ 96 % 2 ^ 32 = (l.cols + 31) / 32 ∧
    h / 2 ^ 128 % 2 ^ 5 = l.elem ∧ h / 2 ^ 135 = 0) ∧
  (recordsOk 0 src dst = true ↔ (Fmt.ofCode src.elem).isSome = true ∧ src.elem = dst.elem ∧ src.group = 0 ∧ dst.group = 0 ∧
    dst.rows = src.cols ∧ dst.cols = src.rows) ∧
  (recordsOk 1 src dst = true ↔ src.elem < 15 ∧ dst.elem < 15 ∧ src.rows = dst.rows ∧ src.cols = dst.cols ∧
    src.groupOk = true ∧ dst.groupOk = true)

/-- The scale of an element and its value (R50, R51, R320, R323): a run keeps the scale, and the zero point, of the group at hand,
and reads them anew at another group; a block scale multiplies by 2^(code − 127), a quantised code is scale × (code − zero point),
and an absent code, scale or zero point makes it absent. -/
def Sys2Proof.Claims.ScaledElements : Prop :=
  (∀ (s : State) (k : Nat) (us : Tab (Nat × Nat)) (reg : Option (Nat × EScale)) (l : Layout) (i j : Nat),
    let size := [0, 32, 64, 128].getD l.group 0
    let n := i * ((l.cols + size - 1) / size) + j / size
    let quant := l.fmt == .q8 || l.fmt == .q4
    let read := fun a m => leNat (s.readUnits k us a m)
    (size = 0 → scaleRanges reg l i j = [] ∧ s.scaleReg k us reg l i j = reg ∧ scaleOf l reg = .one) ∧
    (size ≠ 0 → (∀ sc, reg = some (n, sc) → scaleRanges reg l i j = [] ∧ s.scaleReg k us reg l i j = reg ∧ scaleOf l reg = sc) ∧
      ((∀ sc, reg ≠ some (n, sc)) →
        (quant = true → scaleRanges reg l i j = [(l.scales + n * 2, 2), (l.zeros + n, 1)] ∧
          s.scaleReg k us reg l i j = some (n, .group (read (l.scales + n * 2) 2) (read (l.zeros + n) 1))) ∧
        (quant = false → scaleRanges reg l i j = [(l.scales + n, 1)] ∧
          s.scaleReg k us reg l i j = some (n, .block (read (l.scales + n) 1)))))) ∧
  (∀ (f : Fmt) (code : Nat), elemVal f code .one = f.val code ∧ elemVal f code (.block 0xFF) = .absent ∧
    (∀ sc, sc ≠ 0xFF → (∀ neg m e, f.valF code = .fin neg m e → elemVal f code (.block sc) = .fin neg m (e + (sc : Int) - 127)) ∧
      ((∀ neg m e, f.valF code ≠ .fin neg m e) → elemVal f code (.block sc) = f.valF code)) ∧
    (∀ sc zp, f.isAbsent code = true ∨ Fmt.i8.int? zp = none ∨ Fmt.f16.valF sc = .absent → elemVal f code (.group sc zp) = .absent) ∧
    (∀ sc zp p neg m e, f.isAbsent code = false → Fmt.i8.int? zp = some p → Fmt.f16.valF sc = .fin neg m e →
      ∃ b n d, elemVal f code (.group sc zp) = .fin b n d ∧ ratOf b n d = ratOf neg m e * ((code : Int) - p : Int)))

/-- The code of a value in a requant's destination, and whether a NaN is lost (R51, R68, R321): the conversion of R68 of the value
over its block scale; for q8 and q4 the zero point plus the quotient rounded to nearest, ties to even, saturated; absent for an
absent value. An absent scale or zero point of the destination makes its group absent, which is the model's reading (log 13). -/
def Sys2Proof.Claims.RequantCodes : Prop :=
  (∀ (f : Fmt) (v : Val), let plain := (f.drain v, f == .e2m1 && v == .nan)
    requantCode f v .one = plain ∧ requantCode f v (.block 0xFF) = (f.absentCode, false) ∧
    (∀ sc, sc ≠ 0xFF → (∀ neg m e, v = .fin neg m e →
        requantCode f v (.block sc) = (f.drain (.fin neg m (e - ((sc : Int) - 127))), false)) ∧
      ((∀ neg m e, v ≠ .fin neg m e) → requantCode f v (.block sc) = plain))) ∧
  (∀ f ∈ [Fmt.q8, .q4], ∀ (v : Val) (sc zp : Nat), let top : Int := (f.absentCode : Int) - 1
    let code := fun (x : Int) => (clamp 0 top x).toNat
    (v = .absent ∨ Fmt.i8.int? zp = none ∨ Fmt.f16.valF sc = .absent → requantCode f v (.group sc zp) = (f.absentCode, false)) ∧
    (∀ p, Fmt.i8.int? zp = some p → Fmt.f16.valF sc ≠ .absent → v = .nan → requantCode f v (.group sc zp) = (code p, true)) ∧
    (∀ p b n d neg m e q, Fmt.i8.int? zp = some p → Fmt.f16.valF sc = .fin b n d → n ≠ 0 → v = .fin neg m e →
      RoundsInt .rn (ratOf neg m e / ratOf b n d) q → requantCode f v (.group sc zp) = (code (p + q), false)))

/-- One item of a transpose or a requant (R44, R320, R321): what it reads, and that it gives the bits of the source element (j, i),
or the code of the value of the source element (i, j), to the destination element (i, j). The upper half of a last byte is open
(log 48), and so is a NaN or an infinity in i8 and i4 (log 65). -/
def Sys2Proof.Claims.DenseItems : Prop := ∀ (s : State) (k ctx : Nat) (r : Run) (g : Rng),
  let i := (itemPlace r.dst r.pos).1
  let js := (itemPlace r.dst r.pos).2
  let j := js.headD 0
  js ≠ [] →
  (r.xop = 0 → r.src.bits = r.dst.bits → s.reach k ctx (js.map fun c => elementRange r.src c i) = .ok g →
    ∃ x, s.runItem k ctx r = .ok x ∧ x.pages = g.pages ∧ x.lost = 0 ∧
      ItemWrites r.dst i j (js.map fun c => elementCode s k g.units r.src c i) x.cells) ∧
  (r.xop = 1 →
    s.reach k ctx (js.map (elementRange r.src i) ++ scaleRanges r.srcSc r.src i j ++ scaleRanges r.dstSc r.dst i j) = .ok g →
    let a := s.scaleReg k g.units r.srcSc r.src i j
    let b := s.scaleReg k g.units r.dstSc r.dst i j
    let v := fun c => elemVal r.src.fmt (elementCode s k g.units r.src i c) (scaleOf r.src a)
    let out := js.map fun c => requantCode r.dst.fmt (v c) (scaleOf r.dst b)
    (∀ c ∈ js, r.dst.fmt = .i8 ∨ r.dst.fmt = .i4 → v c ≠ .nan ∧ ∀ n, v c ≠ .inf n) →
    ∃ x, s.runItem k ctx r = .ok x ∧ x.pages = g.pages ∧ x.srcSc = a ∧ x.dstSc = b ∧
      x.lost = (out.filter fun p => p.2).length ∧ ItemWrites r.dst i j (out.map fun p => p.1) x.cells)

/-- One item of a compact (R320, R455, R456, R458): a block whose elements are all absent gets map bit 0 and no data; any other gets
map bit 1, and its 32 codes, absent beyond COLS, packed after the blocks stored before. Then the rest of the map and of the last
data line is zero, the scales and zero points are copied, and the header is written with EXP kept. -/
def Sys2Proof.Claims.CompactItems : Prop := ∀ (s : State) (k ctx : Nat) (r : Run) (g : Rng), r.xop = 2 → r.src.elem = r.dst.elem →
  let bpr := (r.src.cols + 31) / 32
  let blocks := r.src.rows * bpr
  let D := r.dst.base + 128 + ((r.dst.rows * ((r.dst.cols + 31) / 32) + 7) / 8 + 127) / 128 * 128
  let i := r.pos / bpr
  let j := 32 * (r.pos % bpr)
  let here := ((List.range 32).map (j + ·)).filter fun c => c < r.src.cols
  let side := r.src.rows * r.src.groups * r.src.scaleSize + if r.src.fmt = .q8 ∨ r.src.fmt = .q4 then r.src.rows * r.src.groups else 0
  (r.pos < blocks → s.reach k ctx (here.map (elementRange r.src i) ++ scaleRanges r.srcSc r.src i j) = .ok g →
    let a := s.scaleReg k g.units r.srcSc r.src i j
    let code := fun c => if c < r.src.cols then elementCode s k g.units r.src i c else r.src.fmt.absentCode
    let map := (r.dst.base + 128 + r.pos / 8) % 2 ^ 64
    let old := ((r.part.find? fun c => c.1 = map).map fun c => c.2).getD 0
    let absent := fun c => elemVal r.src.fmt (code c) (scaleOf r.src a) = .absent
    ∃ x, s.runItem k ctx r = .ok x ∧ x.pages = g.pages ∧ x.srcSc = a ∧
      ((∀ c ∈ here, absent c) → x.cells = [(map, old)] ∧ x.count = r.count ∧ x.absent = r.absent + 1) ∧
      ((∃ c ∈ here, ¬ absent c) → x.count = r.count + 1 ∧ x.absent = 0 ∧
        ∃ bs, Packs r.dst.bits ((List.range 32).map fun t => code (j + t)) bs ∧
          x.cells = (map, old ||| 1#8 <<< (r.pos % 8)) ::
            (List.range bs.length).map fun t => ((D + r.count * blockOf r.dst + t) % 2 ^ 64, bs.getD t 0))) ∧
  (r.pos = blocks → let stop := D + r.count * blockOf r.dst
    ∃ x, s.runItem k ctx r = .ok x ∧ x.count = r.count ∧ ∀ p, p ∈ x.cells ↔ p.2 = 0 ∧ ∃ t, p.1 = t % 2 ^ 64 ∧
      (r.dst.base + 128 + (blocks + 7) / 8 ≤ t ∧ t < r.dst.base + 128 + (blocks + 7) / 8 +
          (((r.dst.rows * ((r.dst.cols + 31) / 32) + 7) / 8 + 127) / 128 * 128 - (blocks + 7) / 8) ∨
        stop ≤ t ∧ t < (stop + 127) / 128 * 128)) ∧
  (∀ n, r.pos = blocks + 1 + n → n < side → s.reach k ctx [((sidePlace r.src r.dst n).1, 1)] = .ok g →
    ∃ x, s.runItem k ctx r = .ok x ∧ x.cells = [((sidePlace r.src r.dst n).2,
      (s.readUnits k g.units (sidePlace r.src r.dst n).1 1).headD 0)]) ∧
  (r.pos = blocks + 1 + side → s.reach k ctx [(r.dst.base, 64)] = .ok g →
    let exp := leNat (s.readUnits k g.units r.dst.base 64) / 2 ^ 133 % 4
    let h := r.count + 2 ^ 64 * r.dst.rows + 2 ^ 96 * ((r.dst.cols + 31) / 32) + 2 ^ 128 * r.dst.elem + 2 ^ 133 * exp
    ∃ x, s.runItem k ctx r = .ok x ∧
      x.cells = (List.range 64).map fun t => ((r.dst.base + t) % 2 ^ 64, BitVec.ofNat 8 (h / 256 ^ t)))

/-- One item of an expand (R320, R459): a block whose map bit is 1 has the next stored block's codes, and one whose bit is 0 absent
codes; each column below COLS is written at its element, and nothing else; then the scales and zero points are copied. The upper
half of a last byte is open (log 48). -/
def Sys2Proof.Claims.ExpandItems : Prop := ∀ (s : State) (k ctx : Nat) (r : Run) (m g : Rng), r.xop = 3 → r.src.elem = r.dst.elem →
  let bpr := (r.dst.cols + 31) / 32
  let blocks := r.dst.rows * bpr
  let map := r.src.base + 128 + r.pos / 8
  let data := dataOf r.src + r.count * blockOf r.src
  let i := r.pos / bpr
  let j := 32 * (r.pos % bpr)
  (r.pos < blocks → s.reach k ctx [(map, 1)] = .ok m →
    let stored := ((s.readUnits k m.units map 1).headD 0).getLsbD (r.pos % 8)
    s.reach k ctx (if stored then [(data, blockOf r.src)] else []) = .ok g →
    let bs := s.readUnits k g.units data (blockOf r.src)
    let code := fun t => if stored then
        (if r.src.bits = 4 then (bs.getD (t / 2) 0).toNat / (if t % 2 = 0 then 1 else 16) % 16
         else leNat ((bs.drop (t * (r.src.bits / 8))).take (r.src.bits / 8)))
      else r.src.fmt.absentCode
    ∃ x, s.runItem k ctx r = .ok x ∧ x.count = (if stored then r.count + 1 else r.count) ∧
      x.absent = (if stored then 0 else r.absent + 1) ∧
      (∀ p ∈ x.cells, ∃ t < 32, j + t < r.dst.cols ∧ ∃ n < (r.dst.bits + 7) / 8, p.1 = (elementAt r.dst i (j + t) + n) % 2 ^ 64) ∧
      ∀ t < 32, j + t < r.dst.cols →
        (r.dst.bits ≠ 4 → ∀ n < r.dst.bits / 8,
          ((elementAt r.dst i (j + t) + n) % 2 ^ 64, BitVec.ofNat 8 (code t / 256 ^ n)) ∈ x.cells) ∧
        (r.dst.bits = 4 → ∃ b : Byte, (elementAt r.dst i (j + t), b) ∈ x.cells ∧
          b.toNat / (if t % 2 = 0 then 1 else 16) % 16 = code t)) ∧
  (∀ n, r.pos = blocks + n → s.reach k ctx [((sidePlace r.src r.dst n).1, 1)] = .ok g →
    ∃ x, s.runItem k ctx r = .ok x ∧ x.cells = [((sidePlace r.src r.dst n).2,
      (s.readUnits k g.units (sidePlace r.src r.dst n).1 1).headD 0)])

/-- How a run works (R292, R322, R323, R367): item after item, each joining its bytes to what is not yet written and moving the
position on; a line that the run has passed is written, one at a time, the one that it reached first before another (log 90), and a
step of the engine ends with it. The pages that an item reads and a line writes are pinned meanwhile; a fault stops the run where it
stands. -/
def Sys2Proof.Claims.RunSteps : Prop :=
  (∀ (s : State) (o : Op) (handle : Nat) (obj : Option Nat) (r : Run) (one : Bool), o.work = .run handle obj r →
    let e := RunEnd.go one (islandOf o.core) o.ctx (8 * (r.items + 1 - r.pos) + r.part.length)
      { s := s, r := r, reads := o.pins, writes := [], fail := none }
    s.engineGo o one = ⟨e.s, .run handle obj e.r, dedup (e.reads ++ e.writes), e.fail⟩) ∧
  (∀ (one : Bool) (k ctx n : Nat) (e : RunEnd),
    let go := RunEnd.go one k ctx
    (∀ c cs, e.r.closed = c :: cs → let u := e.writeLine k ctx (c.1 / 128)
      go (n + 1) e = if one = true ∨ u.fail.isSome = true then u else go n u) ∧
    (e.r.closed = [] → e.r.items ≤ e.r.pos → go (n + 1) e = e) ∧
    (e.r.closed = [] → e.r.pos < e.r.items → let u := e.next k ctx
      go (n + 1) e = if u.fail.isSome then u else go n u)) ∧
  (∀ r : Run, (r.items ≤ r.pos → r.closed = r.part) ∧
    (r.pos < r.items → r.closed = r.part.filter fun c => !r.openLines.contains (c.1 / 128)) ∧
    (r.xop ≤ 1 → r.openLines = [elementAt r.dst (itemPlace r.dst r.pos).1
      (r.pos % ((r.dst.cols + (if r.dst.bits = 4 then 2 else 1) - 1) / (if r.dst.bits = 4 then 2 else 1)) *
        (if r.dst.bits = 4 then 2 else 1)) / 128])) ∧
  (∀ (k ctx line : Nat) (e : RunEnd), let cells := e.r.part.filter fun c => c.1 / 128 == line
    let pages := e.s.xlateUnits k ctx true (rangeUnits (cells.map fun c => (c.1, 1)))
    (∀ x, pages = .error x → e.writeLine k ctx line = { e with fail := some (x, true) }) ∧
    (∀ g t, pages = .ok g → e.s.repin k ctx e.pins (dedup (e.reads ++ g.pages)) = some t →
      e.writeLine k ctx line = { e with
        s := ((t.learn k ctx g.leaves).performUnits k g.units cells).claim ctx, writes := g.pages,
        r := { e.r with part := e.r.part.filter fun c => c.1 / 128 != line } })) ∧
  (∀ (k ctx : Nat) (e : RunEnd),
    (∀ x, e.s.runItem k ctx e.r = .error x → e.next k ctx = { e with fail := some (x, false) }) ∧
    (∀ i t, e.s.runItem k ctx e.r = .ok i → e.s.repin k ctx e.pins (dedup (i.pages ++ e.writes)) = some t →
      e.next k ctx = { e with
        s := t.raiseBy ctx .drainNanLost i.lost, reads := i.pages,
        r := { e.r with pos := e.r.pos + 1, count := i.count, part := putCells e.r.part i.cells, absent := i.absent,
                        srcSc := i.srcSc, dstSc := i.dstSc } })) ∧
  (∀ (part new : List (Nat × Byte)) (a : Nat),
    ((putCells part new).find? fun c => c.1 = a).map Prod.snd =
      ((new.reverse.find? fun c => c.1 = a).map Prod.snd).or ((part.find? fun c => c.1 = a).map Prod.snd))

/-- XF_RUN_COMPLETE, GATHER_COMPLETE and ENGINE_OPERATION_FAULT (R322, R357, R364, R367, R387): the operation at the head of its
engine's queue that meets no fault does what is left of it, and, when no earlier operation of its course and engine is incomplete,
leaves, unpins its pages and arrives at its object; one that is behind keeps what it has done and waits to complete. One that
meets a repairable fault keeps what it has done, unpins, stops and forms a record, and one that finds no room for a pin waits,
with PIN_WAIT. That what is left happens within this step (log 16), the WRITE bit of the record (log 26) and which operation is at
the head (log 29) are the model's readings, and so is that a run or a gather keeps its pins until it completes or stops, also
while it waits with PIN_WAIT (log 17). -/
def Sys2Proof.Claims.EngineCompletions : Prop := ∀ (s : State) (id : Nat) (o : Op) (i : Instr), s.op? id = some o →
  let done := s.engineGo o false
  let kept := done.s.updOp id fun x =>
    { x with work := done.work, pins := done.pins, pinWait := false, held := x.held && done.work == x.work }
  (o.work.engineKind = 1 ∧ i = .gatherComplete id ∨ o.work.engineKind = 2 ∧ i = .xfRunComplete id →
    s.engineReady id o = true → done.fail = none →
    (s.behind id o = false → Gives s i (((done.s.unpin (islandOf o.core) o.ctx done.pins).dropOp id).arriveObj o o.work.object)) ∧
    (s.behind id o = true → Gives s i kept)) ∧
  (∀ x write, s.engineHead id o = true → done.fail = some (x, write) →
    (∀ c : Course, s.course? o.uid = some c → x.code ≠ 0x0C → x.code < 0x100 → kept.heldFull o.core 1 = false →
      Gives s (.engineOperationFault id) (((kept.unpin (islandOf o.core) o.ctx done.pins).updOp id fun o =>
        { o with stopped := true, held := false, pins := [] }).formRecord o.core
          { ctx := o.ctx, aux := x.level, pc := 0, lanes := 0, word := 0, write := write, origin := 3, code := x.code,
            vaddr := x.va, id := eidOf o.work.engineKind o.core c.slot o.seq, time := s.clock })) ∧
    (x.code = 0x101 → o.pinWait = false →
      Gives s (.engineOperationFault id) ((kept.raise o.ctx .pinWait).updOp id fun o => { o with pinWait := true }))) ∧
  (s.engineHead id o = true ↔ o.work.engineKind ≠ 0 ∧ o.stopped = false ∧ s.engineRuns o = true ∧
    ∀ p ∈ s.ops, p.1 < id → p.2.core = o.core → p.2.work.engineKind = o.work.engineKind → p.2.stopped = false →
      s.engineRuns p.2 = true → p.2.work.spent = true)

/-! Mortar (R401 to R426). -/

/-- The modes (R403, R404): their codes; the join as the least upper bound of the order; the effective mode of a holding as
the join of the modes it counts; the compatibility matrix in force, by default and as loaded. -/
def Obligations.LockModes : Prop :=
  ([LMode.is, .ix, .s, .six, .i, .x].map modeCode = [0, 1, 2, 3, 4, 5]) ∧
  (let le := fun (a b : LMode) => joinMode a b = b
   le .is .ix ∧ le .ix .six ∧ le .six .x ∧ le .is .s ∧ le .s .six ∧ le .i .x ∧ joinMode .ix .s = .six ∧
   (∀ m, m ≠ .i → joinMode .i m = .x) ∧ (∀ a b, le a (joinMode a b) ∧ le b (joinMode a b)) ∧
   (∀ a b c, le a c → le b c → le (joinMode a b) c) ∧
   (∀ h : Hold, h.counts.length = 6 →
     (h.eff = none ↔ ∀ n ∈ h.counts, n = 0) ∧
     (∀ e, h.eff = some e → (∀ m, h.counts.getD (modeCode m) 0 ≠ 0 → le m e) ∧
       ∀ u, (∀ m, h.counts.getD (modeCode m) 0 ≠ 0 → le m u) → le e u))) ∧
  (∀ a b, State.reset.compat a b = true ↔ (a, b) ∈ [(LMode.is, LMode.is), (.is, .ix), (.is, .s), (.is, .six), (.ix, .is),
    (.ix, .ix), (.s, .is), (.s, .s), (.six, .is), (.i, .i)]) ∧
  (∀ (s : State) (a b : LMode), s.compat a b = s.policy.matrix.getLsbD (6 * modeCode a + modeCode b)) ∧
  State.reset.policy.matrix = Policy.default.matrix

/-- What a request needs of the parent's effective mode (R406). -/
def Sys2Proof.Claims.ParentModes : Prop :=
  (∀ m, parentAllows m none = false) ∧
  (∀ m p, parentAllows m (some p) = true ↔ p ∈ match m with
    | .is | .s => [LMode.is, .ix, .s, .six, .x]
    | .ix | .six | .x => [.ix, .six, .x]
    | .i => [.ix, .six, .i, .x])

/-- A request of a lane (R406, R407, R409, R412, R413, R417, R418, R424). A folded holding that covers the mode grants it; without the parent mode that it needs it is refused; an lk.esc on a lock that the wall does not hold is
refused. It is granted at once where the wall's mode already covers it, or where the mode is compatible with every other holder and
the wall converts or is older than every queued request: the count of its mode rises, or at 65,535 it is refused and counted. Else
TRY refuses it, and without TRY it is queued and wounds the holders that LockQueues names. A line lock that the wall did not hold, with
which its lines under the tile pass the threshold, or have risen by as much since an attempt failed, escalates: the tile's lock is
converted and the lines fold into it where that would be granted at once, and else LK_ESC_SKIP rises. Where the table is full, a request that needs an entry is counted, and is
refused or joins the overflow list in age order. That lk.esc makes no test of the parent, and that a folded count is kept for each
folding mode, is the model's reading (log 57), and so is that a
conversion adds one to a count of the mode that stands, and that the tensor's folded count comes before the tile's (log 94). -/
def Sys2Proof.Claims.LockRequests : Prop := ∀ (s : State) (ctx age uid lane : Nat) (lvl : Lvl) (full : Dword) (m : LMode)
    (try' esc : Bool),
  let name := canonName lvl full.toNat
  let eff := s.effOn age lvl name
  let k := (s.lock? lvl name).getD { lvl := lvl, name := name }
  let m' := (eff.map fun x => joinMode x m).getD m
  let q : Req := { age := age, full := full, mode := m, conv := false, esc := esc, uid := uid, lane := lane }
  let up := s.raiseHold age lvl name m
  let count := (((s.lock? lvl name).bind fun k => k.hold? age).map fun h => h.counts.getD (modeCode m) 0).getD 0
  let now := eff = some m' ∨ (s.okWith k age m' = true ∧ (eff ≠ none ∨ ∀ r ∈ k.queue, age < r.age))
  let request := s.lockRequest ctx age uid lane lvl full m try' esc
  (∀ p, esc = false → s.folderOf age lvl name m = some p →
    request = (s.updHold age p.1 p.2.1 fun h => h.addFold p.2.2 1, .granted)) ∧
  (∀ p, esc = false → s.folderOf age lvl name m = none → parentOf lvl name = some p →
    parentAllows m (s.effOn age p.1 p.2) = false → request = (s.raise ctx .lkNoParent, .refused)) ∧
  (esc = true → eff = none → request = (s, .refused)) ∧
  ((esc = false ∧ s.folderOf age lvl name m = none ∧
      (∀ p, parentOf lvl name = some p → parentAllows m (s.effOn age p.1 p.2) = true)) ∨ (esc = true ∧ eff ≠ none) →
    (eff ≠ none ∨ (∃ r ∈ k.queue, r.age = age) ∨ s.lockEntries (lockIsland name) < 65536 →
      (now → count < 65535 → esc = false → (lvl = .line → eff = none →
          up.lineCount age (canonName .tile name) ≤ s.policy.escalation ∧ ∀ x ∈ s.skips, x.age ≠ age) →
        request = (up, .granted)) ∧
      (∀ w, now → count < 65535 → esc = false → lvl = .line → eff = none → s.wall? age = some w → w.ctx = ctx →
        let tile := canonName .tile name
        let n := up.lineCount age tile
        let bound := match up.skips.find? fun x => x.age == age && x.tile == tile with
          | some x => x.count + s.policy.escalation - 1
          | none => s.policy.escalation
        (n ≤ bound → request = (up, .granted)) ∧
        (∀ E k, bound < n → up.escMode age tile = some E → k = (up.lock? .tile tile).getD { lvl := .tile, name := tile } →
          let held := up.effOn age .tile tile
          let M := (held.map fun x => joinMode x E).getD E
          let could := held ≠ none ∧ (held = some M ∨ up.okWith k age M = true) ∧ up.holdFull age .tile tile E = false
          (could → (∀ k ∈ s.locks, k.queue = []) → (∀ i < 4, (s.island i).overflow = []) →
            request = (((up.raiseHold age .tile tile E).fold age .tile tile E).1, .granted)) ∧
          (¬ could → request = (State.raise { up with
            skips := (up.skips.filter fun x => !(x.age == age && x.tile == tile)) ++ [⟨age, tile, n⟩] } ctx .lkEscSkip, .granted)))) ∧
      (now → count < 65535 → esc = true → (∀ k ∈ s.locks, k.queue = []) → (∀ i < 4, (s.island i).overflow = []) →
        request = ((up.fold age lvl name m).1, .granted)) ∧
      (now → 65535 ≤ count → request = (s.raise ctx .lkCountSat, .refused)) ∧
      (¬ now → try' = true → request = (s, .refused)) ∧
      (¬ now → try' = false →
        let t := s.updLock lvl name fun k => { k with queue := insertBy reqBefore { q with conv := eff.isSome } k.queue }
        let hs := t.wounded lvl name age m'
        let all := hs.foldl (fun (p : State × List MTask) h => ((p.1.wound h full).1, p.2 ++ (p.1.wound h full).2)) (t, [])
        (hs = [] → request = (t, .queued)) ∧
        request = (all.1.mortar all.2, .queued) ∧
        ((∀ h ∈ hs, ∀ k ∈ t.locks, ∀ r ∈ k.queue, r.age ≠ h) → (∀ i < 4, (s.island i).overflow = []) →
          request = (hs.foldl (fun u h => (u.wound h full).1) t, .queued)))) ∧
    (eff = none → (∀ r ∈ k.queue, r.age ≠ age ∧ r.uid ≠ uid) → 65536 ≤ s.lockEntries (lockIsland name) →
      let t := s.raise ctx .lkTableFull
      request = if try' then (t, .refused) else
        (t.updIsland (lockIsland name) fun i =>
          { i with overflow := insertBy (fun a b => decide (a.req.age < b.req.age)) ⟨lvl, name, q⟩ i.overflow }, .queued)))

/-- The mode that an automatic escalation asks for (R417): the least upper bound of the wall's modes on the lines under the tile, with
IS taken as S and IX and SIX as X. -/
def Sys2Proof.Claims.AutomaticEscalation : Prop := ∀ (s : State) (age tile : Nat),
  let asked := fun (m : LMode) => match m with
    | .is => LMode.s
    | .ix | .six => .x
    | m => m
  let line := fun m => ∃ k ∈ s.locks, k.lvl = .line ∧ canonName .tile k.name = tile ∧ k.eff age = some m
  (s.escMode age tile = none ↔ ∀ m, ¬ line m) ∧
  (∀ E, s.escMode age tile = some E → (∀ m, line m → joinMode (asked m) E = E) ∧
    ∀ u, (∀ m, line m → joinMode (asked m) u = u) → joinMode E u = u)

/-- The queue of a lock, and wounds (R409, R413). A request stands behind the conversions, or among them where it is one, before
every younger one of its kind. It wounds the younger holders with no pending wound whose mode is incompatible with it. A wound
records the name; it marks every fragment of the wall; no request of the wall is left, and none of its fragments stays parked on a
lock. Folding leaves the wall no lock below; of the line locks under a tensor it releases those under the wall's tile locks (R418,
R424). -/
def Sys2Proof.Claims.LockQueues : Prop :=
  (∀ (q : Req) (old : List Req), ∃ a b, old = a ++ b ∧ insertBy reqBefore q old = a ++ q :: b ∧
    (∀ r ∈ a, ¬ (q.conv = true ∧ r.conv = false) ∧ (q.conv = r.conv → r.age ≤ q.age)) ∧
    (∀ r, b.head? = some r → (q.conv = true ∧ r.conv = false) ∨ (q.conv = r.conv ∧ q.age < r.age))) ∧
  (∀ (s : State) (lvl : Lvl) (name age h : Nat) (m : LMode) (k : Lock), s.lock? lvl name = some k →
    (h ∈ s.wounded lvl name age m ↔ ∃ x ∈ k.holds, x.age = h ∧ age < h ∧ (∃ w, s.wall? h = some w ∧ w.wound = none) ∧
      ∃ e, x.eff = some e ∧ s.compat m e = false)) ∧
  (∀ (s : State) (age : Nat) (name : Dword), let t := (s.wound age name).1
    (∀ w, s.wall? age = some w → t.wall? age = some { w with wound := some ⟨name, 0⟩ }) ∧
    (∀ n, n ≠ age → t.wall? n = s.wall? n) ∧
    (∀ uid c, t.course? uid = some c → c.age = age → ∀ p ∈ c.frags, p.2.mark = some name) ∧
    (∀ k ∈ t.locks, ∀ r ∈ k.queue, r.age ≠ age) ∧ (∀ i < 4, ∀ o ∈ (t.island i).overflow, o.req.age ≠ age)) ∧
  (∀ (s : State) (age name : Nat) (lvl : Lvl) (m : LMode), ((s.fold age lvl name m).1).locksUnder age lvl name = [] ∧
    ∀ k, k ∈ s.locksUnder age lvl name ↔ k ∈ s.locks ∧ (k.hold? age).isSome = true ∧ canonName lvl k.name = name ∧
      ((lvl = .tile ∧ k.lvl = .line) ∨ (lvl = .tensor ∧ k.lvl = .tile) ∨ (lvl = .tensor ∧ k.lvl = .line ∧
        ∃ t, s.lock? .tile (canonName .tile k.name) = some t ∧ (t.hold? age).isSome = true)))

/-- lk.acq and lk.esc (R411, R421, R424): Mortar is asked lane by lane in ascending order, and a lane whose recorded answer is
there takes it. Lanes with an answer have it in qD; where some lanes wait, all for one lock, they park with code 0x30 on it, and
the others go on. -/
def Sys2Proof.Claims.LockAcquires : Prop := ∀ (s : State) (e : Env) (d a : Reg) (try' : Bool) (lvl : Lvl) (m : LMode),
  let acquires := fun (i : Instr) (tryOnly esc : Bool) => ∀ (g : Nat → Option Trit) (n : Nat),
    let r := s.lockLanes e a lvl m tryOnly esc
    let f := (r.1.frag? e.r).getD e.f
    let kept := { f with granted := f.granted &&& ~~~e.f.active, denied := f.denied &&& ~~~e.f.active }
    let waits := e.lanes.filter fun l => (g l).isNone
    let t := (r.1.updFrag e.r fun _ => kept).updCourse e.r.uid fun c => e.lanes.foldl (fun c l => match g l with
      | some x => c.setQ d.toNat l x
      | none => c) c
    r.2 = e.lanes.map (fun l => (l, match g l with
      | some x => LaneAns.trit x
      | none => LaneAns.parks n)) →
    (waits = [] → Runs s i e fun _ => t.advance e) ∧
    (waits ≠ [] → (∀ l ∈ waits, f.granted.getLsbD l = false ∧ f.denied.getLsbD l = false) → Runs s i e fun _ =>
      (t.park { e with f := kept } [{ lanes := maskOf waits, code := 0x30, on := .lock lvl n, info := none }]).releaseWithdrawn
        e.c.age e.r.uid)
  acquires (.lkAcq d a try' lvl m) try' false ∧ acquires (.lkEsc d a lvl m) false true

/-- What is left on the Mortars after lk.relall or the end of a wall (R415, R418, R423, R427): the wall has no hold count, folded
count or request on any of them, its wound is over, no fragment of it is parked with code 0x30, and a wall that had nothing there
is given nothing. -/
def Sys2Proof.Claims.WallLeavesMortar : Prop := ∀ (s : State) (age : Nat),
  let t := s.relAll age
  OffMortar age t ∧ (∀ w, t.wall? age = some w → w.wound = none) ∧
  (s.courses.sorted = true → (∀ p ∈ s.courses, p.2.frags.sorted = true) → ∀ p ∈ t.courses, p.2.age = age →
    ∀ q ∈ p.2.frags, ∀ on, q.2.state ≠ .parked 0x30 on) ∧
  (∀ other, OffMortar other s → OffMortar other t)

/-- lk.rel, lk.relall and lk.query (R336, R422, R423, R425, R426): a release waits for the course's counters and covers every write
that its island has applied, all of which reach every island in that step (log 19); then it gives up one count for each lane, or every holding and request of the wall. A count that the
wall holds falls by one and the queue is served; without one a folded count falls, that of the mode that covers the named one before
any other (log 57), and without either LK_REL_UNHELD rises. A query writes for each lane the wall's count, its wound and request,
the join of the other holders' modes, and its own. -/
def Sys2Proof.Claims.LockReleases : Prop := ∀ (s : State) (e : Env) (d a : Reg) (lvl : Lvl) (m : LMode),
  (Quiet e → Runs s (.lkRel a lvl m) e (fun s => (e.lanes.foldl (fun t l => match e.lockName a l with
    | none => t
    | some n => t.lockRelease e.c.ctx e.c.age lvl n.toNat m) (s.flush e.island)).advance e) ∧
    Runs s .lkRelall e (fun s => ((s.flush e.island).relAll e.c.age).advance e)) ∧
  (¬ Quiet e → Runs s (.lkRel a lvl m) e (fun s => s.await e .counter (.counters 0 0 0)) ∧
    Runs s .lkRelall e (fun s => s.await e .counter (.counters 0 0 0))) ∧
  WritesV s (.lkQuery d a lvl) e d (fun l => match e.lockName a l with
    | none => BitVec.allOnes 32
    | some n => s.queryWord e.c.age lvl (canonName lvl n.toNat)) ∧
  (∀ name : Nat, let nm := canonName lvl name
    let held := ((s.lock? lvl nm).bind fun k => k.hold? e.c.age).map fun h => h.counts.getD (modeCode m) 0
    let done := s.lockRelease e.c.ctx e.c.age lvl name m
    (∀ n, held = some (n + 1) → (∀ k ∈ s.locks, k.queue = []) → (∀ i < 4, (s.island i).overflow = []) →
      done = s.updHold e.c.age lvl nm fun h =>
        { h with counts := (List.range 6).map fun i => if i = modeCode m then h.counts.getD i 0 - 1 else h.counts.getD i 0 }) ∧
    (held.getD 0 = 0 →
      (∀ p, s.folderOf e.c.age lvl nm m = some p → done = s.updHold e.c.age p.1 p.2.1 fun h => h.dropFold p.2.2) ∧
      (s.folderBy e.c.age lvl nm (fun _ => true) = none → (∀ k ∈ s.locks, k.queue = []) →
        done = s.raise e.c.ctx .lkRelUnheld))) ∧
  (let age := e.c.age
   let wound := ((s.wall? age).any fun w => w.wound.isSome).toNat
   (∀ name, s.lock? lvl name = none → s.queryWord age lvl name = BitVec.ofNat 32 (wound * 2 ^ 11 + 7 * 2 ^ 5 + 7)) ∧
   ∀ name k, s.lock? lvl name = some k →
    let count := ((k.hold? age).map fun h => h.counts.sum + (h.folds.map fun p => p.2).sum).getD 0
    let code := fun (m : Option LMode) => (m.map modeCode).getD 7
    let other := fun (x : LMode) => ∃ h ∈ k.holds, h.age ≠ age ∧ h.eff = some x
    ∃ o : Option LMode, s.queryWord age lvl name = BitVec.ofNat 32 (min count 65535 * 2 ^ 16 + wound * 2 ^ 11 +
        (k.queue.any fun q => q.age == age).toNat * 2 ^ 10 + code o * 2 ^ 5 + code ((k.hold? age).bind Hold.eff)) ∧
      (o = none ↔ ∀ x, ¬ other x) ∧
      ∀ m, o = some m → (∀ x, other x → joinMode x m = m) ∧ ∀ u, (∀ x, other x → joinMode x u = u) → joinMode m u = u)

/-! The expert pagers (R429 to R445). -/

/-- One lane of ex.acq (R441): an id outside the table is counted and absent; a recorded pin gives the frame's address; a FAILED
entry is counted and absent; a RESIDENT entry with a pin gets one more and gives its frame's address; one without a pin takes the
frame pins first, waits where they find no room, and is ABSENT where its frame no longer translates (R432; an error in a table's line is the machine's next move: log 87); one with
65,535 gives none. An entry that is not there starts its fetch where it is ABSENT, and the lane parks, or under TRY is absent. -/
def Sys2Proof.Claims.ExpertLanes : Prop := ∀ (s : State) (ctx id lane : Nat) (f : Frag) (try' : Bool) (x : Ctx) (y : Expert),
  s.ctx? ctx = some x →
  (x.entry? id = none → s.acqLane ctx id lane f try' = (s.raise ctx .exBadId, .absent)) ∧
  (x.entry? id = some y →
    let va := (x.arena + y.frame.getD 0 * 2 ^ (16 + x.framelog)) % 2 ^ 64
    (f.pinned.contains (lane, id) = true → s.acqLane ctx id lane f try' = (s, .addr va true)) ∧
    (f.pinned.contains (lane, id) = false →
      (y.st = 4 → s.acqLane ctx id lane f try' = (s.raise ctx .exFailed, .absent)) ∧
      (y.st = 3 → 0 < y.pin → y.pin < 65535 → s.acqLane ctx id lane f try' =
        ((s.updExpert ctx id fun y => { y with pin := y.pin + 1 }).updExpert ctx id fun y => { y with lastUse := s.clock },
          .addr va false)) ∧
      (y.st = 3 → y.pin = 65535 → s.acqLane ctx id lane f try' = (s, if try' then .absent else .parks)) ∧
      (y.st = 3 → y.pin = 0 →
        let frame := s.xlateRange (id % 4) ctx va (2 ^ (16 + x.framelog)) true
        (∀ g t, frame = .ok g → s.pinAll (id % 4) ctx g.pages = some t → s.acqLane ctx id lane f try' =
          ((t.updExpert ctx id fun y => { y with pin := 1, pins := g.pages }).updExpert ctx id fun y => { y with lastUse := s.clock },
            .addr va false)) ∧
        (∀ g, frame = .ok g → s.pinAll (id % 4) ctx g.pages = none →
          s.acqLane ctx id lane f try' = (s, if try' then .absent else .parks)) ∧
        (∀ c, frame = .error c → s.acqLane ctx id lane f try' =
          (((if c.code = eccCode then s.noteBad ctx [c.va] else s).giveUp ctx id 1).startFetch ctx id (!try'), if try' then .absent else .parks))) ∧
      (y.st = 1 → s.acqLane ctx id lane f try' =
        (s.startFetch ctx id (!try'), if try' then .absent else .parks)) ∧
      (y.st = 2 → s.acqLane ctx id lane f try' = (s, if try' then .absent else .parks))))

/-- ex.acq, ex.rel, ex.hint and ex.stat (R441 to R444). ex.rel waits for the copies, gathers and runs that its course had accepted and
for LDC and TLC. The order in which ex.hint takes its ids, that of the lanes, is the
model's reading (log 58). -/
def Sys2Proof.Claims.ExpertInstructions : Prop := ∀ (s : State) (e : Env) (d a : Reg) (try' : Bool),
  (let r := s.acqLanes e a try'
    let used := (r.2.filter fun x => x.2.2 matches .addr _ true).map fun x => (x.1, x.2.1)
    let left := e.f.pinned.filter fun p => !used.contains p
    let granted := dedup ((r.2.filter fun x => x.2.2 matches .addr _ _).map fun x => x.2.1)
    let parks := r.2.filter fun x => x.2.2 = .parks
    let t := ((granted.foldl (fun t id => t.acquireFrame e.c.core e.c.ctx id) r.1).updFrag e.r fun f =>
        { f with pinned := left }).putVP e d fun l => (r.2.find? fun x => x.1 == l).bind fun x => match x.2.2 with
      | .addr va _ => some (BitVec.ofNat 64 va)
      | .absent => some (BitVec.allOnes 64)
      | .parks => none
    let mask := maskOf (parks.map fun x => x.1)
    (parks = [] → Runs s (.exAcq d a try') e fun _ => t.advance e) ∧
    (∀ id, parks ≠ [] → (∀ x ∈ parks, x.2.1 = id) → Runs s (.exAcq d a try') e fun _ =>
      (t.park { e with f := { e.f with pinned := left } } [{ lanes := mask, code := 0x31, on := .expert id, info := none }]).updExpert
        e.c.ctx id fun y => { y with waiters := y.waiters ++ [(e.r.uid, mask)] })) ∧
  (let left := (e.f.totV.getD (s.engineOps e.r.uid)).filter fun id => (s.op? id).isSome
    let waits := fun on => Runs s (.exRel a) e fun s =>
      (s.updFrag e.r fun f => { f with totV := some left }).await e .counter on
    (left ≠ [] → waits (.ops left)) ∧ (left = [] → e.c.ldc ≠ 0 ∨ e.c.tlc ≠ 0 → waits (.counters 0 2047 0)) ∧
    (left = [] → e.c.ldc = 0 → e.c.tlc = 0 → Runs s (.exRel a) e fun s =>
      ((e.lanes.foldl (fun t l => t.dropPin e.c.ctx (e.v .n32 a l).toNat) s).updFrag e.r fun f =>
        { f with totV := none }).advance e) ∧
    ∀ id, id ∈ s.engineOps e.r.uid ↔ ∃ o, (id, o) ∈ s.ops ∧ o.uid = e.r.uid ∧ (o.work.isCopy = true ∨ o.work.engineKind ≠ 0)) ∧
  Runs s (.exHint a) e (fun s =>
    ((if isS a then [(e.s .n64 a).toNat] else dedup (e.lanes.map fun l => (e.v .n32 a l).toNat)).foldl
      (fun t id => t.hintId e.c.ctx id) s).advance e) ∧
  WritesS s (.exStat d a) e d (if e.s .n64 a = BitVec.allOnes 64 then BitVec.allOnes 64
    else match s.expert? e.c.ctx (e.s .n64 a).toNat with
      | some y => BitVec.ofNat 64 (y.pin * 2 ^ 48 + y.frame.getD (2 ^ 24 - 1) * 2 ^ 24 +
          min 4095 (y.waiters.map fun w => popMask w.2).sum * 2 ^ 12 + y.cls * 2 ^ 9 + y.kind * 2 ^ 7 + y.st)
      | none => 0)

/-- Lowering a pin, and a hint (R432, R436, R438, R442, R443): with the last pin the frame pins go, and the demands of the context that
found no frame are tried again; below 65,535 the entry's waiters are served. -/
def Sys2Proof.Claims.ExpertPins : Prop := ∀ (s : State) (ctx id : Nat),
  (s.expert? ctx id = none → s.dropPin ctx id = s ∧ s.hintId ctx id = s) ∧
  (∀ y, s.expert? ctx id = some y →
    (y.pin = 0 → s.dropPin ctx id = s.raise ctx .exRelUnpinned) ∧
    (y.pin = 1 → s.dropPin ctx id =
      ((s.updExpert ctx id fun y => { y with pin := 0, pins := [] }).unpin (id % 4) ctx y.pins).retryFetches ctx) ∧
    (1 < y.pin → y.pin < 65535 → s.dropPin ctx id = s.updExpert ctx id fun y => { y with pin := y.pin - 1 }) ∧
    (y.pin = 65535 → let t := s.updExpert ctx id fun y => { y with pin := 65534 }
      s.dropPin ctx id = if y.st = 3 then t.notice ctx id else t) ∧
    (y.st = 1 → s.hintId ctx id = s.startFetch ctx id false) ∧
    (y.st = 3 → s.hintId ctx id = s.updExpert ctx id fun y => { y with lastUse := s.clock }) ∧
    (y.st = 2 ∨ y.st = 4 → s.hintId ctx id = s)) ∧
  s.retryFetches ctx = { s with islands := s.islands.mapV fun i =>
    { i with fetches := i.fetches.map fun o => if o.ctx = ctx then { o with blocked := false } else o } }

/-- EXPERT_FETCH_START and EXPERT_FETCH_COMPLETE (R433 to R437). The first fetch of its pager's queue, of which 64 may be in flight
and behind which none starts while it is a demand without a frame (log 78), takes the lowest free frame, else the
frame of the RESIDENT entry without pins of the greatest score, and is FETCHING; without a frame a demand is held back and counted
once, and a hint is dropped and counted. A fetch whose source and frame pages are there fills the frame, is RESIDENT and gives its
notice; one that fails, or whose frame cannot be written, gives up its frame, is FAILED, is counted, and gives its notice. -/
def Obligations.ExpertFetches : Prop := ∀ (s : State) (ctx id : Nat) (x : Ctx) (y : Expert),
  s.ctx? ctx = some x → s.expert? ctx id = some y →
  let score := fun (y : Expert) => (s.clock - y.lastUse) * s.policy.pager.getD y.cls 1
  let va := x.frameVa (y.frame.getD 0)
  let frame := s.xlateRange (pagerOf id) ctx va (2 ^ (16 + x.framelog)) true
  let fails := (((((s.unpin (pagerOf id) ctx y.pins).updExpert ctx id fun y => { y with pins := [] }).giveUp ctx id 4).raise ctx
      .exFetchFail).notice ctx id)
  (∀ f, x.freeFrame = some f → f < x.nframe ∧ (∀ p ∈ x.ert, p.2.frame ≠ some f) ∧ ∀ g < f, ∃ p ∈ x.ert, p.2.frame = some g) ∧
  (∀ v z, s.victim x = some (v, z) → (v, z) ∈ x.ert ∧ z.st = 3 ∧ z.pin = 0 ∧
    ∀ p ∈ x.ert, p.2.st = 3 → p.2.pin = 0 → score p.2 ≤ score z ∧ (x.ert.sorted = true → score p.2 = score z → v ≤ p.1)) ∧
  (x.freeFrame = none ↔ ∀ f < x.nframe, ∃ p ∈ x.ert, p.2.frame = some f) ∧
  (s.victim x = none ↔ ∀ p ∈ x.ert, p.2.st = 3 → p.2.pin ≠ 0) ∧
  (∀ q, s.nextFetch (pagerOf id) = some q ↔ s.inFlight (pagerOf id) < 64 ∧ (s.island (pagerOf id)).fetches.head? = some q ∧
    (q.blocked = true → ∀ z, s.expert? q.ctx q.id = some z → z.st ≠ 1)) ∧
  (∀ q, s.nextFetch (pagerOf id) = some q → q.ctx = ctx → q.id = id → y.st = 1 →
    (∀ f, x.freeFrame = some f → Gives s (.expertFetchStart ctx id)
      (((s.unqueue q).updExpert ctx id fun y => { y with st := 2, frame := some f }).pinFill ctx id)) ∧
    (∀ v z f, x.freeFrame = none → s.victim x = some (v, z) → z.frame = some f → Gives s (.expertFetchStart ctx id)
      ((((s.giveUp ctx v 1).unqueue q).updExpert ctx id fun y => { y with st := 2, frame := some f }).pinFill ctx id)) ∧
    (x.freeFrame = none → s.victim x = none → Gives s (.expertFetchStart ctx id)
      (if q.demand then (if q.counted then s else s.raise ctx .exEvictBlocked).updIsland (pagerOf id) fun i =>
          { i with fetches := i.fetches.map fun o => if o.ctx = ctx ∧ o.id = id then { o with blocked := true, counted := true }
            else o }
        else (s.unqueue q).raise ctx .exHintDrop))) ∧
  (∀ bs g, y.st = 2 → s.fetchBytes y = some bs → y.pins ≠ [] → frame = .ok g →
    Gives s (.expertFetchComplete ctx id true)
      (((((s.performUnits (pagerOf id) g.units (vcells va bs)).unpin (pagerOf id) ctx
        y.pins).updExpert ctx id fun y => { y with st := 3, lastUse := s.clock, pins := [] }).notice ctx id).claim ctx)) ∧
  (y.st = 2 → Gives s (.expertFetchComplete ctx id false) fails ∧
    (∀ ok c, frame = .error c → Gives s (.expertFetchComplete ctx id ok) fails))

/-! Steps in place of an instruction, of fragments, walkers and cores (file 95). -/

/-- A wound, a word without a meaning, and a fetch that fails (R124, R358, R359, R370, R414): the fragment takes trap 0x08 with
the name of the wound, trap 0x01 with the word, trap 0x0C with the pc, or parks as one group with the code of the walk; where the
core's unwritten records leave no room it is held back, once with FAULTQ_FULL (log 36). WORD of the record of a failing fetch is a
free value (log 35). -/
def Obligations.TrapsInPlace : Prop := ∀ (s : State) (e : Env), s.issuer? = some e →
  (∀ name, e.f.mark = some name → e.f.handler = false → Gives s .woundTrap
    ((s.updFrag e.r fun f => { f with mark := none }).trapAt e 0x08 0 e.pc name e.f.lanes)) ∧
  (∀ w, (∀ i, decode w ≠ .ok i) → Gives s (.illegalInstruction w) (s.trapAt e 0x01 0 e.pc (w.setWidth 64) e.f.lanes)) ∧
  (s.fetchLookup e.c e.f = .violation → Gives s .instructionFetchFault (s.trapAt e 0x0C 0 e.pc e.pc e.f.lanes)) ∧
  (∀ code level, s.fetchLookup e.c e.f = .fault code level → s.heldFull e.c.core 1 = true →
    Gives s .instructionFetchFault (if e.f.held then s else heldBack e s)) ∧
  (∀ code level, s.fetchLookup e.c e.f = .fault code level → s.heldFull e.c.core 1 = false →
    let info : RecInfo := { unit := e.pc.toNat / 65536, vaddr := e.pc.toNat, aux := level, write := false, origin := 1,
                            word := s.freeNat 4 }
    Gives s .instructionFetchFault
      (s.park e [{ lanes := e.f.active, code := code, on := .service, info := some info }]))

/-- The choice of a quadrant (R104, R105): it is one of the eligible fragments, where there is one; while no count is near the bound
of R105, a fragment that no token holds back, if there is one, and before which no other such goes by PRIO, wall age, course index
and READY time. Where a choice lets every other fragment keep the bound, the choice does. The counts are those of R105. How the order
gives way to the bound is the model's reading (log 97). -/
def Sys2Proof.Claims.IssueChoice : Prop := ∀ es : List Ready,
  let before := fun (a b : Ready) => a.prio < b.prio ∨ (a.prio = b.prio ∧ (a.c.age < b.c.age ∨ (a.c.age = b.c.age ∧
    (a.c.index < b.c.index ∨ (a.c.index = b.c.index ∧ a.f.readyTime < b.f.readyTime)))))
  let held := fun (x : Ready) => ∃ y ∈ es, y.c.slot ≠ x.c.slot ∧ y.c.slot / 2 = x.c.slot / 2 ∧ y.c.token = true
  let bound := max 64 es.length
  ((choose es).isSome = true ↔ es ≠ []) ∧
  (∀ x, choose es = some x → x ∈ es ∧
    ((∀ y ∈ es, y.f.passed + es.length ≤ bound) → (∃ y ∈ es, ¬ held y) → ¬ held x ∧ ∀ y ∈ es, ¬ held y → ¬ before y x) ∧
    ((∃ y ∈ es, fits es y = true) → ∀ y ∈ es, y.r ≠ x.r → y.f.passed + 1 < bound)) ∧
  (∀ (f : Frag) (me r : FragRef), f.count es me r =
    { f with passed := if (∃ x ∈ es, x.r = me) ∧ r ≠ me then f.passed + 1 else 0 })

/-- FRAGMENT_MERGE and FRAGMENT_REFILL (R96, R101): two whole resident READY fragments at one pc with the same join stack, s1 and
s2 become one with the lanes of both. Of the courses in age order, the first with a spilled READY fragment refills the one spilled
last: into its free reserved entry, else into a shared one, else in place of a resident fragment that is WAITING or PARKED where
none is READY, whose descriptor goes to the save area, into the place of the one that is refilled (log 68). Which entry, which such
fragment and the order within a wall are the model's choices (log 71). That the hardware merges when the schedule says so is the model's reading (log 52). -/
def Sys2Proof.Claims.FragmentSteps : Prop :=
  (∀ (s : State) (cid one two : Nat) (f g : Frag), s.frag? ⟨cid, one⟩ = some f → s.frag? ⟨cid, two⟩ = some g → one ≠ two →
    f.state = .ready → g.state = .ready → f.pc = g.pc → f.joins = g.joins → f.s1 = g.s1 → f.s2 = g.s2 → f.active = f.lanes →
    g.active = g.lanes → f.spilled = false → g.spilled = false → s.ownPending ⟨cid, one⟩ = false →
    s.ownPending ⟨cid, two⟩ = false → Gives s (.fragmentMerge cid one two) (s.merge cid [one, two] id)) ∧
  (∀ (s : State) (core uid n : Nat) (c : Course) (x : Frag) (pre rest : List (Nat × Course)),
    s.coursesByAge core = pre ++ (uid, c) :: rest → (∀ p ∈ pre, p.2.spilledReady = none) → c.spilledReady = some (n, x) →
    ((n, x) ∈ c.frags ∧ x.spilled = true ∧ x.state = .ready ∧
      ∀ p ∈ c.frags, p.2.spilled = true → p.2.state = .ready → p.2.spillNo ≤ x.spillNo) ∧
    (∀ p ∈ rest, c.age ≤ p.2.age) ∧
    let resident := fun (t : State) (own : Bool) => t.updFrag ⟨uid, n⟩ fun f =>
      { f with spilled := false, reserved := own, readyTime := s.clock }
    ((∀ p ∈ c.frags, p.2.reserved = false) → Gives s (.fragmentRefill core) (resident s true)) ∧
    ((∃ p ∈ c.frags, p.2.reserved = true) → s.sharedUsed c.core < 208 → Gives s (.fragmentRefill core) (resident s false)) ∧
    ((∃ p ∈ c.frags, p.2.reserved = true) → 208 ≤ s.sharedUsed c.core → ∀ m g, c.exchange = some (m, g) →
      ((m, g) ∈ c.frags ∧ g.spilled = false ∧ g.state ≠ .ready ∧ ∀ p ∈ c.frags, p.2.spilled = false → p.2.state ≠ .ready) ∧
      Gives s (.fragmentRefill core) (resident (((s.updCourse uid fun c =>
        { c.updFrag m fun f => { f with spilled := true, reserved := false, spillNo := c.spills, saveSlot := x.saveSlot }
          with spills := c.spills + 1 }).saveDesc c x.saveSlot).claim c.ctx) g.reserved)))

/-- Page walks (R353, R355): the oldest entry that does not walk starts while fewer than 512 walk; a walk that ends serves its own
entry and every other that its leaf covers, in order, and they leave the merge table. A translation enters the TLB of the core
that waited and the island's L2 TLB; a fault or a violation is kept for the next attempt of the fragment that waited. That the L2
TLB keeps what it learns until an INVALIDATE is the model's choice (log 77). -/
def Sys2Proof.Claims.PageWalks : Prop := ∀ (s : State) (k ctx unit : Nat),
  let i := s.island k
  (∀ m, (i.merge.filter fun m => m.walking).length < 512 → i.merge.find? (fun m => !m.walking) = some m → m.ctx = ctx →
    m.unit = unit → Gives s (.pageWalkStart k ctx unit) (s.setIsland k { i with merge := i.merge.map fun x =>
      if x.ctx = ctx ∧ x.unit = unit then { x with walking := true } else x })) ∧
  ((∃ m ∈ i.merge, m.ctx = ctx ∧ m.unit = unit ∧ m.walking = true) →
    let leaf := match s.walk k ctx (unit * 65536) false false with
      | .ok l => some l
      | _ => none
    let covered := fun (m : Merge) => coveredBy m ctx unit leaf
    Gives s (.pageWalkComplete k ctx unit) ((i.merge.filter covered).foldl (fun t m => m.waiters.foldl (fun t w =>
      t.serveWaiter ctx m.unit w.1 w.2.1 w.2.2 (s.walk k ctx (m.unit * 65536) w.2.1 w.2.2)) t)
        (s.setIsland k { i with merge := i.merge.filter fun m => !covered m }))) ∧
  (∀ (r : FragRef) (c : Course) (write fetch : Bool), s.course? r.uid = some c →
    let served := s.serveWaiter ctx unit r write fetch
    let told := fun (t : State) (xs : List XOut) => t.updFrag r fun f =>
      { f with missing := f.missing.filter (· ≠ unit), outcomes := f.outcomes ++ xs }
    (∀ l, served (.ok l) = told ((s.updCore c.core fun x => x.tlbFill ctx l).learn (islandOf c.core) ctx [l]) []) ∧
    (∀ code level, served (.fault code level) = told s [⟨unit, code, level, write, fetch⟩]) ∧
    served .violation = told s [⟨unit, 0x0C, 0, write, fetch⟩])

/-- FAULT_RECORD_WRITE (R363, R364): the oldest record of a core is written to the slot of the context's TAIL, TAIL rises by 1 in
the descriptor and in the device, and the record leaves the core; where the queue names a signal it is lowered by 1, modulo 2^64,
in one indivisible change, before which every write in flight is applied (log 12). With the queue full nothing changes. The WRITE bit
of a record is the model's reading (log 26). -/
def Sys2Proof.Claims.FaultRecords : Prop := ∀ (s : State) (core : Nat) (r : FaultRec) (rest : List FaultRec) (x : Ctx) (g h : Rng),
  let k := islandOf core
  let d := leNat (s.readUnits k g.units x.fqdesc 64)
  let cap := field d 95 64
  let head := field d 191 128
  let sig := field d 319 256
  let slot := (field d 63 0 + x.tail % cap * 64) % 2 ^ 64
  (s.core core).held = r :: rest → s.ctx? r.ctx = some x → s.xlateRange k r.ctx x.fqdesc 64 true = .ok g → faultqOk d = true →
  s.markedIn ((List.range 64).map fun i => (unitLoc g.units (x.fqdesc + i)).1) = none →
  let written := ((s.performUnits k h.units (vcells slot (r.bytes x.tail))).performUnits k g.units
    (vcells (x.fqdesc + 24) (natLe 8 (x.tail + 1))))
  let done := fun (t : State) => ((t.updCtx r.ctx fun x => { x with tail := x.tail + 1 }).updCore core fun c =>
    { c with held := c.held.drop 1 }).claim r.ctx
  (head + cap ≤ x.tail → Gives s (.faultRecordWrite core) s) ∧
  (x.tail < head + cap → s.xlateRange k r.ctx slot 64 true = .ok h →
    (sig = 0 → Gives s (.faultRecordWrite core) (done written)) ∧
    (∀ q, sig ≠ 0 → s.xlateRange k r.ctx sig 8 true = .ok q →
      s.markedIn ((List.range 8).map fun i => (unitLoc q.units (sig + i)).1) = none →
      Gives s (.faultRecordWrite core) (done (written.rmwNat k (unitLoc q.units sig).1 (unitLoc q.units sig).2 8 fun old =>
        (old + (2 ^ 64 - 1)) % 2 ^ 64))))

/-- MONITOR_PERIODIC_FIRE and POSTED_REDUCTION_ACK (R279, R477): a monitor on a line outside the package fires once 1,024 cycles
have passed since it was set; a posted reduction with no earlier access of its course to come at its words is carried out lane by
lane as the atomic (Claims.AtomicService), and its operation ends when nothing of it is left to apply. That the monitor fires from the 1,024th cycle on
(log 46), and that posted reductions are carried out without merging (log 18), are the model's readings. -/
def Sys2Proof.Claims.PeriodicFireAndPostedAck : Prop :=
  (∀ (s : State) (line : Nat), isUnder (128 * line) = false → (∃ m ∈ s.monitors, m.line = line ∧ m.setAt + 1024 ≤ s.clock) →
    Gives s (.monitorPeriodicFire line) ((((s.fire 0 line).fire 1 line).fire 2 line).fire 3 line)) ∧
  (∀ (s : State) (id : Nat) (o : Op) (a : AtOp) (size : Nat) (lanes : List AtLane), s.op? id = some o →
    o.work = .posted a size lanes → s.earlierAccess id o.uid o.work.touches = false →
    let t := (s.serveLocs id o a size lanes).1
    ((∀ w ∈ t.stores ++ t.writes, w.op = id → w.everywhere = true) →
      Gives s (.postedReductionAck id) ((t.dropOp id).addStc o.uid false)) ∧
    ((∃ w ∈ t.stores ++ t.writes, w.op = id ∧ w.everywhere = false) →
      Gives s (.postedReductionAck id) (t.updOp id fun o => { o with work := .store })))

/-! The dispatcher and the timers (R32, R37 to R40, R74 to R83, R107 to R110, R197, R372 to R375, R415). -/

/-- PREDECESSOR_READ (R74, R75, R77, R78, R82, R83): a launch record that R82 rejects fails the dispatch with its slot's address;
one with a predecessor above 0 waits; one whose predecessor is at 0 or below has acquired what that release covers, which is then
performed on every island (R327, R338; log 19); one without predecessors and chain and with a valid kernel is eligible and becomes a
grid. Its walls can be placed once the page of COMP is pinned; without room in the page-lock table it stays eligible, and none is placed.
A grid of no walls is complete at once, and its record leaves the queue. -/
def Sys2Proof.Claims.PredecessorReads : Prop := ∀ (s : State) (n : Nat) (q : Queue) (x : Ctx) (entry : List Byte) (rest : List (List Byte)),
  s.queue? n = some q → q.work = false → q.head = none → q.entries = entry :: rest → s.ctx? q.ctx = some x →
  let slot := (List.range 64).map fun i => q.ring + q.headNo % q.cap * 64 + i
  s.markedIn (slot.map fun va => (unitLoc q.units va).1) = none → s.unmappedIn q.units slot = none →
  let r := Launch.ofBytes (s.headBytes q entry)
  let k := n / 1024
  (r.valid x.parts = false → Gives s (.predecessorRead n)
    (s.fatal q.ctx { cause := .dispatch, addr := (q.ring + q.headNo % q.cap * 64) % 2 ^ 64 })) ∧
  (∀ v, r.valid x.parts = true → r.pred0 ≠ 0 → s.dispRead k q.ctx r.pred0 8 = .ok v → 0 < (BitVec.ofNat 64 v).toInt →
    Gives s (.predecessorRead n) (s.updQueue n fun q =>
      { q with head := some { record := r, todo := [r.pred0, r.pred1], chain := r.chain } })) ∧
  (∀ v g, r.valid x.parts = true → r.pred0 ≠ 0 → r.pred1 = 0 → r.chain = 0 → s.dispRead k q.ctx r.pred0 8 = .ok v →
    (BitVec.ofNat 64 v).toInt ≤ 0 → s.xlateRange k q.ctx r.pred0 1 false = .ok g → Gives s (.predecessorRead n)
      ((s.flush (homeIsland (s.place (unitLoc g.units r.pred0).1))).makeEligible n q { record := r, todo := [], chain := 0 })) ∧
  (∀ desc g, r.valid x.parts = true → r.pred0 = 0 → r.pred1 = 0 → r.chain = 0 → r.gridInd = false → r.prio ≠ 0 →
    (r.comp = 0 ∧ g = {}) ∨ (r.comp ≠ 0 ∧ s.xlateRange k q.ctx r.comp 8 true = .ok g) →
    s.dispRead k q.ctx r.kdesc 64 = .ok desc → (Kernel.ofBytes (natLe 64 desc)).valid = true → r.grid ≠ 2 ^ 32 - 1 →
    let grid : Grid := { ctx := q.ctx, queue := n, record := r, kernel := Kernel.ofBytes (natLe 64 desc), count := r.grid }
    let pinned := { grid with comp := if r.comp = 0 then none else some (unitLoc g.units r.comp), pins := g.pages }
    let eligible := fun (t : State) (waits : Bool) => t.updQueue n fun q =>
      { q with head := some { record := r, todo := [], chain := 0, grid := some s.nextGrid, waits := waits } }
    let known := fun (x : Grid) => { s with grids := s.grids.set s.nextGrid x, nextGrid := s.nextGrid + 1 }
    (s.pinAll k q.ctx g.pages = none → Gives s (.predecessorRead n) (eligible (known grid) true)) ∧
    (∀ u, (eligible (known grid) true).pinAll k q.ctx g.pages = some u →
      (r.grid ≠ 0 → Gives s (.predecessorRead n) (eligible (u.updGrid s.nextGrid fun _ => pinned) false)) ∧
      (r.grid = 0 → Gives s (.predecessorRead n) (((u.updGrid s.nextGrid fun _ => pinned).endGrid s.nextGrid pinned).dropRecord n))))

/-- WALL_PLACE and SPLIT_CHANGE (R32, R39, R79): the chosen record of a partition places its next wall at a core that fits it; an
empty core, where none of the partition fits, takes the split of the chosen record's kernel. The wall's age is the next number, it
claims what its kernel asks for, and with the last wall of its grid the record leaves the queue. -/
def Sys2Proof.Claims.Placement : Prop := ∀ (s : State) (n core : Nat) (q : Queue) (h : Head) (x : Cand),
  s.queue? n = some q → q.head = some h → s.chosen h.record.part = some x → x.queue = n →
  (x.waits = false → s.fitsAt (s.part h.record.part) core x.grid.kernel = true → Gives s (.wallPlace n core) (s.placeWall x core)) ∧
  (s.mayResplit x core = true → Gives s (.splitChange core n) ((halvesAt core x.grid.kernel).foldl (fun t p =>
    t.updCore p.1 fun c => { c with split := x.grid.kernel.split }) s)) ∧
  (let t := s.placeWall x core
   let k := x.grid.kernel
   t.nextAge = s.nextAge + 1 ∧ t.wall? s.nextAge = some
     { ctx := x.ctx, grid := x.gid, index := x.grid.placed, prio := x.record.prio, part := x.record.part, core := core,
       twin := decide (32 < k.courses), courses := k.courses, width := k.width, cap := k.cap, ztiles := k.ztiles,
       win := (k.stash + 4095) / 4096 * 4096 } ∧
   (t.queue? x.queue = if x.grid.placed + 1 = x.grid.count then (s.queue? x.queue).map fun q =>
      { q with entries := q.entries.drop 1, headNo := q.headNo + 1, head := none } else s.queue? x.queue) ∧
   (∀ m, m ≠ x.queue → t.queue? m = s.queue? m) ∧
   (∀ age, age ≠ s.nextAge → t.wall? age = s.wall? age) ∧ (t.part x.record.part).occupant = some x.ctx ∧
   t.grids.get? x.gid = (s.grids.get? x.gid).map fun g => { g with placed := g.placed + 1 })

/-- A course at entry (R36, R209): s0 holds ARGS, s3 the wall's index, v0 the flat work-item number of each lane, absent where it
passes 2^32 − 2, v1 the lane's number; one READY fragment of all lanes is at ENTRY with s1 = 0 and s2 = STACK. -/
def Sys2Proof.Claims.CourseEntry : Prop := ∀ (s : State) (g : Grid) (gid age wall index core : Nat) (tvec : Dword),
  let k := g.kernel
  let t := s.placeCourse g gid age wall index core tvec
  ∃ c, t.courses.get? s.nextCourse = some c ∧ t.nextCourse = s.nextCourse + 1 ∧ c.core = core ∧ c.age = age ∧ c.ctx = g.ctx ∧
    c.index = index ∧ c.width = k.width ∧ c.entry = k.entry ∧ c.tvec = tvec ∧
    c.frags = [(0, { pc := k.entry, lanes := fullMask k.width, reserved := true, s2 := BitVec.ofNat 64 k.stack,
                     readyTime := s.clock })] ∧
    c.scal.get? 0 = some g.record.args ∧ c.scal.get? 3 = some (BitVec.ofNat 64 wall) ∧
    (k.width ≤ 64 → ∀ l < k.width,
      let n := (wall * k.courses + index) * k.width + l
      c.vec.get? l = some (if 2 ^ 32 - 2 < n then BitVec.allOnes 32 else BitVec.ofNat 32 n) ∧
      c.vec.get? (64 + l) = some (BitVec.ofNat 32 l))

/-- COURSE_DRAIN (R37, R197, R263, R336, R426): a course with no fragment and nothing outstanding leaves; the wall's last one ends the
wall. A wall that ends without bound regions, whose locks' releases cover what its island has applied, all of which reaches every island in that step (log 19), gives up its
locks and is gone,
and its grid, which is not complete by that, counts it. -/
def Sys2Proof.Claims.CourseDrains : Prop := ∀ (s : State) (uid : Nat) (c : Course) (w : Wall),
  s.course? uid = some c → s.wall? c.age = some w → s.courseQuiet uid c = true →
  let t := (State.passToken { s with courses := s.courses.erase uid } c).updWall c.age fun w => { w with drained := w.drained + 1 }
  (w.drained + 1 < w.courses → Gives s (.courseDrain uid) t) ∧
  (w.drained + 1 = w.courses → Gives s (.courseDrain uid) (t.endWall c.age)) ∧
  (∀ g, w.drained + 1 = w.courses → w.regions = [] → s.grids.get? w.grid = some g → g.drained + 1 < g.count →
    let u := (t.flush (islandOf w.core)).relAll c.age
    let v : State := { u with walls := u.walls.erase c.age }
    Gives s (.courseDrain uid) ((v.updGrid w.grid fun g => { g with drained := g.drained + 1 }).unoccupy w.ctx w.part))

/-- PREEMPTION and CONTEXT_RESTORE (R107, R372 to R375): a priority-0 record of another context halts the resident one, whose
outstanding lane operations complete first and whose bound lines are written back, and no context occupies the partition until a
priority-0 record of the context that pre-empted has a wall placed (R80); where an access that completes ends the context (R485),
nothing is saved. While one is saved, a priority-0 record of another context counts PREEMPT_BLOCKED once. The saved context comes back
when the context that pre-empted has no resident wall there, no eligible priority-0 record and none it has begun (R80); a degraded
core that holds no wall before that accepts none from then on (R484). That all this is one step is the model's reading (log 33), and
so is that walls come back to a twin which PART_SET has moved meanwhile (log 98). -/
def Sys2Proof.Claims.PreemptionAndRestore : Prop := ∀ (s : State) (part n : Nat),
  (∀ c next, s.preempts part n = some (c, next) →
    let uids := s.uidsOn c part
    let o := ((s.ops.filter fun p => uids.contains p.2.uid).map fun p => p.1).foldl State.finishNow s
    let walls := o.walls.filter fun p => p.2.ctx == c && p.2.part == part
    let t := ((dedup (walls.map fun p => islandOf p.2.core)).foldl State.flush o).setResident c part false
    let left := fun (m : Merge) => { m with waiters := m.waiters.filter fun w => !uids.contains w.1.uid }
    let t : State := { t with islands := t.islands.mapV fun i =>
                         { i with merge := (i.merge.map left).filter fun m => !m.waiters.isEmpty } }
    ((o.part part).occupant = some c →
      Gives s (.preemption part n) ((t.updPart part fun p =>
        { p with saved := some c, occupant := none, preemptor := some next }).noteAll part)) ∧
    ((o.part part).occupant ≠ some c → Gives s (.preemption part n) o)) ∧
  (∀ c, s.restores part = some c → Gives s (.contextRestore part)
    (((((State.setResident { s with cores := s.cores.map fun p => (p.1, { p.2 with closed := s.shut p.1 }) } c part true).resplit
      c part).updPart part fun p => { p with saved := none, preemptor := none, occupant := some c }).unoccupy c part))) ∧
  (∀ c, s.restores part = some c ↔ (s.part part).saved = some c ∧ ∀ o, (s.part part).preemptor = some o →
    (∀ p ∈ s.walls, p.2.ctx = o → p.2.part = part → p.2.resident = false) ∧
    ∀ x ∈ s.cands part, x.ctx = o → x.record.prio ≠ 0 ∧ x.grid.placed = 0) ∧
  (∀ c, (s.part part).occupant = none → (s.part part).saved = some c →
    (∀ x, s.chosen part = some x → x ∈ s.cands part ∧ (s.part part).preemptor = some x.ctx ∧ x.record.prio = 0) ∧
    (s.chosen part = none → ∀ x ∈ s.cands part, (s.part part).preemptor = some x.ctx → x.record.prio ≠ 0)) ∧
  (∀ c q h, (s.part part).saved = some c → s.queue? n = some q → q.head = some h → h.grid.isSome = true → h.record.part = part →
    h.record.prio = 0 → (s.part part).preemptor ≠ some q.ctx → h.blocked = false →
    Gives s (.preemption part n) ((s.raise q.ctx .preemptBlocked).updQueue n fun q =>
      { q with head := q.head.map fun h => { h with blocked := true } }))

/-- WATCHDOG_EXPIRY and WOUND_GRACE_EXPIRY (R109, R110, R415): a resident wall whose watchdog has reached the budget, or whose
wound has outlasted the grace in units of 1,000 cycles, ends its context with the cause and the report of that rule. A cycle counts
for the watchdog where a fragment of the wall is READY or its instruction ran in it; a cycle counts for the grace but where every
fragment is parked on the fault service or a fetch. A step cannot pass over a grace that is over: where no error is found and no
watchdog is overdue, it expires in the very next step, whatever the schedule names. When the two events come (log 37) and the order of the FIDs of equal serials in the
report (log 73) are the model's readings. -/
def Sys2Proof.Claims.Timers : Prop := ∀ (s : State) (age : Nat) (w : Wall), s.wall? age = some w →
  (w.resident = true → s.policy.watchdog ≤ w.watchdog → Gives s (.watchdogExpiry age)
    (s.fatal w.ctx { cause := .watchdog, fids := s.readyFids age })) ∧
  (∀ x, w.wound = some x → s.policy.grace * 1000 < x.grace → Gives s (.woundGraceExpiry age)
    (s.fatal w.ctx { cause := .grace, addr := x.name.toNat, who := age })) ∧
  (let t := s.tickWall age w
   let runs := ∃ p ∈ s.courses, p.2.age = age ∧ ((∃ q ∈ p.2.frags, q.2.state = .ready) ∨ ∃ r, s.issuing = some r ∧ r.uid = p.1)
   let served := ∀ p ∈ s.courses, p.2.age = age → ∀ q ∈ p.2.frags, ∃ code on, q.2.state = .parked code on ∧
     (0x20 ≤ code ∧ code ≤ 0x24 ∨ code = 0x31)
   (w.resident = false → t = w) ∧
   (w.resident = true → (runs → t.watchdog = min (w.watchdog + 1) (2 ^ 37 - 1)) ∧ (¬ runs → t.watchdog = w.watchdog) ∧
     (∀ x, w.wound = some x → (served → t.wound = some x) ∧ (¬ served → t.wound = some { x with grace := x.grace + 1 })))) ∧
  (let b := s.begin
   let late := fun (p : Nat × Wall) => p ∈ b.walls ∧ ∃ x, p.2.wound = some x ∧ b.policy.grace * 1000 < x.grace
   (∀ p, late p → b.found = [] → (∀ q ∈ b.walls, q.2.resident = true → q.2.watchdog < b.policy.watchdog + 1024) →
      ∃ q, late q ∧ b.overdue = some (.woundGraceExpiry q.1)) ∧
   (∀ i, b.overdue = some i → step s = thenFinish (exec i b)))

/-! Write-backs, errors and the outer straits (R447 to R449, R473 to R477, R484, R485). -/

/-- LINE_WRITE_BACK (R448, R449): a line of the under-stack takes a tag for which its bytes qualify; no tag for which they qualify
moves fewer sectors, and of those that move as many it is the first in the order 1, 2, 3, 6, 4, 7, 5, 0. What the sectors hold under
the tag fills the line as it was. A line whose tag is a reserved one is not held by the slice (log 87). That the bytes are those that the
home slice's island has at that moment is the model's reading (log 45). -/
def Sys2Proof.Claims.WriteBacks : Prop :=
  (∀ (s : State) (line : Nat), isUnder (128 * line) = true → s.lineTag.getD line 1 < 8 →
    let k := homeIsland (128 * line)
    let t := tagFor (s.lineFmtAt k (128 * line)) (s.bytesAt k (128 * line) 128)
    Gives s (.lineWriteBack line)
      { s with lineTag := if t = 1 then s.lineTag.erase line else s.lineTag.set line t }) ∧
  (∀ (s : State) (line : Nat), 8 ≤ s.lineTag.getD line 1 → Gives s (.lineWriteBack line) s) ∧
  (∀ (f : Nat) (bs : List Byte),
    let order : List Nat := [1, 2, 3, 6, 4, 7, 5, 0]
    let sectors := fun (t : Nat) => [4, 0, 0, 1, 1, 2, 2, 3].getD t 4
    let qualifies := fun (t : Nat) => match t with
      | 1 => ∀ x ∈ bs, x = 0
      | 2 => absentLine f bs = true
      | 3 => ∀ u ∈ unitsOfLine 8 bs, u = (unitsOfLine 8 bs).headD 0
      | 4 => deltasFit 8 1 bs = true
      | 5 => deltasFit 8 2 bs = true
      | 6 => deltasFit 4 1 bs = true
      | 7 => deltasFit 4 2 bs = true
      | _ => True
    let t := tagFor f bs
    t ∈ order ∧ qualifies t ∧
      (∀ u ∈ order, qualifies u → sectors t < sectors u ∨ (sectors t = sectors u ∧ order.idxOf t ≤ order.idxOf u)) ∧
      (bs.length = 128 → unpackLine t f (packLine t bs) = some bs ∧ (packLine t bs).length ≤ 32 * sectors t))

/-- Memory errors (R449, R484, R485): an uncorrectable one marks the line and ends, with cause 3 and the line's address, the context
that met it and every context with an access to the line outstanding. A read of a marked line, or of one whose tag in the
under-stack is reserved, is such an error; a write of the whole line clears both. A write of part of such a line fills it, and the error
that a fill finds is the machine's next move, for the context of the access. A corrected one beyond the policy's count within its window
retires its row while its bank has a spare one and counts ROW_RETIRED, else SPARE_EXHAUSTED; a core's bank degrades its core. Which
contexts have an access outstanding (log 32), the spare rows of a bank (log 44), the address of a line outside the package (log 72)
and which accesses find a reserved tag (log 87) are the model's readings. -/
def Sys2Proof.Claims.MemoryErrors : Prop := ∀ (s : State),
  (∀ ctx loc body, let line := lineOf (s.place loc)
    (line ∈ s.marks ∨ 8 ≤ s.lineTag.getD line 1 → s.unmarkedOr ctx [loc] body = s.memError line ctx) ∧
    (line ∉ s.marks → s.lineTag.getD line 1 < 8 → s.unmarkedOr ctx [loc] body = body s)) ∧
  (∀ line bs f, bs.length = 128 → isUnder (128 * line) = true → (s.homeWrite (128 * line) bs f).marked line = false) ∧
  (∀ line ctx, Gives s (.memoryErrorUncorrectable line ctx)
    (((dedup (ctx :: s.touching line)).filter fun c => (s.ctx? c).isSome).foldl (fun t c =>
      t.fatal c { cause := .uncorrectable, addr := s.paOf (128 * line) })
        { s with found := s.found.filter fun p => p ≠ (line, ctx),
                 marks := if line ∈ s.marks then s.marks else s.marks ++ [line] })) ∧
  (let bad := fun (ls : List Nat) => dedup (ls.filter fun l => decide (8 ≤ s.lineTag.getD l 1 ∧ l ∉ s.marks ∧ ∀ p ∈ s.found, p.1 ≠ l))
   let whole := fun (w : Write) (l : Nat) => (List.range 128).all fun i => (w.byteAt (128 * l + i)).isSome
   (∀ w : Write, (s.originate w).found = s.found ++ ((bad (linesOf w.cells)).filter fun l => !whole w l).map fun l =>
      (l, s.writerOf w)) ∧
   (∀ locs, s.fillRead locs = { s with found := s.found ++ (bad (locs.map lineOf)).map fun l => (l, noCtx) }) ∧
   (∀ ctx, s.claim ctx = { s with found := s.found.map fun p => if p.2 = noCtx then (p.1, ctx) else p }) ∧
   (∀ line ctx rest, s.begin.found = (line, ctx) :: rest → step s = thenFinish (exec (.memoryErrorUncorrectable line ctx) s.begin))) ∧
  (∀ site, let t : State := { s with errors := s.errors ++ [(site, s.clock)] }
    (t.errorsAt site ≤ s.policy.errCount → Gives s (.correctedError site) t) ∧
    (s.policy.errCount < t.errorsAt site →
      (∀ island row, site = .row island row → (island, row) ∉ s.retired → t.sparesLeft island row ≠ 0 →
        Gives s (.correctedError site) (State.raiseDev { t with
          retired := s.retired ++ [(island, row)], errors := t.errors.filter fun x => x.1 ≠ site } 0)) ∧
      (∀ island row, site = .row island row → (island, row) ∉ s.retired → t.sparesLeft island row = 0 →
        Gives s (.correctedError site) (t.raiseDev 1)) ∧
      (∀ core bank, site = .bank core bank → Gives s (.correctedError site) (State.updCore { t with
        banks := if (core, bank) ∈ s.banks then s.banks else s.banks ++ [(core, bank)] } core fun c => { c with degraded := true }))))

/-- What reaches the device through the outer straits (R473 to R475): an atomic of a form that TARGET 3 carries, aligned and at an
address in use, is carried out on every write applied before it (log 12); a write is performed by the home slice; each carries the
element format of the leaf that translated it in the other device (R450), which is a free value (log 88); a cas that does not match
writes nothing (R267; log 21); a read changes nothing, but for the error that its fill finds (R449); a back-invalidation drops the
cached line. The islands of the 18 ports (R3, R19); which of them carries a device is a free value (log 67). -/
def Sys2Proof.Claims.OuterStraits : Prop := ∀ (s : State),
  (∀ op pa x y f size, atForm (BitVec.toNat op) = some (f, size) → s.ready = true → s.usable pa size = true → pa % size = 0 →
    let a := BitVec.toNat x % 2 ^ (8 * size)
    f.isAbsent size a = false →
    let t := s.flushAll.fillRead [pa]
    let old := t.latestNat s.farFmt pa size
    (f = .cas → old ≠ a → Gives s (.outerStraitAtomic op pa x y) t) ∧
    (f ≠ .cas ∨ old = a → Gives s (.outerStraitAtomic op pa x y)
      (t.homeWrite pa (natLe size (f.new size old a (BitVec.toNat y % 2 ^ (8 * size)))) (some s.farFmt)))) ∧
  (∀ pa bs n, s.ready = true → s.usable pa bs.length = true →
    Gives s (.outerStraitAccess true pa bs n) (s.homeWrite pa bs (some s.farFmt))) ∧
  (∀ pa bs n, (s.ready = true → s.usable pa n = true →
      Gives s (.outerStraitAccess false pa bs n) (s.fillRead ((List.range n).map fun i => pa + i))) ∧
    (s.ready = false ∨ s.usable pa n = false → Gives s (.outerStraitAccess false pa bs n) s)) ∧
  (∀ dev addr, ∃ port < 18, port = Config.straitPort dev % 18 ∧ homeIsland (outLoc (4 + dev) addr) =
    if port ≤ 4 then 0 else if port ≤ 9 then 1 else if port ≤ 13 then 2 else 3) ∧
  (∀ port addr, port ≤ 1 → homeIsland (outLoc port addr) = 3 * port ∧ homeIsland (outLoc (2 + port) addr) = 3 * port) ∧
  (∀ line, Gives s (.cxlBackInvalidation line) { s with cached := s.cached.filter fun l => l ≠ line })

/-! The host (R463 to R471, R489, R490). -/

/-- Host accesses (R347, R464, R468, R485): a read performs what its home islands have applied (log 19) and delivers the bytes at the
home slice, with ones for bytes of a line with an uncorrectable error, which a reserved tag is too (R449), and vector 0; a write is
performed by the home slice; one that reaches nothing reads ones, writes nothing, and is counted. -/
def Sys2Proof.Claims.HostAccesses : Prop := ∀ (s : State) (pa n : Nat) (bs : List Byte),
  (s.ready = true → s.usable pa n = true →
    let locs := (List.range n).map fun i => pa + i
    let lost := fun (l : Nat) => lineOf l ∈ s.marks ∨ 8 ≤ s.lineTag.getD (lineOf l) 1
    let u := (dedup (locs.map homeIsland)).foldl State.flush s
    let v : State := { u with hostRead := locs.map fun l =>
                         if lost l then 0xFF#8 else u.byteAt (homeIsland l) l }
    let t := v.fillRead locs
    ((∀ l ∈ locs, ¬ lost l) → Gives s (.hostRead pa n) t) ∧
    ((∃ l ∈ locs, lost l) → Gives s (.hostRead pa n) (t.send 0))) ∧
  (s.ready = true → s.usable pa bs.length = true → Gives s (.hostWrite pa bs) (s.homeWrite pa bs none)) ∧
  (s.ready = false ∨ s.usable pa n = false → Gives s (.hostRead pa n)
    (State.raiseDev { s with hostRead := List.replicate n 0xFF } 2)) ∧
  (s.ready = false ∨ s.usable pa bs.length = false → Gives s (.hostWrite pa bs) (s.raiseDev 2))

/-- Queue windows (R471): bytes are staged for a port and a queue; a push enters the staged record, and the port reads 0, 1 for a
full queue or 2 for a queue that is not configured. That a port has one push status for all its queues is the model's reading (log
28). -/
def Sys2Proof.Claims.QueueWindows : Prop := ∀ (s : State) (port n : Nat), port ≤ 1 →
  let done := fun (t : State) (st : Nat) => { t with pushStatus := t.pushStatus.set port st }
  (∀ off bs, n ≤ 4095 → ∃ t, Gives s (.queueWindowStage port n off bs) t ∧
    (∀ i < 64, (t.staged port n).getD i 0 =
      if off ≤ i ∧ i < off + bs.length then bs.getD (i - off) 0 else (s.staged port n).getD i 0) ∧
    (∀ port' n', (port', n') ≠ (port, n) → t.staged port' n' = s.staged port' n') ∧ t = { s with stages := t.stages }) ∧
  (s.queue? n = none → Gives s (.queueWindowPush port n) (done s 2)) ∧
  (∀ q, s.queue? n = some q →
    (q.cap ≤ q.entries.length → Gives s (.queueWindowPush port n) (done s 1)) ∧
    (q.entries.length < q.cap → Gives s (.queueWindowPush port n) (done (s.pushRecord n q (s.staged port n)) 0)))

/-- The control registers (R465 to R467, R489, R490): writing 1 to bit 1 of STATUS clears FAULTPEND; an event counter is cleared;
CMD is staged dword by dword, and a write of DOORBELL starts it, or is ignored while BUSY; a write of a read-only register, of one
that does not exist, or of an address inside CMD that is no dword of it (0x41 to 0x7F but for the multiples of 8) has no effect, the
last being the model's choice (log 38); STATUS and the event counters are the two forms before. What each register reads as. The dword
of each operand in the staged command is the model's reading (log 38). -/
def Sys2Proof.Claims.ControlRegisters : Prop := ∀ (s : State) (v : Dword) (port n off : Nat),
  (v.getLsbD 1 = true → Gives s (.statusWrite v) { s with faultPend := false }) ∧
  (v.getLsbD 1 = false → Gives s (.statusWrite v) s) ∧
  (n < 6 → Gives s (.eventCounterClear n) { s with counters := s.counters.set n 0 }) ∧
  (n < 8 → Gives s (.registerWrite (0x40 + 8 * n) v) { s with cmd := s.cmd.set n v }) ∧
  (s.running = none → Gives s (.registerWrite 0x80 v) { s with running := some s.cmd }) ∧
  (s.running ≠ none → Gives s (.registerWrite 0x80 v) s) ∧
  (off ∉ [0x08, 0x40, 0x48, 0x50, 0x58, 0x60, 0x68, 0x70, 0x78, 0x80] → (∀ m < 6, off ≠ 0x800 + 8 * m) → Gives s (.registerWrite off v) s) ∧
  s.bar0 port 8 = s.ready.toNat + 2 * s.faultPend.toNat ∧
  s.bar0 port 0x88 = s.running.isSome.toNat + s.cmdErr * 2 ^ 8 + s.cmdResult * 2 ^ 16 ∧
  s.bar0 port 0x10 = s.portMode.getD 0 0 + 4 * s.portMode.getD 1 0 ∧
  s.bar0 port 0 = s.model.capGib + s.model.form * 2 ^ 16 + s.model.layers * 2 ^ 24 + port % 2 * 2 ^ 32 + s.devnum.toNat * 2 ^ 40 ∧
  (n < 6 → s.bar0 port (0x800 + 8 * n) = s.counters.getD n 0)

/-! Attestation, reset, bring-up and links (R468, R479, R481, R483, R490). -/

/-- The SPDM requests of a port (R483): version 1.3; the digest of slot 0 is the SHA-384 of its certificate chain, and the
measurements are those of the firmware image and of the policy in force. The order of the requests, the codes of ERROR and the bytes
over which measurement 2 is taken are the model's reading (log 14). -/
def Sys2Proof.Claims.Attestation : Prop := ∀ (s : State) (port : Nat) (p : SpdmPort) (nonce slot off len code : Nat) (h b : Bool),
  s.spdm[port]? = some p →
  let chain := sha384 ((List.range Config.certLength).map Config.certByte)
  let answers := fun (i : Instr) (q : SpdmPort) => Gives s i { s with spdm := s.spdm.set port q }
  let replies := fun (i : Instr) (x : Spdm) =>
    answers i { p with last := some (if p.negotiated = true then x else .error 0x04) }
  answers (.getVersion port) { negotiated := false, last := some (.version 1 3) } ∧
  answers (.getCapabilities port) { p with last := some .capabilities } ∧
  answers (.negotiateAlgorithms port h b) { negotiated := h && b, last := some (.algorithms b h) } ∧
  replies (.getDigests port) (.digests chain) ∧
  (slot = 0 → replies (.getCertificate port slot off len) (.certificate ((List.range (min len (Config.certLength - off))).map
    fun i => Config.certByte (off + i)))) ∧
  (slot ≠ 0 → replies (.getCertificate port slot off len) (.error 0x01)) ∧
  replies (.challenge port nonce) (.challengeAuth chain (Config.signature s.steps nonce)) ∧
  replies (.getMeasurements port nonce) (.measurements (sha384 ((List.range Config.firmwareLength).map Config.firmwareByte)) (sha384 s.policy.bytes)
    (BitVec.ofNat 64 (s.bar0 port 0)) (Config.signature s.steps nonce)) ∧
  answers (.unsupportedRequest port code) { p with last := some (.error 0x07) }

/-- Reset, bring-up, links and the cap (R479, R481, R490): after power-on reset everything is as State.reset has it, but for what
is not the device's; bring-up gives READY, the policy with the held items in order, untagged and unmarked memory, and no context;
a function-level reset forgets every context; a trained port has its mode, one that is down has none, and lines that no window
with C = 1 maps any more leave the caching slices (R474, R490). The values where the rules give none are logs 2, 4 and 51. -/
def Sys2Proof.Claims.Resets : Prop := ∀ (s : State) (port : Nat) (b : Bool),
  exec (.powerOnReset b) s = .next { State.reset with
    sched := s.sched, steps := s.steps, model := s.model, outside := s.outside, started := b } ∧
  (s.started = true → s.ready = false → exec .firmwareBringUp s = .next { s with
    policy := s.heldPolicy.foldl (fun p h => ((p.load h.1 h.2.toNat).1).getD p) Policy.default
    heldPolicy := [], devnum := Config.devnum, ready := true, lineTag := [], efmt := [], marks := [], found := [], clocks := [], ctxs := []
    mem := [], writes := [], stores := [] }) ∧
  (port ≤ 1 → Gives s (.functionLevelReset port) (s.ctxs.foldl (fun t p => t.forget p.1) s)) ∧
  (let mode := fun (n : Nat) =>
     let u := { s with portMode := s.portMode.set port n }
     { u with cached := s.cached.filter fun l => u.cacheable (128 * l) }
   Gives s (.portLinkTraining port b) (mode (if b = true then 2 else 1)) ∧ Gives s (.portLinkDown port) (mode 0)) ∧
  Gives s .packageCapped { s with capped := true }

/-! Commands (R467 to R470, R472 to R474, R480 to R482). -/

/-- Commands as such (R467, R468): an unassigned code ends with ERR 1; before READY every command but POLICY ends with ERR 3; a
step of another command than the one at hand changes nothing. The dwords of the operands are the model's reading (log 38). -/
def Sys2Proof.Claims.CommandRules : Prop := ∀ (s : State),
  let mine : List (Nat × Instr) := [(1, .ctxCreate), (2, .ctxDestroy), (3, .queueConfig), (4, .ertWrite), (5, .invalidate),
    (6, .repair), (7, .irqBind), (8, .window), (9, .partSet), (10, .flash), (11, .policy)]
  (s.ready = true → dword s 0 = 0 ∨ 11 < dword s 0 → Refuses s .unknownCommand 1) ∧
  (∀ p ∈ mine, s.ready = false → p.1 ≠ 11 → dword s 0 = p.1 → Refuses s p.2 3) ∧
  (∀ p ∈ mine, dword s 0 ≠ p.1 → Gives s p.2 s)

/-- What is left when a context is destroyed or a function-level reset forgets it (R427, R467, R479): no wall of it, no hold,
folded count or request of its walls, no queue, signal binding or cached translation; and what is gone stays gone while other
contexts are forgotten. -/
def Sys2Proof.Claims.ContextForgotten : Prop := ∀ (s : State) (n : Nat),
  ((s.ctx? n).isSome = true → s.ctxs.sorted = true → ContextGone n (s.forget n) ∧
    ∀ age w, s.wall? age = some w → w.ctx = n → OffMortar age (s.forget n)) ∧
  (∀ m, ContextGone n s → ContextGone n (s.forget m)) ∧
  (∀ m age, OffMortar age s → OffMortar age (s.forget m))

/-- CTX_CREATE and CTX_DESTROY (R467, R469, R470, R488; the fields that R469 does not refuse are used as they stand: log 96). The
order of the checks that choose ERR (log 39), the dwords of the operands (log 38), what a descriptor in a line with an error is and how
the error of a table's line that CTX_CREATE walks through is reported (log 87) are the model's readings. -/
def Sys2Proof.Claims.ContextCommands : Prop := ∀ (s : State), s.ready = true →
  let t := begun s
  let n := dword s 1
  (dword s 0 = 1 →
    (255 < n ∨ dword s 2 % 64 ≠ 0 → Refuses s .ctxCreate 2) ∧
    (n ≤ 255 → dword s 2 % 64 = 0 → (s.ctx? n).isSome = true → Refuses s .ctxCreate 3) ∧
    (∀ bs, n ≤ 255 → dword s 2 % 64 = 0 → s.ctx? n = none → t.sysRead (dword s 2) 64 = some bs →
      let c := Ctx.ofDesc (leNat bs)
      let r := t.sysFill (dword s 2) 64
      let u : State := { r with ctxs := s.ctxs.set n c }
      (r.descBad (leNat bs) c = true → Answers s .ctxCreate r 2 0) ∧
      (r.descBad (leNat bs) c = false → u.createPages n c = none →
        let bad := c.needs.filterMap fun p => match u.walk 0 n p.1 true false with
          | .marked line => some line
          | _ => none
        Answers s .ctxCreate (r.noteBad n bad) 3 0) ∧
      (u.createPages n c = none ↔ ∃ p ∈ c.needs, ∀ l, u.walk 0 n p.1 true false = .ok l → l.size < p.2) ∧
      (∀ ps, r.descBad (leNat bs) c = false → u.createPages n c = some ps → u.pinHomes n ps = none → Answers s .ctxCreate r 3 0) ∧
      (∀ ps v, r.descBad (leNat bs) c = false → u.createPages n c = some ps → u.pinHomes n ps = some v →
        let made := v.updCtx n fun c => { c with pins := ps }
        (c.counters = 0 → Answers s .ctxCreate made 0 0) ∧
        (∀ g, c.counters ≠ 0 → made.xlateRange 0 n c.counters 232 true = .ok g →
          let l := unitLoc g.units c.counters
          let made := made.updCtx n fun c => { c with countLoc := some l }
          Answers s .ctxCreate
            ((made.perform (homeIsland (made.place l.1)) (cellsAt l.1 (List.replicate 232 0)) (some l.2)).claim n) 0 0)))) ∧
  (dword s 0 = 2 →
    (255 < n → Refuses s .ctxDestroy 2) ∧
    (n ≤ 255 → s.ctx? n = none → Refuses s .ctxDestroy 3) ∧
    (n ≤ 255 → (s.ctx? n).isSome = true → Answers s .ctxDestroy (t.forget n) 0 0))

/-- QUEUE_CONFIG, ERT_WRITE and INVALIDATE (R283, R356, R357, R430, R467): QUEUE_CONFIG refuses operands out of range, a context that
is not there, a queue with entries and a ring that does not translate or find room for its pins; an empty queue is configured anew, and
its old pins go. INVALIDATE takes the range out of every TLB, and is done when no pinned page overlaps it and no lane operation of the
context is outstanding (log 40). The order of the checks that choose ERR (log 39), the dwords of the operands (log 38) and how the error
of a table's line is reported (log 87) are the model's readings. -/
def Sys2Proof.Claims.QueueAndTableCommands : Prop := ∀ (s : State) (x : Ctx), s.ready = true →
  let t := begun s
  let d := dword s
  (d 0 = 3 →
    let good := d 1 ≤ 4095 ∧ d 2 ≤ 255 ∧ d 3 ≤ 1 ∧ (∃ i, 4 ≤ i ∧ i ≤ 24 ∧ d 4 = 2 ^ i) ∧ d 5 ≤ 4095 ∧ d 6 % 64 = 0
    (¬ good → Refuses s .queueConfig 2) ∧
    (good → s.ctx? (d 2) = none → Refuses s .queueConfig 3) ∧
    (good → s.ctx? (d 2) = some x →
      (∀ q, s.queue? (d 1) = some q → q.entries ≠ [] → Refuses s .queueConfig 3) ∧
      ((∀ q, s.queue? (d 1) = some q → q.entries = []) →
        let ring := t.xlateRange (d 1 / 1024) (d 2) (d 6) (d 4 * 64) true
        let freed := match s.queue? (d 1) with
          | some q => t.unpinHomes q.ctx q.pins
          | none => t
        (∀ y, ring = .error y → y.code ≠ eccCode → Refuses s .queueConfig 3) ∧
        (∀ y, ring = .error y → y.code = eccCode → Answers s .queueConfig (t.noteBad (d 2) [y.va]) 3 0) ∧
        (∀ g, ring = .ok g → freed.pinHomes (d 2) g.pages = none → Refuses s .queueConfig 3) ∧
        (∀ g u, ring = .ok g → freed.pinHomes (d 2) g.pages = some u →
          let q : Queue := { ctx := d 2, work := d 3 == 0, cap := d 4, succ := d 5, ring := d 6, units := g.units, pins := g.pages }
          Answers s .queueConfig { u with queues := u.queues.set (d 1) q } 0 0)))) ∧
  (d 0 = 4 → d 1 ≤ 255 → s.ctx? (d 1) = some x →
    (x.ert.get? (d 2) = none → Refuses s .ertWrite 2) ∧
    (∀ y, x.ert.get? (d 2) = some y → field (d 4) 36 34 = 0 →
      (y.st = 2 ∨ y.st = 3 → Refuses s .ertWrite 3) ∧
      (y.st ≠ 2 → y.st ≠ 3 →
        let kind := field (d 4) 33 32
        let sizeq := field (d 4) 63 40
        Answers s .ertWrite (t.updExpert (d 1) (d 2) fun _ => { y with
          src := d 3, nsid := field (d 4) 31 0, kind := kind, cls := field (d 4) 39 37, sizeq := sizeq
          st := if (kind = 1 ∨ kind = 2) ∧ 1 ≤ sizeq ∧ sizeq * 4096 ≤ x.frameSize then 1 else 0 }) 0 0))) ∧
  (d 0 = 5 → d 1 ≤ 255 → s.ctx? (d 1) = some x →
    let hits := fun va size => va < d 2 + d 3 ∧ d 2 < va + size
    let kept := fun (e : Tlb) => !(e.ctx == d 1 && pageHits e.va e.size (d 2) (d 3))
    let u : State := { t with
      cores := s.cores.mapV fun c => { c with tlb := c.tlb.filter kept }
      islands := s.islands.mapV fun i => { i with l2 := i.l2.filter kept } }
    (s.laneOps (d 1) = false → (∀ i ∈ s.islands, ∀ p ∈ i.2.pins, p.ctx = d 1 → ¬ hits p.vpage p.size) →
      Answers s .invalidate u 0 0) ∧
    (s.laneOps (d 1) = true ∨ (∃ i ∈ s.islands, ∃ p ∈ i.2.pins, p.ctx = d 1 ∧ hits p.vpage p.size) → Gives s .invalidate u))

/-- REPAIR, IRQ_BIND, WINDOW and FLASH (R366, R467, R472 to R474, R478). REPAIR waits while 64 unwritten fault records hold back
those that it would form (R364; log 36; a replay beside other accesses: log 86). A window that goes or changes takes its lines out of the caching slices. The order of the
checks that choose ERR is the model's reading (log 39). Vector 0 removes the bindings of a location, with their pins, which is the model's
reading (log 41). The dwords of the operands are the model's reading (log 38). -/
def Sys2Proof.Claims.RepairAndBindingCommands : Prop := ∀ (s : State) (x : Ctx), s.ready = true →
  let t := begun s
  let d := dword s
  (d 0 = 6 → d 1 ≤ 255 → s.ctx? (d 1) = some x →
    (t.repairHeld (t.repairId (d 1) (d 2)).1 = false → Answers s .repair (t.repairId (d 1) (d 2)).1 0 (t.repairId (d 1) (d 2)).2) ∧
    (t.repairHeld (t.repairId (d 1) (d 2)).1 = true → Gives s .repair t)) ∧
  (∀ y, d 0 = 7 → d 1 ≤ 255 → s.ctx? (d 1) = some x → d 3 ≤ 255 → d 2 % 8 = 0 → t.xlateRange 0 (d 1) (d 2) 8 true = .error y →
    (y.code ≠ eccCode → Refuses s .irqBind 3) ∧ (y.code = eccCode → Answers s .irqBind (t.noteBad (d 1) [y.va]) 3 0)) ∧
  (∀ g u, d 0 = 7 → d 1 ≤ 255 → s.ctx? (d 1) = some x → d 3 ≤ 255 → d 2 % 8 = 0 → t.xlateRange 0 (d 1) (d 2) 8 true = .ok g →
    let loc := (unitLoc g.units (d 2)).1
    (d 3 = 0 → (∀ q ∈ s.irqs, s.place q.loc ≠ s.place loc) → Answers s .irqBind t 0 0) ∧
    (∀ q pre post, d 3 = 0 → s.irqs = pre ++ q :: post → s.place q.loc = s.place loc →
      (∀ r ∈ pre ++ post, s.place r.loc ≠ s.place loc) →
      Answers s .irqBind { t.unpinHomes q.ctx q.pins with irqs := pre ++ post } 0 0) ∧
    (d 3 ≠ 0 → 1024 ≤ s.irqs.length → Refuses s .irqBind 3) ∧
    (d 3 ≠ 0 → (∀ q ∈ s.irqs, s.place q.loc ≠ s.place loc) → s.irqs.length < 1024 → t.pinHomes (d 1) g.pages = some u →
      Answers s .irqBind { u with irqs := s.irqs ++ [⟨loc, d 3, d 1, g.pages⟩] } 0 0)) ∧
  (d 0 = 8 →
    let w := Window.ofEntry (d 2) (d 3)
    (63 < d 1 → Refuses s .window 2) ∧
    let maps := fun (ws : Tab Window) =>
      let u := { t with windows := ws }
      { u with cached := s.cached.filter fun l => u.cacheable (128 * l) }
    (d 1 ≤ 63 → w.target = 0 → w.c = false → Answers s .window (maps (s.windows.erase (d 1))) 0 0) ∧
    (d 1 ≤ 63 → w.target = 0 → w.c = true → Refuses s .window 2) ∧
    (d 1 ≤ 63 → w.target ≠ 0 → s.windowOk (d 2) w = true → Answers s .window (maps (s.windows.set (d 1) w)) 0 0) ∧
    (d 1 ≤ 63 → w.target ≠ 0 → s.windowOk (d 2) w = false → Refuses s .window 2)) ∧
  (d 0 = 10 → d 1 ≤ 1 → d 4 = 512 ∨ d 4 = 4096 → d 3 < 2 ^ 32 →
    let rest := s.flash.filter fun f => f.1 ≠ d 3
    (rest.length < 8 → Answers s .flash { t with flash := rest ++ [(d 3, d 1, d 2, d 4)] } 0 0) ∧
    (8 ≤ rest.length → Refuses s .flash 3))

/-- PART_SET and POLICY (R405, R435, R468, R480 to R482): a map that moves no twin of a resident wall becomes the partition's, and
other partitions lose its twins; an accepted policy item is in force, or before READY is held; a refused one is counted and ends
with ERR 2; a matrix is accepted where it is symmetric and marks X compatible with no mode, the weights of the classes and of the
pagers where none is 0, and the other items in their ranges. The dwords of the operands (log 38), and that an unknown item is refused
like a value out of range (log 42), are the model's readings. -/
def Sys2Proof.Claims.PartitionAndPolicyCommands : Prop := ∀ (s : State),
  let t := begun s
  let d := dword s
  (∀ bs, s.ready = true → d 0 = 9 → d 1 ≤ 7 → t.sysRead (d 2) 64 = some bs →
    let new := (List.range 512).filter fun i => (leNat bs).testBit i
    let old := (s.part (d 1)).twins
    let moved := fun i => (i ∈ new ∧ i ∉ old) ∨ (i ∈ old ∧ i ∉ new)
    let r := t.sysFill (d 2) 64
    ((∃ i ∈ s.busyTwins, moved i) → Answers s .partSet r 3 0) ∧
    ((∀ i ∈ s.busyTwins, ¬ moved i) → Answers s .partSet (((List.range 8).foldl (fun t n => t.updPart n fun p =>
      { p with twins := p.twins.filter fun i => !new.contains i }) r).updPart (d 1) fun p => { p with twins := new }) 0 0)) ∧
  (d 0 = 11 →
    (∀ p own, s.policy.load (d 1) (d 2) = (some p, own) →
      (s.ready = true → Answers s .policy { t with policy := p } 0 0) ∧
      (s.ready = false → Answers s .policy { t with heldPolicy := s.heldPolicy ++ [(d 1, BitVec.ofNat 64 (d 2))] } 0 0)) ∧
    (s.policy.load (d 1) (d 2) = (none, none) → Answers s .policy (t.raiseDev 3) 2 0) ∧
    (∀ n, s.policy.load (d 1) (d 2) = (none, some n) → Answers s .policy ((t.raiseDev 3).raiseDev n) 2 0)) ∧
  (∀ p v, v < 2 ^ 36 →
    let good := (∀ a < 6, ∀ b < 6, v.testBit (6 * a + b) = v.testBit (6 * b + a)) ∧ ∀ b < 6, v.testBit (30 + b) = false
    (good → Policy.load p 1 v = (some { p with matrix := BitVec.ofNat 36 v }, none)) ∧
    (¬ good → Policy.load p 1 v = (none, some 4))) ∧
  (∀ p v, Policy.load p 3 v = (if 2 ^ 16 ≤ v ∧ v ≤ 2 ^ 36 then some { p with watchdog := v } else none, none)) ∧
  (∀ p v, Policy.load p 2 v = (if ∀ i < 8, v / 256 ^ i % 256 ≠ 0 then
    some { p with weights := (List.range 8).map fun i => v / 256 ^ i % 256 } else none, none)) ∧
  (∀ p v, Policy.load p 5 v = if ∀ i < 8, v / 256 ^ i % 256 ≠ 0 then
    (some { p with pager := (List.range 8).map fun i => v / 256 ^ i % 256 }, none) else (none, some 5)) ∧
  (∀ p v, Policy.load p 4 v = (if v < 2 ^ 32 ∧ 2 ≤ v % 256 ∧ 60 ≤ v / 256 ∧ v / 256 ≤ 86400 then
    some { p with errCount := v % 256, errWindow := v / 256 } else none, none)) ∧
  (∀ p v, Policy.load p 8 v = (if 400 ≤ v ∧ v ≤ 2600 then some { p with power := v } else none, none)) ∧
  (∀ p v, Policy.load p 6 v = (if 1 ≤ v ∧ v ≤ 500 then some { p with grace := v } else none, none)) ∧
  (∀ p v, Policy.load p 7 v = (if 1 ≤ v ∧ v ≤ 1024 then some { p with escalation := v } else none, none))

/-! Encodings (R112 to R150). -/

/-- The words of legal instructions read back as those instructions, every operand at every value its field admits. -/
def Obligations.DecodeEncode : Prop := ∀ i : Instr, i.legal = true → decodeBytes (bytesOfWord (encode i)) = .ok i

/-- A word that decodes is the word of its instruction, which is legal: no word has two readings, and no bit of it is ignored. -/
def Obligations.EncodeDecode : Prop := ∀ (w : Word) (i : Instr), decode w = .ok i → i.legal = true ∧ encode i = w

/-- Words written out from the encoding tables, and words that R123 and R124 leave without a meaning: an unassigned class, an
unassigned OP, a field that must be zero. -/
def Obligations.SpecWords : Prop :=
  decode 0b00001_000000_000000000000000000101 = .ok (.sysBrk 5) ∧
  decode 0b00100_000011_000000000000000000000 = .ok .ctlNop ∧
  decode 0b00101_0000_00_1000011_1000100_1000101 = .ok (.siAdd .i64 0x43 0x44 0x45) ∧
  decode 0b01000_0000_01_0000001_0000010_0000011 = .ok (.viAdd .n32 1 2 3) ∧
  decode 0b10110_000000_1000011_1000100_1000101 = .ok (.cpyG2s 0x43 0x44 0x45) ∧
  (∀ w : Word, w.extractLsb' 27 5 = 0x00 ∨ 0x1B ≤ (w.extractLsb' 27 5).toNat → decode w = .error .unassignedClass) ∧
  decode 0b00100_111111_000000000000000000000 = .error .unassignedOp ∧
  decode 0b00100_000011_000000000000000000001 = .error .reservedNotZero

/-! Steps and invariants. -/

/-- A step runs the decoded instruction: where no watchdog is overdue (R109), no grace is over (R415) and no error is found and
unreported (R449), in an issue slot of a quadrant whose choice is a fragment without a pending wound, where its pc translates and the bytes there decode to i, the step is exec of i with that
fragment ISSUING, its quadrant's counts of R105 taken, and a cycle at the end. An event that the schedule names is run in the same
way, and so is a step of an engine on an operation. That a step names its agent by the schedule (log 1) and counts one cycle (log 50) is the model's choice. -/
def Obligations.StepRunsDecoded : Prop := ∀ (s u : State) (core quad : Nat) (x : Ready) (i : Instr) (l : Leaf),
  (SlotAt s u core quad → choose (u.quadReady core quad) = some x → (x.f.mark = none ∨ x.f.handler = true) →
    let t := { u.countSlot core quad (u.quadReady core quad) x.r with issuing := some x.r }
    let loc := t.leafLoc l x.f.pc.toNat
    t.fetchLookup x.c x.f = .ok l → t.markedIn [loc] = none →
    decodeBytes (t.viewBytes (islandOf x.c.core) l.efmt loc 4) = .ok i →
    step s = thenFinish (exec i t)) ∧
  (∀ rest, s.begin.overdue = none → s.begin.sched = .event i :: rest → schedulable i = true →
    step s = thenFinish (exec i { s.begin with sched := rest })) ∧
  (∀ op rest, s.begin.overdue = none → s.begin.sched = .progress op :: rest →
    let v : State := { s.begin with sched := rest }
    step s = thenFinish (.next (v.settle (v.engineStep op))))

/-- Every step keeps the invariant: the under-stack's bytes and its lines' element formats in canonical form, no write that every
island has applied kept ahead of the others, no fragment ISSUING between steps. -/
def Obligations.StepKeepsInvariant : Prop := ∀ s t : State, s.Inv → step s = .next t → t.Inv

/-- The state after reset meets the invariant. -/
def Obligations.ResetMeetsInvariant : Prop := State.reset.Inv

/-- Retiring writes into plain memory is invisible: no island reads a byte otherwise, and the last value of a byte is the same. -/
def Sys2Proof.Claims.SettleIsInvisible : Prop := ∀ (s t : State), memWf s.mem = true → fmtWf s.efmt = true → t.mem = s.mem → t.outside = s.outside →
  t.efmt = s.efmt → KeepsBytes t (s.settle t) ∧
  (∀ loc, (s.settle t).byteLatest loc = t.byteLatest loc ∧ ∀ f, (s.settle t).viewLatest f loc = t.viewLatest f loc)

/-- Writing a byte of the under-stack: it reads back, every other byte is as before, and the canonical form is kept. A host write
that finds no write in flight reads back on every island, and leaves every other byte. That a host write is performed on every
island in its step is the model's reading (log 19). -/
def Sys2Proof.Claims.MemoryReadsBack : Prop :=
  (∀ (m : Tab Byte) (a x : Nat) (b : Byte), memWf m = true → memWf (memPut m a b) = true ∧
    (memPut m a b).getD x 0 = if x = a then b else m.getD x 0) ∧
  (∀ (s : State) (pa : Nat) (bs : List Byte), memWf s.mem = true → s.writes = [] → s.ready = true →
    s.usable pa bs.length = true → ∃ t, exec (.hostWrite pa bs) s = .next t ∧
      ∀ k < 4, ∀ loc, t.byteAt k loc = if pa ≤ loc ∧ loc < pa + bs.length then bs.getD (loc - pa) 0 else s.byteAt k loc)

/-- Registers read back what is written to them, in each lane that is written, and every other register and lane is as before
(R113 to R116). A register that nothing has written holds what log 56 says. -/
def Obligations.RegistersReadBack : Prop := ∀ (s : State) (e : Env) (d : Reg), s.issuer? = some e →
  (∀ x, isS d = true → ∃ e', (s.setS e d x).issuer? = some e' ∧
    (∀ r, isS r = true → e'.sb r = if r = d then x else e.sb r) ∧ (∀ r, ∀ l < 64, e'.vb r l = e.vb r l ∧ ∀ q, e'.q q l = e.q q l)) ∧
  (∀ g : Nat → Word, ∃ e', (s.putV e d fun l => some (g l)).issuer? = some e' ∧
    (∀ r, ∀ l < 64, e'.vb r l = if r = d ∧ l ∈ e.lanes then g l else e.vb r l) ∧ (∀ r, isS r = true → e'.sb r = e.sb r)) ∧
  (∀ (n : Nat) (g : Nat → Trit), ∃ e', (s.putQ e n g).issuer? = some e' ∧
    (∀ q, ∀ l < 64, e'.q q l = if q = n ∧ l ∈ e.lanes then g l else e.q q l) ∧ (∀ r, ∀ l < 64, e'.vb r l = e.vb r l))

/-- The frames of the scalar and the vector classes, comparisons among them: no byte of memory, no other course and nothing outside
courses changes; in the course only the destination registers in the lanes of F and the pc of F, with what an execution for some
lanes only leaves behind. -/
def Obligations.RegisterFrames : Prop := ∀ (s t : State) (e : Env) (i : Instr) (d : Reg), memWf s.mem = true → fmtWf s.efmt = true →
  Issues s i e → exec i s = .next t →
  (scalarDest i = some d → OnlyCourse s t e.r.uid ∧ ∃ c, t.course? e.r.uid = some c ∧
    c = { e.c with scal := c.scal, frags := c.frags } ∧
    (∀ n, n ≠ e.c.ws + (d.toNat - 0x40) → c.scal.get? n = e.c.scal.get? n) ∧
    (∀ n, n ≠ e.r.serial → c.frags.get? n = e.c.frags.get? n) ∧
    ∃ f, c.frags.get? e.r.serial = some f ∧ (d ≠ 0x41 → f.s1 = e.f.s1) ∧ (d ≠ 0x42 → f.s2 = e.f.s2) ∧
      f = { e.f with pc := f.pc, only := f.only, outcomes := f.outcomes, crowd := f.crowd, diverged := f.diverged, held := f.held, s1 := f.s1, s2 := f.s2 }) ∧
  (∀ m, vectorDest i = some (d, m) → OnlyCourse s t e.r.uid ∧ ∃ c, t.course? e.r.uid = some c ∧
    c = { e.c with vec := c.vec, frags := c.frags } ∧
    (∀ r, ∀ l < 64, ¬(e.vreg d ≤ r ∧ r < e.vreg d + m ∧ l ∈ e.lanes) → c.v? r l = e.c.v? r l) ∧
    (∀ n, n ≠ e.r.serial → c.frags.get? n = e.c.frags.get? n) ∧
    ∃ f, c.frags.get? e.r.serial = some f ∧
      f = { e.f with pc := f.pc, only := f.only, outcomes := f.outcomes, crowd := f.crowd, diverged := f.diverged, held := f.held }) ∧
  (∀ m, tritDest i = some (d, m) → OnlyCourse s t e.r.uid ∧ ∃ c, t.course? e.r.uid = some c ∧
    c = { e.c with trit := c.trit, frags := c.frags } ∧
    (∀ q, ∀ l < 64, ¬(d.toNat ≤ q ∧ q < d.toNat + m ∧ l ∈ e.lanes) → c.trit? q l = e.c.trit? q l) ∧
    (∀ n, n ≠ e.r.serial → c.frags.get? n = e.c.frags.get? n) ∧
    ∃ f, c.frags.get? e.r.serial = some f ∧
      f = { e.f with pc := f.pc, only := f.only, outcomes := f.outcomes, crowd := f.crowd, diverged := f.diverged, held := f.held })

/-- Reset (R479): READY and FAULTPEND are 0, every line of the under-stack is tag 1 with element format 31 and reads zero, no
context, queue, wall, course, operation or write exists, nothing is staged or running, the policy is the default one, and the
event counters are 0. What has no reset value in the rules is empty or 0, which is the model's choice (logs 2 and 4). -/
def Obligations.ResetState : Prop :=
  let s := State.reset
  s.ready = false ∧ s.faultPend = false ∧ s.running = none ∧ s.cmdErr = 0 ∧ s.cmdResult = 0 ∧ (∀ i < 8, s.cmd.getD i 0 = 0) ∧
  s.ctxs = [] ∧ s.queues = [] ∧ s.grids = [] ∧ s.walls = [] ∧ s.courses = [] ∧ s.ops = [] ∧ s.stores = [] ∧ s.writes = [] ∧
  s.locks = [] ∧ s.windows = [] ∧ s.irqs = [] ∧ s.marks = [] ∧ s.found = [] ∧ s.policy = Policy.default ∧ s.heldPolicy = [] ∧
  (∀ n < 6, s.counters.getD n 0 = 0) ∧
  (∀ k < 4, ∀ loc, isUnder loc = true → s.byteAt k loc = 0 ∧ s.lineFmtAt k loc = 31 ∧ s.lineTag.getD (lineOf loc) 1 = 1) ∧
  (∀ n < 8, (s.part n).twins = [] ∧ (s.part n).occupant = none)

/-! The statements that are made of several claims. -/

/-- Scalar arithmetic, division, bit forms and compares give the exact result saturated, and absent for an absent operand; the immediate forms. -/
def Obligations.ScalarArithmetic : Prop :=
  Claims.ScalarTypedArithmetic ∧ Claims.ScalarTypedDivision ∧ Claims.ScalarBitForms ∧ Claims.ScalarCompares ∧ Claims.ScalarImmediates ∧ Claims.ScalarUpperImmediates

/-- Vector integer arithmetic, division, bit forms, compares and immediates, lane by lane. -/
def Obligations.VectorArithmetic : Prop :=
  Claims.VectorTypedArithmetic ∧ Claims.VectorTypedDivision ∧ Claims.VectorBitForms

/-- The f32, packed and f64 forms. -/
def Obligations.FloatingArithmetic : Prop :=
  Claims.FloatArithmetic ∧ Claims.PairArithmetic

/-- Absent, NaN, infinity and zero in floating arithmetic, and the exact powers and logarithms. -/
def Obligations.FloatSpecialCases : Prop :=
  Claims.FloatSpecialCases ∧ Claims.FloatExceptionalOperands ∧ Claims.ExponentialCases

/-- A result that is rounded is the exact number rounded once, also at the edge of the range; the codes of the floating formats. -/
def Obligations.CorrectRounding : Prop :=
  Claims.CorrectRounding ∧ Claims.FloatCodes

/-- Absent values, selection and conversion. -/
def Obligations.AbsentSelectionAndConversion : Prop :=
  Claims.AbsentAndSelection ∧ Claims.Conversion

/-- Top-k, rebalance, conflict, shuffles and votes. -/
def Obligations.CrossLaneForms : Prop :=
  Claims.TopK ∧ Claims.Rebalance ∧ Claims.ConflictDetection ∧ Claims.ShufflesAndVotes

/-- A trap saves what the spec says and goes to TVEC, or ends the context; the breakpoint and the software trap. -/
def Obligations.Traps : Prop :=
  Claims.TrapEntry ∧ Claims.ContextFatal ∧ Claims.BreakpointAndSoftwareTrap

/-- The checks before any effect: the illegal instruction, the register cap and the tiles. -/
def Obligations.ChecksAtIssue : Prop :=
  Claims.ChecksAtIssue ∧ Claims.RegisterCapCheck

/-- Reading and writing the special registers, sys.frinfo, and sys.repair with what a repair does. -/
def Obligations.SpecialRegisters : Prop :=
  Claims.SpecialRegisterReads ∧ Claims.SpecialRegisterWrites ∧ Claims.RepairPresentations

/-- The branches on a trit, and where a split places the lanes. -/
def Obligations.DivergentBranches : Prop :=
  Claims.DivergentBranches ∧ Claims.SplitPlacesLanes

/-- Jumps, calls, join points and their completion, merges, and the ctl class. -/
def Obligations.JumpsJoinsAndCourseControl : Prop :=
  Claims.JumpsAndCalls ∧ Claims.JoinPoints ∧ Claims.JoinCompletion ∧ Claims.MergedFragments ∧ Claims.Nop ∧ Claims.CourseControl

/-- The loads: addresses, absent addresses, bounds, bound regions, faults and the lanes that park. -/
def Obligations.Loads : Prop :=
  Claims.GlobalLoads ∧ Claims.StashLoads ∧ Claims.BoundAccesses ∧ Claims.AccessTraps ∧ Claims.FaultingLoads ∧ Claims.ParkingLanes ∧ Claims.PlanOfAccesses

/-- The stores, and the lanes that enter the side log. -/
def Obligations.Stores : Prop :=
  Claims.Stores ∧ Claims.FaultingStores ∧ Claims.SideLogEntries

/-- LOAD_COMPLETE writes what memory holds; STORE_PERFORMED. -/
def Obligations.AccessCompletions : Prop :=
  Claims.LoadCompletion ∧ Claims.StoreCompletion

/-- The atomics as they issue, where lanes fault, and what paths carry. -/
def Obligations.Atomics : Prop :=
  Claims.Atomics ∧ Claims.AtomicFaults ∧ Claims.AtomicRoutes

/-- The new values of the atomics, slot reservation, the completion, and what each location holds after it. -/
def Obligations.AtomicResults : Prop :=
  Claims.AtomicNewValues ∧ Claims.SlotReservation ∧ Claims.AtomicCompletion ∧ Claims.AtomicService

/-- Wall barriers and stash barrier objects. -/
def Obligations.Barriers : Prop :=
  Claims.WallBarriers ∧ Claims.BarrierCompletion ∧ Claims.StashBarriers

/-- Fences, counter waits, monitors and signals. -/
def Obligations.FencesMonitorsAndSignals : Prop :=
  Claims.FencesAndCounterWaits ∧ Claims.MonitorsAndSignals ∧ Claims.MonitorSlots

/-- Pushes and pops. -/
def Obligations.Queues : Prop :=
  Claims.QueuePushes ∧ Claims.QueuePops

/-- The tile instructions but tl.mma, their completion and the steps of the engines. -/
def Obligations.TileInstructions : Prop :=
  Claims.TileInstructions ∧ Claims.DrainConversion ∧ Claims.DrainResults ∧ Claims.TileCompletion ∧ Claims.EngineSteps

/-- tl.mma and its traps, the traps and faults of tl.load and tl.drain, the arithmetic of one element, and what K-steps and fills write to a tile. -/
def Obligations.MatrixMultiply : Prop :=
  Claims.MatrixMultiply ∧ Claims.MmaTraps ∧ Claims.TileTraps ∧ Claims.MatrixElement ∧ Claims.TileContents

/-- The copies, their traps and COPY_COMPLETE. -/
def Obligations.Copies : Prop :=
  Claims.Copies ∧ Claims.CopyTraps ∧ Claims.CopyCompletion

/-- Batches and bound regions, and the traps of cpy.bind. -/
def Obligations.BatchesAndRegions : Prop :=
  Claims.BatchesAndRegions ∧ Claims.BindTraps

/-- kv.gather, its traps, and the rows that it delivers. -/
def Obligations.KvGather : Prop :=
  Claims.KvGather ∧ Claims.KvGatherTraps ∧ Claims.GatherRows

/-- kv.append, and what each lane of it meets and does. -/
def Obligations.KvAppend : Prop :=
  Claims.KvAppend ∧ Claims.KvAppendLane

/-- kv.fork and kv.drop, and their traps and faults. -/
def Obligations.KvForkAndDrop : Prop :=
  Claims.KvForkAndDrop ∧ Claims.KvForkTraps

/-- xf.run, xf.cancel, the conditions on their records, and the items of a transpose and a requant. -/
def Obligations.TransformRuns : Prop :=
  Claims.TransformRuns ∧ Claims.TransformRecords ∧ Claims.ScaledElements ∧ Claims.RequantCodes ∧ Claims.DenseItems

/-- The items of a compact and an expand; how a run works; runs and gathers complete, or stop on a fault. -/
def Obligations.EngineCompletions : Prop :=
  Claims.CompactItems ∧ Claims.ExpandItems ∧ Claims.RunSteps ∧ Claims.EngineCompletions

/-- What Mortar answers one lane; queues, wounds, automatic escalation and table overflow. -/
def Obligations.LockRequests : Prop :=
  Claims.ParentModes ∧ Claims.LockRequests ∧ Claims.AutomaticEscalation ∧ Claims.LockQueues

/-- The lk class. -/
def Obligations.LockInstructions : Prop :=
  Claims.LockAcquires ∧ Claims.LockReleases ∧ Claims.WallLeavesMortar

/-- The ex class. -/
def Obligations.ExpertInstructions : Prop :=
  Claims.ExpertLanes ∧ Claims.ExpertInstructions ∧ Claims.ExpertPins

/-- The choice of a quadrant; merge, refill, periodic fires and posted reductions. -/
def Obligations.FragmentsMonitorsAndPostedReductions : Prop :=
  Claims.IssueChoice ∧ Claims.FragmentSteps ∧ Claims.MergedFragments ∧ Claims.PeriodicFireAndPostedAck

/-- Page walks and fault records. -/
def Obligations.WalksAndFaultRecords : Prop :=
  Claims.PageWalks ∧ Claims.FaultRecords

/-- The dispatcher: predecessors, placement, splits and what a course holds at entry. -/
def Obligations.Dispatch : Prop :=
  Claims.PredecessorReads ∧ Claims.Placement ∧ Claims.CourseEntry

/-- Drains, pre-emption, restore and timers. -/
def Obligations.EndsOfWallsAndContexts : Prop :=
  Claims.CourseDrains ∧ Claims.PreemptionAndRestore ∧ Claims.Timers

/-- Write-backs, memory errors and the outer straits. -/
def Obligations.MemoryPath : Prop :=
  Claims.WriteBacks ∧ Claims.MemoryErrors ∧ Claims.OuterStraits

/-- Host accesses, queue windows and control registers. -/
def Obligations.HostAccesses : Prop :=
  Claims.HostAccesses ∧ Claims.QueueWindows ∧ Claims.ControlRegisters

/-- SPDM, reset, bring-up, links and the package cap. -/
def Obligations.AttestationAndResets : Prop :=
  Claims.Attestation ∧ Claims.Resets ∧ Claims.ContextForgotten

/-- Commands: their rules, contexts, queues, the expert table and INVALIDATE. -/
def Obligations.ContextAndTableCommands : Prop :=
  Claims.CommandRules ∧ Claims.ContextCommands ∧ Claims.ContextForgotten ∧ Claims.QueueAndTableCommands

/-- Commands: REPAIR, IRQ_BIND, WINDOW, FLASH, PART_SET and POLICY. -/
def Obligations.BindingAndPolicyCommands : Prop :=
  Claims.RepairAndBindingCommands ∧ Claims.RepairPresentations ∧ Claims.PartitionAndPolicyCommands

/-- Bytes read back, other bytes are kept, and retiring writes is invisible. -/
def Obligations.MemoryReadsBack : Prop :=
  Claims.MemoryReadsBack ∧ Claims.SettleIsInvisible


end
end

