-- ==== Sys2Proof/Laws/Bound.lean ====
section
/-!
SUPPORT. What the checks on bound regions, marks and earlier accesses do where there is nothing to meet: they run their body.
-/

set_option Elab.async false

namespace Sys2Proof.Machine

variable {s : State} {e : Env} {w : Wall}

theorem regionOf_unbound (h : w.regions = []) (o : Nat) : w.regionOf o = none := by
  simp [Wall.regionOf, h]

theorem boundVas_unbound (h : w.regions = []) (offs : List Nat) : w.boundVas offs = [] := by
  simp [Wall.boundVas, regionOf_unbound h]

theorem boundOr_unbound (h : e.w.regions = []) (whole : Bool) (offs : List (Nat × Nat)) (body : State → State) :
    s.boundOr e whole offs body = body s := by
  simp [State.boundOr, h]

theorem recordAt_unbound (h : e.w.regions = []) (off : Nat) (body : State → State) : s.recordAt e off body = body s :=
  boundOr_unbound h ..

theorem markedIn_nil : s.markedIn [] = none := by simp [State.markedIn]

theorem boundFail_unbound (h : w.regions = []) (offs : List Nat) : s.boundFail w offs = none := by
  simp [State.boundFail, boundVas_unbound h, markedIn_nil]

theorem unmarkedOr_of_none {ctx : Nat} {locs : List Nat} {body : State → State} (h : s.markedIn locs = none) :
    s.unmarkedOr ctx locs body = body s := by
  simp [State.unmarkedOr, h]

/-- Where the course has no access to the bytes, a replay has nothing to complete first. -/
theorem finishBefore_idle {uid bound : Nat} {locs : List Nat} (h : s.courseBusy uid locs = []) :
    s.finishBefore uid bound locs = s := by
  simp [State.finishBefore, h]

/-- Writing stash bytes of a wall without bound regions leaves memory and the writes in flight as they are. -/
theorem stashPut_unbound {age : Nat} {cells : List (Nat × Byte)} {put : State → List (Nat × Byte) → Nat → State}
    (hw : s.wall? age = some w) (h : w.regions = []) : ∃ f, s.stashPut age cells put = s.updWall age f := by
  have t : ∀ o, w.target o = .stash o := fun o => by simp [Wall.target, regionOf_unbound h]
  have n : (cells.filterMap fun _ => (none : Option (Nat × Nat × Byte))) = [] := by simp
  simp only [State.stashPut, hw, t, n, List.map_nil]
  exact ⟨_, rfl⟩

end Sys2Proof.Machine
end

