-- ==== Sys2Proof/Laws/Encode.lean ====
section
/-!
SUPPORT. The fields of a packed word (R113): each field that the decoder reads is the one the encoder packed. And the codes
of the field values: each reads back.
-/

set_option Elab.async false

namespace Sys2Proof

theorem ext_lo {m n k l : Nat} (x : BitVec m) (y : BitVec n) (h : k + l ≤ n) :
    BitVec.extractLsb' k l (x ++ y) = BitVec.extractLsb' k l y := by
  ext i hi
  simp [BitVec.getLsbD_append, show k + i < n by omega]

theorem ext_hi {m n k l : Nat} (x : BitVec m) (y : BitVec n) (h : n ≤ k) :
    BitVec.extractLsb' k l (x ++ y) = BitVec.extractLsb' (k - n) l x := by
  ext i hi
  simp [BitVec.getLsbD_append, show ¬ k + i < n by omega, show k + i - n = k - n + i by omega]

@[simp] theorem fCls_packR (c : BitVec 5) (op : BitVec 6) (d a b : Reg) :
    fCls (packR c op d a b) = c := by
  show BitVec.extractLsb' 27 5 (c ++ op ++ d ++ a ++ b) = _
  refine Eq.trans (ext_hi _ _ (by decide)) ?_
  refine Eq.trans (ext_hi _ _ (by decide)) ?_
  refine Eq.trans (ext_hi _ _ (by decide)) ?_
  refine Eq.trans (ext_hi _ _ (by decide)) ?_
  simp

@[simp] theorem fCls_packI (c : BitVec 5) (op : BitVec 3) (d a : Reg) (m : BitVec 10) :
    fCls (packI c op d a m) = c := by
  show BitVec.extractLsb' 27 5 (c ++ op ++ d ++ a ++ m) = _
  refine Eq.trans (ext_hi _ _ (by decide)) ?_
  refine Eq.trans (ext_hi _ _ (by decide)) ?_
  refine Eq.trans (ext_hi _ _ (by decide)) ?_
  refine Eq.trans (ext_hi _ _ (by decide)) ?_
  simp

@[simp] theorem fCls_packM (c : BitVec 5) (op : BitVec 4) (d a : Reg) (o : BitVec 9) :
    fCls (packM c op d a o) = c := by
  show BitVec.extractLsb' 27 5 (c ++ op ++ d ++ a ++ o) = _
  refine Eq.trans (ext_hi _ _ (by decide)) ?_
  refine Eq.trans (ext_hi _ _ (by decide)) ?_
  refine Eq.trans (ext_hi _ _ (by decide)) ?_
  refine Eq.trans (ext_hi _ _ (by decide)) ?_
  simp

@[simp] theorem fCls_packJ (op : BitVec 3) (u : BitVec 2) (q : BitVec 4) (o : BitVec 18) :
    fCls (packJ op u q o) = 2 := by
  show BitVec.extractLsb' 27 5 ((0x02 : BitVec 5) ++ op ++ u ++ q ++ o) = _
  refine Eq.trans (ext_hi _ _ (by decide)) ?_
  refine Eq.trans (ext_hi _ _ (by decide)) ?_
  refine Eq.trans (ext_hi _ _ (by decide)) ?_
  refine Eq.trans (ext_hi _ _ (by decide)) ?_
  simp

@[simp] theorem fCls_packL (op : BitVec 3) (d : Reg) (o : BitVec 17) :
    fCls (packL op d o) = 3 := by
  show BitVec.extractLsb' 27 5 ((0x03 : BitVec 5) ++ op ++ d ++ o) = _
  refine Eq.trans (ext_hi _ _ (by decide)) ?_
  refine Eq.trans (ext_hi _ _ (by decide)) ?_
  refine Eq.trans (ext_hi _ _ (by decide)) ?_
  simp

@[simp] theorem fCls_packU (op : BitVec 1) (d : Reg) (m : BitVec 19) :
    fCls (packU op d m) = 7 := by
  show BitVec.extractLsb' 27 5 ((0x07 : BitVec 5) ++ op ++ d ++ m) = _
  refine Eq.trans (ext_hi _ _ (by decide)) ?_
  refine Eq.trans (ext_hi _ _ (by decide)) ?_
  refine Eq.trans (ext_hi _ _ (by decide)) ?_
  simp

@[simp] theorem fCls_packW (c : BitVec 5) (op : BitVec 6) (m : BitVec 21) :
    fCls (packW c op m) = c := by
  show BitVec.extractLsb' 27 5 (c ++ op ++ m) = _
  refine Eq.trans (ext_hi _ _ (by decide)) ?_
  refine Eq.trans (ext_hi _ _ (by decide)) ?_
  simp

@[simp] theorem rOp_packR (c : BitVec 5) (op : BitVec 6) (d a b : Reg) :
    rOp (packR c op d a b) = op := by
  show BitVec.extractLsb' 21 6 (c ++ op ++ d ++ a ++ b) = _
  refine Eq.trans (ext_hi _ _ (by decide)) ?_
  refine Eq.trans (ext_hi _ _ (by decide)) ?_
  refine Eq.trans (ext_hi _ _ (by decide)) ?_
  refine Eq.trans (ext_lo _ _ (by decide)) ?_
  simp

@[simp] theorem rD_packR (c : BitVec 5) (op : BitVec 6) (d a b : Reg) :
    rD (packR c op d a b) = d := by
  show BitVec.extractLsb' 14 7 (c ++ op ++ d ++ a ++ b) = _
  refine Eq.trans (ext_hi _ _ (by decide)) ?_
  refine Eq.trans (ext_hi _ _ (by decide)) ?_
  refine Eq.trans (ext_lo _ _ (by decide)) ?_
  simp

@[simp] theorem rA_packR (c : BitVec 5) (op : BitVec 6) (d a b : Reg) :
    rA (packR c op d a b) = a := by
  show BitVec.extractLsb' 7 7 (c ++ op ++ d ++ a ++ b) = _
  refine Eq.trans (ext_hi _ _ (by decide)) ?_
  refine Eq.trans (ext_lo _ _ (by decide)) ?_
  simp

@[simp] theorem rB_packR (c : BitVec 5) (op : BitVec 6) (d a b : Reg) :
    rB (packR c op d a b) = b := by
  show BitVec.extractLsb' 0 7 (c ++ op ++ d ++ a ++ b) = _
  refine Eq.trans (ext_lo _ _ (by decide)) ?_
  simp

@[simp] theorem rFn_packR (c : BitVec 5) (op : BitVec 6) (d a b : Reg) :
    rFn (packR c op d a b) = op.extractLsb' 2 4 := by
  show BitVec.extractLsb' 23 4 (c ++ op ++ d ++ a ++ b) = _
  refine Eq.trans (ext_hi _ _ (by decide)) ?_
  refine Eq.trans (ext_hi _ _ (by decide)) ?_
  refine Eq.trans (ext_hi _ _ (by decide)) ?_
  refine Eq.trans (ext_lo _ _ (by decide)) ?_
  simp

@[simp] theorem rTy_packR (c : BitVec 5) (op : BitVec 6) (d a b : Reg) :
    rTy (packR c op d a b) = op.extractLsb' 0 2 := by
  show BitVec.extractLsb' 21 2 (c ++ op ++ d ++ a ++ b) = _
  refine Eq.trans (ext_hi _ _ (by decide)) ?_
  refine Eq.trans (ext_hi _ _ (by decide)) ?_
  refine Eq.trans (ext_hi _ _ (by decide)) ?_
  refine Eq.trans (ext_lo _ _ (by decide)) ?_
  simp

@[simp] theorem rHi_packR (c : BitVec 5) (op : BitVec 6) (d a b : Reg) :
    rHi (packR c op d a b) = op.extractLsb' 3 3 := by
  show BitVec.extractLsb' 24 3 (c ++ op ++ d ++ a ++ b) = _
  refine Eq.trans (ext_hi _ _ (by decide)) ?_
  refine Eq.trans (ext_hi _ _ (by decide)) ?_
  refine Eq.trans (ext_hi _ _ (by decide)) ?_
  refine Eq.trans (ext_lo _ _ (by decide)) ?_
  simp

@[simp] theorem rLo_packR (c : BitVec 5) (op : BitVec 6) (d a b : Reg) :
    rLo (packR c op d a b) = op.extractLsb' 0 3 := by
  show BitVec.extractLsb' 21 3 (c ++ op ++ d ++ a ++ b) = _
  refine Eq.trans (ext_hi _ _ (by decide)) ?_
  refine Eq.trans (ext_hi _ _ (by decide)) ?_
  refine Eq.trans (ext_hi _ _ (by decide)) ?_
  refine Eq.trans (ext_lo _ _ (by decide)) ?_
  simp

@[simp] theorem rHi_packI (c : BitVec 5) (op : BitVec 3) (d a : Reg) (m : BitVec 10) :
    rHi (packI c op d a m) = op := by
  show BitVec.extractLsb' 24 3 (c ++ op ++ d ++ a ++ m) = _
  refine Eq.trans (ext_hi _ _ (by decide)) ?_
  refine Eq.trans (ext_hi _ _ (by decide)) ?_
  refine Eq.trans (ext_hi _ _ (by decide)) ?_
  refine Eq.trans (ext_lo _ _ (by decide)) ?_
  simp

@[simp] theorem iD_packI (c : BitVec 5) (op : BitVec 3) (d a : Reg) (m : BitVec 10) :
    iD (packI c op d a m) = d := by
  show BitVec.extractLsb' 17 7 (c ++ op ++ d ++ a ++ m) = _
  refine Eq.trans (ext_hi _ _ (by decide)) ?_
  refine Eq.trans (ext_hi _ _ (by decide)) ?_
  refine Eq.trans (ext_lo _ _ (by decide)) ?_
  simp

@[simp] theorem iA_packI (c : BitVec 5) (op : BitVec 3) (d a : Reg) (m : BitVec 10) :
    iA (packI c op d a m) = a := by
  show BitVec.extractLsb' 10 7 (c ++ op ++ d ++ a ++ m) = _
  refine Eq.trans (ext_hi _ _ (by decide)) ?_
  refine Eq.trans (ext_lo _ _ (by decide)) ?_
  simp

@[simp] theorem iImm_packI (c : BitVec 5) (op : BitVec 3) (d a : Reg) (m : BitVec 10) :
    iImm (packI c op d a m) = m := by
  show BitVec.extractLsb' 0 10 (c ++ op ++ d ++ a ++ m) = _
  refine Eq.trans (ext_lo _ _ (by decide)) ?_
  simp

@[simp] theorem mOp_packM (c : BitVec 5) (op : BitVec 4) (d a : Reg) (o : BitVec 9) :
    mOp (packM c op d a o) = op := by
  show BitVec.extractLsb' 23 4 (c ++ op ++ d ++ a ++ o) = _
  refine Eq.trans (ext_hi _ _ (by decide)) ?_
  refine Eq.trans (ext_hi _ _ (by decide)) ?_
  refine Eq.trans (ext_hi _ _ (by decide)) ?_
  refine Eq.trans (ext_lo _ _ (by decide)) ?_
  simp

@[simp] theorem mD_packM (c : BitVec 5) (op : BitVec 4) (d a : Reg) (o : BitVec 9) :
    mD (packM c op d a o) = d := by
  show BitVec.extractLsb' 16 7 (c ++ op ++ d ++ a ++ o) = _
  refine Eq.trans (ext_hi _ _ (by decide)) ?_
  refine Eq.trans (ext_hi _ _ (by decide)) ?_
  refine Eq.trans (ext_lo _ _ (by decide)) ?_
  simp

@[simp] theorem mA_packM (c : BitVec 5) (op : BitVec 4) (d a : Reg) (o : BitVec 9) :
    mA (packM c op d a o) = a := by
  show BitVec.extractLsb' 9 7 (c ++ op ++ d ++ a ++ o) = _
  refine Eq.trans (ext_hi _ _ (by decide)) ?_
  refine Eq.trans (ext_lo _ _ (by decide)) ?_
  simp

@[simp] theorem mOff_packM (c : BitVec 5) (op : BitVec 4) (d a : Reg) (o : BitVec 9) :
    mOff (packM c op d a o) = o := by
  show BitVec.extractLsb' 0 9 (c ++ op ++ d ++ a ++ o) = _
  refine Eq.trans (ext_lo _ _ (by decide)) ?_
  simp

@[simp] theorem rHi_packJ (op : BitVec 3) (u : BitVec 2) (q : BitVec 4) (o : BitVec 18) :
    rHi (packJ op u q o) = op := by
  show BitVec.extractLsb' 24 3 ((0x02 : BitVec 5) ++ op ++ u ++ q ++ o) = _
  refine Eq.trans (ext_hi _ _ (by decide)) ?_
  refine Eq.trans (ext_hi _ _ (by decide)) ?_
  refine Eq.trans (ext_hi _ _ (by decide)) ?_
  refine Eq.trans (ext_lo _ _ (by decide)) ?_
  simp

@[simp] theorem jUk_packJ (op : BitVec 3) (u : BitVec 2) (q : BitVec 4) (o : BitVec 18) :
    jUk (packJ op u q o) = u := by
  show BitVec.extractLsb' 22 2 ((0x02 : BitVec 5) ++ op ++ u ++ q ++ o) = _
  refine Eq.trans (ext_hi _ _ (by decide)) ?_
  refine Eq.trans (ext_hi _ _ (by decide)) ?_
  refine Eq.trans (ext_lo _ _ (by decide)) ?_
  simp

@[simp] theorem jQ_packJ (op : BitVec 3) (u : BitVec 2) (q : BitVec 4) (o : BitVec 18) :
    jQ (packJ op u q o) = q := by
  show BitVec.extractLsb' 18 4 ((0x02 : BitVec 5) ++ op ++ u ++ q ++ o) = _
  refine Eq.trans (ext_hi _ _ (by decide)) ?_
  refine Eq.trans (ext_lo _ _ (by decide)) ?_
  simp

@[simp] theorem jOff_packJ (op : BitVec 3) (u : BitVec 2) (q : BitVec 4) (o : BitVec 18) :
    jOff (packJ op u q o) = o := by
  show BitVec.extractLsb' 0 18 ((0x02 : BitVec 5) ++ op ++ u ++ q ++ o) = _
  refine Eq.trans (ext_lo _ _ (by decide)) ?_
  simp

@[simp] theorem rHi_packL (op : BitVec 3) (d : Reg) (o : BitVec 17) :
    rHi (packL op d o) = op := by
  show BitVec.extractLsb' 24 3 ((0x03 : BitVec 5) ++ op ++ d ++ o) = _
  refine Eq.trans (ext_hi _ _ (by decide)) ?_
  refine Eq.trans (ext_hi _ _ (by decide)) ?_
  refine Eq.trans (ext_lo _ _ (by decide)) ?_
  simp

@[simp] theorem iD_packL (op : BitVec 3) (d : Reg) (o : BitVec 17) :
    iD (packL op d o) = d := by
  show BitVec.extractLsb' 17 7 ((0x03 : BitVec 5) ++ op ++ d ++ o) = _
  refine Eq.trans (ext_hi _ _ (by decide)) ?_
  refine Eq.trans (ext_lo _ _ (by decide)) ?_
  simp

@[simp] theorem lOff_packL (op : BitVec 3) (d : Reg) (o : BitVec 17) :
    lOff (packL op d o) = o := by
  show BitVec.extractLsb' 0 17 ((0x03 : BitVec 5) ++ op ++ d ++ o) = _
  refine Eq.trans (ext_lo _ _ (by decide)) ?_
  simp

@[simp] theorem uOp_packU (op : BitVec 1) (d : Reg) (m : BitVec 19) :
    uOp (packU op d m) = op := by
  show BitVec.extractLsb' 26 1 ((0x07 : BitVec 5) ++ op ++ d ++ m) = _
  refine Eq.trans (ext_hi _ _ (by decide)) ?_
  refine Eq.trans (ext_hi _ _ (by decide)) ?_
  refine Eq.trans (ext_lo _ _ (by decide)) ?_
  simp

@[simp] theorem uD_packU (op : BitVec 1) (d : Reg) (m : BitVec 19) :
    uD (packU op d m) = d := by
  show BitVec.extractLsb' 19 7 ((0x07 : BitVec 5) ++ op ++ d ++ m) = _
  refine Eq.trans (ext_hi _ _ (by decide)) ?_
  refine Eq.trans (ext_lo _ _ (by decide)) ?_
  simp

@[simp] theorem uImm_packU (op : BitVec 1) (d : Reg) (m : BitVec 19) :
    uImm (packU op d m) = m := by
  show BitVec.extractLsb' 0 19 ((0x07 : BitVec 5) ++ op ++ d ++ m) = _
  refine Eq.trans (ext_lo _ _ (by decide)) ?_
  simp

@[simp] theorem rOp_packW (c : BitVec 5) (op : BitVec 6) (m : BitVec 21) :
    rOp (packW c op m) = op := by
  show BitVec.extractLsb' 21 6 (c ++ op ++ m) = _
  refine Eq.trans (ext_hi _ _ (by decide)) ?_
  refine Eq.trans (ext_lo _ _ (by decide)) ?_
  simp

@[simp] theorem wImm_packW (c : BitVec 5) (op : BitVec 6) (m : BitVec 21) :
    wImm (packW c op m) = m := by
  show BitVec.extractLsb' 0 21 (c ++ op ++ m) = _
  refine Eq.trans (ext_lo _ _ (by decide)) ?_
  simp

@[simp] theorem rHi_packW (c : BitVec 5) (op : BitVec 6) (m : BitVec 21) :
    rHi (packW c op m) = op.extractLsb' 3 3 := by
  show BitVec.extractLsb' 24 3 (c ++ op ++ m) = _
  refine Eq.trans (ext_hi _ _ (by decide)) ?_
  refine Eq.trans (ext_lo _ _ (by decide)) ?_
  simp

@[simp] theorem rLo_packW (c : BitVec 5) (op : BitVec 6) (m : BitVec 21) :
    rLo (packW c op m) = op.extractLsb' 0 3 := by
  show BitVec.extractLsb' 21 3 (c ++ op ++ m) = _
  refine Eq.trans (ext_hi _ _ (by decide)) ?_
  refine Eq.trans (ext_lo _ _ (by decide)) ?_
  simp

@[simp] theorem Uk.ofBits_bits (x : Uk) : Uk.ofBits x.bits = some x := by cases x <;> rfl

@[simp] theorem Cond.ofBits_bits (x : Cond) : Cond.ofBits x.bits = some x := by cases x <;> rfl

@[simp] theorem ICond.ofBits_bits (x : ICond) : ICond.ofBits x.bits = some x := by cases x <;> rfl

@[simp] theorem Sc.ofBits_bits (x : Sc) : Sc.ofBits x.bits = some x := by cases x <;> rfl

@[simp] theorem Ord4.ofBits_bits (x : Ord4) : Ord4.ofBits x.bits = some x := by cases x <;> rfl

@[simp] theorem FKind.ofBits_bits (x : FKind) : FKind.ofBits x.bits = some x := by cases x <;> rfl

@[simp] theorem Vt.ofBits_bits (x : Vt) : Vt.ofBits x.bits = some x := by cases x <;> rfl

@[simp] theorem Seg.ofBits_bits (x : Seg) : Seg.ofBits x.bits = some x := by cases x <;> rfl

@[simp] theorem STy.ofBits_bits (x : STy) : STy.ofBits x.bits = some x := by cases x <;> rfl

@[simp] theorem VTy.ofBits_bits (x : VTy) : VTy.ofBits x.bits = some x := by cases x <;> rfl

@[simp] theorem FTy.ofBits_bits (x : FTy) : FTy.ofBits x.bits = some x := by cases x <;> rfl

@[simp] theorem MSz.ofBits_bits (x : MSz) : MSz.ofBits x.bits = some x := by cases x <;> rfl

@[simp] theorem AtTy.ofBits_bits (x : AtTy) : AtTy.ofBits x.bits = some x := by cases x <;> rfl

@[simp] theorem AtMm.ofBits_bits (x : AtMm) : AtMm.ofBits x.bits = some x := by cases x <;> rfl

@[simp] theorem Lvl.ofBits_bits (x : Lvl) : Lvl.ofBits x.bits = some x := by cases x <;> rfl

@[simp] theorem LMode.ofBits_bits (x : LMode) : LMode.ofBits x.bits = some x := by cases x <;> rfl

@[simp] theorem Rnd.ofBits_bits (x : Rnd) : Rnd.ofBits x.bits = some x := by cases x <;> rfl

theorem ext_packR (c : BitVec 5) (op : BitVec 6) (d a b : Reg) (k l : Nat) (h : k + l ≤ 7) :
    (packR c op d a b).extractLsb' k l = b.extractLsb' k l :=
  ext_lo _ _ h

theorem bit_packR (c : BitVec 5) (op : BitVec 6) (d a b : Reg) (k : Nat) (h : k < 7) :
    (packR c op d a b).getLsbD k = b.getLsbD k := by
  show BitVec.getLsbD ((c ++ op ++ d ++ a) ++ b) k = _
  rw [BitVec.getLsbD_append, if_pos h]

theorem ext_packI (c : BitVec 5) (op : BitVec 3) (d a : Reg) (m : BitVec 10) (k l : Nat) (h : k + l ≤ 10) :
    (packI c op d a m).extractLsb' k l = m.extractLsb' k l :=
  ext_lo _ _ h

theorem bit_packI (c : BitVec 5) (op : BitVec 3) (d a : Reg) (m : BitVec 10) (k : Nat) (h : k < 10) :
    (packI c op d a m).getLsbD k = m.getLsbD k := by
  show BitVec.getLsbD (c ++ op ++ d ++ a ++ m) k = _
  rw [BitVec.getLsbD_append, if_pos h]

theorem ext_packW (c : BitVec 5) (op : BitVec 6) (m : BitVec 21) (k l : Nat) (h : k + l ≤ 21) :
    (packW c op m).extractLsb' k l = m.extractLsb' k l :=
  ext_lo _ _ h

theorem bit_packW (c : BitVec 5) (op : BitVec 6) (m : BitVec 21) (k : Nat) (h : k < 21) :
    (packW c op m).getLsbD k = m.getLsbD k := by
  show BitVec.getLsbD (c ++ op ++ m) k = _
  rw [BitVec.getLsbD_append, if_pos h]

@[simp] theorem opFn_2_4 (f : BitVec 4) (t : BitVec 2) : @BitVec.extractLsb' 6 2 4 (opFn f t) = f := by
  show BitVec.extractLsb' 2 4 (f ++ t) = _
  refine Eq.trans (ext_hi _ _ (by decide)) ?_
  simp

@[simp] theorem opFn_0_2 (f : BitVec 4) (t : BitVec 2) : @BitVec.extractLsb' 6 0 2 (opFn f t) = t := by
  show BitVec.extractLsb' 0 2 (f ++ t) = _
  refine Eq.trans (ext_lo _ _ (by decide)) ?_
  simp

@[simp] theorem opHL_3_3 (h l : BitVec 3) : @BitVec.extractLsb' 6 3 3 (opHL h l) = h := by
  show BitVec.extractLsb' 3 3 (h ++ l) = _
  refine Eq.trans (ext_hi _ _ (by decide)) ?_
  simp

@[simp] theorem opHL_0_3 (h l : BitVec 3) : @BitVec.extractLsb' 6 0 3 (opHL h l) = l := by
  show BitVec.extractLsb' 0 3 (h ++ l) = _
  refine Eq.trans (ext_lo _ _ (by decide)) ?_
  simp

@[simp] theorem modSeg_4_3 (t : Vt) (g : Seg) : @BitVec.extractLsb' 7 4 3 (modSeg t g) = t.bits := by
  show BitVec.extractLsb' 4 3 (t.bits ++ (0 : BitVec 1) ++ g.bits) = _
  refine Eq.trans (ext_hi _ _ (by decide)) ?_
  refine Eq.trans (ext_hi _ _ (by decide)) ?_
  simp

@[simp] theorem modSeg_3_1 (t : Vt) (g : Seg) : @BitVec.extractLsb' 7 3 1 (modSeg t g) = 0 := by
  show BitVec.extractLsb' 3 1 (t.bits ++ (0 : BitVec 1) ++ g.bits) = _
  refine Eq.trans (ext_hi _ _ (by decide)) ?_
  refine Eq.trans (ext_lo _ _ (by decide)) ?_
  simp

@[simp] theorem modSeg_0_3 (t : Vt) (g : Seg) : @BitVec.extractLsb' 7 0 3 (modSeg t g) = g.bits := by
  show BitVec.extractLsb' 0 3 (t.bits ++ (0 : BitVec 1) ++ g.bits) = _
  refine Eq.trans (ext_lo _ _ (by decide)) ?_
  simp

@[simp] theorem modAt_4_3 (sc : Sc) (o : Ord4) : @BitVec.extractLsb' 7 4 3 (modAt sc o) = sc.bits := by
  show BitVec.extractLsb' 4 3 (sc.bits ++ o.bits ++ (0 : BitVec 2)) = _
  refine Eq.trans (ext_hi _ _ (by decide)) ?_
  refine Eq.trans (ext_hi _ _ (by decide)) ?_
  simp

@[simp] theorem modAt_2_2 (sc : Sc) (o : Ord4) : @BitVec.extractLsb' 7 2 2 (modAt sc o) = o.bits := by
  show BitVec.extractLsb' 2 2 (sc.bits ++ o.bits ++ (0 : BitVec 2)) = _
  refine Eq.trans (ext_hi _ _ (by decide)) ?_
  refine Eq.trans (ext_lo _ _ (by decide)) ?_
  simp

@[simp] theorem modAt_0_2 (sc : Sc) (o : Ord4) : @BitVec.extractLsb' 7 0 2 (modAt sc o) = 0 := by
  show BitVec.extractLsb' 0 2 (sc.bits ++ o.bits ++ (0 : BitVec 2)) = _
  refine Eq.trans (ext_lo _ _ (by decide)) ?_
  simp

@[simp] theorem modLk_6_1 (t : Bool) (l : Lvl) (m : BitVec 3) : @BitVec.extractLsb' 7 6 1 (modLk t l m) = 0 := by
  show BitVec.extractLsb' 6 1 ((0 : BitVec 1) ++ flag t ++ l.bits ++ m) = _
  refine Eq.trans (ext_hi _ _ (by decide)) ?_
  refine Eq.trans (ext_hi _ _ (by decide)) ?_
  refine Eq.trans (ext_hi _ _ (by decide)) ?_
  simp

@[simp] theorem modLk_5_1 (t : Bool) (l : Lvl) (m : BitVec 3) : @BitVec.extractLsb' 7 5 1 (modLk t l m) = flag t := by
  show BitVec.extractLsb' 5 1 ((0 : BitVec 1) ++ flag t ++ l.bits ++ m) = _
  refine Eq.trans (ext_hi _ _ (by decide)) ?_
  refine Eq.trans (ext_hi _ _ (by decide)) ?_
  refine Eq.trans (ext_lo _ _ (by decide)) ?_
  simp

@[simp] theorem modLk_3_2 (t : Bool) (l : Lvl) (m : BitVec 3) : @BitVec.extractLsb' 7 3 2 (modLk t l m) = l.bits := by
  show BitVec.extractLsb' 3 2 ((0 : BitVec 1) ++ flag t ++ l.bits ++ m) = _
  refine Eq.trans (ext_hi _ _ (by decide)) ?_
  refine Eq.trans (ext_lo _ _ (by decide)) ?_
  simp

@[simp] theorem modLk_0_3 (t : Bool) (l : Lvl) (m : BitVec 3) : @BitVec.extractLsb' 7 0 3 (modLk t l m) = m := by
  show BitVec.extractLsb' 0 3 ((0 : BitVec 1) ++ flag t ++ l.bits ++ m) = _
  refine Eq.trans (ext_lo _ _ (by decide)) ?_
  simp

@[simp] theorem modCvt_3_3 (h : Bool) (a b : Vt) : @BitVec.extractLsb' 7 3 3 (modCvt h a b) = a.bits := by
  show BitVec.extractLsb' 3 3 (flag h ++ a.bits ++ b.bits) = _
  refine Eq.trans (ext_hi _ _ (by decide)) ?_
  refine Eq.trans (ext_lo _ _ (by decide)) ?_
  simp

@[simp] theorem modCvt_0_3 (h : Bool) (a b : Vt) : @BitVec.extractLsb' 7 0 3 (modCvt h a b) = b.bits := by
  show BitVec.extractLsb' 0 3 (flag h ++ a.bits ++ b.bits) = _
  refine Eq.trans (ext_lo _ _ (by decide)) ?_
  simp

@[simp] theorem immCmpi_7_3 (c : ICond) (u : Bool) (m : BitVec 6) : @BitVec.extractLsb' 10 7 3 (immCmpi c u m) = c.bits := by
  show BitVec.extractLsb' 7 3 (c.bits ++ flag u ++ m) = _
  refine Eq.trans (ext_hi _ _ (by decide)) ?_
  refine Eq.trans (ext_hi _ _ (by decide)) ?_
  simp

@[simp] theorem immCmpi_0_6 (c : ICond) (u : Bool) (m : BitVec 6) : @BitVec.extractLsb' 10 0 6 (immCmpi c u m) = m := by
  show BitVec.extractLsb' 0 6 (c.bits ++ flag u ++ m) = _
  refine Eq.trans (ext_lo _ _ (by decide)) ?_
  simp

@[simp] theorem immBar_12_9 (r : Reg) (o : Bool) (b : BitVec 4) : @BitVec.extractLsb' 21 12 9 (immBar r o b) = 0 := by
  show BitVec.extractLsb' 12 9 ((0 : BitVec 9) ++ r ++ flag o ++ b) = _
  refine Eq.trans (ext_hi _ _ (by decide)) ?_
  refine Eq.trans (ext_hi _ _ (by decide)) ?_
  refine Eq.trans (ext_hi _ _ (by decide)) ?_
  simp

@[simp] theorem immBar_5_7 (r : Reg) (o : Bool) (b : BitVec 4) : @BitVec.extractLsb' 21 5 7 (immBar r o b) = r := by
  show BitVec.extractLsb' 5 7 ((0 : BitVec 9) ++ r ++ flag o ++ b) = _
  refine Eq.trans (ext_hi _ _ (by decide)) ?_
  refine Eq.trans (ext_hi _ _ (by decide)) ?_
  refine Eq.trans (ext_lo _ _ (by decide)) ?_
  simp

@[simp] theorem immBar_0_4 (r : Reg) (o : Bool) (b : BitVec 4) : @BitVec.extractLsb' 21 0 4 (immBar r o b) = b := by
  show BitVec.extractLsb' 0 4 ((0 : BitVec 9) ++ r ++ flag o ++ b) = _
  refine Eq.trans (ext_lo _ _ (by decide)) ?_
  simp

@[simp] theorem ctlWin_12_9 (a b : BitVec 6) : @BitVec.extractLsb' 21 12 9 ((0 : BitVec 9) ++ a ++ b) = 0 := by
  show BitVec.extractLsb' 12 9 ((0 : BitVec 9) ++ a ++ b) = _
  refine Eq.trans (ext_hi _ _ (by decide)) ?_
  refine Eq.trans (ext_hi _ _ (by decide)) ?_
  simp

@[simp] theorem ctlWin_6_6 (a b : BitVec 6) : @BitVec.extractLsb' 21 6 6 ((0 : BitVec 9) ++ a ++ b) = a := by
  show BitVec.extractLsb' 6 6 ((0 : BitVec 9) ++ a ++ b) = _
  refine Eq.trans (ext_hi _ _ (by decide)) ?_
  refine Eq.trans (ext_lo _ _ (by decide)) ?_
  simp

@[simp] theorem ctlWin_0_6 (a b : BitVec 6) : @BitVec.extractLsb' 21 0 6 ((0 : BitVec 9) ++ a ++ b) = b := by
  show BitVec.extractLsb' 0 6 ((0 : BitVec 9) ++ a ++ b) = _
  refine Eq.trans (ext_lo _ _ (by decide)) ?_
  simp

@[simp] theorem fence_5_16 (a : BitVec 3) (b : BitVec 2) : @BitVec.extractLsb' 21 5 16 ((0 : BitVec 16) ++ a ++ b) = 0 := by
  show BitVec.extractLsb' 5 16 ((0 : BitVec 16) ++ a ++ b) = _
  refine Eq.trans (ext_hi _ _ (by decide)) ?_
  refine Eq.trans (ext_hi _ _ (by decide)) ?_
  simp

@[simp] theorem fence_2_3 (a : BitVec 3) (b : BitVec 2) : @BitVec.extractLsb' 21 2 3 ((0 : BitVec 16) ++ a ++ b) = a := by
  show BitVec.extractLsb' 2 3 ((0 : BitVec 16) ++ a ++ b) = _
  refine Eq.trans (ext_hi _ _ (by decide)) ?_
  refine Eq.trans (ext_lo _ _ (by decide)) ?_
  simp

@[simp] theorem fence_0_2 (a : BitVec 3) (b : BitVec 2) : @BitVec.extractLsb' 21 0 2 ((0 : BitVec 16) ++ a ++ b) = b := by
  show BitVec.extractLsb' 0 2 ((0 : BitVec 16) ++ a ++ b) = _
  refine Eq.trans (ext_lo _ _ (by decide)) ?_
  simp

@[simp] theorem waitc_9_12 (a b c : BitVec 3) : @BitVec.extractLsb' 21 9 12 ((0 : BitVec 12) ++ a ++ b ++ c) = 0 := by
  show BitVec.extractLsb' 9 12 ((0 : BitVec 12) ++ a ++ b ++ c) = _
  refine Eq.trans (ext_hi _ _ (by decide)) ?_
  refine Eq.trans (ext_hi _ _ (by decide)) ?_
  refine Eq.trans (ext_hi _ _ (by decide)) ?_
  simp

@[simp] theorem waitc_6_3 (a b c : BitVec 3) : @BitVec.extractLsb' 21 6 3 ((0 : BitVec 12) ++ a ++ b ++ c) = a := by
  show BitVec.extractLsb' 6 3 ((0 : BitVec 12) ++ a ++ b ++ c) = _
  refine Eq.trans (ext_hi _ _ (by decide)) ?_
  refine Eq.trans (ext_hi _ _ (by decide)) ?_
  refine Eq.trans (ext_lo _ _ (by decide)) ?_
  simp

@[simp] theorem waitc_3_3 (a b c : BitVec 3) : @BitVec.extractLsb' 21 3 3 ((0 : BitVec 12) ++ a ++ b ++ c) = b := by
  show BitVec.extractLsb' 3 3 ((0 : BitVec 12) ++ a ++ b ++ c) = _
  refine Eq.trans (ext_hi _ _ (by decide)) ?_
  refine Eq.trans (ext_lo _ _ (by decide)) ?_
  simp

@[simp] theorem waitc_0_3 (a b c : BitVec 3) : @BitVec.extractLsb' 21 0 3 ((0 : BitVec 12) ++ a ++ b ++ c) = c := by
  show BitVec.extractLsb' 0 3 ((0 : BitVec 12) ++ a ++ b ++ c) = _
  refine Eq.trans (ext_lo _ _ (by decide)) ?_
  simp

@[simp] theorem exTry_1_6 (t : Bool) : @BitVec.extractLsb' 7 1 6 ((0 : BitVec 6) ++ flag t) = 0 := by
  show BitVec.extractLsb' 1 6 ((0 : BitVec 6) ++ flag t) = _
  refine Eq.trans (ext_hi _ _ (by decide)) ?_
  simp

@[simp] theorem mma_0_3 (u k : Bool) (n : BitVec 3) : @BitVec.extractLsb' 6 0 3 ((1 : BitVec 1) ++ flag u ++ flag k ++ n) = n := by
  show BitVec.extractLsb' 0 3 ((1 : BitVec 1) ++ flag u ++ flag k ++ n) = _
  refine Eq.trans (ext_lo _ _ (by decide)) ?_
  simp

theorem decodeClass_01 {w : Word} (h : fCls w = 0x01) : decodeClass w = decodeSys w := by
  simp [decodeClass, h]

theorem decodeClass_02 {w : Word} (h : fCls w = 0x02) : decodeClass w = decodeBr w := by
  simp [decodeClass, h]

theorem decodeClass_03 {w : Word} (h : fCls w = 0x03) : decodeClass w = decodeJmp w := by
  simp [decodeClass, h]

theorem decodeClass_04 {w : Word} (h : fCls w = 0x04) : decodeClass w = decodeCtl w := by
  simp [decodeClass, h]

theorem decodeClass_05 {w : Word} (h : fCls w = 0x05) : decodeClass w = decodeSi w := by
  simp [decodeClass, h]

theorem decodeClass_06 {w : Word} (h : fCls w = 0x06) : decodeClass w = decodeSii w := by
  simp [decodeClass, h]

theorem decodeClass_07 {w : Word} (h : fCls w = 0x07) : decodeClass w = decodeSlu w := by
  simp [decodeClass, h]

theorem decodeClass_08 {w : Word} (h : fCls w = 0x08) : decodeClass w = decodeVi w := by
  simp [decodeClass, h]

theorem decodeClass_09 {w : Word} (h : fCls w = 0x09) : decodeClass w = decodeVii w := by
  simp [decodeClass, h]

theorem decodeClass_0A {w : Word} (h : fCls w = 0x0A) : decodeClass w = decodeVf w := by
  simp [decodeClass, h]

theorem decodeClass_0B {w : Word} (h : fCls w = 0x0B) : decodeClass w = decodeVd w := by
  simp [decodeClass, h]

theorem decodeClass_0C {w : Word} (h : fCls w = 0x0C) : decodeClass w = decodeVx w := by
  simp [decodeClass, h]

theorem decodeClass_0D {w : Word} (h : fCls w = 0x0D) : decodeClass w = decodeVc w := by
  simp [decodeClass, h]

theorem decodeClass_0E {w : Word} (h : fCls w = 0x0E) : decodeClass w = decodeLd w := by
  simp [decodeClass, h]

theorem decodeClass_0F {w : Word} (h : fCls w = 0x0F) : decodeClass w = decodeSt w := by
  simp [decodeClass, h]

theorem decodeClass_10 {w : Word} (h : fCls w = 0x10) : decodeClass w = decodeLdx w := by
  simp [decodeClass, h]

theorem decodeClass_11 {w : Word} (h : fCls w = 0x11) : decodeClass w = decodeStx w := by
  simp [decodeClass, h]

theorem decodeClass_12 {w : Word} (h : fCls w = 0x12) : decodeClass w = decodeAt w := by
  simp [decodeClass, h]

theorem decodeClass_13 {w : Word} (h : fCls w = 0x13) : decodeClass w = decodeSyn w := by
  simp [decodeClass, h]

theorem decodeClass_14 {w : Word} (h : fCls w = 0x14) : decodeClass w = decodeWq w := by
  simp [decodeClass, h]

theorem decodeClass_15 {w : Word} (h : fCls w = 0x15) : decodeClass w = decodeTl w := by
  simp [decodeClass, h]

theorem decodeClass_16 {w : Word} (h : fCls w = 0x16) : decodeClass w = decodeCpy w := by
  simp [decodeClass, h]

theorem decodeClass_17 {w : Word} (h : fCls w = 0x17) : decodeClass w = decodeKv w := by
  simp [decodeClass, h]

theorem decodeClass_18 {w : Word} (h : fCls w = 0x18) : decodeClass w = decodeXf w := by
  simp [decodeClass, h]

theorem decodeClass_19 {w : Word} (h : fCls w = 0x19) : decodeClass w = decodeLk w := by
  simp [decodeClass, h]

theorem decodeClass_1A {w : Word} (h : fCls w = 0x1A) : decodeClass w = decodeEx w := by
  simp [decodeClass, h]

@[simp] theorem withVal_some {α : Type} (x : α) (k : α → Except Reject Instr) : withVal (some x) k = k x := rfl
@[simp] theorem ifZero_zero {n : Nat} (i : Except Reject Instr) : ifZero (0#n) i = i := by simp [ifZero]
@[simp] theorem ifType_true (i : Instr) : ifType true i = .ok i := rfl

theorem immCmpi_bit (c : ICond) (u : Bool) (m : BitVec 6) : @BitVec.getLsbD 10 (immCmpi c u m) 6 = u := by
  show BitVec.getLsbD (c.bits ++ flag u ++ m) 6 = u
  repeat first
    | rw [BitVec.getLsbD_append, if_neg (by decide)]
    | rw [BitVec.getLsbD_append, if_pos (by decide)]
  cases u <;> rfl

theorem modCvt_bit (h : Bool) (a b : Vt) : @BitVec.getLsbD 7 (modCvt h a b) 6 = h := by
  show BitVec.getLsbD (flag h ++ a.bits ++ b.bits) 6 = h
  repeat first
    | rw [BitVec.getLsbD_append, if_neg (by decide)]
    | rw [BitVec.getLsbD_append, if_pos (by decide)]
  cases h <;> rfl

theorem modLk_bit (t : Bool) (l : Lvl) (m : BitVec 3) : @BitVec.getLsbD 7 (modLk t l m) 5 = t := by
  show BitVec.getLsbD ((0 : BitVec 1) ++ flag t ++ l.bits ++ m) 5 = t
  repeat first
    | rw [BitVec.getLsbD_append, if_neg (by decide)]
    | rw [BitVec.getLsbD_append, if_pos (by decide)]
  cases t <;> rfl

theorem immBar_bit (r : Reg) (o : Bool) (b : BitVec 4) : @BitVec.getLsbD 21 (immBar r o b) 4 = o := by
  show BitVec.getLsbD ((0 : BitVec 9) ++ r ++ flag o ++ b) 4 = o
  repeat first
    | rw [BitVec.getLsbD_append, if_neg (by decide)]
    | rw [BitVec.getLsbD_append, if_pos (by decide)]
  cases o <;> rfl

theorem exTry_bit (t : Bool) : @BitVec.getLsbD 7 ((0 : BitVec 6) ++ flag t) 0 = t := by
  show BitVec.getLsbD ((0 : BitVec 6) ++ flag t) 0 = t
  repeat first
    | rw [BitVec.getLsbD_append, if_neg (by decide)]
    | rw [BitVec.getLsbD_append, if_pos (by decide)]
  cases t <;> rfl

theorem opBit_packR (c : BitVec 5) (o : BitVec 6) (d a b : Reg) (k n : Nat) (hn : k = 21 + n) (h : n < 6) :
    (packR c o d a b).getLsbD k = o.getLsbD n := by
  subst hn
  show BitVec.getLsbD (c ++ o ++ d ++ a ++ b) (21 + n) = o.getLsbD n
  rw [BitVec.getLsbD_append, if_neg (by omega), BitVec.getLsbD_append, if_neg (by omega), BitVec.getLsbD_append,
    if_neg (by omega), BitVec.getLsbD_append, if_pos (by omega)]
  congr 1
  omega

theorem mma_bits (u k : Bool) (n : BitVec 3) :
    @BitVec.getLsbD 6 ((1 : BitVec 1) ++ flag u ++ flag k ++ n) 5 = true
      ∧ @BitVec.getLsbD 6 ((1 : BitVec 1) ++ flag u ++ flag k ++ n) 4 = u
      ∧ @BitVec.getLsbD 6 ((1 : BitVec 1) ++ flag u ++ flag k ++ n) 3 = k := by
  refine ⟨?_, ?_, ?_⟩ <;> show BitVec.getLsbD ((1 : BitVec 1) ++ flag u ++ flag k ++ n) _ = _
  · rw [BitVec.getLsbD_append, if_neg (by decide), BitVec.getLsbD_append, if_neg (by decide), BitVec.getLsbD_append,
      if_neg (by decide)]
    rfl
  · rw [BitVec.getLsbD_append, if_neg (by decide), BitVec.getLsbD_append, if_neg (by decide), BitVec.getLsbD_append,
      if_pos (by decide)]
    cases u <;> rfl
  · rw [BitVec.getLsbD_append, if_neg (by decide), BitVec.getLsbD_append, if_pos (by decide)]
    cases k <;> rfl

end Sys2Proof
end

