-- ==== Sys2Proof/Laws/Exec.lean ====
section
/-!
SUPPORT. One lemma for each arm of the dispatch, each true by unfolding.
-/

set_option Elab.async false

namespace Sys2Proof.Machine

variable (s : State)

@[simp] theorem exec_sysBrk (code : BitVec 21) : exec (.sysBrk code) s = execSysBrk code s := rfl
@[simp] theorem exec_sysTrap (code : BitVec 21) : exec (.sysTrap code) s = execSysTrap code s := rfl
@[simp] theorem exec_sysRft : exec (.sysRft) s = execSysRft s := rfl
@[simp] theorem exec_sysCsrr (d : Reg) (b : Reg) : exec (.sysCsrr d b) s = execSysCsrr d b s := rfl
@[simp] theorem exec_sysCsrw (a : Reg) (b : Reg) : exec (.sysCsrw a b) s = execSysCsrw a b s := rfl
@[simp] theorem exec_sysFrinfo (d : Reg) (a : Reg) : exec (.sysFrinfo d a) s = execSysFrinfo d a s := rfl
@[simp] theorem exec_sysRepair (d : Reg) (a : Reg) : exec (.sysRepair d a) s = execSysRepair d a s := rfl
@[simp] theorem exec_brT (uk : Uk) (q : BitVec 4) (off : BitVec 18) : exec (.brT uk q off) s = execBrT uk q off s := rfl
@[simp] theorem exec_brF (uk : Uk) (q : BitVec 4) (off : BitVec 18) : exec (.brF uk q off) s = execBrF uk q off s := rfl
@[simp] theorem exec_brK (q : BitVec 4) (off : BitVec 18) : exec (.brK q off) s = execBrK q off s := rfl
@[simp] theorem exec_brAny (uk : Uk) (q : BitVec 4) (off : BitVec 18) : exec (.brAny uk q off) s = execBrAny uk q off s := rfl
@[simp] theorem exec_brAll (uk : Uk) (q : BitVec 4) (off : BitVec 18) : exec (.brAll uk q off) s = execBrAll uk q off s := rfl
@[simp] theorem exec_brNone (uk : Uk) (q : BitVec 4) (off : BitVec 18) : exec (.brNone uk q off) s = execBrNone uk q off s := rfl
@[simp] theorem exec_jmpJ (off : BitVec 17) : exec (.jmpJ off) s = execJmpJ off s := rfl
@[simp] theorem exec_jmpCall (d : Reg) (off : BitVec 17) : exec (.jmpCall d off) s = execJmpCall d off s := rfl
@[simp] theorem exec_jmpJoinat (off : BitVec 17) : exec (.jmpJoinat off) s = execJmpJoinat off s := rfl
@[simp] theorem exec_jmpJoin : exec (.jmpJoin) s = execJmpJoin s := rfl
@[simp] theorem exec_jmpJx (a : Reg) : exec (.jmpJx a) s = execJmpJx a s := rfl
@[simp] theorem exec_jmpCalx (d : Reg) (a : Reg) : exec (.jmpCalx d a) s = execJmpCalx d a s := rfl
@[simp] theorem exec_jmpRet (a : Reg) : exec (.jmpRet a) s = execJmpRet a s := rfl
@[simp] theorem exec_ctlWin (ws : BitVec 6) (wv : BitVec 6) : exec (.ctlWin ws wv) s = execCtlWin ws wv s := rfl
@[simp] theorem exec_ctlYield : exec (.ctlYield) s = execCtlYield s := rfl
@[simp] theorem exec_ctlExit : exec (.ctlExit) s = execCtlExit s := rfl
@[simp] theorem exec_ctlNop : exec (.ctlNop) s = execCtlNop s := rfl
@[simp] theorem exec_ctlPrio : exec (.ctlPrio) s = execCtlPrio s := rfl
@[simp] theorem exec_siAdd (ty : STy) (d : Reg) (a : Reg) (b : Reg) : exec (.siAdd ty d a b) s = execSiAdd ty d a b s := rfl
@[simp] theorem exec_siSub (ty : STy) (d : Reg) (a : Reg) (b : Reg) : exec (.siSub ty d a b) s = execSiSub ty d a b s := rfl
@[simp] theorem exec_siMul (ty : STy) (d : Reg) (a : Reg) (b : Reg) : exec (.siMul ty d a b) s = execSiMul ty d a b s := rfl
@[simp] theorem exec_siMulh (ty : STy) (d : Reg) (a : Reg) (b : Reg) : exec (.siMulh ty d a b) s = execSiMulh ty d a b s := rfl
@[simp] theorem exec_siDiv (ty : STy) (d : Reg) (a : Reg) (b : Reg) : exec (.siDiv ty d a b) s = execSiDiv ty d a b s := rfl
@[simp] theorem exec_siRem (ty : STy) (d : Reg) (a : Reg) (b : Reg) : exec (.siRem ty d a b) s = execSiRem ty d a b s := rfl
@[simp] theorem exec_siMin (ty : STy) (d : Reg) (a : Reg) (b : Reg) : exec (.siMin ty d a b) s = execSiMin ty d a b s := rfl
@[simp] theorem exec_siMax (ty : STy) (d : Reg) (a : Reg) (b : Reg) : exec (.siMax ty d a b) s = execSiMax ty d a b s := rfl
@[simp] theorem exec_siMov (d : Reg) (a : Reg) : exec (.siMov d a) s = execSiMov d a s := rfl
@[simp] theorem exec_siCmp (cond : Cond) (ty : STy) (d : Reg) (a : Reg) (b : Reg) : exec (.siCmp cond ty d a b) s = execSiCmp cond ty d a b s := rfl
@[simp] theorem exec_siAnd (d : Reg) (a : Reg) (b : Reg) : exec (.siAnd d a b) s = execSiAnd d a b s := rfl
@[simp] theorem exec_siOr (d : Reg) (a : Reg) (b : Reg) : exec (.siOr d a b) s = execSiOr d a b s := rfl
@[simp] theorem exec_siXor (d : Reg) (a : Reg) (b : Reg) : exec (.siXor d a b) s = execSiXor d a b s := rfl
@[simp] theorem exec_siShl (d : Reg) (a : Reg) (b : Reg) : exec (.siShl d a b) s = execSiShl d a b s := rfl
@[simp] theorem exec_siShr (d : Reg) (a : Reg) (b : Reg) : exec (.siShr d a b) s = execSiShr d a b s := rfl
@[simp] theorem exec_siSra (d : Reg) (a : Reg) (b : Reg) : exec (.siSra d a b) s = execSiSra d a b s := rfl
@[simp] theorem exec_siiAddi (d : Reg) (a : Reg) (imm : BitVec 10) : exec (.siiAddi d a imm) s = execSiiAddi d a imm s := rfl
@[simp] theorem exec_siiAndi (d : Reg) (a : Reg) (imm : BitVec 10) : exec (.siiAndi d a imm) s = execSiiAndi d a imm s := rfl
@[simp] theorem exec_siiOri (d : Reg) (a : Reg) (imm : BitVec 10) : exec (.siiOri d a imm) s = execSiiOri d a imm s := rfl
@[simp] theorem exec_siiXori (d : Reg) (a : Reg) (imm : BitVec 10) : exec (.siiXori d a imm) s = execSiiXori d a imm s := rfl
@[simp] theorem exec_siiShli (d : Reg) (a : Reg) (imm : BitVec 10) : exec (.siiShli d a imm) s = execSiiShli d a imm s := rfl
@[simp] theorem exec_siiShri (d : Reg) (a : Reg) (imm : BitVec 10) : exec (.siiShri d a imm) s = execSiiShri d a imm s := rfl
@[simp] theorem exec_siiCmpi (cond : ICond) (uns : Bool) (d : Reg) (a : Reg) (imm : BitVec 6) : exec (.siiCmpi cond uns d a imm) s = execSiiCmpi cond uns d a imm s := rfl
@[simp] theorem exec_siiMovi (d : Reg) (imm : BitVec 10) : exec (.siiMovi d imm) s = execSiiMovi d imm s := rfl
@[simp] theorem exec_sluHi (d : Reg) (imm : BitVec 19) : exec (.sluHi d imm) s = execSluHi d imm s := rfl
@[simp] theorem exec_sluPc (d : Reg) (imm : BitVec 19) : exec (.sluPc d imm) s = execSluPc d imm s := rfl
@[simp] theorem exec_viAdd (ty : VTy) (d : Reg) (a : Reg) (b : Reg) : exec (.viAdd ty d a b) s = execViAdd ty d a b s := rfl
@[simp] theorem exec_viSub (ty : VTy) (d : Reg) (a : Reg) (b : Reg) : exec (.viSub ty d a b) s = execViSub ty d a b s := rfl
@[simp] theorem exec_viMul (ty : VTy) (d : Reg) (a : Reg) (b : Reg) : exec (.viMul ty d a b) s = execViMul ty d a b s := rfl
@[simp] theorem exec_viMulh (ty : VTy) (d : Reg) (a : Reg) (b : Reg) : exec (.viMulh ty d a b) s = execViMulh ty d a b s := rfl
@[simp] theorem exec_viMad (ty : VTy) (d : Reg) (a : Reg) (b : Reg) : exec (.viMad ty d a b) s = execViMad ty d a b s := rfl
@[simp] theorem exec_viDiv (ty : VTy) (d : Reg) (a : Reg) (b : Reg) : exec (.viDiv ty d a b) s = execViDiv ty d a b s := rfl
@[simp] theorem exec_viRem (ty : VTy) (d : Reg) (a : Reg) (b : Reg) : exec (.viRem ty d a b) s = execViRem ty d a b s := rfl
@[simp] theorem exec_viMin (ty : VTy) (d : Reg) (a : Reg) (b : Reg) : exec (.viMin ty d a b) s = execViMin ty d a b s := rfl
@[simp] theorem exec_viMax (ty : VTy) (d : Reg) (a : Reg) (b : Reg) : exec (.viMax ty d a b) s = execViMax ty d a b s := rfl
@[simp] theorem exec_viAbs (ty : VTy) (d : Reg) (a : Reg) : exec (.viAbs ty d a) s = execViAbs ty d a s := rfl
@[simp] theorem exec_viNeg (ty : VTy) (d : Reg) (a : Reg) : exec (.viNeg ty d a) s = execViNeg ty d a s := rfl
@[simp] theorem exec_viClz (d : Reg) (a : Reg) : exec (.viClz d a) s = execViClz d a s := rfl
@[simp] theorem exec_viPopc (d : Reg) (a : Reg) : exec (.viPopc d a) s = execViPopc d a s := rfl
@[simp] theorem exec_viMov (d : Reg) (a : Reg) : exec (.viMov d a) s = execViMov d a s := rfl
@[simp] theorem exec_viCmp (cond : Cond) (ty : VTy) (d : Reg) (a : Reg) (b : Reg) : exec (.viCmp cond ty d a b) s = execViCmp cond ty d a b s := rfl
@[simp] theorem exec_viAnd (d : Reg) (a : Reg) (b : Reg) : exec (.viAnd d a b) s = execViAnd d a b s := rfl
@[simp] theorem exec_viOr (d : Reg) (a : Reg) (b : Reg) : exec (.viOr d a b) s = execViOr d a b s := rfl
@[simp] theorem exec_viXor (d : Reg) (a : Reg) (b : Reg) : exec (.viXor d a b) s = execViXor d a b s := rfl
@[simp] theorem exec_viShl (d : Reg) (a : Reg) (b : Reg) : exec (.viShl d a b) s = execViShl d a b s := rfl
@[simp] theorem exec_viShr (d : Reg) (a : Reg) (b : Reg) : exec (.viShr d a b) s = execViShr d a b s := rfl
@[simp] theorem exec_viSra (d : Reg) (a : Reg) (b : Reg) : exec (.viSra d a b) s = execViSra d a b s := rfl
@[simp] theorem exec_viiAddi (d : Reg) (a : Reg) (imm : BitVec 10) : exec (.viiAddi d a imm) s = execViiAddi d a imm s := rfl
@[simp] theorem exec_viiAndi (d : Reg) (a : Reg) (imm : BitVec 10) : exec (.viiAndi d a imm) s = execViiAndi d a imm s := rfl
@[simp] theorem exec_viiOri (d : Reg) (a : Reg) (imm : BitVec 10) : exec (.viiOri d a imm) s = execViiOri d a imm s := rfl
@[simp] theorem exec_viiXori (d : Reg) (a : Reg) (imm : BitVec 10) : exec (.viiXori d a imm) s = execViiXori d a imm s := rfl
@[simp] theorem exec_viiShli (d : Reg) (a : Reg) (imm : BitVec 10) : exec (.viiShli d a imm) s = execViiShli d a imm s := rfl
@[simp] theorem exec_viiShri (d : Reg) (a : Reg) (imm : BitVec 10) : exec (.viiShri d a imm) s = execViiShri d a imm s := rfl
@[simp] theorem exec_viiCmpi (cond : ICond) (uns : Bool) (d : Reg) (a : Reg) (imm : BitVec 6) : exec (.viiCmpi cond uns d a imm) s = execViiCmpi cond uns d a imm s := rfl
@[simp] theorem exec_viiMovi (d : Reg) (imm : BitVec 10) : exec (.viiMovi d imm) s = execViiMovi d imm s := rfl
@[simp] theorem exec_vfAdd (ty : FTy) (d : Reg) (a : Reg) (b : Reg) : exec (.vfAdd ty d a b) s = execVfAdd ty d a b s := rfl
@[simp] theorem exec_vfSub (ty : FTy) (d : Reg) (a : Reg) (b : Reg) : exec (.vfSub ty d a b) s = execVfSub ty d a b s := rfl
@[simp] theorem exec_vfMul (ty : FTy) (d : Reg) (a : Reg) (b : Reg) : exec (.vfMul ty d a b) s = execVfMul ty d a b s := rfl
@[simp] theorem exec_vfFma (ty : FTy) (d : Reg) (a : Reg) (b : Reg) : exec (.vfFma ty d a b) s = execVfFma ty d a b s := rfl
@[simp] theorem exec_vfDiv (ty : FTy) (d : Reg) (a : Reg) (b : Reg) : exec (.vfDiv ty d a b) s = execVfDiv ty d a b s := rfl
@[simp] theorem exec_vfMin (ty : FTy) (d : Reg) (a : Reg) (b : Reg) : exec (.vfMin ty d a b) s = execVfMin ty d a b s := rfl
@[simp] theorem exec_vfMax (ty : FTy) (d : Reg) (a : Reg) (b : Reg) : exec (.vfMax ty d a b) s = execVfMax ty d a b s := rfl
@[simp] theorem exec_vfAbs (ty : FTy) (d : Reg) (a : Reg) : exec (.vfAbs ty d a) s = execVfAbs ty d a s := rfl
@[simp] theorem exec_vfNeg (ty : FTy) (d : Reg) (a : Reg) : exec (.vfNeg ty d a) s = execVfNeg ty d a s := rfl
@[simp] theorem exec_vfRcp (ty : FTy) (d : Reg) (a : Reg) : exec (.vfRcp ty d a) s = execVfRcp ty d a s := rfl
@[simp] theorem exec_vfRsq (ty : FTy) (d : Reg) (a : Reg) : exec (.vfRsq ty d a) s = execVfRsq ty d a s := rfl
@[simp] theorem exec_vfSqrt (ty : FTy) (d : Reg) (a : Reg) : exec (.vfSqrt ty d a) s = execVfSqrt ty d a s := rfl
@[simp] theorem exec_vfExp2 (ty : FTy) (d : Reg) (a : Reg) : exec (.vfExp2 ty d a) s = execVfExp2 ty d a s := rfl
@[simp] theorem exec_vfLog2 (ty : FTy) (d : Reg) (a : Reg) : exec (.vfLog2 ty d a) s = execVfLog2 ty d a s := rfl
@[simp] theorem exec_vfFloor (ty : FTy) (d : Reg) (a : Reg) : exec (.vfFloor ty d a) s = execVfFloor ty d a s := rfl
@[simp] theorem exec_vfMov (ty : FTy) (d : Reg) (a : Reg) : exec (.vfMov ty d a) s = execVfMov ty d a s := rfl
@[simp] theorem exec_vfCmp (cond : Cond) (d : Reg) (a : Reg) (b : Reg) : exec (.vfCmp cond d a b) s = execVfCmp cond d a b s := rfl
@[simp] theorem exec_vdAdd (d : Reg) (a : Reg) (b : Reg) : exec (.vdAdd d a b) s = execVdAdd d a b s := rfl
@[simp] theorem exec_vdSub (d : Reg) (a : Reg) (b : Reg) : exec (.vdSub d a b) s = execVdSub d a b s := rfl
@[simp] theorem exec_vdMul (d : Reg) (a : Reg) (b : Reg) : exec (.vdMul d a b) s = execVdMul d a b s := rfl
@[simp] theorem exec_vdFma (d : Reg) (a : Reg) (b : Reg) : exec (.vdFma d a b) s = execVdFma d a b s := rfl
@[simp] theorem exec_vdDiv (d : Reg) (a : Reg) (b : Reg) : exec (.vdDiv d a b) s = execVdDiv d a b s := rfl
@[simp] theorem exec_vdSqrt (d : Reg) (a : Reg) : exec (.vdSqrt d a) s = execVdSqrt d a s := rfl
@[simp] theorem exec_vdMin (d : Reg) (a : Reg) (b : Reg) : exec (.vdMin d a b) s = execVdMin d a b s := rfl
@[simp] theorem exec_vdMax (d : Reg) (a : Reg) (b : Reg) : exec (.vdMax d a b) s = execVdMax d a b s := rfl
@[simp] theorem exec_vdCmp (cond : Cond) (d : Reg) (a : Reg) (b : Reg) : exec (.vdCmp cond d a b) s = execVdCmp cond d a b s := rfl
@[simp] theorem exec_vxIsabs (vt : Vt) (d : Reg) (a : Reg) : exec (.vxIsabs vt d a) s = execVxIsabs vt d a s := rfl
@[simp] theorem exec_vxOra (vt : Vt) (d : Reg) (a : Reg) (b : Reg) : exec (.vxOra vt d a b) s = execVxOra vt d a b s := rfl
@[simp] theorem exec_vxMkabs (vt : Vt) (d : Reg) (a : Reg) (b : Reg) : exec (.vxMkabs vt d a b) s = execVxMkabs vt d a b s := rfl
@[simp] theorem exec_vxSel (vt : Vt) (d : Reg) (a : Reg) (b : Reg) : exec (.vxSel vt d a b) s = execVxSel vt d a b s := rfl
@[simp] theorem exec_vxCvt (rnd : Rnd) (d : Reg) (a : Reg) (h : Bool) (src : Vt) (dst : Vt) : exec (.vxCvt rnd d a h src dst) s = execVxCvt rnd d a h src dst s := rfl
@[simp] theorem exec_vxQand (d : Reg) (a : Reg) (b : Reg) : exec (.vxQand d a b) s = execVxQand d a b s := rfl
@[simp] theorem exec_vxQor (d : Reg) (a : Reg) (b : Reg) : exec (.vxQor d a b) s = execVxQor d a b s := rfl
@[simp] theorem exec_vxQnot (d : Reg) (a : Reg) : exec (.vxQnot d a) s = execVxQnot d a s := rfl
@[simp] theorem exec_vxQxor (d : Reg) (a : Reg) (b : Reg) : exec (.vxQxor d a b) s = execVxQxor d a b s := rfl
@[simp] theorem exec_vxQmov (d : Reg) (a : Reg) : exec (.vxQmov d a) s = execVxQmov d a s := rfl
@[simp] theorem exec_vxQset (d : Reg) (code : Reg) : exec (.vxQset d code) s = execVxQset d code s := rfl
@[simp] theorem exec_vxQpack (d : Reg) (a : Reg) : exec (.vxQpack d a) s = execVxQpack d a s := rfl
@[simp] theorem exec_vxQunpack (d : Reg) (a : Reg) : exec (.vxQunpack d a) s = execVxQunpack d a s := rfl
@[simp] theorem exec_vcRedAdd (d : Reg) (a : Reg) (vt : Vt) (seg : Seg) : exec (.vcRedAdd d a vt seg) s = execVcRedAdd d a vt seg s := rfl
@[simp] theorem exec_vcRedMin (d : Reg) (a : Reg) (vt : Vt) (seg : Seg) : exec (.vcRedMin d a vt seg) s = execVcRedMin d a vt seg s := rfl
@[simp] theorem exec_vcRedMax (d : Reg) (a : Reg) (vt : Vt) (seg : Seg) : exec (.vcRedMax d a vt seg) s = execVcRedMax d a vt seg s := rfl
@[simp] theorem exec_vcScanAdd (d : Reg) (a : Reg) (vt : Vt) (seg : Seg) : exec (.vcScanAdd d a vt seg) s = execVcScanAdd d a vt seg s := rfl
@[simp] theorem exec_vcScanMin (d : Reg) (a : Reg) (vt : Vt) (seg : Seg) : exec (.vcScanMin d a vt seg) s = execVcScanMin d a vt seg s := rfl
@[simp] theorem exec_vcScanMax (d : Reg) (a : Reg) (vt : Vt) (seg : Seg) : exec (.vcScanMax d a vt seg) s = execVcScanMax d a vt seg s := rfl
@[simp] theorem exec_vcTopk (k : BitVec 3) (d : Reg) (a : Reg) (vt : Vt) (seg : Seg) : exec (.vcTopk k d a vt seg) s = execVcTopk k d a vt seg s := rfl
@[simp] theorem exec_vcRebal (d : Reg) (a : Reg) (b : Reg) : exec (.vcRebal d a b) s = execVcRebal d a b s := rfl
@[simp] theorem exec_vcConflict (d : Reg) (a : Reg) : exec (.vcConflict d a) s = execVcConflict d a s := rfl
@[simp] theorem exec_vcShflIdx (d : Reg) (a : Reg) (b : Reg) : exec (.vcShflIdx d a b) s = execVcShflIdx d a b s := rfl
@[simp] theorem exec_vcShflUp (d : Reg) (a : Reg) (b : Reg) : exec (.vcShflUp d a b) s = execVcShflUp d a b s := rfl
@[simp] theorem exec_vcShflDown (d : Reg) (a : Reg) (b : Reg) : exec (.vcShflDown d a b) s = execVcShflDown d a b s := rfl
@[simp] theorem exec_vcShflXor (d : Reg) (a : Reg) (b : Reg) : exec (.vcShflXor d a b) s = execVcShflXor d a b s := rfl
@[simp] theorem exec_vcVoteAny (d : Reg) (a : Reg) : exec (.vcVoteAny d a) s = execVcVoteAny d a s := rfl
@[simp] theorem exec_vcVoteAll (d : Reg) (a : Reg) : exec (.vcVoteAll d a) s = execVcVoteAll d a s := rfl
@[simp] theorem exec_vcVoteNone (d : Reg) (a : Reg) : exec (.vcVoteNone d a) s = execVcVoteNone d a s := rfl
@[simp] theorem exec_vcBcast (d : Reg) (a : Reg) (b : Reg) : exec (.vcBcast d a b) s = execVcBcast d a b s := rfl
@[simp] theorem exec_vcWrlane (d : Reg) (a : Reg) (b : Reg) : exec (.vcWrlane d a b) s = execVcWrlane d a b s := rfl
@[simp] theorem exec_ldG (sz : MSz) (d : Reg) (a : Reg) (off : BitVec 9) : exec (.ldG sz d a off) s = execLdG sz d a off s := rfl
@[simp] theorem exec_ldS (sz : MSz) (d : Reg) (a : Reg) (off : BitVec 9) : exec (.ldS sz d a off) s = execLdS sz d a off s := rfl
@[simp] theorem exec_ldC (wide : Bool) (d : Reg) (a : Reg) (off : BitVec 9) : exec (.ldC wide d a off) s = execLdC wide d a off s := rfl
@[simp] theorem exec_ldK (wide : Bool) (d : Reg) (a : Reg) (off : BitVec 9) : exec (.ldK wide d a off) s = execLdK wide d a off s := rfl
@[simp] theorem exec_ldStk (d : Reg) (off : BitVec 9) : exec (.ldStk d off) s = execLdStk d off s := rfl
@[simp] theorem exec_stG (sz : MSz) (d : Reg) (a : Reg) (off : BitVec 9) : exec (.stG sz d a off) s = execStG sz d a off s := rfl
@[simp] theorem exec_stS (sz : MSz) (d : Reg) (a : Reg) (off : BitVec 9) : exec (.stS sz d a off) s = execStS sz d a off s := rfl
@[simp] theorem exec_stK (wide : Bool) (d : Reg) (a : Reg) (off : BitVec 9) : exec (.stK wide d a off) s = execStK wide d a off s := rfl
@[simp] theorem exec_stStk (d : Reg) (off : BitVec 9) : exec (.stStk d off) s = execStStk d off s := rfl
@[simp] theorem exec_ldxG (sz : MSz) (d : Reg) (a : Reg) (b : Reg) : exec (.ldxG sz d a b) s = execLdxG sz d a b s := rfl
@[simp] theorem exec_ldxS (sz : MSz) (d : Reg) (a : Reg) (b : Reg) : exec (.ldxS sz d a b) s = execLdxS sz d a b s := rfl
@[simp] theorem exec_stxG (sz : MSz) (d : Reg) (a : Reg) (b : Reg) : exec (.stxG sz d a b) s = execStxG sz d a b s := rfl
@[simp] theorem exec_stxS (sz : MSz) (d : Reg) (a : Reg) (b : Reg) : exec (.stxS sz d a b) s = execStxS sz d a b s := rfl
@[simp] theorem exec_atAdd (ty : AtTy) (d : Reg) (a : Reg) (sc : Sc) (ord : Ord4) : exec (.atAdd ty d a sc ord) s = execAtAdd ty d a sc ord s := rfl
@[simp] theorem exec_atFadd (wide : Bool) (d : Reg) (a : Reg) (sc : Sc) (ord : Ord4) : exec (.atFadd wide d a sc ord) s = execAtFadd wide d a sc ord s := rfl
@[simp] theorem exec_atMin (ty : AtMm) (d : Reg) (a : Reg) (sc : Sc) (ord : Ord4) : exec (.atMin ty d a sc ord) s = execAtMin ty d a sc ord s := rfl
@[simp] theorem exec_atMax (ty : AtMm) (d : Reg) (a : Reg) (sc : Sc) (ord : Ord4) : exec (.atMax ty d a sc ord) s = execAtMax ty d a sc ord s := rfl
@[simp] theorem exec_atAnd (wide : Bool) (d : Reg) (a : Reg) (sc : Sc) (ord : Ord4) : exec (.atAnd wide d a sc ord) s = execAtAnd wide d a sc ord s := rfl
@[simp] theorem exec_atOr (wide : Bool) (d : Reg) (a : Reg) (sc : Sc) (ord : Ord4) : exec (.atOr wide d a sc ord) s = execAtOr wide d a sc ord s := rfl
@[simp] theorem exec_atXor (wide : Bool) (d : Reg) (a : Reg) (sc : Sc) (ord : Ord4) : exec (.atXor wide d a sc ord) s = execAtXor wide d a sc ord s := rfl
@[simp] theorem exec_atXchg (wide : Bool) (d : Reg) (a : Reg) (sc : Sc) (ord : Ord4) : exec (.atXchg wide d a sc ord) s = execAtXchg wide d a sc ord s := rfl
@[simp] theorem exec_atCas (wide : Bool) (d : Reg) (a : Reg) (sc : Sc) (ord : Ord4) : exec (.atCas wide d a sc ord) s = execAtCas wide d a sc ord s := rfl
@[simp] theorem exec_atSlot (wide : Bool) (d : Reg) (a : Reg) (sc : Sc) (ord : Ord4) : exec (.atSlot wide d a sc ord) s = execAtSlot wide d a sc ord s := rfl
@[simp] theorem exec_synBar (reg : Reg) (obj : Bool) (bar : BitVec 4) : exec (.synBar reg obj bar) s = execSynBar reg obj bar s := rfl
@[simp] theorem exec_synArrive (reg : Reg) (obj : Bool) (bar : BitVec 4) : exec (.synArrive reg obj bar) s = execSynArrive reg obj bar s := rfl
@[simp] theorem exec_synBwait (reg : Reg) (obj : Bool) (bar : BitVec 4) : exec (.synBwait reg obj bar) s = execSynBwait reg obj bar s := rfl
@[simp] theorem exec_synFence (sc : Sc) (kind : FKind) : exec (.synFence sc kind) s = execSynFence sc kind s := rfl
@[simp] theorem exec_synWaitc (loads : BitVec 3) (stores : BitVec 3) (tiles : BitVec 3) : exec (.synWaitc loads stores tiles) s = execSynWaitc loads stores tiles s := rfl
@[simp] theorem exec_synWaitcmp (wide : Bool) (ne : Bool) (d : Reg) (a : Reg) (b : Reg) : exec (.synWaitcmp wide ne d a b) s = execSynWaitcmp wide ne d a b s := rfl
@[simp] theorem exec_synSigadd (sc : Sc) (d : Reg) (a : Reg) (b : Reg) : exec (.synSigadd sc d a b) s = execSynSigadd sc d a b s := rfl
@[simp] theorem exec_synSigwait (sc : Sc) (d : Reg) (a : Reg) (b : Reg) : exec (.synSigwait sc d a b) s = execSynSigwait sc d a b s := rfl
@[simp] theorem exec_wqPush (d : Reg) (a : Reg) (b : Reg) : exec (.wqPush d a b) s = execWqPush d a b s := rfl
@[simp] theorem exec_wqPop (d : Reg) (a : Reg) (b : Reg) : exec (.wqPop d a b) s = execWqPop d a b s := rfl
@[simp] theorem exec_wqTrypop (d : Reg) (a : Reg) (b : Reg) : exec (.wqTrypop d a b) s = execWqTrypop d a b s := rfl
@[simp] theorem exec_wqLaunch (d : Reg) (a : Reg) (b : Reg) : exec (.wqLaunch d a b) s = execWqLaunch d a b s := rfl
@[simp] theorem exec_tlSetfmt (a : Reg) : exec (.tlSetfmt a) s = execTlSetfmt a s := rfl
@[simp] theorem exec_tlDrain (d : Reg) (a : Reg) : exec (.tlDrain d a) s = execTlDrain d a s := rfl
@[simp] theorem exec_tlZero (d : Reg) : exec (.tlZero d) s = execTlZero d s := rfl
@[simp] theorem exec_tlLoad (d : Reg) (a : Reg) : exec (.tlLoad d a) s = execTlLoad d a s := rfl
@[simp] theorem exec_tlMma (reuse : Bool) (kc : Bool) (kn : BitVec 3) (d : Reg) (a : Reg) (b : Reg) : exec (.tlMma reuse kc kn d a b) s = execTlMma reuse kc kn d a b s := rfl
@[simp] theorem exec_cpyG2s (d : Reg) (a : Reg) (b : Reg) : exec (.cpyG2s d a b) s = execCpyG2s d a b s := rfl
@[simp] theorem exec_cpyS2g (d : Reg) (a : Reg) (b : Reg) : exec (.cpyS2g d a b) s = execCpyS2g d a b s := rfl
@[simp] theorem exec_cpyG2g (d : Reg) (a : Reg) (b : Reg) : exec (.cpyG2g d a b) s = execCpyG2g d a b s := rfl
@[simp] theorem exec_cpyBatch (d : Reg) (a : Reg) : exec (.cpyBatch d a) s = execCpyBatch d a s := rfl
@[simp] theorem exec_cpyWait (a : Reg) : exec (.cpyWait a) s = execCpyWait a s := rfl
@[simp] theorem exec_cpyBind (d : Reg) (a : Reg) (b : Reg) : exec (.cpyBind d a b) s = execCpyBind d a b s := rfl
@[simp] theorem exec_cpyUnbind (a : Reg) : exec (.cpyUnbind a) s = execCpyUnbind a s := rfl
@[simp] theorem exec_kvGather (d : Reg) (a : Reg) (b : Reg) : exec (.kvGather d a b) s = execKvGather d a b s := rfl
@[simp] theorem exec_kvAppend (a : Reg) (b : Reg) : exec (.kvAppend a b) s = execKvAppend a b s := rfl
@[simp] theorem exec_kvFork (d : Reg) (a : Reg) : exec (.kvFork d a) s = execKvFork d a s := rfl
@[simp] theorem exec_kvDrop (a : Reg) : exec (.kvDrop a) s = execKvDrop a s := rfl
@[simp] theorem exec_xfRunTranspose (a : Reg) (b : Reg) : exec (.xfRunTranspose a b) s = execXfRunTranspose a b s := rfl
@[simp] theorem exec_xfRunRequant (a : Reg) (b : Reg) : exec (.xfRunRequant a b) s = execXfRunRequant a b s := rfl
@[simp] theorem exec_xfRunCompact (a : Reg) (b : Reg) : exec (.xfRunCompact a b) s = execXfRunCompact a b s := rfl
@[simp] theorem exec_xfRunExpand (a : Reg) (b : Reg) : exec (.xfRunExpand a b) s = execXfRunExpand a b s := rfl
@[simp] theorem exec_xfCancel (a : Reg) : exec (.xfCancel a) s = execXfCancel a s := rfl
@[simp] theorem exec_lkAcq (d : Reg) (a : Reg) (tryOnly : Bool) (lvl : Lvl) (mode : LMode) : exec (.lkAcq d a tryOnly lvl mode) s = execLkAcq d a tryOnly lvl mode s := rfl
@[simp] theorem exec_lkRel (a : Reg) (lvl : Lvl) (mode : LMode) : exec (.lkRel a lvl mode) s = execLkRel a lvl mode s := rfl
@[simp] theorem exec_lkRelall : exec (.lkRelall) s = execLkRelall s := rfl
@[simp] theorem exec_lkEsc (d : Reg) (a : Reg) (lvl : Lvl) (mode : LMode) : exec (.lkEsc d a lvl mode) s = execLkEsc d a lvl mode s := rfl
@[simp] theorem exec_lkQuery (d : Reg) (a : Reg) (lvl : Lvl) : exec (.lkQuery d a lvl) s = execLkQuery d a lvl s := rfl
@[simp] theorem exec_exAcq (d : Reg) (a : Reg) (tryOnly : Bool) : exec (.exAcq d a tryOnly) s = execExAcq d a tryOnly s := rfl
@[simp] theorem exec_exRel (a : Reg) : exec (.exRel a) s = execExRel a s := rfl
@[simp] theorem exec_exHint (a : Reg) : exec (.exHint a) s = execExHint a s := rfl
@[simp] theorem exec_exStat (d : Reg) (a : Reg) : exec (.exStat d a) s = execExStat d a s := rfl
@[simp] theorem exec_woundTrap : exec (.woundTrap) s = execWoundTrap s := rfl
@[simp] theorem exec_monitorPeriodicFire (line : Nat) : exec (.monitorPeriodicFire line) s = execMonitorPeriodicFire line s := rfl
@[simp] theorem exec_fragmentMerge (cid : Nat) (one : Nat) (two : Nat) : exec (.fragmentMerge cid one two) s = execFragmentMerge cid one two s := rfl
@[simp] theorem exec_fragmentRefill (core : Nat) : exec (.fragmentRefill core) s = execFragmentRefill core s := rfl
@[simp] theorem exec_loadComplete (op : Nat) : exec (.loadComplete op) s = execLoadComplete op s := rfl
@[simp] theorem exec_storePerformed (op : Nat) : exec (.storePerformed op) s = execStorePerformed op s := rfl
@[simp] theorem exec_tileOperationComplete (op : Nat) : exec (.tileOperationComplete op) s = execTileOperationComplete op s := rfl
@[simp] theorem exec_copyComplete (op : Nat) : exec (.copyComplete op) s = execCopyComplete op s := rfl
@[simp] theorem exec_xfRunComplete (op : Nat) : exec (.xfRunComplete op) s = execXfRunComplete op s := rfl
@[simp] theorem exec_gatherComplete (op : Nat) : exec (.gatherComplete op) s = execGatherComplete op s := rfl
@[simp] theorem exec_engineOperationFault (op : Nat) : exec (.engineOperationFault op) s = execEngineOperationFault op s := rfl
@[simp] theorem exec_pageWalkStart (island : Nat) (ctx : Nat) (unit : Nat) : exec (.pageWalkStart island ctx unit) s = execPageWalkStart island ctx unit s := rfl
@[simp] theorem exec_pageWalkComplete (island : Nat) (ctx : Nat) (unit : Nat) : exec (.pageWalkComplete island ctx unit) s = execPageWalkComplete island ctx unit s := rfl
@[simp] theorem exec_faultRecordWrite (core : Nat) : exec (.faultRecordWrite core) s = execFaultRecordWrite core s := rfl
@[simp] theorem exec_predecessorRead (queue : Nat) : exec (.predecessorRead queue) s = execPredecessorRead queue s := rfl
@[simp] theorem exec_splitChange (core : Nat) (queue : Nat) : exec (.splitChange core queue) s = execSplitChange core queue s := rfl
@[simp] theorem exec_wallPlace (queue : Nat) (core : Nat) : exec (.wallPlace queue core) s = execWallPlace queue core s := rfl
@[simp] theorem exec_courseDrain (cid : Nat) : exec (.courseDrain cid) s = execCourseDrain cid s := rfl
@[simp] theorem exec_preemption (part : Nat) (queue : Nat) : exec (.preemption part queue) s = execPreemption part queue s := rfl
@[simp] theorem exec_contextRestore (part : Nat) : exec (.contextRestore part) s = execContextRestore part s := rfl
@[simp] theorem exec_watchdogExpiry (age : Nat) : exec (.watchdogExpiry age) s = execWatchdogExpiry age s := rfl
@[simp] theorem exec_woundGraceExpiry (age : Nat) : exec (.woundGraceExpiry age) s = execWoundGraceExpiry age s := rfl
@[simp] theorem exec_expertFetchStart (ctx : Nat) (id : Nat) : exec (.expertFetchStart ctx id) s = execExpertFetchStart ctx id s := rfl
@[simp] theorem exec_expertFetchComplete (ctx : Nat) (id : Nat) (ok : Bool) : exec (.expertFetchComplete ctx id ok) s = execExpertFetchComplete ctx id ok s := rfl
@[simp] theorem exec_writeApply (write : Nat) (island : Nat) : exec (.writeApply write island) s = execWriteApply write island s := rfl
@[simp] theorem exec_lineWriteBack (line : Nat) : exec (.lineWriteBack line) s = execLineWriteBack line s := rfl
@[simp] theorem exec_memoryErrorUncorrectable (line : Nat) (ctx : Nat) : exec (.memoryErrorUncorrectable line ctx) s = execMemoryErrorUncorrectable line ctx s := rfl
@[simp] theorem exec_correctedError (site : ErrSite) : exec (.correctedError site) s = execCorrectedError site s := rfl
@[simp] theorem exec_postedReductionAck (op : Nat) : exec (.postedReductionAck op) s = execPostedReductionAck op s := rfl
@[simp] theorem exec_outerStraitAtomic (op : BitVec 6) (pa : Nat) (x : BitVec 64) (y : BitVec 64) : exec (.outerStraitAtomic op pa x y) s = execOuterStraitAtomic op pa x y s := rfl
@[simp] theorem exec_cxlBackInvalidation (line : Nat) : exec (.cxlBackInvalidation line) s = execCxlBackInvalidation line s := rfl
@[simp] theorem exec_hostRead (pa : Nat) (len : Nat) : exec (.hostRead pa len) s = execHostRead pa len s := rfl
@[simp] theorem exec_hostWrite (pa : Nat) (bytes : List (BitVec 8)) : exec (.hostWrite pa bytes) s = execHostWrite pa bytes s := rfl
@[simp] theorem exec_queueWindowStage (port : Nat) (queue : Nat) (off : Nat) (bytes : List (BitVec 8)) : exec (.queueWindowStage port queue off bytes) s = execQueueWindowStage port queue off bytes s := rfl
@[simp] theorem exec_queueWindowPush (port : Nat) (queue : Nat) : exec (.queueWindowPush port queue) s = execQueueWindowPush port queue s := rfl
@[simp] theorem exec_statusWrite (value : BitVec 64) : exec (.statusWrite value) s = execStatusWrite value s := rfl
@[simp] theorem exec_eventCounterClear (n : Nat) : exec (.eventCounterClear n) s = execEventCounterClear n s := rfl
@[simp] theorem exec_registerWrite (off : Nat) (value : BitVec 64) : exec (.registerWrite off value) s = execRegisterWrite off value s := rfl
@[simp] theorem exec_ctxCreate : exec (.ctxCreate) s = execCtxCreate s := rfl
@[simp] theorem exec_ctxDestroy : exec (.ctxDestroy) s = execCtxDestroy s := rfl
@[simp] theorem exec_queueConfig : exec (.queueConfig) s = execQueueConfig s := rfl
@[simp] theorem exec_ertWrite : exec (.ertWrite) s = execErtWrite s := rfl
@[simp] theorem exec_invalidate : exec (.invalidate) s = execInvalidate s := rfl
@[simp] theorem exec_repair : exec (.repair) s = execRepair s := rfl
@[simp] theorem exec_irqBind : exec (.irqBind) s = execIrqBind s := rfl
@[simp] theorem exec_window : exec (.window) s = execWindow s := rfl
@[simp] theorem exec_partSet : exec (.partSet) s = execPartSet s := rfl
@[simp] theorem exec_flash : exec (.flash) s = execFlash s := rfl
@[simp] theorem exec_policy : exec (.policy) s = execPolicy s := rfl
@[simp] theorem exec_getVersion (port : Nat) : exec (.getVersion port) s = execGetVersion port s := rfl
@[simp] theorem exec_getCapabilities (port : Nat) : exec (.getCapabilities port) s = execGetCapabilities port s := rfl
@[simp] theorem exec_negotiateAlgorithms (port : Nat) (hash384 : Bool) (brainpool384 : Bool) : exec (.negotiateAlgorithms port hash384 brainpool384) s = execNegotiateAlgorithms port hash384 brainpool384 s := rfl
@[simp] theorem exec_getDigests (port : Nat) : exec (.getDigests port) s = execGetDigests port s := rfl
@[simp] theorem exec_getCertificate (port : Nat) (slot : Nat) (off : Nat) (len : Nat) : exec (.getCertificate port slot off len) s = execGetCertificate port slot off len s := rfl
@[simp] theorem exec_challenge (port : Nat) (nonce : Nat) : exec (.challenge port nonce) s = execChallenge port nonce s := rfl
@[simp] theorem exec_getMeasurements (port : Nat) (nonce : Nat) : exec (.getMeasurements port nonce) s = execGetMeasurements port nonce s := rfl
@[simp] theorem exec_unsupportedRequest (port : Nat) (code : Nat) : exec (.unsupportedRequest port code) s = execUnsupportedRequest port code s := rfl
@[simp] theorem exec_powerOnReset (wellFormedImage : Bool) : exec (.powerOnReset wellFormedImage) s = execPowerOnReset wellFormedImage s := rfl
@[simp] theorem exec_firmwareBringUp : exec (.firmwareBringUp) s = execFirmwareBringUp s := rfl
@[simp] theorem exec_functionLevelReset (port : Nat) : exec (.functionLevelReset port) s = execFunctionLevelReset port s := rfl
@[simp] theorem exec_portLinkTraining (port : Nat) (cxl : Bool) : exec (.portLinkTraining port cxl) s = execPortLinkTraining port cxl s := rfl
@[simp] theorem exec_illegalInstruction (word : BitVec 32) : exec (.illegalInstruction word) s = execIllegalInstruction word s := rfl
@[simp] theorem exec_instructionFetchFault : exec (.instructionFetchFault) s = execInstructionFetchFault s := rfl
@[simp] theorem exec_unknownCommand : exec (.unknownCommand) s = execUnknownCommand s := rfl
@[simp] theorem exec_portLinkDown (port : Nat) : exec (.portLinkDown port) s = execPortLinkDown port s := rfl
@[simp] theorem exec_outerStraitAccess (write : Bool) (pa : Nat) (bytes : List (BitVec 8)) (len : Nat) : exec (.outerStraitAccess write pa bytes len) s = execOuterStraitAccess write pa bytes len s := rfl
@[simp] theorem exec_packageCapped : exec (.packageCapped) s = execPackageCapped s := rfl

end Sys2Proof.Machine
end

