-- ==== Sys2Proof/Laws/Tab.lean ====
section
/-!
SUPPORT. Sparse tables: reading after writing, after a change and after a removal, and the canonical form of the keys.
-/

set_option Elab.async false

namespace Sys2Proof.Tab

variable {α : Type}

@[simp] theorem get?_nil (n : Nat) : get? ([] : Tab α) n = none := rfl

@[simp] theorem get?_set_self (t : Tab α) (n : Nat) (x : α) : get? (set t n x) n = some x := by
  induction t with
  | nil => simp [set, get?]
  | cons p t ih =>
    obtain ⟨k, v⟩ := p
    simp only [set]
    split
    · simp [get?]
    · split
      · simp [get?]
      · simp [get?, *]

theorem get?_set_ne (t : Tab α) {n m : Nat} (x : α) (h : m ≠ n) : get? (set t n x) m = get? t m := by
  induction t with
  | nil => simp [set, get?, h]
  | cons p t ih =>
    obtain ⟨k, v⟩ := p
    simp only [set]
    split
    · simp [get?, h]
    · split
      · subst_vars; simp [get?, h]
      · simp [get?, ih]

theorem get?_set (t : Tab α) (n m : Nat) (x : α) : get? (set t n x) m = if m = n then some x else get? t m := by
  split
  · subst_vars; simp
  · exact get?_set_ne t x ‹_›

theorem getD_set (t : Tab α) (n m : Nat) (x d : α) : getD (set t n x) m d = if m = n then x else getD t m d := by
  simp only [getD, get?_set]; split <;> rfl

@[simp] theorem get?_upd_self (t : Tab α) (n : Nat) (f : α → α) : get? (upd t n f) n = (get? t n).map f := by
  induction t with
  | nil => rfl
  | cons p t ih =>
    obtain ⟨k, v⟩ := p
    simp only [upd]
    split
    · simp [get?, *]
    · simp [get?, *]

theorem get?_upd_ne (t : Tab α) {n m : Nat} (f : α → α) (h : m ≠ n) : get? (upd t n f) m = get? t m := by
  induction t with
  | nil => rfl
  | cons p t ih =>
    obtain ⟨k, v⟩ := p
    simp only [upd]
    split
    · subst_vars; simp [get?, h]
    · simp [get?, ih]

theorem get?_upd (t : Tab α) (n m : Nat) (f : α → α) :
    get? (upd t n f) m = if m = n then (get? t m).map f else get? t m := by
  split
  · subst_vars; simp
  · exact get?_upd_ne t f ‹_›

theorem get?_erase_ne (t : Tab α) {n m : Nat} (h : m ≠ n) : get? (erase t n) m = get? t m := by
  induction t with
  | nil => rfl
  | cons p t ih =>
    obtain ⟨k, v⟩ := p
    simp only [erase]
    split
    · subst_vars; simp [get?, h]
    · simp [get?, ih]

theorem get?_sortedFrom {t : Tab α} {lo n : Nat} (h : sortedFrom lo t = true) (hn : n < lo) : get? t n = none := by
  induction t generalizing lo with
  | nil => rfl
  | cons p t ih =>
    obtain ⟨k, v⟩ := p
    simp only [sortedFrom, Bool.and_eq_true, decide_eq_true_eq] at h
    have hk : n ≠ k := by omega
    simp [get?, hk, ih h.2 (by omega)]

theorem get?_erase_self {t : Tab α} {lo : Nat} (n : Nat) (h : sortedFrom lo t = true) : get? (erase t n) n = none := by
  induction t generalizing lo with
  | nil => rfl
  | cons p t ih =>
    obtain ⟨k, v⟩ := p
    simp only [sortedFrom, Bool.and_eq_true, decide_eq_true_eq] at h
    simp only [erase]
    split
    · subst_vars; exact get?_sortedFrom h.2 (by omega)
    · simp [get?, ih h.2, *]

theorem sortedFrom_mono {t : Tab α} {a b : Nat} (h : sortedFrom b t = true) (hab : a ≤ b) : sortedFrom a t = true := by
  cases t with
  | nil => rfl
  | cons p t =>
    simp only [sortedFrom, Bool.and_eq_true, decide_eq_true_eq] at h ⊢
    exact ⟨by omega, h.2⟩

theorem sortedFrom_set {t : Tab α} {lo n : Nat} (x : α) (h : sortedFrom lo t = true) (hn : lo ≤ n) :
    sortedFrom lo (set t n x) = true := by
  induction t generalizing lo with
  | nil => simp [set, sortedFrom, hn]
  | cons p t ih =>
    obtain ⟨k, v⟩ := p
    simp only [sortedFrom, Bool.and_eq_true, decide_eq_true_eq] at h
    simp only [set]
    split
    · simp only [sortedFrom, Bool.and_eq_true, decide_eq_true_eq]; exact ⟨hn, by omega, h.2⟩
    · split
      · subst_vars; simp only [sortedFrom, Bool.and_eq_true, decide_eq_true_eq]; exact h
      · simp only [sortedFrom, Bool.and_eq_true, decide_eq_true_eq]; exact ⟨h.1, ih h.2 (by omega)⟩

theorem sorted_set {t : Tab α} (n : Nat) (x : α) (h : sorted t = true) : sorted (set t n x) = true :=
  sortedFrom_set x h (Nat.zero_le n)

theorem sortedFrom_erase {t : Tab α} {lo : Nat} (n : Nat) (h : sortedFrom lo t = true) :
    sortedFrom lo (erase t n) = true := by
  induction t generalizing lo with
  | nil => rfl
  | cons p t ih =>
    obtain ⟨k, v⟩ := p
    simp only [sortedFrom, Bool.and_eq_true, decide_eq_true_eq] at h
    simp only [erase]
    split
    · exact sortedFrom_mono h.2 (by omega)
    · simp only [sortedFrom, Bool.and_eq_true, decide_eq_true_eq]; exact ⟨h.1, ih h.2⟩

theorem sorted_erase {t : Tab α} (n : Nat) (h : sorted t = true) : sorted (erase t n) = true := sortedFrom_erase n h

theorem mem_set {t : Tab α} {n : Nat} {x : α} {p : Nat × α} (h : p ∈ set t n x) : p = (n, x) ∨ p ∈ t := by
  induction t with
  | nil => simp [set] at h; exact .inl h
  | cons q t ih =>
    obtain ⟨k, v⟩ := q
    simp only [set] at h
    split at h
    · simpa using h
    · split at h
      · simp only [List.mem_cons] at h ⊢
        exact h.elim .inl fun h => .inr (.inr h)
      · simp only [List.mem_cons] at h ⊢
        exact h.elim (fun h => .inr (.inl h)) fun h => (ih h).elim .inl fun h => .inr (.inr h)

theorem mem_erase {t : Tab α} {n : Nat} {p : Nat × α} (h : p ∈ erase t n) : p ∈ t := by
  induction t with
  | nil => simp [erase] at h
  | cons q t ih =>
    obtain ⟨k, v⟩ := q
    simp only [erase] at h
    split at h
    · exact List.mem_cons_of_mem _ h
    · simp only [List.mem_cons] at h ⊢
      exact h.elim .inl fun h => .inr (ih h)

end Sys2Proof.Tab
end

