-- ==== Sys2Proof/Laws/Memory.lean ====
section
/-!
SUPPORT. The memory operations: what a byte of the under-stack reads as after a write, the canonical form, and what `act`
and `settle` can do.
-/

set_option Elab.async false

namespace Sys2Proof.Machine

theorem memWf_iff (m : Tab Byte) : memWf m = true ↔ m.sorted = true ∧ ∀ c ∈ m, c.2 ≠ 0 := by
  simp [memWf]

theorem memWf_memPut {m : Tab Byte} (a : Nat) (b : Byte) (h : memWf m = true) : memWf (memPut m a b) = true := by
  rw [memWf_iff] at h ⊢
  unfold memPut
  split
  · exact ⟨Tab.sorted_erase a h.1, fun c hc => h.2 c (Tab.mem_erase hc)⟩
  · refine ⟨Tab.sorted_set a b h.1, fun c hc => ?_⟩
    rcases Tab.mem_set hc with rfl | hc
    · assumption
    · exact h.2 c hc

theorem memWf_retireMem {m : Tab Byte} (cs : List (Nat × Byte)) (h : memWf m = true) : memWf (retireMem m cs) = true := by
  unfold retireMem
  induction cs generalizing m with
  | nil => exact h
  | cons c cs ih =>
    simp only [List.foldl_cons]
    split
    · exact ih (memWf_memPut _ _ h)
    · exact ih h

theorem fmtWf_iff (m : Tab Nat) : fmtWf m = true ↔ m.sorted = true ∧ ∀ c ∈ m, c.2 ≠ 31 := by
  simp [fmtWf]

/-- Giving one line an element format keeps the canonical form. -/
theorem fmtWf_put {m : Tab Nat} (l f : Nat) (h : fmtWf m = true) : fmtWf (if f = 31 then m.erase l else m.set l f) = true := by
  rw [fmtWf_iff] at h ⊢
  split
  · exact ⟨Tab.sorted_erase l h.1, fun c hc => h.2 c (Tab.mem_erase hc)⟩
  · refine ⟨Tab.sorted_set l f h.1, fun c hc => ?_⟩
    rcases Tab.mem_set hc with rfl | hc
    · assumption
    · exact h.2 c hc

theorem fmtWf_lines {m : Tab Nat} (ls : List Nat) (f : Nat) (h : fmtWf m = true) :
    fmtWf (ls.foldl (fun m l => if l < 2 ^ 33 then (if f = 31 then m.erase l else m.set l f) else m) m) = true := by
  induction ls generalizing m with
  | nil => exact h
  | cons l ls ih =>
    rw [List.foldl_cons]
    by_cases hl : l < 2 ^ 33
    · rw [if_pos hl]; exact ih (fmtWf_put l f h)
    · rw [if_neg hl]; exact ih h

theorem fmtWf_retireFmt {m : Tab Nat} (ws : List Write) (h : fmtWf m = true) : fmtWf (retireFmt m ws) = true := by
  unfold retireFmt
  induction ws generalizing m with
  | nil => exact h
  | cons w ws ih =>
    simp only [List.foldl_cons]
    split
    · exact ih (fmtWf_lines _ _ h)
    · exact ih h

theorem memWf_nil : memWf [] = true := rfl

/-- Reading a byte after writing one. -/
theorem getD_memPut {m : Tab Byte} (h : memWf m = true) (a x : Nat) (b : Byte) :
    (memPut m a b).getD x 0 = if x = a then b else m.getD x 0 := by
  have hs := ((memWf_iff m).1 h).1
  unfold memPut
  split
  · split
    · subst_vars; simp [Tab.getD, Tab.get?_erase_self _ hs]
    · simp [Tab.getD, Tab.get?_erase_ne m ‹_›]
  · rw [Tab.getD_set]

theorem headWaits_dropWhile (ws : List Write) : headWaits (ws.dropWhile Write.everywhere) = true := by
  induction ws with
  | nil => rfl
  | cons w ws ih =>
    simp only [List.dropWhile_cons]
    split
    · exact ih
    · simp [headWaits, *]

@[simp] theorem settle_writes (s t : State) : (s.settle t).writes = t.writes.dropWhile Write.everywhere := rfl

theorem settle_headWaits (s t : State) : headWaits (s.settle t).writes = true := headWaits_dropWhile _

theorem settle_memWf {s : State} (t : State) (h : memWf s.mem = true) : memWf (s.settle t).mem = true :=
  memWf_retireMem _ h

theorem settle_fmtWf {s : State} (t : State) (h : fmtWf s.efmt = true) : fmtWf (s.settle t).efmt = true :=
  fmtWf_retireFmt _ h

/-- A change that leaves memory, element formats and the writes in flight alone is what `act` gives. -/
theorem settle_quiet {s t : State} (hw : headWaits s.writes = true) (hm : t.mem = s.mem) (ho : t.outside = s.outside)
    (hf : t.efmt = s.efmt) (hx : t.writes = s.writes) : s.settle t = t := by
  have h : (s.writes.takeWhile Write.everywhere) = [] ∧ s.writes.dropWhile Write.everywhere = s.writes := by
    cases hs : s.writes with
    | nil => simp
    | cons w ws =>
      rw [hs] at hw
      simp only [headWaits, Bool.not_eq_true'] at hw
      simp [hw]
  unfold State.settle
  rw [hx, h.1, h.2, ← hx, ← hm, ← ho, ← hf]
  rfl

/-- What a meaning that changes the state by a function can do. -/
theorem act_cases {s t : State} {f : State → State} (h : s.act f = .next t) :
    t = s.settle (f s) := by
  simp only [State.act, Host.Outcome.next.injEq] at h
  exact h.symm

theorem act_memWf {s t : State} {f : State → State} (h : s.act f = .next t) (hm : memWf s.mem = true) :
    memWf t.mem = true := act_cases h ▸ settle_memWf _ hm

theorem act_fmtWf {s t : State} {f : State → State} (h : s.act f = .next t) (hf : fmtWf s.efmt = true) :
    fmtWf t.efmt = true := act_cases h ▸ settle_fmtWf _ hf

theorem act_headWaits {s t : State} {f : State → State} (h : s.act f = .next t) : headWaits t.writes = true :=
  act_cases h ▸ settle_headWaits _ _

/-- While no line has a reserved tag, a write finds no error. -/
theorem fill_clean {s : State} (w : Write) (h : (s.lineTag.all fun p => p.2 < 8) = true) : s.fill w = s := by
  simp [State.fill, h]

/-- Nothing that was found has to be claimed. -/
theorem claim_none {s : State} (ctx : Nat) (h : s.found = []) : s.claim ctx = s := by
  cases s
  simp only at h
  subst h
  rfl

/-- A walk's error does nothing, or is an uncorrectable one and is found at its line (R449). -/
theorem walkError_cases (s : State) (ctx : Nat) (x : XFail) :
    (x.code ≠ eccCode ∧ s.walkError ctx x = s) ∨
    (x.code = eccCode ∧ s.walkError ctx x = { s with found := s.found ++ [(x.va, ctx)] }) := by
  by_cases h : x.code = eccCode
  · exact .inr ⟨h, by simp [State.walkError, State.noteBad, dedup, h]⟩
  · exact .inl ⟨h, if_neg h⟩

end Sys2Proof.Machine
end

