-- ==== Sys2Proof/Laws/Issue.lean ====
section
/-!
SUPPORT. Issuing a word (State.issue): what it gives when its checks pass, when one of them fails, and everything it can do.
-/

set_option Elab.async false

namespace Sys2Proof.Machine

variable {s t : State} {i : Instr} {e : Env} {body : Env → State → State}

theorem issue_cases (h : s.issue i body = .next t) :
    ∃ e, s.issuer? = some e ∧ t = s.settle (s.checked i e (body e)) := by
  unfold State.issue at h
  split at h
  · cases h
  · exact ⟨_, ‹_›, act_cases h⟩

theorem issue_fault (h : s.issue i body = .fault r) : s.issuer? = none ∧ r = .noFragment := by
  unfold State.issue at h
  split at h
  · cases h; exact ⟨‹_›, rfl⟩
  · cases h

theorem checked_of (hl : i.issueLegal e.c.width = true) (hc : capBad i e = none) (ht : tileBad i e.w = none)
    (f : State → State) : s.checked i e f = f s := by
  simp [State.checked, hl, hc, ht]

theorem issue_next (h : s.issuer? = some e) (hl : i.issueLegal e.c.width = true) (hc : capBad i e = none)
    (ht : tileBad i e.w = none) : s.issue i body = .next (s.settle (body e s)) := by
  simp [State.issue, h, State.act, checked_of hl hc ht]

theorem issue_illegal (h : s.issuer? = some e) (hl : i.issueLegal e.c.width = false) :
    s.issue i body = .next (s.settle (s.trapIllegal e (encode i))) := by
  simp [State.issue, h, State.act, State.checked, hl]

theorem issue_cap (h : s.issuer? = some e) (hl : i.issueLegal e.c.width = true) {k : Nat} (hc : capBad i e = some k) :
    s.issue i body = .next (s.settle (s.trapAll e 0x02 k)) := by
  simp [State.issue, h, State.act, State.checked, hl, hc]

theorem issue_tile (h : s.issuer? = some e) (hl : i.issueLegal e.c.width = true) (hc : capBad i e = none) {z : Nat}
    (ht : tileBad i e.w = some z) : s.issue i body = .next (s.settle (s.trapAll e 0x02 z)) := by
  simp [State.issue, h, State.act, State.checked, hl, hc, ht]

theorem issue_memWf (h : s.issue i body = .next t) (hm : memWf s.mem = true) : memWf t.mem = true := by
  obtain ⟨e, -, rfl⟩ := issue_cases h
  exact settle_memWf _ hm

theorem issue_fmtWf (h : s.issue i body = .next t) (hf : fmtWf s.efmt = true) : fmtWf t.efmt = true := by
  obtain ⟨e, -, rfl⟩ := issue_cases h
  exact settle_fmtWf _ hf

theorem issue_headWaits (h : s.issue i body = .next t) : headWaits t.writes = true := by
  obtain ⟨e, -, rfl⟩ := issue_cases h
  exact settle_headWaits _ _

/-- Taking a trap where the fragment may (R369). -/
theorem trapAt_enters (code arg : Nat) (tpc faddr flanes : Dword) (hh : e.f.handler = false) (hv : e.c.tvec ≠ 0) :
    s.trapAt e code arg tpc faddr flanes = s.updFrag e.r fun f =>
      { f with
        cause := BitVec.ofNat 64 (code + 256 * arg), tpc := tpc, faddr := faddr, flanes := flanes, handler := true,
        pc := e.c.tvec, outcomes := [], crowd := [], diverged := none, held := false, totV := none } := by
  have hv' : (e.c.tvec == 0) = false := by simpa using hv
  simp only [State.trapAt, hh, hv', Bool.or_false, Bool.false_eq_true, if_false]

/-- A trap that the fragment may not take (R369). -/
theorem trapAt_fatal (code arg : Nat) (tpc faddr flanes : Dword) (h : e.f.handler = true ∨ e.c.tvec = 0) :
    s.trapAt e code arg tpc faddr flanes =
      s.fatal e.c.ctx { cause := .trap, code := code, addr := tpc.toNat, who := (fidOf e.c e.r.serial).toNat } := by
  rcases h with h | h <;> simp [State.trapAt, h]

end Sys2Proof.Machine
end

