-- ==== Sys2Proof/Laws/PerInstr.lean ====
section
/-!
SUPPORT. The families of statements about every instruction, one lemma for each constructor. RoundTrip: the class tables of
the decoder read back what the encoder wrote, for a legal instruction word; a row that is no word is not legal.
-/

namespace Sys2Proof.Laws.RoundTrip

set_option Elab.async false
set_option linter.unusedSimpArgs false

def Statement (i : Instr) : Prop := i.legal = true → decodeClass (encode i) = .ok i

theorem sysBrk (code : BitVec 21) : Statement (.sysBrk code) := by
  intro _
  show decodeClass (packW 0x01 0x00 code) = _
  rw [decodeClass_01 (by simp)]
  simp [decodeSys]
theorem sysTrap (code : BitVec 21) : Statement (.sysTrap code) := by
  intro _
  show decodeClass (packW 0x01 0x01 code) = _
  rw [decodeClass_01 (by simp)]
  simp [decodeSys]
theorem sysRft : Statement (.sysRft) := by
  intro _
  show decodeClass (packW 0x01 0x02 0) = _
  rw [decodeClass_01 (by simp)]
  simp [decodeSys]
theorem sysCsrr (d : Reg) (b : Reg) : Statement (.sysCsrr d b) := by
  intro _
  show decodeClass (packR 0x01 0x10 d 0 b) = _
  rw [decodeClass_01 (by simp)]
  simp [decodeSys]
theorem sysCsrw (a : Reg) (b : Reg) : Statement (.sysCsrw a b) := by
  intro _
  show decodeClass (packR 0x01 0x11 0 a b) = _
  rw [decodeClass_01 (by simp)]
  simp [decodeSys]
theorem sysFrinfo (d : Reg) (a : Reg) : Statement (.sysFrinfo d a) := by
  intro _
  show decodeClass (packR 0x01 0x12 d a 0) = _
  rw [decodeClass_01 (by simp)]
  simp [decodeSys]
theorem sysRepair (d : Reg) (a : Reg) : Statement (.sysRepair d a) := by
  intro _
  show decodeClass (packR 0x01 0x13 d a 0) = _
  rw [decodeClass_01 (by simp)]
  simp [decodeSys]
theorem brT (uk : Uk) (q : BitVec 4) (off : BitVec 18) : Statement (.brT uk q off) := by
  intro _
  show decodeClass (packJ 0 uk.bits q off) = _
  rw [decodeClass_02 (by simp)]
  simp [decodeBr]
theorem brF (uk : Uk) (q : BitVec 4) (off : BitVec 18) : Statement (.brF uk q off) := by
  intro _
  show decodeClass (packJ 1 uk.bits q off) = _
  rw [decodeClass_02 (by simp)]
  simp [decodeBr]
theorem brK (q : BitVec 4) (off : BitVec 18) : Statement (.brK q off) := by
  intro _
  show decodeClass (packJ 2 0 q off) = _
  rw [decodeClass_02 (by simp)]
  simp (disch := decide) [decodeBr, Uk.ofBits]
theorem brAny (uk : Uk) (q : BitVec 4) (off : BitVec 18) : Statement (.brAny uk q off) := by
  intro _
  show decodeClass (packJ 3 uk.bits q off) = _
  rw [decodeClass_02 (by simp)]
  simp [decodeBr]
theorem brAll (uk : Uk) (q : BitVec 4) (off : BitVec 18) : Statement (.brAll uk q off) := by
  intro _
  show decodeClass (packJ 4 uk.bits q off) = _
  rw [decodeClass_02 (by simp)]
  simp [decodeBr]
theorem brNone (uk : Uk) (q : BitVec 4) (off : BitVec 18) : Statement (.brNone uk q off) := by
  intro _
  show decodeClass (packJ 5 uk.bits q off) = _
  rw [decodeClass_02 (by simp)]
  simp [decodeBr]
theorem jmpJ (off : BitVec 17) : Statement (.jmpJ off) := by
  intro _
  show decodeClass (packL 0 0 off) = _
  rw [decodeClass_03 (by simp)]
  simp [decodeJmp]
theorem jmpCall (d : Reg) (off : BitVec 17) : Statement (.jmpCall d off) := by
  intro _
  show decodeClass (packL 1 d off) = _
  rw [decodeClass_03 (by simp)]
  simp [decodeJmp]
theorem jmpJoinat (off : BitVec 17) : Statement (.jmpJoinat off) := by
  intro _
  show decodeClass (packL 2 0 off) = _
  rw [decodeClass_03 (by simp)]
  simp [decodeJmp]
theorem jmpJoin : Statement (.jmpJoin) := by
  intro _
  show decodeClass (packL 3 0 0) = _
  rw [decodeClass_03 (by simp)]
  simp [decodeJmp]
theorem jmpJx (a : Reg) : Statement (.jmpJx a) := by
  intro _
  show decodeClass (packR 0x03 (opHL 7 0) 0 a 0) = _
  rw [decodeClass_03 (by simp)]
  simp [decodeJmp]
theorem jmpCalx (d : Reg) (a : Reg) : Statement (.jmpCalx d a) := by
  intro _
  show decodeClass (packR 0x03 (opHL 7 1) d a 0) = _
  rw [decodeClass_03 (by simp)]
  simp [decodeJmp]
theorem jmpRet (a : Reg) : Statement (.jmpRet a) := by
  intro _
  show decodeClass (packR 0x03 (opHL 7 2) 0 a 0) = _
  rw [decodeClass_03 (by simp)]
  simp [decodeJmp]
theorem ctlWin (ws : BitVec 6) (wv : BitVec 6) : Statement (.ctlWin ws wv) := by
  intro _
  show decodeClass (packW 0x04 0x00 ((0 : BitVec 9) ++ ws ++ wv)) = _
  rw [decodeClass_04 (by simp)]
  simp (disch := decide) [decodeCtl, ext_packW]
  erw [ctlWin_12_9, ctlWin_6_6, ctlWin_0_6]
  simp
theorem ctlYield : Statement (.ctlYield) := by
  intro _
  show decodeClass (packW 0x04 0x01 0) = _
  rw [decodeClass_04 (by simp)]
  simp [decodeCtl]
theorem ctlExit : Statement (.ctlExit) := by
  intro _
  show decodeClass (packW 0x04 0x02 0) = _
  rw [decodeClass_04 (by simp)]
  simp [decodeCtl]
theorem ctlNop : Statement (.ctlNop) := by
  intro _
  show decodeClass (packW 0x04 0x03 0) = _
  rw [decodeClass_04 (by simp)]
  simp [decodeCtl]
theorem ctlPrio : Statement (.ctlPrio) := by
  intro _
  show decodeClass (packW 0x04 0x04 0) = _
  rw [decodeClass_04 (by simp)]
  simp [decodeCtl]
theorem siAdd (ty : STy) (d : Reg) (a : Reg) (b : Reg) : Statement (.siAdd ty d a b) := by
  intro _
  show decodeClass (packR 0x05 (opFn 0 ty.bits) d a b) = _
  rw [decodeClass_05 (by simp)]
  simp [decodeSi]
theorem siSub (ty : STy) (d : Reg) (a : Reg) (b : Reg) : Statement (.siSub ty d a b) := by
  intro _
  show decodeClass (packR 0x05 (opFn 1 ty.bits) d a b) = _
  rw [decodeClass_05 (by simp)]
  simp [decodeSi]
theorem siMul (ty : STy) (d : Reg) (a : Reg) (b : Reg) : Statement (.siMul ty d a b) := by
  intro _
  show decodeClass (packR 0x05 (opFn 2 ty.bits) d a b) = _
  rw [decodeClass_05 (by simp)]
  simp [decodeSi]
theorem siMulh (ty : STy) (d : Reg) (a : Reg) (b : Reg) : Statement (.siMulh ty d a b) := by
  intro _
  show decodeClass (packR 0x05 (opFn 3 ty.bits) d a b) = _
  rw [decodeClass_05 (by simp)]
  simp [decodeSi]
theorem siDiv (ty : STy) (d : Reg) (a : Reg) (b : Reg) : Statement (.siDiv ty d a b) := by
  intro _
  show decodeClass (packR 0x05 (opFn 5 ty.bits) d a b) = _
  rw [decodeClass_05 (by simp)]
  simp [decodeSi]
theorem siRem (ty : STy) (d : Reg) (a : Reg) (b : Reg) : Statement (.siRem ty d a b) := by
  intro _
  show decodeClass (packR 0x05 (opFn 6 ty.bits) d a b) = _
  rw [decodeClass_05 (by simp)]
  simp [decodeSi]
theorem siMin (ty : STy) (d : Reg) (a : Reg) (b : Reg) : Statement (.siMin ty d a b) := by
  intro _
  show decodeClass (packR 0x05 (opFn 7 ty.bits) d a b) = _
  rw [decodeClass_05 (by simp)]
  simp [decodeSi]
theorem siMax (ty : STy) (d : Reg) (a : Reg) (b : Reg) : Statement (.siMax ty d a b) := by
  intro _
  show decodeClass (packR 0x05 (opFn 8 ty.bits) d a b) = _
  rw [decodeClass_05 (by simp)]
  simp [decodeSi]
theorem siMov (d : Reg) (a : Reg) : Statement (.siMov d a) := by
  intro _
  show decodeClass (packR 0x05 (opFn 9 2) d a 0) = _
  rw [decodeClass_05 (by simp)]
  simp [decodeSi]
theorem siCmp (cond : Cond) (ty : STy) (d : Reg) (a : Reg) (b : Reg) : Statement (.siCmp cond ty d a b) := by
  intro _
  show decodeClass (packR 0x05 (opFn (cond.fn 10) ty.bits) d a b) = _
  rw [decodeClass_05 (by simp)]
  cases cond <;>
  simp (disch := decide) [decodeSi, Cond.fn, Cond.bits, FTy.ofBits]
theorem siAnd (d : Reg) (a : Reg) (b : Reg) : Statement (.siAnd d a b) := by
  intro _
  show decodeClass (packR 0x05 (opFn 14 0) d a b) = _
  rw [decodeClass_05 (by simp)]
  simp [decodeSi]
theorem siOr (d : Reg) (a : Reg) (b : Reg) : Statement (.siOr d a b) := by
  intro _
  show decodeClass (packR 0x05 (opFn 14 1) d a b) = _
  rw [decodeClass_05 (by simp)]
  simp [decodeSi]
theorem siXor (d : Reg) (a : Reg) (b : Reg) : Statement (.siXor d a b) := by
  intro _
  show decodeClass (packR 0x05 (opFn 14 2) d a b) = _
  rw [decodeClass_05 (by simp)]
  simp [decodeSi]
theorem siShl (d : Reg) (a : Reg) (b : Reg) : Statement (.siShl d a b) := by
  intro _
  show decodeClass (packR 0x05 (opFn 15 0) d a b) = _
  rw [decodeClass_05 (by simp)]
  simp [decodeSi]
theorem siShr (d : Reg) (a : Reg) (b : Reg) : Statement (.siShr d a b) := by
  intro _
  show decodeClass (packR 0x05 (opFn 15 1) d a b) = _
  rw [decodeClass_05 (by simp)]
  simp [decodeSi]
theorem siSra (d : Reg) (a : Reg) (b : Reg) : Statement (.siSra d a b) := by
  intro _
  show decodeClass (packR 0x05 (opFn 15 2) d a b) = _
  rw [decodeClass_05 (by simp)]
  simp [decodeSi]
theorem siiAddi (d : Reg) (a : Reg) (imm : BitVec 10) : Statement (.siiAddi d a imm) := by
  intro _
  show decodeClass (packI 0x06 0 d a imm) = _
  rw [decodeClass_06 (by simp)]
  simp [decodeSii]
theorem siiAndi (d : Reg) (a : Reg) (imm : BitVec 10) : Statement (.siiAndi d a imm) := by
  intro _
  show decodeClass (packI 0x06 1 d a imm) = _
  rw [decodeClass_06 (by simp)]
  simp [decodeSii]
theorem siiOri (d : Reg) (a : Reg) (imm : BitVec 10) : Statement (.siiOri d a imm) := by
  intro _
  show decodeClass (packI 0x06 2 d a imm) = _
  rw [decodeClass_06 (by simp)]
  simp [decodeSii]
theorem siiXori (d : Reg) (a : Reg) (imm : BitVec 10) : Statement (.siiXori d a imm) := by
  intro _
  show decodeClass (packI 0x06 3 d a imm) = _
  rw [decodeClass_06 (by simp)]
  simp [decodeSii]
theorem siiShli (d : Reg) (a : Reg) (imm : BitVec 10) : Statement (.siiShli d a imm) := by
  intro _
  show decodeClass (packI 0x06 4 d a imm) = _
  rw [decodeClass_06 (by simp)]
  simp [decodeSii]
theorem siiShri (d : Reg) (a : Reg) (imm : BitVec 10) : Statement (.siiShri d a imm) := by
  intro _
  show decodeClass (packI 0x06 5 d a imm) = _
  rw [decodeClass_06 (by simp)]
  simp [decodeSii]
theorem siiCmpi (cond : ICond) (uns : Bool) (d : Reg) (a : Reg) (imm : BitVec 6) : Statement (.siiCmpi cond uns d a imm) := by
  intro _
  show decodeClass (packI 0x06 6 d a (immCmpi cond uns imm)) = _
  rw [decodeClass_06 (by simp)]
  simp (disch := decide) [decodeSii, ext_packI, bit_packI, immCmpi_bit, -BitVec.getLsbD_eq_getElem]
theorem siiMovi (d : Reg) (imm : BitVec 10) : Statement (.siiMovi d imm) := by
  intro _
  show decodeClass (packI 0x06 7 d 0 imm) = _
  rw [decodeClass_06 (by simp)]
  simp [decodeSii]
theorem sluHi (d : Reg) (imm : BitVec 19) : Statement (.sluHi d imm) := by
  intro _
  show decodeClass (packU 0 d imm) = _
  rw [decodeClass_07 (by simp)]
  simp [decodeSlu]
theorem sluPc (d : Reg) (imm : BitVec 19) : Statement (.sluPc d imm) := by
  intro _
  show decodeClass (packU 1 d imm) = _
  rw [decodeClass_07 (by simp)]
  simp [decodeSlu]
theorem viAdd (ty : VTy) (d : Reg) (a : Reg) (b : Reg) : Statement (.viAdd ty d a b) := by
  intro _
  show decodeClass (packR 0x08 (opFn 0 ty.bits) d a b) = _
  rw [decodeClass_08 (by simp)]
  simp [decodeVi]
theorem viSub (ty : VTy) (d : Reg) (a : Reg) (b : Reg) : Statement (.viSub ty d a b) := by
  intro _
  show decodeClass (packR 0x08 (opFn 1 ty.bits) d a b) = _
  rw [decodeClass_08 (by simp)]
  simp [decodeVi]
theorem viMul (ty : VTy) (d : Reg) (a : Reg) (b : Reg) : Statement (.viMul ty d a b) := by
  intro _
  show decodeClass (packR 0x08 (opFn 2 ty.bits) d a b) = _
  rw [decodeClass_08 (by simp)]
  simp [decodeVi]
theorem viMulh (ty : VTy) (d : Reg) (a : Reg) (b : Reg) : Statement (.viMulh ty d a b) := by
  intro _
  show decodeClass (packR 0x08 (opFn 3 ty.bits) d a b) = _
  rw [decodeClass_08 (by simp)]
  simp [decodeVi]
theorem viMad (ty : VTy) (d : Reg) (a : Reg) (b : Reg) : Statement (.viMad ty d a b) := by
  intro _
  show decodeClass (packR 0x08 (opFn 4 ty.bits) d a b) = _
  rw [decodeClass_08 (by simp)]
  simp [decodeVi]
theorem viDiv (ty : VTy) (d : Reg) (a : Reg) (b : Reg) : Statement (.viDiv ty d a b) := by
  intro _
  show decodeClass (packR 0x08 (opFn 5 ty.bits) d a b) = _
  rw [decodeClass_08 (by simp)]
  simp [decodeVi]
theorem viRem (ty : VTy) (d : Reg) (a : Reg) (b : Reg) : Statement (.viRem ty d a b) := by
  intro _
  show decodeClass (packR 0x08 (opFn 6 ty.bits) d a b) = _
  rw [decodeClass_08 (by simp)]
  simp [decodeVi]
theorem viMin (ty : VTy) (d : Reg) (a : Reg) (b : Reg) : Statement (.viMin ty d a b) := by
  intro _
  show decodeClass (packR 0x08 (opFn 7 ty.bits) d a b) = _
  rw [decodeClass_08 (by simp)]
  simp [decodeVi]
theorem viMax (ty : VTy) (d : Reg) (a : Reg) (b : Reg) : Statement (.viMax ty d a b) := by
  intro _
  show decodeClass (packR 0x08 (opFn 8 ty.bits) d a b) = _
  rw [decodeClass_08 (by simp)]
  simp [decodeVi]
theorem viAbs (ty : VTy) (d : Reg) (a : Reg) : Statement (.viAbs ty d a) := by
  intro _
  show decodeClass (packR 0x08 (opFn 9 ty.bits) d a 0) = _
  rw [decodeClass_08 (by simp)]
  simp [decodeVi]
theorem viNeg (ty : VTy) (d : Reg) (a : Reg) : Statement (.viNeg ty d a) := by
  intro _
  show decodeClass (packR 0x08 (opFn 9 ty.bits) d a 1) = _
  rw [decodeClass_08 (by simp)]
  simp [decodeVi]
theorem viClz (d : Reg) (a : Reg) : Statement (.viClz d a) := by
  intro _
  show decodeClass (packR 0x08 (opFn 9 2) d a 2) = _
  rw [decodeClass_08 (by simp)]
  simp [decodeVi]
theorem viPopc (d : Reg) (a : Reg) : Statement (.viPopc d a) := by
  intro _
  show decodeClass (packR 0x08 (opFn 9 2) d a 3) = _
  rw [decodeClass_08 (by simp)]
  simp [decodeVi]
theorem viMov (d : Reg) (a : Reg) : Statement (.viMov d a) := by
  intro _
  show decodeClass (packR 0x08 (opFn 9 2) d a 4) = _
  rw [decodeClass_08 (by simp)]
  simp [decodeVi]
theorem viCmp (cond : Cond) (ty : VTy) (d : Reg) (a : Reg) (b : Reg) : Statement (.viCmp cond ty d a b) := by
  intro _
  show decodeClass (packR 0x08 (opFn (cond.fn 10) ty.bits) d a b) = _
  rw [decodeClass_08 (by simp)]
  cases cond <;>
  simp (disch := decide) [decodeVi, Cond.fn, Cond.bits, FTy.ofBits]
theorem viAnd (d : Reg) (a : Reg) (b : Reg) : Statement (.viAnd d a b) := by
  intro _
  show decodeClass (packR 0x08 (opFn 14 0) d a b) = _
  rw [decodeClass_08 (by simp)]
  simp [decodeVi]
theorem viOr (d : Reg) (a : Reg) (b : Reg) : Statement (.viOr d a b) := by
  intro _
  show decodeClass (packR 0x08 (opFn 14 1) d a b) = _
  rw [decodeClass_08 (by simp)]
  simp [decodeVi]
theorem viXor (d : Reg) (a : Reg) (b : Reg) : Statement (.viXor d a b) := by
  intro _
  show decodeClass (packR 0x08 (opFn 14 2) d a b) = _
  rw [decodeClass_08 (by simp)]
  simp [decodeVi]
theorem viShl (d : Reg) (a : Reg) (b : Reg) : Statement (.viShl d a b) := by
  intro _
  show decodeClass (packR 0x08 (opFn 15 0) d a b) = _
  rw [decodeClass_08 (by simp)]
  simp [decodeVi]
theorem viShr (d : Reg) (a : Reg) (b : Reg) : Statement (.viShr d a b) := by
  intro _
  show decodeClass (packR 0x08 (opFn 15 1) d a b) = _
  rw [decodeClass_08 (by simp)]
  simp [decodeVi]
theorem viSra (d : Reg) (a : Reg) (b : Reg) : Statement (.viSra d a b) := by
  intro _
  show decodeClass (packR 0x08 (opFn 15 2) d a b) = _
  rw [decodeClass_08 (by simp)]
  simp [decodeVi]
theorem viiAddi (d : Reg) (a : Reg) (imm : BitVec 10) : Statement (.viiAddi d a imm) := by
  intro _
  show decodeClass (packI 0x09 0 d a imm) = _
  rw [decodeClass_09 (by simp)]
  simp [decodeVii]
theorem viiAndi (d : Reg) (a : Reg) (imm : BitVec 10) : Statement (.viiAndi d a imm) := by
  intro _
  show decodeClass (packI 0x09 1 d a imm) = _
  rw [decodeClass_09 (by simp)]
  simp [decodeVii]
theorem viiOri (d : Reg) (a : Reg) (imm : BitVec 10) : Statement (.viiOri d a imm) := by
  intro _
  show decodeClass (packI 0x09 2 d a imm) = _
  rw [decodeClass_09 (by simp)]
  simp [decodeVii]
theorem viiXori (d : Reg) (a : Reg) (imm : BitVec 10) : Statement (.viiXori d a imm) := by
  intro _
  show decodeClass (packI 0x09 3 d a imm) = _
  rw [decodeClass_09 (by simp)]
  simp [decodeVii]
theorem viiShli (d : Reg) (a : Reg) (imm : BitVec 10) : Statement (.viiShli d a imm) := by
  intro _
  show decodeClass (packI 0x09 4 d a imm) = _
  rw [decodeClass_09 (by simp)]
  simp [decodeVii]
theorem viiShri (d : Reg) (a : Reg) (imm : BitVec 10) : Statement (.viiShri d a imm) := by
  intro _
  show decodeClass (packI 0x09 5 d a imm) = _
  rw [decodeClass_09 (by simp)]
  simp [decodeVii]
theorem viiCmpi (cond : ICond) (uns : Bool) (d : Reg) (a : Reg) (imm : BitVec 6) : Statement (.viiCmpi cond uns d a imm) := by
  intro _
  show decodeClass (packI 0x09 6 d a (immCmpi cond uns imm)) = _
  rw [decodeClass_09 (by simp)]
  simp (disch := decide) [decodeVii, ext_packI, bit_packI, immCmpi_bit, -BitVec.getLsbD_eq_getElem]
theorem viiMovi (d : Reg) (imm : BitVec 10) : Statement (.viiMovi d imm) := by
  intro _
  show decodeClass (packI 0x09 7 d 0 imm) = _
  rw [decodeClass_09 (by simp)]
  simp [decodeVii]
theorem vfAdd (ty : FTy) (d : Reg) (a : Reg) (b : Reg) : Statement (.vfAdd ty d a b) := by
  intro _
  show decodeClass (packR 0x0A (opFn 0 ty.bits) d a b) = _
  rw [decodeClass_0A (by simp)]
  simp [decodeVf]
theorem vfSub (ty : FTy) (d : Reg) (a : Reg) (b : Reg) : Statement (.vfSub ty d a b) := by
  intro _
  show decodeClass (packR 0x0A (opFn 1 ty.bits) d a b) = _
  rw [decodeClass_0A (by simp)]
  simp [decodeVf]
theorem vfMul (ty : FTy) (d : Reg) (a : Reg) (b : Reg) : Statement (.vfMul ty d a b) := by
  intro _
  show decodeClass (packR 0x0A (opFn 2 ty.bits) d a b) = _
  rw [decodeClass_0A (by simp)]
  simp [decodeVf]
theorem vfFma (ty : FTy) (d : Reg) (a : Reg) (b : Reg) : Statement (.vfFma ty d a b) := by
  intro _
  show decodeClass (packR 0x0A (opFn 3 ty.bits) d a b) = _
  rw [decodeClass_0A (by simp)]
  simp [decodeVf]
theorem vfDiv (ty : FTy) (d : Reg) (a : Reg) (b : Reg) : Statement (.vfDiv ty d a b) := by
  intro _
  show decodeClass (packR 0x0A (opFn 4 ty.bits) d a b) = _
  rw [decodeClass_0A (by simp)]
  simp [decodeVf]
theorem vfMin (ty : FTy) (d : Reg) (a : Reg) (b : Reg) : Statement (.vfMin ty d a b) := by
  intro _
  show decodeClass (packR 0x0A (opFn 5 ty.bits) d a b) = _
  rw [decodeClass_0A (by simp)]
  simp [decodeVf]
theorem vfMax (ty : FTy) (d : Reg) (a : Reg) (b : Reg) : Statement (.vfMax ty d a b) := by
  intro _
  show decodeClass (packR 0x0A (opFn 6 ty.bits) d a b) = _
  rw [decodeClass_0A (by simp)]
  simp [decodeVf]
theorem vfAbs (ty : FTy) (d : Reg) (a : Reg) : Statement (.vfAbs ty d a) := by
  intro _
  show decodeClass (packR 0x0A (opFn 7 ty.bits) d a 0) = _
  rw [decodeClass_0A (by simp)]
  simp [decodeVf]
theorem vfNeg (ty : FTy) (d : Reg) (a : Reg) : Statement (.vfNeg ty d a) := by
  intro _
  show decodeClass (packR 0x0A (opFn 7 ty.bits) d a 1) = _
  rw [decodeClass_0A (by simp)]
  simp [decodeVf]
theorem vfRcp (ty : FTy) (d : Reg) (a : Reg) : Statement (.vfRcp ty d a) := by
  intro _
  show decodeClass (packR 0x0A (opFn 7 ty.bits) d a 2) = _
  rw [decodeClass_0A (by simp)]
  simp [decodeVf]
theorem vfRsq (ty : FTy) (d : Reg) (a : Reg) : Statement (.vfRsq ty d a) := by
  intro _
  show decodeClass (packR 0x0A (opFn 7 ty.bits) d a 3) = _
  rw [decodeClass_0A (by simp)]
  simp [decodeVf]
theorem vfSqrt (ty : FTy) (d : Reg) (a : Reg) : Statement (.vfSqrt ty d a) := by
  intro _
  show decodeClass (packR 0x0A (opFn 7 ty.bits) d a 4) = _
  rw [decodeClass_0A (by simp)]
  simp [decodeVf]
theorem vfExp2 (ty : FTy) (d : Reg) (a : Reg) : Statement (.vfExp2 ty d a) := by
  intro _
  show decodeClass (packR 0x0A (opFn 7 ty.bits) d a 5) = _
  rw [decodeClass_0A (by simp)]
  simp [decodeVf]
theorem vfLog2 (ty : FTy) (d : Reg) (a : Reg) : Statement (.vfLog2 ty d a) := by
  intro _
  show decodeClass (packR 0x0A (opFn 7 ty.bits) d a 6) = _
  rw [decodeClass_0A (by simp)]
  simp [decodeVf]
theorem vfFloor (ty : FTy) (d : Reg) (a : Reg) : Statement (.vfFloor ty d a) := by
  intro _
  show decodeClass (packR 0x0A (opFn 7 ty.bits) d a 7) = _
  rw [decodeClass_0A (by simp)]
  simp [decodeVf]
theorem vfMov (ty : FTy) (d : Reg) (a : Reg) : Statement (.vfMov ty d a) := by
  intro _
  show decodeClass (packR 0x0A (opFn 7 ty.bits) d a 8) = _
  rw [decodeClass_0A (by simp)]
  simp [decodeVf]
theorem vfCmp (cond : Cond) (d : Reg) (a : Reg) (b : Reg) : Statement (.vfCmp cond d a b) := by
  intro _
  show decodeClass (packR 0x0A (opFn (cond.fn 8) 0) d a b) = _
  rw [decodeClass_0A (by simp)]
  cases cond <;>
  simp (disch := decide) [decodeVf, Cond.fn, Cond.bits, FTy.ofBits]
theorem vdAdd (d : Reg) (a : Reg) (b : Reg) : Statement (.vdAdd d a b) := by
  intro _
  show decodeClass (packR 0x0B 0x00 d a b) = _
  rw [decodeClass_0B (by simp)]
  simp [decodeVd]
theorem vdSub (d : Reg) (a : Reg) (b : Reg) : Statement (.vdSub d a b) := by
  intro _
  show decodeClass (packR 0x0B 0x01 d a b) = _
  rw [decodeClass_0B (by simp)]
  simp [decodeVd]
theorem vdMul (d : Reg) (a : Reg) (b : Reg) : Statement (.vdMul d a b) := by
  intro _
  show decodeClass (packR 0x0B 0x02 d a b) = _
  rw [decodeClass_0B (by simp)]
  simp [decodeVd]
theorem vdFma (d : Reg) (a : Reg) (b : Reg) : Statement (.vdFma d a b) := by
  intro _
  show decodeClass (packR 0x0B 0x03 d a b) = _
  rw [decodeClass_0B (by simp)]
  simp [decodeVd]
theorem vdDiv (d : Reg) (a : Reg) (b : Reg) : Statement (.vdDiv d a b) := by
  intro _
  show decodeClass (packR 0x0B 0x04 d a b) = _
  rw [decodeClass_0B (by simp)]
  simp [decodeVd]
theorem vdSqrt (d : Reg) (a : Reg) : Statement (.vdSqrt d a) := by
  intro _
  show decodeClass (packR 0x0B 0x05 d a 0) = _
  rw [decodeClass_0B (by simp)]
  simp [decodeVd]
theorem vdMin (d : Reg) (a : Reg) (b : Reg) : Statement (.vdMin d a b) := by
  intro _
  show decodeClass (packR 0x0B 0x06 d a b) = _
  rw [decodeClass_0B (by simp)]
  simp [decodeVd]
theorem vdMax (d : Reg) (a : Reg) (b : Reg) : Statement (.vdMax d a b) := by
  intro _
  show decodeClass (packR 0x0B 0x07 d a b) = _
  rw [decodeClass_0B (by simp)]
  simp [decodeVd]
theorem vdCmp (cond : Cond) (d : Reg) (a : Reg) (b : Reg) : Statement (.vdCmp cond d a b) := by
  intro _
  show decodeClass (packR 0x0B (0x08 + cond.bits.setWidth 6) d a b) = _
  rw [decodeClass_0B (by simp)]
  cases cond <;>
  simp (disch := decide) [decodeVd, Cond.fn, Cond.bits, FTy.ofBits]
theorem vxIsabs (vt : Vt) (d : Reg) (a : Reg) : Statement (.vxIsabs vt d a) := by
  intro _
  show decodeClass (packR 0x0C (opHL 0 vt.bits) d a 0) = _
  rw [decodeClass_0C (by simp)]
  simp [decodeVx]
theorem vxOra (vt : Vt) (d : Reg) (a : Reg) (b : Reg) : Statement (.vxOra vt d a b) := by
  intro _
  show decodeClass (packR 0x0C (opHL 1 vt.bits) d a b) = _
  rw [decodeClass_0C (by simp)]
  simp [decodeVx]
theorem vxMkabs (vt : Vt) (d : Reg) (a : Reg) (b : Reg) : Statement (.vxMkabs vt d a b) := by
  intro _
  show decodeClass (packR 0x0C (opHL 2 vt.bits) d a b) = _
  rw [decodeClass_0C (by simp)]
  simp [decodeVx]
theorem vxSel (vt : Vt) (d : Reg) (a : Reg) (b : Reg) : Statement (.vxSel vt d a b) := by
  intro _
  show decodeClass (packR 0x0C (opHL 3 vt.bits) d a b) = _
  rw [decodeClass_0C (by simp)]
  simp [decodeVx]
theorem vxCvt (rnd : Rnd) (d : Reg) (a : Reg) (h : Bool) (src : Vt) (dst : Vt) : Statement (.vxCvt rnd d a h src dst) := by
  intro _
  show decodeClass (packR 0x0C (opHL 4 rnd.bits) d a (modCvt h src dst)) = _
  rw [decodeClass_0C (by simp)]
  simp (disch := decide) [decodeVx, ext_packR, bit_packR, modCvt_bit, -BitVec.getLsbD_eq_getElem]
theorem vxQand (d : Reg) (a : Reg) (b : Reg) : Statement (.vxQand d a b) := by
  intro _
  show decodeClass (packR 0x0C (opHL 5 0) d a b) = _
  rw [decodeClass_0C (by simp)]
  simp [decodeVx]
theorem vxQor (d : Reg) (a : Reg) (b : Reg) : Statement (.vxQor d a b) := by
  intro _
  show decodeClass (packR 0x0C (opHL 5 1) d a b) = _
  rw [decodeClass_0C (by simp)]
  simp [decodeVx]
theorem vxQnot (d : Reg) (a : Reg) : Statement (.vxQnot d a) := by
  intro _
  show decodeClass (packR 0x0C (opHL 5 2) d a 0) = _
  rw [decodeClass_0C (by simp)]
  simp [decodeVx]
theorem vxQxor (d : Reg) (a : Reg) (b : Reg) : Statement (.vxQxor d a b) := by
  intro _
  show decodeClass (packR 0x0C (opHL 5 3) d a b) = _
  rw [decodeClass_0C (by simp)]
  simp [decodeVx]
theorem vxQmov (d : Reg) (a : Reg) : Statement (.vxQmov d a) := by
  intro _
  show decodeClass (packR 0x0C (opHL 5 4) d a 0) = _
  rw [decodeClass_0C (by simp)]
  simp [decodeVx]
theorem vxQset (d : Reg) (code : Reg) : Statement (.vxQset d code) := by
  intro _
  show decodeClass (packR 0x0C (opHL 5 5) d 0 code) = _
  rw [decodeClass_0C (by simp)]
  simp [decodeVx]
theorem vxQpack (d : Reg) (a : Reg) : Statement (.vxQpack d a) := by
  intro _
  show decodeClass (packR 0x0C (opHL 5 6) d a 0) = _
  rw [decodeClass_0C (by simp)]
  simp [decodeVx]
theorem vxQunpack (d : Reg) (a : Reg) : Statement (.vxQunpack d a) := by
  intro _
  show decodeClass (packR 0x0C (opHL 5 7) d a 0) = _
  rw [decodeClass_0C (by simp)]
  simp [decodeVx]
theorem vcRedAdd (d : Reg) (a : Reg) (vt : Vt) (seg : Seg) : Statement (.vcRedAdd d a vt seg) := by
  intro _
  show decodeClass (packR 0x0D (opHL 0 0) d a (modSeg vt seg)) = _
  rw [decodeClass_0D (by simp)]
  simp (disch := decide) [decodeVc, decodeSeg, ext_packR]
theorem vcRedMin (d : Reg) (a : Reg) (vt : Vt) (seg : Seg) : Statement (.vcRedMin d a vt seg) := by
  intro _
  show decodeClass (packR 0x0D (opHL 0 1) d a (modSeg vt seg)) = _
  rw [decodeClass_0D (by simp)]
  simp (disch := decide) [decodeVc, decodeSeg, ext_packR]
theorem vcRedMax (d : Reg) (a : Reg) (vt : Vt) (seg : Seg) : Statement (.vcRedMax d a vt seg) := by
  intro _
  show decodeClass (packR 0x0D (opHL 0 2) d a (modSeg vt seg)) = _
  rw [decodeClass_0D (by simp)]
  simp (disch := decide) [decodeVc, decodeSeg, ext_packR]
theorem vcScanAdd (d : Reg) (a : Reg) (vt : Vt) (seg : Seg) : Statement (.vcScanAdd d a vt seg) := by
  intro _
  show decodeClass (packR 0x0D (opHL 1 0) d a (modSeg vt seg)) = _
  rw [decodeClass_0D (by simp)]
  simp (disch := decide) [decodeVc, decodeSeg, ext_packR]
theorem vcScanMin (d : Reg) (a : Reg) (vt : Vt) (seg : Seg) : Statement (.vcScanMin d a vt seg) := by
  intro _
  show decodeClass (packR 0x0D (opHL 1 1) d a (modSeg vt seg)) = _
  rw [decodeClass_0D (by simp)]
  simp (disch := decide) [decodeVc, decodeSeg, ext_packR]
theorem vcScanMax (d : Reg) (a : Reg) (vt : Vt) (seg : Seg) : Statement (.vcScanMax d a vt seg) := by
  intro _
  show decodeClass (packR 0x0D (opHL 1 2) d a (modSeg vt seg)) = _
  rw [decodeClass_0D (by simp)]
  simp (disch := decide) [decodeVc, decodeSeg, ext_packR]
theorem vcTopk (k : BitVec 3) (d : Reg) (a : Reg) (vt : Vt) (seg : Seg) : Statement (.vcTopk k d a vt seg) := by
  intro _
  show decodeClass (packR 0x0D (opHL 2 k) d a (modSeg vt seg)) = _
  rw [decodeClass_0D (by simp)]
  simp (disch := decide) [decodeVc, decodeSeg, ext_packR]
theorem vcRebal (d : Reg) (a : Reg) (b : Reg) : Statement (.vcRebal d a b) := by
  intro _
  show decodeClass (packR 0x0D (opHL 3 0) d a b) = _
  rw [decodeClass_0D (by simp)]
  simp [decodeVc]
theorem vcConflict (d : Reg) (a : Reg) : Statement (.vcConflict d a) := by
  intro _
  show decodeClass (packR 0x0D (opHL 4 0) d a 0) = _
  rw [decodeClass_0D (by simp)]
  simp [decodeVc]
theorem vcShflIdx (d : Reg) (a : Reg) (b : Reg) : Statement (.vcShflIdx d a b) := by
  intro _
  show decodeClass (packR 0x0D (opHL 5 0) d a b) = _
  rw [decodeClass_0D (by simp)]
  simp [decodeVc]
theorem vcShflUp (d : Reg) (a : Reg) (b : Reg) : Statement (.vcShflUp d a b) := by
  intro _
  show decodeClass (packR 0x0D (opHL 5 1) d a b) = _
  rw [decodeClass_0D (by simp)]
  simp [decodeVc]
theorem vcShflDown (d : Reg) (a : Reg) (b : Reg) : Statement (.vcShflDown d a b) := by
  intro _
  show decodeClass (packR 0x0D (opHL 5 2) d a b) = _
  rw [decodeClass_0D (by simp)]
  simp [decodeVc]
theorem vcShflXor (d : Reg) (a : Reg) (b : Reg) : Statement (.vcShflXor d a b) := by
  intro _
  show decodeClass (packR 0x0D (opHL 5 3) d a b) = _
  rw [decodeClass_0D (by simp)]
  simp [decodeVc]
theorem vcVoteAny (d : Reg) (a : Reg) : Statement (.vcVoteAny d a) := by
  intro _
  show decodeClass (packR 0x0D (opHL 6 0) d a 0) = _
  rw [decodeClass_0D (by simp)]
  simp [decodeVc]
theorem vcVoteAll (d : Reg) (a : Reg) : Statement (.vcVoteAll d a) := by
  intro _
  show decodeClass (packR 0x0D (opHL 6 1) d a 0) = _
  rw [decodeClass_0D (by simp)]
  simp [decodeVc]
theorem vcVoteNone (d : Reg) (a : Reg) : Statement (.vcVoteNone d a) := by
  intro _
  show decodeClass (packR 0x0D (opHL 6 2) d a 0) = _
  rw [decodeClass_0D (by simp)]
  simp [decodeVc]
theorem vcBcast (d : Reg) (a : Reg) (b : Reg) : Statement (.vcBcast d a b) := by
  intro _
  show decodeClass (packR 0x0D (opHL 7 0) d a b) = _
  rw [decodeClass_0D (by simp)]
  simp [decodeVc]
theorem vcWrlane (d : Reg) (a : Reg) (b : Reg) : Statement (.vcWrlane d a b) := by
  intro _
  show decodeClass (packR 0x0D (opHL 7 1) d a b) = _
  rw [decodeClass_0D (by simp)]
  simp [decodeVc]
theorem ldG (sz : MSz) (d : Reg) (a : Reg) (off : BitVec 9) : Statement (.ldG sz d a off) := by
  intro _
  show decodeClass (packM 0x0E (ldOp 0 sz) d a off) = _
  rw [decodeClass_0E (by simp)]
  cases sz <;>
  simp (disch := decide) [decodeLd, ldOp, ldOpW, MSz.bits, flag]
theorem ldS (sz : MSz) (d : Reg) (a : Reg) (off : BitVec 9) : Statement (.ldS sz d a off) := by
  intro _
  show decodeClass (packM 0x0E (ldOp 1 sz) d a off) = _
  rw [decodeClass_0E (by simp)]
  cases sz <;>
  simp (disch := decide) [decodeLd, ldOp, ldOpW, MSz.bits, flag]
theorem ldC (wide : Bool) (d : Reg) (a : Reg) (off : BitVec 9) : Statement (.ldC wide d a off) := by
  intro _
  show decodeClass (packM 0x0E (ldOpW 4 wide) d a off) = _
  rw [decodeClass_0E (by simp)]
  cases wide <;>
  simp (disch := decide) [decodeLd, ldOp, ldOpW, MSz.bits, flag]
theorem ldK (wide : Bool) (d : Reg) (a : Reg) (off : BitVec 9) : Statement (.ldK wide d a off) := by
  intro _
  show decodeClass (packM 0x0E (ldOpW 5 wide) d a off) = _
  rw [decodeClass_0E (by simp)]
  cases wide <;>
  simp (disch := decide) [decodeLd, ldOp, ldOpW, MSz.bits, flag]
theorem ldStk (d : Reg) (off : BitVec 9) : Statement (.ldStk d off) := by
  intro _
  show decodeClass (packM 0x0E 0xC d 0 off) = _
  rw [decodeClass_0E (by simp)]
  simp (disch := decide) [decodeLd, ldOp, ldOpW, MSz.bits, flag]
theorem stG (sz : MSz) (d : Reg) (a : Reg) (off : BitVec 9) : Statement (.stG sz d a off) := by
  intro _
  show decodeClass (packM 0x0F (ldOp 0 sz) d a off) = _
  rw [decodeClass_0F (by simp)]
  cases sz <;>
  simp (disch := decide) [decodeSt, ldOp, ldOpW, MSz.bits, flag]
theorem stS (sz : MSz) (d : Reg) (a : Reg) (off : BitVec 9) : Statement (.stS sz d a off) := by
  intro _
  show decodeClass (packM 0x0F (ldOp 1 sz) d a off) = _
  rw [decodeClass_0F (by simp)]
  cases sz <;>
  simp (disch := decide) [decodeSt, ldOp, ldOpW, MSz.bits, flag]
theorem stK (wide : Bool) (d : Reg) (a : Reg) (off : BitVec 9) : Statement (.stK wide d a off) := by
  intro _
  show decodeClass (packM 0x0F (ldOpW 5 wide) d a off) = _
  rw [decodeClass_0F (by simp)]
  cases wide <;>
  simp (disch := decide) [decodeSt, ldOp, ldOpW, MSz.bits, flag]
theorem stStk (d : Reg) (off : BitVec 9) : Statement (.stStk d off) := by
  intro _
  show decodeClass (packM 0x0F 0xC d 0 off) = _
  rw [decodeClass_0F (by simp)]
  simp (disch := decide) [decodeSt, ldOp, ldOpW, MSz.bits, flag]
theorem ldxG (sz : MSz) (d : Reg) (a : Reg) (b : Reg) : Statement (.ldxG sz d a b) := by
  intro h
  cases sz
  case b128 => exact absurd (show (_ && false) = true from h) (by simp)
  all_goals
    show decodeClass (packR 0x10 (ldxOp 0 _) d a b) = _
    rw [decodeClass_10 (by simp)]
    simp (disch := decide) [decodeLdx, ldxOp, MSz.bits]
theorem ldxS (sz : MSz) (d : Reg) (a : Reg) (b : Reg) : Statement (.ldxS sz d a b) := by
  intro h
  cases sz
  case b128 => exact absurd (show (_ && false) = true from h) (by simp)
  all_goals
    show decodeClass (packR 0x10 (ldxOp 1 _) d a b) = _
    rw [decodeClass_10 (by simp)]
    simp (disch := decide) [decodeLdx, ldxOp, MSz.bits]
theorem stxG (sz : MSz) (d : Reg) (a : Reg) (b : Reg) : Statement (.stxG sz d a b) := by
  intro h
  cases sz
  case b128 => exact absurd (show (_ && false) = true from h) (by simp)
  all_goals
    show decodeClass (packR 0x11 (ldxOp 0 _) d a b) = _
    rw [decodeClass_11 (by simp)]
    simp (disch := decide) [decodeStx, ldxOp, MSz.bits]
theorem stxS (sz : MSz) (d : Reg) (a : Reg) (b : Reg) : Statement (.stxS sz d a b) := by
  intro h
  cases sz
  case b128 => exact absurd (show (_ && false) = true from h) (by simp)
  all_goals
    show decodeClass (packR 0x11 (ldxOp 1 _) d a b) = _
    rw [decodeClass_11 (by simp)]
    simp (disch := decide) [decodeStx, ldxOp, MSz.bits]
theorem atAdd (ty : AtTy) (d : Reg) (a : Reg) (sc : Sc) (ord : Ord4) : Statement (.atAdd ty d a sc ord) := by
  intro _
  show decodeClass (packR 0x12 (opHL 0 ty.bits) d a (modAt sc ord)) = _
  rw [decodeClass_12 (by simp)]
  cases ty <;>
  simp (disch := decide) [decodeAt, opHL, opW, flag, AtTy.bits, AtMm.bits, AtMm.maxOp, ext_packR, opBit_packR _ _ _ _ _ 21 0 rfl, -BitVec.getLsbD_eq_getElem]
theorem atFadd (wide : Bool) (d : Reg) (a : Reg) (sc : Sc) (ord : Ord4) : Statement (.atFadd wide d a sc ord) := by
  intro _
  show decodeClass (packR 0x12 (opW 0x03 wide) d a (modAt sc ord)) = _
  rw [decodeClass_12 (by simp)]
  cases wide <;>
  simp (disch := decide) [decodeAt, opHL, opW, flag, AtTy.bits, AtMm.bits, AtMm.maxOp, ext_packR, opBit_packR _ _ _ _ _ 21 0 rfl, -BitVec.getLsbD_eq_getElem]
theorem atMin (ty : AtMm) (d : Reg) (a : Reg) (sc : Sc) (ord : Ord4) : Statement (.atMin ty d a sc ord) := by
  intro _
  show decodeClass (packR 0x12 (opHL 1 ty.bits) d a (modAt sc ord)) = _
  rw [decodeClass_12 (by simp)]
  cases ty <;>
  simp (disch := decide) [decodeAt, opHL, opW, flag, AtTy.bits, AtMm.bits, AtMm.maxOp, ext_packR, opBit_packR _ _ _ _ _ 21 0 rfl, -BitVec.getLsbD_eq_getElem]
theorem atMax (ty : AtMm) (d : Reg) (a : Reg) (sc : Sc) (ord : Ord4) : Statement (.atMax ty d a sc ord) := by
  intro _
  show decodeClass (packR 0x12 ty.maxOp d a (modAt sc ord)) = _
  rw [decodeClass_12 (by simp)]
  cases ty <;>
  simp (disch := decide) [decodeAt, opHL, opW, flag, AtTy.bits, AtMm.bits, AtMm.maxOp, ext_packR, opBit_packR _ _ _ _ _ 21 0 rfl, -BitVec.getLsbD_eq_getElem]
theorem atAnd (wide : Bool) (d : Reg) (a : Reg) (sc : Sc) (ord : Ord4) : Statement (.atAnd wide d a sc ord) := by
  intro _
  show decodeClass (packR 0x12 (opW 0x0A wide) d a (modAt sc ord)) = _
  rw [decodeClass_12 (by simp)]
  cases wide <;>
  simp (disch := decide) [decodeAt, opHL, opW, flag, AtTy.bits, AtMm.bits, AtMm.maxOp, ext_packR, opBit_packR _ _ _ _ _ 21 0 rfl, -BitVec.getLsbD_eq_getElem]
theorem atOr (wide : Bool) (d : Reg) (a : Reg) (sc : Sc) (ord : Ord4) : Statement (.atOr wide d a sc ord) := by
  intro _
  show decodeClass (packR 0x12 (opW 0x0B wide) d a (modAt sc ord)) = _
  rw [decodeClass_12 (by simp)]
  cases wide <;>
  simp (disch := decide) [decodeAt, opHL, opW, flag, AtTy.bits, AtMm.bits, AtMm.maxOp, ext_packR, opBit_packR _ _ _ _ _ 21 0 rfl, -BitVec.getLsbD_eq_getElem]
theorem atXor (wide : Bool) (d : Reg) (a : Reg) (sc : Sc) (ord : Ord4) : Statement (.atXor wide d a sc ord) := by
  intro _
  show decodeClass (packR 0x12 (opW 0x0C wide) d a (modAt sc ord)) = _
  rw [decodeClass_12 (by simp)]
  cases wide <;>
  simp (disch := decide) [decodeAt, opHL, opW, flag, AtTy.bits, AtMm.bits, AtMm.maxOp, ext_packR, opBit_packR _ _ _ _ _ 21 0 rfl, -BitVec.getLsbD_eq_getElem]
theorem atXchg (wide : Bool) (d : Reg) (a : Reg) (sc : Sc) (ord : Ord4) : Statement (.atXchg wide d a sc ord) := by
  intro _
  show decodeClass (packR 0x12 (opW 0x0D wide) d a (modAt sc ord)) = _
  rw [decodeClass_12 (by simp)]
  cases wide <;>
  simp (disch := decide) [decodeAt, opHL, opW, flag, AtTy.bits, AtMm.bits, AtMm.maxOp, ext_packR, opBit_packR _ _ _ _ _ 21 0 rfl, -BitVec.getLsbD_eq_getElem]
theorem atCas (wide : Bool) (d : Reg) (a : Reg) (sc : Sc) (ord : Ord4) : Statement (.atCas wide d a sc ord) := by
  intro _
  show decodeClass (packR 0x12 (opW 0x0E wide) d a (modAt sc ord)) = _
  rw [decodeClass_12 (by simp)]
  cases wide <;>
  simp (disch := decide) [decodeAt, opHL, opW, flag, AtTy.bits, AtMm.bits, AtMm.maxOp, ext_packR, opBit_packR _ _ _ _ _ 21 0 rfl, -BitVec.getLsbD_eq_getElem]
theorem atSlot (wide : Bool) (d : Reg) (a : Reg) (sc : Sc) (ord : Ord4) : Statement (.atSlot wide d a sc ord) := by
  intro _
  show decodeClass (packR 0x12 (opW 0x0F wide) d a (modAt sc ord)) = _
  rw [decodeClass_12 (by simp)]
  cases wide <;>
  simp (disch := decide) [decodeAt, opHL, opW, flag, AtTy.bits, AtMm.bits, AtMm.maxOp, ext_packR, opBit_packR _ _ _ _ _ 21 0 rfl, -BitVec.getLsbD_eq_getElem]
theorem synBar (reg : Reg) (obj : Bool) (bar : BitVec 4) : Statement (.synBar reg obj bar) := by
  intro _
  show decodeClass (packW 0x13 0x00 (immBar reg obj bar)) = _
  rw [decodeClass_13 (by simp)]
  simp (disch := decide) [decodeSyn, ext_packW, bit_packW, immBar_bit, -BitVec.getLsbD_eq_getElem]
theorem synArrive (reg : Reg) (obj : Bool) (bar : BitVec 4) : Statement (.synArrive reg obj bar) := by
  intro _
  show decodeClass (packW 0x13 0x01 (immBar reg obj bar)) = _
  rw [decodeClass_13 (by simp)]
  simp (disch := decide) [decodeSyn, ext_packW, bit_packW, immBar_bit, -BitVec.getLsbD_eq_getElem]
theorem synBwait (reg : Reg) (obj : Bool) (bar : BitVec 4) : Statement (.synBwait reg obj bar) := by
  intro _
  show decodeClass (packW 0x13 0x02 (immBar reg obj bar)) = _
  rw [decodeClass_13 (by simp)]
  simp (disch := decide) [decodeSyn, ext_packW, bit_packW, immBar_bit, -BitVec.getLsbD_eq_getElem]
theorem synFence (sc : Sc) (kind : FKind) : Statement (.synFence sc kind) := by
  intro _
  show decodeClass (packW 0x13 0x03 ((0 : BitVec 16) ++ sc.bits ++ kind.bits)) = _
  rw [decodeClass_13 (by simp)]
  simp (disch := decide) [decodeSyn, ext_packW, bit_packW, immBar_bit, -BitVec.getLsbD_eq_getElem]
  cases sc <;> cases kind <;> rfl
theorem synWaitc (loads : BitVec 3) (stores : BitVec 3) (tiles : BitVec 3) : Statement (.synWaitc loads stores tiles) := by
  intro _
  show decodeClass (packW 0x13 0x04 ((0 : BitVec 12) ++ loads ++ stores ++ tiles)) = _
  rw [decodeClass_13 (by simp)]
  simp (disch := decide) [decodeSyn, ext_packW, bit_packW, immBar_bit, -BitVec.getLsbD_eq_getElem]
  erw [waitc_9_12, waitc_6_3, waitc_3_3, waitc_0_3]
  simp
theorem synWaitcmp (wide : Bool) (ne : Bool) (d : Reg) (a : Reg) (b : Reg) : Statement (.synWaitcmp wide ne d a b) := by
  intro _
  show decodeClass (packR 0x13 ((2 : BitVec 4) ++ flag wide ++ flag ne) d a b) = _
  rw [decodeClass_13 (by simp)]
  cases wide <;> cases ne <;>
  simp (disch := decide) [decodeSyn, flag]
theorem synSigadd (sc : Sc) (d : Reg) (a : Reg) (b : Reg) : Statement (.synSigadd sc d a b) := by
  intro _
  show decodeClass (packR 0x13 (opHL 2 sc.bits) d a b) = _
  rw [decodeClass_13 (by simp)]
  simp [decodeSyn]
theorem synSigwait (sc : Sc) (d : Reg) (a : Reg) (b : Reg) : Statement (.synSigwait sc d a b) := by
  intro _
  show decodeClass (packR 0x13 (opHL 3 sc.bits) d a b) = _
  rw [decodeClass_13 (by simp)]
  simp [decodeSyn]
theorem wqPush (d : Reg) (a : Reg) (b : Reg) : Statement (.wqPush d a b) := by
  intro _
  show decodeClass (packR 0x14 0x00 d a b) = _
  rw [decodeClass_14 (by simp)]
  simp [decodeWq]
theorem wqPop (d : Reg) (a : Reg) (b : Reg) : Statement (.wqPop d a b) := by
  intro _
  show decodeClass (packR 0x14 0x01 d a b) = _
  rw [decodeClass_14 (by simp)]
  simp [decodeWq]
theorem wqTrypop (d : Reg) (a : Reg) (b : Reg) : Statement (.wqTrypop d a b) := by
  intro _
  show decodeClass (packR 0x14 0x02 d a b) = _
  rw [decodeClass_14 (by simp)]
  simp [decodeWq]
theorem wqLaunch (d : Reg) (a : Reg) (b : Reg) : Statement (.wqLaunch d a b) := by
  intro _
  show decodeClass (packR 0x14 0x03 d a b) = _
  rw [decodeClass_14 (by simp)]
  simp [decodeWq]
theorem tlSetfmt (a : Reg) : Statement (.tlSetfmt a) := by
  intro _
  show decodeClass (packR 0x15 0x00 0 a 0) = _
  rw [decodeClass_15 (by simp)]
  simp (disch := decide) [decodeTl, opBit_packR _ _ _ _ _ 26 5 rfl, opBit_packR _ _ _ _ _ 25 4 rfl, opBit_packR _ _ _ _ _ 24 3 rfl, mma_bits, -BitVec.getLsbD_eq_getElem]
theorem tlDrain (d : Reg) (a : Reg) : Statement (.tlDrain d a) := by
  intro _
  show decodeClass (packR 0x15 0x01 d a 0) = _
  rw [decodeClass_15 (by simp)]
  simp (disch := decide) [decodeTl, opBit_packR _ _ _ _ _ 26 5 rfl, opBit_packR _ _ _ _ _ 25 4 rfl, opBit_packR _ _ _ _ _ 24 3 rfl, mma_bits, -BitVec.getLsbD_eq_getElem]
theorem tlZero (d : Reg) : Statement (.tlZero d) := by
  intro _
  show decodeClass (packR 0x15 0x02 d 0 0) = _
  rw [decodeClass_15 (by simp)]
  simp (disch := decide) [decodeTl, opBit_packR _ _ _ _ _ 26 5 rfl, opBit_packR _ _ _ _ _ 25 4 rfl, opBit_packR _ _ _ _ _ 24 3 rfl, mma_bits, -BitVec.getLsbD_eq_getElem]
theorem tlLoad (d : Reg) (a : Reg) : Statement (.tlLoad d a) := by
  intro _
  show decodeClass (packR 0x15 0x03 d a 0) = _
  rw [decodeClass_15 (by simp)]
  simp (disch := decide) [decodeTl, opBit_packR _ _ _ _ _ 26 5 rfl, opBit_packR _ _ _ _ _ 25 4 rfl, opBit_packR _ _ _ _ _ 24 3 rfl, mma_bits, -BitVec.getLsbD_eq_getElem]
theorem tlMma (reuse : Bool) (kc : Bool) (kn : BitVec 3) (d : Reg) (a : Reg) (b : Reg) : Statement (.tlMma reuse kc kn d a b) := by
  intro _
  show decodeClass (packR 0x15 ((1 : BitVec 1) ++ flag reuse ++ flag kc ++ kn) d a b) = _
  rw [decodeClass_15 (by simp)]
  simp (disch := decide) [decodeTl, opBit_packR _ _ _ _ _ 26 5 rfl, opBit_packR _ _ _ _ _ 25 4 rfl, opBit_packR _ _ _ _ _ 24 3 rfl, mma_bits, -BitVec.getLsbD_eq_getElem]
  obtain ⟨h5, h4, h3⟩ := mma_bits reuse kc kn
  erw [h5, h4, h3, mma_0_3]
  simp
theorem cpyG2s (d : Reg) (a : Reg) (b : Reg) : Statement (.cpyG2s d a b) := by
  intro _
  show decodeClass (packR 0x16 0x00 d a b) = _
  rw [decodeClass_16 (by simp)]
  simp [decodeCpy]
theorem cpyS2g (d : Reg) (a : Reg) (b : Reg) : Statement (.cpyS2g d a b) := by
  intro _
  show decodeClass (packR 0x16 0x01 d a b) = _
  rw [decodeClass_16 (by simp)]
  simp [decodeCpy]
theorem cpyG2g (d : Reg) (a : Reg) (b : Reg) : Statement (.cpyG2g d a b) := by
  intro _
  show decodeClass (packR 0x16 0x02 d a b) = _
  rw [decodeClass_16 (by simp)]
  simp [decodeCpy]
theorem cpyBatch (d : Reg) (a : Reg) : Statement (.cpyBatch d a) := by
  intro _
  show decodeClass (packR 0x16 0x03 d a 0) = _
  rw [decodeClass_16 (by simp)]
  simp [decodeCpy]
theorem cpyWait (a : Reg) : Statement (.cpyWait a) := by
  intro _
  show decodeClass (packR 0x16 0x04 0 a 0) = _
  rw [decodeClass_16 (by simp)]
  simp [decodeCpy]
theorem cpyBind (d : Reg) (a : Reg) (b : Reg) : Statement (.cpyBind d a b) := by
  intro _
  show decodeClass (packR 0x16 0x05 d a b) = _
  rw [decodeClass_16 (by simp)]
  simp [decodeCpy]
theorem cpyUnbind (a : Reg) : Statement (.cpyUnbind a) := by
  intro _
  show decodeClass (packR 0x16 0x06 0 a 0) = _
  rw [decodeClass_16 (by simp)]
  simp [decodeCpy]
theorem kvGather (d : Reg) (a : Reg) (b : Reg) : Statement (.kvGather d a b) := by
  intro _
  show decodeClass (packR 0x17 0x00 d a b) = _
  rw [decodeClass_17 (by simp)]
  simp [decodeKv]
theorem kvAppend (a : Reg) (b : Reg) : Statement (.kvAppend a b) := by
  intro _
  show decodeClass (packR 0x17 0x01 0 a b) = _
  rw [decodeClass_17 (by simp)]
  simp [decodeKv]
theorem kvFork (d : Reg) (a : Reg) : Statement (.kvFork d a) := by
  intro _
  show decodeClass (packR 0x17 0x02 d a 0) = _
  rw [decodeClass_17 (by simp)]
  simp [decodeKv]
theorem kvDrop (a : Reg) : Statement (.kvDrop a) := by
  intro _
  show decodeClass (packR 0x17 0x03 0 a 0) = _
  rw [decodeClass_17 (by simp)]
  simp [decodeKv]
theorem xfRunTranspose (a : Reg) (b : Reg) : Statement (.xfRunTranspose a b) := by
  intro _
  show decodeClass (packR 0x18 0x00 0 a b) = _
  rw [decodeClass_18 (by simp)]
  simp [decodeXf]
theorem xfRunRequant (a : Reg) (b : Reg) : Statement (.xfRunRequant a b) := by
  intro _
  show decodeClass (packR 0x18 0x01 0 a b) = _
  rw [decodeClass_18 (by simp)]
  simp [decodeXf]
theorem xfRunCompact (a : Reg) (b : Reg) : Statement (.xfRunCompact a b) := by
  intro _
  show decodeClass (packR 0x18 0x02 0 a b) = _
  rw [decodeClass_18 (by simp)]
  simp [decodeXf]
theorem xfRunExpand (a : Reg) (b : Reg) : Statement (.xfRunExpand a b) := by
  intro _
  show decodeClass (packR 0x18 0x03 0 a b) = _
  rw [decodeClass_18 (by simp)]
  simp [decodeXf]
theorem xfCancel (a : Reg) : Statement (.xfCancel a) := by
  intro _
  show decodeClass (packR 0x18 0x08 0 a 0) = _
  rw [decodeClass_18 (by simp)]
  simp [decodeXf]
theorem lkAcq (d : Reg) (a : Reg) (tryOnly : Bool) (lvl : Lvl) (mode : LMode) : Statement (.lkAcq d a tryOnly lvl mode) := by
  intro _
  show decodeClass (packR 0x19 0x00 d a (modLk tryOnly lvl mode.bits)) = _
  rw [decodeClass_19 (by simp)]
  simp (disch := decide) [decodeLk, ext_packR, bit_packR, modLk_bit, flag, -BitVec.getLsbD_eq_getElem]
theorem lkRel (a : Reg) (lvl : Lvl) (mode : LMode) : Statement (.lkRel a lvl mode) := by
  intro _
  show decodeClass (packR 0x19 0x01 0 a (modLk false lvl mode.bits)) = _
  rw [decodeClass_19 (by simp)]
  simp (disch := decide) [decodeLk, ext_packR, bit_packR, modLk_bit, flag, -BitVec.getLsbD_eq_getElem]
theorem lkRelall : Statement (.lkRelall) := by
  intro _
  show decodeClass (packR 0x19 0x02 0 0 0) = _
  rw [decodeClass_19 (by simp)]
  simp (disch := decide) [decodeLk, ext_packR, bit_packR, modLk_bit, flag, -BitVec.getLsbD_eq_getElem]
theorem lkEsc (d : Reg) (a : Reg) (lvl : Lvl) (mode : LMode) : Statement (.lkEsc d a lvl mode) := by
  intro _
  show decodeClass (packR 0x19 0x03 d a (modLk false lvl mode.bits)) = _
  rw [decodeClass_19 (by simp)]
  simp (disch := decide) [decodeLk, ext_packR, bit_packR, modLk_bit, flag, -BitVec.getLsbD_eq_getElem]
theorem lkQuery (d : Reg) (a : Reg) (lvl : Lvl) : Statement (.lkQuery d a lvl) := by
  intro _
  show decodeClass (packR 0x19 0x04 d a (modLk false lvl 0)) = _
  rw [decodeClass_19 (by simp)]
  simp (disch := decide) [decodeLk, ext_packR, bit_packR, modLk_bit, flag, -BitVec.getLsbD_eq_getElem]
theorem exAcq (d : Reg) (a : Reg) (tryOnly : Bool) : Statement (.exAcq d a tryOnly) := by
  intro _
  show decodeClass (packR 0x1A 0x00 d a ((0 : BitVec 6) ++ flag tryOnly)) = _
  rw [decodeClass_1A (by simp)]
  simp (disch := decide) [decodeEx, ext_packR, bit_packR, exTry_bit, -BitVec.getLsbD_eq_getElem]
  cases tryOnly <;> rfl
theorem exRel (a : Reg) : Statement (.exRel a) := by
  intro _
  show decodeClass (packR 0x1A 0x01 0 a 0) = _
  rw [decodeClass_1A (by simp)]
  simp [decodeEx]
theorem exHint (a : Reg) : Statement (.exHint a) := by
  intro _
  show decodeClass (packR 0x1A 0x02 0 a 0) = _
  rw [decodeClass_1A (by simp)]
  simp [decodeEx]
theorem exStat (d : Reg) (a : Reg) : Statement (.exStat d a) := by
  intro _
  show decodeClass (packR 0x1A 0x03 d a 0) = _
  rw [decodeClass_1A (by simp)]
  simp [decodeEx]
theorem woundTrap : Statement (.woundTrap) := fun h => absurd (h : false = true) Bool.false_ne_true
theorem monitorPeriodicFire (line : Nat) : Statement (.monitorPeriodicFire line) := fun h => absurd (h : false = true) Bool.false_ne_true
theorem fragmentMerge (cid : Nat) (one : Nat) (two : Nat) : Statement (.fragmentMerge cid one two) := fun h => absurd (h : false = true) Bool.false_ne_true
theorem fragmentRefill (core : Nat) : Statement (.fragmentRefill core) := fun h => absurd (h : false = true) Bool.false_ne_true
theorem loadComplete (op : Nat) : Statement (.loadComplete op) := fun h => absurd (h : false = true) Bool.false_ne_true
theorem storePerformed (op : Nat) : Statement (.storePerformed op) := fun h => absurd (h : false = true) Bool.false_ne_true
theorem tileOperationComplete (op : Nat) : Statement (.tileOperationComplete op) := fun h => absurd (h : false = true) Bool.false_ne_true
theorem copyComplete (op : Nat) : Statement (.copyComplete op) := fun h => absurd (h : false = true) Bool.false_ne_true
theorem xfRunComplete (op : Nat) : Statement (.xfRunComplete op) := fun h => absurd (h : false = true) Bool.false_ne_true
theorem gatherComplete (op : Nat) : Statement (.gatherComplete op) := fun h => absurd (h : false = true) Bool.false_ne_true
theorem engineOperationFault (op : Nat) : Statement (.engineOperationFault op) := fun h => absurd (h : false = true) Bool.false_ne_true
theorem pageWalkStart (island : Nat) (ctx : Nat) (unit : Nat) : Statement (.pageWalkStart island ctx unit) := fun h => absurd (h : false = true) Bool.false_ne_true
theorem pageWalkComplete (island : Nat) (ctx : Nat) (unit : Nat) : Statement (.pageWalkComplete island ctx unit) := fun h => absurd (h : false = true) Bool.false_ne_true
theorem faultRecordWrite (core : Nat) : Statement (.faultRecordWrite core) := fun h => absurd (h : false = true) Bool.false_ne_true
theorem predecessorRead (queue : Nat) : Statement (.predecessorRead queue) := fun h => absurd (h : false = true) Bool.false_ne_true
theorem splitChange (core : Nat) (queue : Nat) : Statement (.splitChange core queue) := fun h => absurd (h : false = true) Bool.false_ne_true
theorem wallPlace (queue : Nat) (core : Nat) : Statement (.wallPlace queue core) := fun h => absurd (h : false = true) Bool.false_ne_true
theorem courseDrain (cid : Nat) : Statement (.courseDrain cid) := fun h => absurd (h : false = true) Bool.false_ne_true
theorem preemption (part : Nat) (queue : Nat) : Statement (.preemption part queue) := fun h => absurd (h : false = true) Bool.false_ne_true
theorem contextRestore (part : Nat) : Statement (.contextRestore part) := fun h => absurd (h : false = true) Bool.false_ne_true
theorem watchdogExpiry (age : Nat) : Statement (.watchdogExpiry age) := fun h => absurd (h : false = true) Bool.false_ne_true
theorem woundGraceExpiry (age : Nat) : Statement (.woundGraceExpiry age) := fun h => absurd (h : false = true) Bool.false_ne_true
theorem expertFetchStart (ctx : Nat) (id : Nat) : Statement (.expertFetchStart ctx id) := fun h => absurd (h : false = true) Bool.false_ne_true
theorem expertFetchComplete (ctx : Nat) (id : Nat) (ok : Bool) : Statement (.expertFetchComplete ctx id ok) := fun h => absurd (h : false = true) Bool.false_ne_true
theorem writeApply (write : Nat) (island : Nat) : Statement (.writeApply write island) := fun h => absurd (h : false = true) Bool.false_ne_true
theorem lineWriteBack (line : Nat) : Statement (.lineWriteBack line) := fun h => absurd (h : false = true) Bool.false_ne_true
theorem memoryErrorUncorrectable (line : Nat) (ctx : Nat) : Statement (.memoryErrorUncorrectable line ctx) := fun h => absurd (h : false = true) Bool.false_ne_true
theorem correctedError (site : ErrSite) : Statement (.correctedError site) := fun h => absurd (h : false = true) Bool.false_ne_true
theorem postedReductionAck (op : Nat) : Statement (.postedReductionAck op) := fun h => absurd (h : false = true) Bool.false_ne_true
theorem outerStraitAtomic (op : BitVec 6) (pa : Nat) (x : BitVec 64) (y : BitVec 64) : Statement (.outerStraitAtomic op pa x y) := fun h => absurd (h : false = true) Bool.false_ne_true
theorem cxlBackInvalidation (line : Nat) : Statement (.cxlBackInvalidation line) := fun h => absurd (h : false = true) Bool.false_ne_true
theorem hostRead (pa : Nat) (len : Nat) : Statement (.hostRead pa len) := fun h => absurd (h : false = true) Bool.false_ne_true
theorem hostWrite (pa : Nat) (bytes : List (BitVec 8)) : Statement (.hostWrite pa bytes) := fun h => absurd (h : false = true) Bool.false_ne_true
theorem queueWindowStage (port : Nat) (queue : Nat) (off : Nat) (bytes : List (BitVec 8)) : Statement (.queueWindowStage port queue off bytes) := fun h => absurd (h : false = true) Bool.false_ne_true
theorem queueWindowPush (port : Nat) (queue : Nat) : Statement (.queueWindowPush port queue) := fun h => absurd (h : false = true) Bool.false_ne_true
theorem statusWrite (value : BitVec 64) : Statement (.statusWrite value) := fun h => absurd (h : false = true) Bool.false_ne_true
theorem eventCounterClear (n : Nat) : Statement (.eventCounterClear n) := fun h => absurd (h : false = true) Bool.false_ne_true
theorem registerWrite (off : Nat) (value : BitVec 64) : Statement (.registerWrite off value) := fun h => absurd (h : false = true) Bool.false_ne_true
theorem ctxCreate : Statement (.ctxCreate) := fun h => absurd (h : false = true) Bool.false_ne_true
theorem ctxDestroy : Statement (.ctxDestroy) := fun h => absurd (h : false = true) Bool.false_ne_true
theorem queueConfig : Statement (.queueConfig) := fun h => absurd (h : false = true) Bool.false_ne_true
theorem ertWrite : Statement (.ertWrite) := fun h => absurd (h : false = true) Bool.false_ne_true
theorem invalidate : Statement (.invalidate) := fun h => absurd (h : false = true) Bool.false_ne_true
theorem repair : Statement (.repair) := fun h => absurd (h : false = true) Bool.false_ne_true
theorem irqBind : Statement (.irqBind) := fun h => absurd (h : false = true) Bool.false_ne_true
theorem window : Statement (.window) := fun h => absurd (h : false = true) Bool.false_ne_true
theorem partSet : Statement (.partSet) := fun h => absurd (h : false = true) Bool.false_ne_true
theorem flash : Statement (.flash) := fun h => absurd (h : false = true) Bool.false_ne_true
theorem policy : Statement (.policy) := fun h => absurd (h : false = true) Bool.false_ne_true
theorem getVersion (port : Nat) : Statement (.getVersion port) := fun h => absurd (h : false = true) Bool.false_ne_true
theorem getCapabilities (port : Nat) : Statement (.getCapabilities port) := fun h => absurd (h : false = true) Bool.false_ne_true
theorem negotiateAlgorithms (port : Nat) (hash384 : Bool) (brainpool384 : Bool) : Statement (.negotiateAlgorithms port hash384 brainpool384) := fun h => absurd (h : false = true) Bool.false_ne_true
theorem getDigests (port : Nat) : Statement (.getDigests port) := fun h => absurd (h : false = true) Bool.false_ne_true
theorem getCertificate (port : Nat) (slot : Nat) (off : Nat) (len : Nat) : Statement (.getCertificate port slot off len) := fun h => absurd (h : false = true) Bool.false_ne_true
theorem challenge (port : Nat) (nonce : Nat) : Statement (.challenge port nonce) := fun h => absurd (h : false = true) Bool.false_ne_true
theorem getMeasurements (port : Nat) (nonce : Nat) : Statement (.getMeasurements port nonce) := fun h => absurd (h : false = true) Bool.false_ne_true
theorem unsupportedRequest (port : Nat) (code : Nat) : Statement (.unsupportedRequest port code) := fun h => absurd (h : false = true) Bool.false_ne_true
theorem powerOnReset (wellFormedImage : Bool) : Statement (.powerOnReset wellFormedImage) := fun h => absurd (h : false = true) Bool.false_ne_true
theorem firmwareBringUp : Statement (.firmwareBringUp) := fun h => absurd (h : false = true) Bool.false_ne_true
theorem functionLevelReset (port : Nat) : Statement (.functionLevelReset port) := fun h => absurd (h : false = true) Bool.false_ne_true
theorem portLinkTraining (port : Nat) (cxl : Bool) : Statement (.portLinkTraining port cxl) := fun h => absurd (h : false = true) Bool.false_ne_true
theorem illegalInstruction (word : BitVec 32) : Statement (.illegalInstruction word) := fun h => absurd (h : false = true) Bool.false_ne_true
theorem instructionFetchFault : Statement (.instructionFetchFault) := fun h => absurd (h : false = true) Bool.false_ne_true
theorem unknownCommand : Statement (.unknownCommand) := fun h => absurd (h : false = true) Bool.false_ne_true
theorem portLinkDown (port : Nat) : Statement (.portLinkDown port) := fun h => absurd (h : false = true) Bool.false_ne_true
theorem outerStraitAccess (write : Bool) (pa : Nat) (bytes : List (BitVec 8)) (len : Nat) : Statement (.outerStraitAccess write pa bytes len) := fun h => absurd (h : false = true) Bool.false_ne_true
theorem packageCapped : Statement (.packageCapped) := fun h => absurd (h : false = true) Bool.false_ne_true

end Sys2Proof.Laws.RoundTrip
end

