-- ==== Sys2Proof/Laws/State.lean ====
section
/-!
SUPPORT. One lemma for each field of the state under each update of a part of it (Base.lean), each true by unfolding.
-/

namespace Sys2Proof.Machine

variable (s : State)

/-! setCore -/

@[simp] theorem setCore_sched (n : Nat) (c : Core) : (s.setCore n c).sched = s.sched := rfl
@[simp] theorem setCore_steps (n : Nat) (c : Core) : (s.setCore n c).steps = s.steps := rfl
@[simp] theorem setCore_issuing (n : Nat) (c : Core) : (s.setCore n c).issuing = s.issuing := rfl
@[simp] theorem setCore_clock (n : Nat) (c : Core) : (s.setCore n c).clock = s.clock := rfl
@[simp] theorem setCore_model (n : Nat) (c : Core) : (s.setCore n c).model = s.model := rfl
@[simp] theorem setCore_started (n : Nat) (c : Core) : (s.setCore n c).started = s.started := rfl
@[simp] theorem setCore_ready (n : Nat) (c : Core) : (s.setCore n c).ready = s.ready := rfl
@[simp] theorem setCore_faultPend (n : Nat) (c : Core) : (s.setCore n c).faultPend = s.faultPend := rfl
@[simp] theorem setCore_capped (n : Nat) (c : Core) : (s.setCore n c).capped = s.capped := rfl
@[simp] theorem setCore_devnum (n : Nat) (c : Core) : (s.setCore n c).devnum = s.devnum := rfl
@[simp] theorem setCore_portMode (n : Nat) (c : Core) : (s.setCore n c).portMode = s.portMode := rfl
@[simp] theorem setCore_cmd (n : Nat) (c : Core) : (s.setCore n c).cmd = s.cmd := rfl
@[simp] theorem setCore_cmdErr (n : Nat) (c : Core) : (s.setCore n c).cmdErr = s.cmdErr := rfl
@[simp] theorem setCore_cmdResult (n : Nat) (c : Core) : (s.setCore n c).cmdResult = s.cmdResult := rfl
@[simp] theorem setCore_running (n : Nat) (c : Core) : (s.setCore n c).running = s.running := rfl
@[simp] theorem setCore_heldPolicy (n : Nat) (c : Core) : (s.setCore n c).heldPolicy = s.heldPolicy := rfl
@[simp] theorem setCore_policy (n : Nat) (c : Core) : (s.setCore n c).policy = s.policy := rfl
@[simp] theorem setCore_windows (n : Nat) (c : Core) : (s.setCore n c).windows = s.windows := rfl
@[simp] theorem setCore_flash (n : Nat) (c : Core) : (s.setCore n c).flash = s.flash := rfl
@[simp] theorem setCore_irqs (n : Nat) (c : Core) : (s.setCore n c).irqs = s.irqs := rfl
@[simp] theorem setCore_stages (n : Nat) (c : Core) : (s.setCore n c).stages = s.stages := rfl
@[simp] theorem setCore_pushStatus (n : Nat) (c : Core) : (s.setCore n c).pushStatus = s.pushStatus := rfl
@[simp] theorem setCore_sent (n : Nat) (c : Core) : (s.setCore n c).sent = s.sent := rfl
@[simp] theorem setCore_counters (n : Nat) (c : Core) : (s.setCore n c).counters = s.counters := rfl
@[simp] theorem setCore_hostRead (n : Nat) (c : Core) : (s.setCore n c).hostRead = s.hostRead := rfl
@[simp] theorem setCore_spdm (n : Nat) (c : Core) : (s.setCore n c).spdm = s.spdm := rfl
@[simp] theorem setCore_marks (n : Nat) (c : Core) : (s.setCore n c).marks = s.marks := rfl
@[simp] theorem setCore_found (n : Nat) (c : Core) : (s.setCore n c).found = s.found := rfl
@[simp] theorem setCore_errors (n : Nat) (c : Core) : (s.setCore n c).errors = s.errors := rfl
@[simp] theorem setCore_retired (n : Nat) (c : Core) : (s.setCore n c).retired = s.retired := rfl
@[simp] theorem setCore_banks (n : Nat) (c : Core) : (s.setCore n c).banks = s.banks := rfl
@[simp] theorem setCore_mem (n : Nat) (c : Core) : (s.setCore n c).mem = s.mem := rfl
@[simp] theorem setCore_outside (n : Nat) (c : Core) : (s.setCore n c).outside = s.outside := rfl
@[simp] theorem setCore_efmt (n : Nat) (c : Core) : (s.setCore n c).efmt = s.efmt := rfl
@[simp] theorem setCore_lineTag (n : Nat) (c : Core) : (s.setCore n c).lineTag = s.lineTag := rfl
@[simp] theorem setCore_cached (n : Nat) (c : Core) : (s.setCore n c).cached = s.cached := rfl
@[simp] theorem setCore_stores (n : Nat) (c : Core) : (s.setCore n c).stores = s.stores := rfl
@[simp] theorem setCore_writes (n : Nat) (c : Core) : (s.setCore n c).writes = s.writes := rfl
@[simp] theorem setCore_nextWrite (n : Nat) (c : Core) : (s.setCore n c).nextWrite = s.nextWrite := rfl
@[simp] theorem setCore_clocks (n : Nat) (c : Core) : (s.setCore n c).clocks = s.clocks := rfl
@[simp] theorem setCore_monitors (n : Nat) (c : Core) : (s.setCore n c).monitors = s.monitors := rfl
@[simp] theorem setCore_cores (n : Nat) (c : Core) : (s.setCore n c).cores = s.cores.set n c := rfl
@[simp] theorem setCore_islands (n : Nat) (c : Core) : (s.setCore n c).islands = s.islands := rfl
@[simp] theorem setCore_parts (n : Nat) (c : Core) : (s.setCore n c).parts = s.parts := rfl
@[simp] theorem setCore_ctxs (n : Nat) (c : Core) : (s.setCore n c).ctxs = s.ctxs := rfl
@[simp] theorem setCore_queues (n : Nat) (c : Core) : (s.setCore n c).queues = s.queues := rfl
@[simp] theorem setCore_grids (n : Nat) (c : Core) : (s.setCore n c).grids = s.grids := rfl
@[simp] theorem setCore_nextGrid (n : Nat) (c : Core) : (s.setCore n c).nextGrid = s.nextGrid := rfl
@[simp] theorem setCore_walls (n : Nat) (c : Core) : (s.setCore n c).walls = s.walls := rfl
@[simp] theorem setCore_courses (n : Nat) (c : Core) : (s.setCore n c).courses = s.courses := rfl
@[simp] theorem setCore_nextCourse (n : Nat) (c : Core) : (s.setCore n c).nextCourse = s.nextCourse := rfl
@[simp] theorem setCore_nextAge (n : Nat) (c : Core) : (s.setCore n c).nextAge = s.nextAge := rfl
@[simp] theorem setCore_ops (n : Nat) (c : Core) : (s.setCore n c).ops = s.ops := rfl
@[simp] theorem setCore_nextOp (n : Nat) (c : Core) : (s.setCore n c).nextOp = s.nextOp := rfl
@[simp] theorem setCore_locks (n : Nat) (c : Core) : (s.setCore n c).locks = s.locks := rfl
@[simp] theorem setCore_skips (n : Nat) (c : Core) : (s.setCore n c).skips = s.skips := rfl

/-! setIsland -/

@[simp] theorem setIsland_sched (n : Nat) (i : Island) : (s.setIsland n i).sched = s.sched := rfl
@[simp] theorem setIsland_steps (n : Nat) (i : Island) : (s.setIsland n i).steps = s.steps := rfl
@[simp] theorem setIsland_issuing (n : Nat) (i : Island) : (s.setIsland n i).issuing = s.issuing := rfl
@[simp] theorem setIsland_clock (n : Nat) (i : Island) : (s.setIsland n i).clock = s.clock := rfl
@[simp] theorem setIsland_model (n : Nat) (i : Island) : (s.setIsland n i).model = s.model := rfl
@[simp] theorem setIsland_started (n : Nat) (i : Island) : (s.setIsland n i).started = s.started := rfl
@[simp] theorem setIsland_ready (n : Nat) (i : Island) : (s.setIsland n i).ready = s.ready := rfl
@[simp] theorem setIsland_faultPend (n : Nat) (i : Island) : (s.setIsland n i).faultPend = s.faultPend := rfl
@[simp] theorem setIsland_capped (n : Nat) (i : Island) : (s.setIsland n i).capped = s.capped := rfl
@[simp] theorem setIsland_devnum (n : Nat) (i : Island) : (s.setIsland n i).devnum = s.devnum := rfl
@[simp] theorem setIsland_portMode (n : Nat) (i : Island) : (s.setIsland n i).portMode = s.portMode := rfl
@[simp] theorem setIsland_cmd (n : Nat) (i : Island) : (s.setIsland n i).cmd = s.cmd := rfl
@[simp] theorem setIsland_cmdErr (n : Nat) (i : Island) : (s.setIsland n i).cmdErr = s.cmdErr := rfl
@[simp] theorem setIsland_cmdResult (n : Nat) (i : Island) : (s.setIsland n i).cmdResult = s.cmdResult := rfl
@[simp] theorem setIsland_running (n : Nat) (i : Island) : (s.setIsland n i).running = s.running := rfl
@[simp] theorem setIsland_heldPolicy (n : Nat) (i : Island) : (s.setIsland n i).heldPolicy = s.heldPolicy := rfl
@[simp] theorem setIsland_policy (n : Nat) (i : Island) : (s.setIsland n i).policy = s.policy := rfl
@[simp] theorem setIsland_windows (n : Nat) (i : Island) : (s.setIsland n i).windows = s.windows := rfl
@[simp] theorem setIsland_flash (n : Nat) (i : Island) : (s.setIsland n i).flash = s.flash := rfl
@[simp] theorem setIsland_irqs (n : Nat) (i : Island) : (s.setIsland n i).irqs = s.irqs := rfl
@[simp] theorem setIsland_stages (n : Nat) (i : Island) : (s.setIsland n i).stages = s.stages := rfl
@[simp] theorem setIsland_pushStatus (n : Nat) (i : Island) : (s.setIsland n i).pushStatus = s.pushStatus := rfl
@[simp] theorem setIsland_sent (n : Nat) (i : Island) : (s.setIsland n i).sent = s.sent := rfl
@[simp] theorem setIsland_counters (n : Nat) (i : Island) : (s.setIsland n i).counters = s.counters := rfl
@[simp] theorem setIsland_hostRead (n : Nat) (i : Island) : (s.setIsland n i).hostRead = s.hostRead := rfl
@[simp] theorem setIsland_spdm (n : Nat) (i : Island) : (s.setIsland n i).spdm = s.spdm := rfl
@[simp] theorem setIsland_marks (n : Nat) (i : Island) : (s.setIsland n i).marks = s.marks := rfl
@[simp] theorem setIsland_found (n : Nat) (i : Island) : (s.setIsland n i).found = s.found := rfl
@[simp] theorem setIsland_errors (n : Nat) (i : Island) : (s.setIsland n i).errors = s.errors := rfl
@[simp] theorem setIsland_retired (n : Nat) (i : Island) : (s.setIsland n i).retired = s.retired := rfl
@[simp] theorem setIsland_banks (n : Nat) (i : Island) : (s.setIsland n i).banks = s.banks := rfl
@[simp] theorem setIsland_mem (n : Nat) (i : Island) : (s.setIsland n i).mem = s.mem := rfl
@[simp] theorem setIsland_outside (n : Nat) (i : Island) : (s.setIsland n i).outside = s.outside := rfl
@[simp] theorem setIsland_efmt (n : Nat) (i : Island) : (s.setIsland n i).efmt = s.efmt := rfl
@[simp] theorem setIsland_lineTag (n : Nat) (i : Island) : (s.setIsland n i).lineTag = s.lineTag := rfl
@[simp] theorem setIsland_cached (n : Nat) (i : Island) : (s.setIsland n i).cached = s.cached := rfl
@[simp] theorem setIsland_stores (n : Nat) (i : Island) : (s.setIsland n i).stores = s.stores := rfl
@[simp] theorem setIsland_writes (n : Nat) (i : Island) : (s.setIsland n i).writes = s.writes := rfl
@[simp] theorem setIsland_nextWrite (n : Nat) (i : Island) : (s.setIsland n i).nextWrite = s.nextWrite := rfl
@[simp] theorem setIsland_clocks (n : Nat) (i : Island) : (s.setIsland n i).clocks = s.clocks := rfl
@[simp] theorem setIsland_monitors (n : Nat) (i : Island) : (s.setIsland n i).monitors = s.monitors := rfl
@[simp] theorem setIsland_cores (n : Nat) (i : Island) : (s.setIsland n i).cores = s.cores := rfl
@[simp] theorem setIsland_islands (n : Nat) (i : Island) : (s.setIsland n i).islands = s.islands.set n i := rfl
@[simp] theorem setIsland_parts (n : Nat) (i : Island) : (s.setIsland n i).parts = s.parts := rfl
@[simp] theorem setIsland_ctxs (n : Nat) (i : Island) : (s.setIsland n i).ctxs = s.ctxs := rfl
@[simp] theorem setIsland_queues (n : Nat) (i : Island) : (s.setIsland n i).queues = s.queues := rfl
@[simp] theorem setIsland_grids (n : Nat) (i : Island) : (s.setIsland n i).grids = s.grids := rfl
@[simp] theorem setIsland_nextGrid (n : Nat) (i : Island) : (s.setIsland n i).nextGrid = s.nextGrid := rfl
@[simp] theorem setIsland_walls (n : Nat) (i : Island) : (s.setIsland n i).walls = s.walls := rfl
@[simp] theorem setIsland_courses (n : Nat) (i : Island) : (s.setIsland n i).courses = s.courses := rfl
@[simp] theorem setIsland_nextCourse (n : Nat) (i : Island) : (s.setIsland n i).nextCourse = s.nextCourse := rfl
@[simp] theorem setIsland_nextAge (n : Nat) (i : Island) : (s.setIsland n i).nextAge = s.nextAge := rfl
@[simp] theorem setIsland_ops (n : Nat) (i : Island) : (s.setIsland n i).ops = s.ops := rfl
@[simp] theorem setIsland_nextOp (n : Nat) (i : Island) : (s.setIsland n i).nextOp = s.nextOp := rfl
@[simp] theorem setIsland_locks (n : Nat) (i : Island) : (s.setIsland n i).locks = s.locks := rfl
@[simp] theorem setIsland_skips (n : Nat) (i : Island) : (s.setIsland n i).skips = s.skips := rfl

/-! setPart -/

@[simp] theorem setPart_sched (n : Nat) (p : Part) : (s.setPart n p).sched = s.sched := rfl
@[simp] theorem setPart_steps (n : Nat) (p : Part) : (s.setPart n p).steps = s.steps := rfl
@[simp] theorem setPart_issuing (n : Nat) (p : Part) : (s.setPart n p).issuing = s.issuing := rfl
@[simp] theorem setPart_clock (n : Nat) (p : Part) : (s.setPart n p).clock = s.clock := rfl
@[simp] theorem setPart_model (n : Nat) (p : Part) : (s.setPart n p).model = s.model := rfl
@[simp] theorem setPart_started (n : Nat) (p : Part) : (s.setPart n p).started = s.started := rfl
@[simp] theorem setPart_ready (n : Nat) (p : Part) : (s.setPart n p).ready = s.ready := rfl
@[simp] theorem setPart_faultPend (n : Nat) (p : Part) : (s.setPart n p).faultPend = s.faultPend := rfl
@[simp] theorem setPart_capped (n : Nat) (p : Part) : (s.setPart n p).capped = s.capped := rfl
@[simp] theorem setPart_devnum (n : Nat) (p : Part) : (s.setPart n p).devnum = s.devnum := rfl
@[simp] theorem setPart_portMode (n : Nat) (p : Part) : (s.setPart n p).portMode = s.portMode := rfl
@[simp] theorem setPart_cmd (n : Nat) (p : Part) : (s.setPart n p).cmd = s.cmd := rfl
@[simp] theorem setPart_cmdErr (n : Nat) (p : Part) : (s.setPart n p).cmdErr = s.cmdErr := rfl
@[simp] theorem setPart_cmdResult (n : Nat) (p : Part) : (s.setPart n p).cmdResult = s.cmdResult := rfl
@[simp] theorem setPart_running (n : Nat) (p : Part) : (s.setPart n p).running = s.running := rfl
@[simp] theorem setPart_heldPolicy (n : Nat) (p : Part) : (s.setPart n p).heldPolicy = s.heldPolicy := rfl
@[simp] theorem setPart_policy (n : Nat) (p : Part) : (s.setPart n p).policy = s.policy := rfl
@[simp] theorem setPart_windows (n : Nat) (p : Part) : (s.setPart n p).windows = s.windows := rfl
@[simp] theorem setPart_flash (n : Nat) (p : Part) : (s.setPart n p).flash = s.flash := rfl
@[simp] theorem setPart_irqs (n : Nat) (p : Part) : (s.setPart n p).irqs = s.irqs := rfl
@[simp] theorem setPart_stages (n : Nat) (p : Part) : (s.setPart n p).stages = s.stages := rfl
@[simp] theorem setPart_pushStatus (n : Nat) (p : Part) : (s.setPart n p).pushStatus = s.pushStatus := rfl
@[simp] theorem setPart_sent (n : Nat) (p : Part) : (s.setPart n p).sent = s.sent := rfl
@[simp] theorem setPart_counters (n : Nat) (p : Part) : (s.setPart n p).counters = s.counters := rfl
@[simp] theorem setPart_hostRead (n : Nat) (p : Part) : (s.setPart n p).hostRead = s.hostRead := rfl
@[simp] theorem setPart_spdm (n : Nat) (p : Part) : (s.setPart n p).spdm = s.spdm := rfl
@[simp] theorem setPart_marks (n : Nat) (p : Part) : (s.setPart n p).marks = s.marks := rfl
@[simp] theorem setPart_found (n : Nat) (p : Part) : (s.setPart n p).found = s.found := rfl
@[simp] theorem setPart_errors (n : Nat) (p : Part) : (s.setPart n p).errors = s.errors := rfl
@[simp] theorem setPart_retired (n : Nat) (p : Part) : (s.setPart n p).retired = s.retired := rfl
@[simp] theorem setPart_banks (n : Nat) (p : Part) : (s.setPart n p).banks = s.banks := rfl
@[simp] theorem setPart_mem (n : Nat) (p : Part) : (s.setPart n p).mem = s.mem := rfl
@[simp] theorem setPart_outside (n : Nat) (p : Part) : (s.setPart n p).outside = s.outside := rfl
@[simp] theorem setPart_efmt (n : Nat) (p : Part) : (s.setPart n p).efmt = s.efmt := rfl
@[simp] theorem setPart_lineTag (n : Nat) (p : Part) : (s.setPart n p).lineTag = s.lineTag := rfl
@[simp] theorem setPart_cached (n : Nat) (p : Part) : (s.setPart n p).cached = s.cached := rfl
@[simp] theorem setPart_stores (n : Nat) (p : Part) : (s.setPart n p).stores = s.stores := rfl
@[simp] theorem setPart_writes (n : Nat) (p : Part) : (s.setPart n p).writes = s.writes := rfl
@[simp] theorem setPart_nextWrite (n : Nat) (p : Part) : (s.setPart n p).nextWrite = s.nextWrite := rfl
@[simp] theorem setPart_clocks (n : Nat) (p : Part) : (s.setPart n p).clocks = s.clocks := rfl
@[simp] theorem setPart_monitors (n : Nat) (p : Part) : (s.setPart n p).monitors = s.monitors := rfl
@[simp] theorem setPart_cores (n : Nat) (p : Part) : (s.setPart n p).cores = s.cores := rfl
@[simp] theorem setPart_islands (n : Nat) (p : Part) : (s.setPart n p).islands = s.islands := rfl
@[simp] theorem setPart_parts (n : Nat) (p : Part) : (s.setPart n p).parts = s.parts.set n p := rfl
@[simp] theorem setPart_ctxs (n : Nat) (p : Part) : (s.setPart n p).ctxs = s.ctxs := rfl
@[simp] theorem setPart_queues (n : Nat) (p : Part) : (s.setPart n p).queues = s.queues := rfl
@[simp] theorem setPart_grids (n : Nat) (p : Part) : (s.setPart n p).grids = s.grids := rfl
@[simp] theorem setPart_nextGrid (n : Nat) (p : Part) : (s.setPart n p).nextGrid = s.nextGrid := rfl
@[simp] theorem setPart_walls (n : Nat) (p : Part) : (s.setPart n p).walls = s.walls := rfl
@[simp] theorem setPart_courses (n : Nat) (p : Part) : (s.setPart n p).courses = s.courses := rfl
@[simp] theorem setPart_nextCourse (n : Nat) (p : Part) : (s.setPart n p).nextCourse = s.nextCourse := rfl
@[simp] theorem setPart_nextAge (n : Nat) (p : Part) : (s.setPart n p).nextAge = s.nextAge := rfl
@[simp] theorem setPart_ops (n : Nat) (p : Part) : (s.setPart n p).ops = s.ops := rfl
@[simp] theorem setPart_nextOp (n : Nat) (p : Part) : (s.setPart n p).nextOp = s.nextOp := rfl
@[simp] theorem setPart_locks (n : Nat) (p : Part) : (s.setPart n p).locks = s.locks := rfl
@[simp] theorem setPart_skips (n : Nat) (p : Part) : (s.setPart n p).skips = s.skips := rfl

/-! updCore -/

@[simp] theorem updCore_sched (n : Nat) (g : Core → Core) : (s.updCore n g).sched = s.sched := rfl
@[simp] theorem updCore_steps (n : Nat) (g : Core → Core) : (s.updCore n g).steps = s.steps := rfl
@[simp] theorem updCore_issuing (n : Nat) (g : Core → Core) : (s.updCore n g).issuing = s.issuing := rfl
@[simp] theorem updCore_clock (n : Nat) (g : Core → Core) : (s.updCore n g).clock = s.clock := rfl
@[simp] theorem updCore_model (n : Nat) (g : Core → Core) : (s.updCore n g).model = s.model := rfl
@[simp] theorem updCore_started (n : Nat) (g : Core → Core) : (s.updCore n g).started = s.started := rfl
@[simp] theorem updCore_ready (n : Nat) (g : Core → Core) : (s.updCore n g).ready = s.ready := rfl
@[simp] theorem updCore_faultPend (n : Nat) (g : Core → Core) : (s.updCore n g).faultPend = s.faultPend := rfl
@[simp] theorem updCore_capped (n : Nat) (g : Core → Core) : (s.updCore n g).capped = s.capped := rfl
@[simp] theorem updCore_devnum (n : Nat) (g : Core → Core) : (s.updCore n g).devnum = s.devnum := rfl
@[simp] theorem updCore_portMode (n : Nat) (g : Core → Core) : (s.updCore n g).portMode = s.portMode := rfl
@[simp] theorem updCore_cmd (n : Nat) (g : Core → Core) : (s.updCore n g).cmd = s.cmd := rfl
@[simp] theorem updCore_cmdErr (n : Nat) (g : Core → Core) : (s.updCore n g).cmdErr = s.cmdErr := rfl
@[simp] theorem updCore_cmdResult (n : Nat) (g : Core → Core) : (s.updCore n g).cmdResult = s.cmdResult := rfl
@[simp] theorem updCore_running (n : Nat) (g : Core → Core) : (s.updCore n g).running = s.running := rfl
@[simp] theorem updCore_heldPolicy (n : Nat) (g : Core → Core) : (s.updCore n g).heldPolicy = s.heldPolicy := rfl
@[simp] theorem updCore_policy (n : Nat) (g : Core → Core) : (s.updCore n g).policy = s.policy := rfl
@[simp] theorem updCore_windows (n : Nat) (g : Core → Core) : (s.updCore n g).windows = s.windows := rfl
@[simp] theorem updCore_flash (n : Nat) (g : Core → Core) : (s.updCore n g).flash = s.flash := rfl
@[simp] theorem updCore_irqs (n : Nat) (g : Core → Core) : (s.updCore n g).irqs = s.irqs := rfl
@[simp] theorem updCore_stages (n : Nat) (g : Core → Core) : (s.updCore n g).stages = s.stages := rfl
@[simp] theorem updCore_pushStatus (n : Nat) (g : Core → Core) : (s.updCore n g).pushStatus = s.pushStatus := rfl
@[simp] theorem updCore_sent (n : Nat) (g : Core → Core) : (s.updCore n g).sent = s.sent := rfl
@[simp] theorem updCore_counters (n : Nat) (g : Core → Core) : (s.updCore n g).counters = s.counters := rfl
@[simp] theorem updCore_hostRead (n : Nat) (g : Core → Core) : (s.updCore n g).hostRead = s.hostRead := rfl
@[simp] theorem updCore_spdm (n : Nat) (g : Core → Core) : (s.updCore n g).spdm = s.spdm := rfl
@[simp] theorem updCore_marks (n : Nat) (g : Core → Core) : (s.updCore n g).marks = s.marks := rfl
@[simp] theorem updCore_found (n : Nat) (g : Core → Core) : (s.updCore n g).found = s.found := rfl
@[simp] theorem updCore_errors (n : Nat) (g : Core → Core) : (s.updCore n g).errors = s.errors := rfl
@[simp] theorem updCore_retired (n : Nat) (g : Core → Core) : (s.updCore n g).retired = s.retired := rfl
@[simp] theorem updCore_banks (n : Nat) (g : Core → Core) : (s.updCore n g).banks = s.banks := rfl
@[simp] theorem updCore_mem (n : Nat) (g : Core → Core) : (s.updCore n g).mem = s.mem := rfl
@[simp] theorem updCore_outside (n : Nat) (g : Core → Core) : (s.updCore n g).outside = s.outside := rfl
@[simp] theorem updCore_efmt (n : Nat) (g : Core → Core) : (s.updCore n g).efmt = s.efmt := rfl
@[simp] theorem updCore_lineTag (n : Nat) (g : Core → Core) : (s.updCore n g).lineTag = s.lineTag := rfl
@[simp] theorem updCore_cached (n : Nat) (g : Core → Core) : (s.updCore n g).cached = s.cached := rfl
@[simp] theorem updCore_stores (n : Nat) (g : Core → Core) : (s.updCore n g).stores = s.stores := rfl
@[simp] theorem updCore_writes (n : Nat) (g : Core → Core) : (s.updCore n g).writes = s.writes := rfl
@[simp] theorem updCore_nextWrite (n : Nat) (g : Core → Core) : (s.updCore n g).nextWrite = s.nextWrite := rfl
@[simp] theorem updCore_clocks (n : Nat) (g : Core → Core) : (s.updCore n g).clocks = s.clocks := rfl
@[simp] theorem updCore_monitors (n : Nat) (g : Core → Core) : (s.updCore n g).monitors = s.monitors := rfl
@[simp] theorem updCore_cores (n : Nat) (g : Core → Core) : (s.updCore n g).cores = s.cores.set n (g (s.core n)) := rfl
@[simp] theorem updCore_islands (n : Nat) (g : Core → Core) : (s.updCore n g).islands = s.islands := rfl
@[simp] theorem updCore_parts (n : Nat) (g : Core → Core) : (s.updCore n g).parts = s.parts := rfl
@[simp] theorem updCore_ctxs (n : Nat) (g : Core → Core) : (s.updCore n g).ctxs = s.ctxs := rfl
@[simp] theorem updCore_queues (n : Nat) (g : Core → Core) : (s.updCore n g).queues = s.queues := rfl
@[simp] theorem updCore_grids (n : Nat) (g : Core → Core) : (s.updCore n g).grids = s.grids := rfl
@[simp] theorem updCore_nextGrid (n : Nat) (g : Core → Core) : (s.updCore n g).nextGrid = s.nextGrid := rfl
@[simp] theorem updCore_walls (n : Nat) (g : Core → Core) : (s.updCore n g).walls = s.walls := rfl
@[simp] theorem updCore_courses (n : Nat) (g : Core → Core) : (s.updCore n g).courses = s.courses := rfl
@[simp] theorem updCore_nextCourse (n : Nat) (g : Core → Core) : (s.updCore n g).nextCourse = s.nextCourse := rfl
@[simp] theorem updCore_nextAge (n : Nat) (g : Core → Core) : (s.updCore n g).nextAge = s.nextAge := rfl
@[simp] theorem updCore_ops (n : Nat) (g : Core → Core) : (s.updCore n g).ops = s.ops := rfl
@[simp] theorem updCore_nextOp (n : Nat) (g : Core → Core) : (s.updCore n g).nextOp = s.nextOp := rfl
@[simp] theorem updCore_locks (n : Nat) (g : Core → Core) : (s.updCore n g).locks = s.locks := rfl
@[simp] theorem updCore_skips (n : Nat) (g : Core → Core) : (s.updCore n g).skips = s.skips := rfl

/-! updIsland -/

@[simp] theorem updIsland_sched (n : Nat) (g : Island → Island) : (s.updIsland n g).sched = s.sched := rfl
@[simp] theorem updIsland_steps (n : Nat) (g : Island → Island) : (s.updIsland n g).steps = s.steps := rfl
@[simp] theorem updIsland_issuing (n : Nat) (g : Island → Island) : (s.updIsland n g).issuing = s.issuing := rfl
@[simp] theorem updIsland_clock (n : Nat) (g : Island → Island) : (s.updIsland n g).clock = s.clock := rfl
@[simp] theorem updIsland_model (n : Nat) (g : Island → Island) : (s.updIsland n g).model = s.model := rfl
@[simp] theorem updIsland_started (n : Nat) (g : Island → Island) : (s.updIsland n g).started = s.started := rfl
@[simp] theorem updIsland_ready (n : Nat) (g : Island → Island) : (s.updIsland n g).ready = s.ready := rfl
@[simp] theorem updIsland_faultPend (n : Nat) (g : Island → Island) : (s.updIsland n g).faultPend = s.faultPend := rfl
@[simp] theorem updIsland_capped (n : Nat) (g : Island → Island) : (s.updIsland n g).capped = s.capped := rfl
@[simp] theorem updIsland_devnum (n : Nat) (g : Island → Island) : (s.updIsland n g).devnum = s.devnum := rfl
@[simp] theorem updIsland_portMode (n : Nat) (g : Island → Island) : (s.updIsland n g).portMode = s.portMode := rfl
@[simp] theorem updIsland_cmd (n : Nat) (g : Island → Island) : (s.updIsland n g).cmd = s.cmd := rfl
@[simp] theorem updIsland_cmdErr (n : Nat) (g : Island → Island) : (s.updIsland n g).cmdErr = s.cmdErr := rfl
@[simp] theorem updIsland_cmdResult (n : Nat) (g : Island → Island) : (s.updIsland n g).cmdResult = s.cmdResult := rfl
@[simp] theorem updIsland_running (n : Nat) (g : Island → Island) : (s.updIsland n g).running = s.running := rfl
@[simp] theorem updIsland_heldPolicy (n : Nat) (g : Island → Island) : (s.updIsland n g).heldPolicy = s.heldPolicy := rfl
@[simp] theorem updIsland_policy (n : Nat) (g : Island → Island) : (s.updIsland n g).policy = s.policy := rfl
@[simp] theorem updIsland_windows (n : Nat) (g : Island → Island) : (s.updIsland n g).windows = s.windows := rfl
@[simp] theorem updIsland_flash (n : Nat) (g : Island → Island) : (s.updIsland n g).flash = s.flash := rfl
@[simp] theorem updIsland_irqs (n : Nat) (g : Island → Island) : (s.updIsland n g).irqs = s.irqs := rfl
@[simp] theorem updIsland_stages (n : Nat) (g : Island → Island) : (s.updIsland n g).stages = s.stages := rfl
@[simp] theorem updIsland_pushStatus (n : Nat) (g : Island → Island) : (s.updIsland n g).pushStatus = s.pushStatus := rfl
@[simp] theorem updIsland_sent (n : Nat) (g : Island → Island) : (s.updIsland n g).sent = s.sent := rfl
@[simp] theorem updIsland_counters (n : Nat) (g : Island → Island) : (s.updIsland n g).counters = s.counters := rfl
@[simp] theorem updIsland_hostRead (n : Nat) (g : Island → Island) : (s.updIsland n g).hostRead = s.hostRead := rfl
@[simp] theorem updIsland_spdm (n : Nat) (g : Island → Island) : (s.updIsland n g).spdm = s.spdm := rfl
@[simp] theorem updIsland_marks (n : Nat) (g : Island → Island) : (s.updIsland n g).marks = s.marks := rfl
@[simp] theorem updIsland_found (n : Nat) (g : Island → Island) : (s.updIsland n g).found = s.found := rfl
@[simp] theorem updIsland_errors (n : Nat) (g : Island → Island) : (s.updIsland n g).errors = s.errors := rfl
@[simp] theorem updIsland_retired (n : Nat) (g : Island → Island) : (s.updIsland n g).retired = s.retired := rfl
@[simp] theorem updIsland_banks (n : Nat) (g : Island → Island) : (s.updIsland n g).banks = s.banks := rfl
@[simp] theorem updIsland_mem (n : Nat) (g : Island → Island) : (s.updIsland n g).mem = s.mem := rfl
@[simp] theorem updIsland_outside (n : Nat) (g : Island → Island) : (s.updIsland n g).outside = s.outside := rfl
@[simp] theorem updIsland_efmt (n : Nat) (g : Island → Island) : (s.updIsland n g).efmt = s.efmt := rfl
@[simp] theorem updIsland_lineTag (n : Nat) (g : Island → Island) : (s.updIsland n g).lineTag = s.lineTag := rfl
@[simp] theorem updIsland_cached (n : Nat) (g : Island → Island) : (s.updIsland n g).cached = s.cached := rfl
@[simp] theorem updIsland_stores (n : Nat) (g : Island → Island) : (s.updIsland n g).stores = s.stores := rfl
@[simp] theorem updIsland_writes (n : Nat) (g : Island → Island) : (s.updIsland n g).writes = s.writes := rfl
@[simp] theorem updIsland_nextWrite (n : Nat) (g : Island → Island) : (s.updIsland n g).nextWrite = s.nextWrite := rfl
@[simp] theorem updIsland_clocks (n : Nat) (g : Island → Island) : (s.updIsland n g).clocks = s.clocks := rfl
@[simp] theorem updIsland_monitors (n : Nat) (g : Island → Island) : (s.updIsland n g).monitors = s.monitors := rfl
@[simp] theorem updIsland_cores (n : Nat) (g : Island → Island) : (s.updIsland n g).cores = s.cores := rfl
@[simp] theorem updIsland_islands (n : Nat) (g : Island → Island) : (s.updIsland n g).islands = s.islands.set n (g (s.island n)) := rfl
@[simp] theorem updIsland_parts (n : Nat) (g : Island → Island) : (s.updIsland n g).parts = s.parts := rfl
@[simp] theorem updIsland_ctxs (n : Nat) (g : Island → Island) : (s.updIsland n g).ctxs = s.ctxs := rfl
@[simp] theorem updIsland_queues (n : Nat) (g : Island → Island) : (s.updIsland n g).queues = s.queues := rfl
@[simp] theorem updIsland_grids (n : Nat) (g : Island → Island) : (s.updIsland n g).grids = s.grids := rfl
@[simp] theorem updIsland_nextGrid (n : Nat) (g : Island → Island) : (s.updIsland n g).nextGrid = s.nextGrid := rfl
@[simp] theorem updIsland_walls (n : Nat) (g : Island → Island) : (s.updIsland n g).walls = s.walls := rfl
@[simp] theorem updIsland_courses (n : Nat) (g : Island → Island) : (s.updIsland n g).courses = s.courses := rfl
@[simp] theorem updIsland_nextCourse (n : Nat) (g : Island → Island) : (s.updIsland n g).nextCourse = s.nextCourse := rfl
@[simp] theorem updIsland_nextAge (n : Nat) (g : Island → Island) : (s.updIsland n g).nextAge = s.nextAge := rfl
@[simp] theorem updIsland_ops (n : Nat) (g : Island → Island) : (s.updIsland n g).ops = s.ops := rfl
@[simp] theorem updIsland_nextOp (n : Nat) (g : Island → Island) : (s.updIsland n g).nextOp = s.nextOp := rfl
@[simp] theorem updIsland_locks (n : Nat) (g : Island → Island) : (s.updIsland n g).locks = s.locks := rfl
@[simp] theorem updIsland_skips (n : Nat) (g : Island → Island) : (s.updIsland n g).skips = s.skips := rfl

/-! updPart -/

@[simp] theorem updPart_sched (n : Nat) (g : Part → Part) : (s.updPart n g).sched = s.sched := rfl
@[simp] theorem updPart_steps (n : Nat) (g : Part → Part) : (s.updPart n g).steps = s.steps := rfl
@[simp] theorem updPart_issuing (n : Nat) (g : Part → Part) : (s.updPart n g).issuing = s.issuing := rfl
@[simp] theorem updPart_clock (n : Nat) (g : Part → Part) : (s.updPart n g).clock = s.clock := rfl
@[simp] theorem updPart_model (n : Nat) (g : Part → Part) : (s.updPart n g).model = s.model := rfl
@[simp] theorem updPart_started (n : Nat) (g : Part → Part) : (s.updPart n g).started = s.started := rfl
@[simp] theorem updPart_ready (n : Nat) (g : Part → Part) : (s.updPart n g).ready = s.ready := rfl
@[simp] theorem updPart_faultPend (n : Nat) (g : Part → Part) : (s.updPart n g).faultPend = s.faultPend := rfl
@[simp] theorem updPart_capped (n : Nat) (g : Part → Part) : (s.updPart n g).capped = s.capped := rfl
@[simp] theorem updPart_devnum (n : Nat) (g : Part → Part) : (s.updPart n g).devnum = s.devnum := rfl
@[simp] theorem updPart_portMode (n : Nat) (g : Part → Part) : (s.updPart n g).portMode = s.portMode := rfl
@[simp] theorem updPart_cmd (n : Nat) (g : Part → Part) : (s.updPart n g).cmd = s.cmd := rfl
@[simp] theorem updPart_cmdErr (n : Nat) (g : Part → Part) : (s.updPart n g).cmdErr = s.cmdErr := rfl
@[simp] theorem updPart_cmdResult (n : Nat) (g : Part → Part) : (s.updPart n g).cmdResult = s.cmdResult := rfl
@[simp] theorem updPart_running (n : Nat) (g : Part → Part) : (s.updPart n g).running = s.running := rfl
@[simp] theorem updPart_heldPolicy (n : Nat) (g : Part → Part) : (s.updPart n g).heldPolicy = s.heldPolicy := rfl
@[simp] theorem updPart_policy (n : Nat) (g : Part → Part) : (s.updPart n g).policy = s.policy := rfl
@[simp] theorem updPart_windows (n : Nat) (g : Part → Part) : (s.updPart n g).windows = s.windows := rfl
@[simp] theorem updPart_flash (n : Nat) (g : Part → Part) : (s.updPart n g).flash = s.flash := rfl
@[simp] theorem updPart_irqs (n : Nat) (g : Part → Part) : (s.updPart n g).irqs = s.irqs := rfl
@[simp] theorem updPart_stages (n : Nat) (g : Part → Part) : (s.updPart n g).stages = s.stages := rfl
@[simp] theorem updPart_pushStatus (n : Nat) (g : Part → Part) : (s.updPart n g).pushStatus = s.pushStatus := rfl
@[simp] theorem updPart_sent (n : Nat) (g : Part → Part) : (s.updPart n g).sent = s.sent := rfl
@[simp] theorem updPart_counters (n : Nat) (g : Part → Part) : (s.updPart n g).counters = s.counters := rfl
@[simp] theorem updPart_hostRead (n : Nat) (g : Part → Part) : (s.updPart n g).hostRead = s.hostRead := rfl
@[simp] theorem updPart_spdm (n : Nat) (g : Part → Part) : (s.updPart n g).spdm = s.spdm := rfl
@[simp] theorem updPart_marks (n : Nat) (g : Part → Part) : (s.updPart n g).marks = s.marks := rfl
@[simp] theorem updPart_found (n : Nat) (g : Part → Part) : (s.updPart n g).found = s.found := rfl
@[simp] theorem updPart_errors (n : Nat) (g : Part → Part) : (s.updPart n g).errors = s.errors := rfl
@[simp] theorem updPart_retired (n : Nat) (g : Part → Part) : (s.updPart n g).retired = s.retired := rfl
@[simp] theorem updPart_banks (n : Nat) (g : Part → Part) : (s.updPart n g).banks = s.banks := rfl
@[simp] theorem updPart_mem (n : Nat) (g : Part → Part) : (s.updPart n g).mem = s.mem := rfl
@[simp] theorem updPart_outside (n : Nat) (g : Part → Part) : (s.updPart n g).outside = s.outside := rfl
@[simp] theorem updPart_efmt (n : Nat) (g : Part → Part) : (s.updPart n g).efmt = s.efmt := rfl
@[simp] theorem updPart_lineTag (n : Nat) (g : Part → Part) : (s.updPart n g).lineTag = s.lineTag := rfl
@[simp] theorem updPart_cached (n : Nat) (g : Part → Part) : (s.updPart n g).cached = s.cached := rfl
@[simp] theorem updPart_stores (n : Nat) (g : Part → Part) : (s.updPart n g).stores = s.stores := rfl
@[simp] theorem updPart_writes (n : Nat) (g : Part → Part) : (s.updPart n g).writes = s.writes := rfl
@[simp] theorem updPart_nextWrite (n : Nat) (g : Part → Part) : (s.updPart n g).nextWrite = s.nextWrite := rfl
@[simp] theorem updPart_clocks (n : Nat) (g : Part → Part) : (s.updPart n g).clocks = s.clocks := rfl
@[simp] theorem updPart_monitors (n : Nat) (g : Part → Part) : (s.updPart n g).monitors = s.monitors := rfl
@[simp] theorem updPart_cores (n : Nat) (g : Part → Part) : (s.updPart n g).cores = s.cores := rfl
@[simp] theorem updPart_islands (n : Nat) (g : Part → Part) : (s.updPart n g).islands = s.islands := rfl
@[simp] theorem updPart_parts (n : Nat) (g : Part → Part) : (s.updPart n g).parts = s.parts.set n (g (s.part n)) := rfl
@[simp] theorem updPart_ctxs (n : Nat) (g : Part → Part) : (s.updPart n g).ctxs = s.ctxs := rfl
@[simp] theorem updPart_queues (n : Nat) (g : Part → Part) : (s.updPart n g).queues = s.queues := rfl
@[simp] theorem updPart_grids (n : Nat) (g : Part → Part) : (s.updPart n g).grids = s.grids := rfl
@[simp] theorem updPart_nextGrid (n : Nat) (g : Part → Part) : (s.updPart n g).nextGrid = s.nextGrid := rfl
@[simp] theorem updPart_walls (n : Nat) (g : Part → Part) : (s.updPart n g).walls = s.walls := rfl
@[simp] theorem updPart_courses (n : Nat) (g : Part → Part) : (s.updPart n g).courses = s.courses := rfl
@[simp] theorem updPart_nextCourse (n : Nat) (g : Part → Part) : (s.updPart n g).nextCourse = s.nextCourse := rfl
@[simp] theorem updPart_nextAge (n : Nat) (g : Part → Part) : (s.updPart n g).nextAge = s.nextAge := rfl
@[simp] theorem updPart_ops (n : Nat) (g : Part → Part) : (s.updPart n g).ops = s.ops := rfl
@[simp] theorem updPart_nextOp (n : Nat) (g : Part → Part) : (s.updPart n g).nextOp = s.nextOp := rfl
@[simp] theorem updPart_locks (n : Nat) (g : Part → Part) : (s.updPart n g).locks = s.locks := rfl
@[simp] theorem updPart_skips (n : Nat) (g : Part → Part) : (s.updPart n g).skips = s.skips := rfl

/-! updCourse -/

@[simp] theorem updCourse_sched (n : Nat) (g : Course → Course) : (s.updCourse n g).sched = s.sched := rfl
@[simp] theorem updCourse_steps (n : Nat) (g : Course → Course) : (s.updCourse n g).steps = s.steps := rfl
@[simp] theorem updCourse_issuing (n : Nat) (g : Course → Course) : (s.updCourse n g).issuing = s.issuing := rfl
@[simp] theorem updCourse_clock (n : Nat) (g : Course → Course) : (s.updCourse n g).clock = s.clock := rfl
@[simp] theorem updCourse_model (n : Nat) (g : Course → Course) : (s.updCourse n g).model = s.model := rfl
@[simp] theorem updCourse_started (n : Nat) (g : Course → Course) : (s.updCourse n g).started = s.started := rfl
@[simp] theorem updCourse_ready (n : Nat) (g : Course → Course) : (s.updCourse n g).ready = s.ready := rfl
@[simp] theorem updCourse_faultPend (n : Nat) (g : Course → Course) : (s.updCourse n g).faultPend = s.faultPend := rfl
@[simp] theorem updCourse_capped (n : Nat) (g : Course → Course) : (s.updCourse n g).capped = s.capped := rfl
@[simp] theorem updCourse_devnum (n : Nat) (g : Course → Course) : (s.updCourse n g).devnum = s.devnum := rfl
@[simp] theorem updCourse_portMode (n : Nat) (g : Course → Course) : (s.updCourse n g).portMode = s.portMode := rfl
@[simp] theorem updCourse_cmd (n : Nat) (g : Course → Course) : (s.updCourse n g).cmd = s.cmd := rfl
@[simp] theorem updCourse_cmdErr (n : Nat) (g : Course → Course) : (s.updCourse n g).cmdErr = s.cmdErr := rfl
@[simp] theorem updCourse_cmdResult (n : Nat) (g : Course → Course) : (s.updCourse n g).cmdResult = s.cmdResult := rfl
@[simp] theorem updCourse_running (n : Nat) (g : Course → Course) : (s.updCourse n g).running = s.running := rfl
@[simp] theorem updCourse_heldPolicy (n : Nat) (g : Course → Course) : (s.updCourse n g).heldPolicy = s.heldPolicy := rfl
@[simp] theorem updCourse_policy (n : Nat) (g : Course → Course) : (s.updCourse n g).policy = s.policy := rfl
@[simp] theorem updCourse_windows (n : Nat) (g : Course → Course) : (s.updCourse n g).windows = s.windows := rfl
@[simp] theorem updCourse_flash (n : Nat) (g : Course → Course) : (s.updCourse n g).flash = s.flash := rfl
@[simp] theorem updCourse_irqs (n : Nat) (g : Course → Course) : (s.updCourse n g).irqs = s.irqs := rfl
@[simp] theorem updCourse_stages (n : Nat) (g : Course → Course) : (s.updCourse n g).stages = s.stages := rfl
@[simp] theorem updCourse_pushStatus (n : Nat) (g : Course → Course) : (s.updCourse n g).pushStatus = s.pushStatus := rfl
@[simp] theorem updCourse_sent (n : Nat) (g : Course → Course) : (s.updCourse n g).sent = s.sent := rfl
@[simp] theorem updCourse_counters (n : Nat) (g : Course → Course) : (s.updCourse n g).counters = s.counters := rfl
@[simp] theorem updCourse_hostRead (n : Nat) (g : Course → Course) : (s.updCourse n g).hostRead = s.hostRead := rfl
@[simp] theorem updCourse_spdm (n : Nat) (g : Course → Course) : (s.updCourse n g).spdm = s.spdm := rfl
@[simp] theorem updCourse_marks (n : Nat) (g : Course → Course) : (s.updCourse n g).marks = s.marks := rfl
@[simp] theorem updCourse_found (n : Nat) (g : Course → Course) : (s.updCourse n g).found = s.found := rfl
@[simp] theorem updCourse_errors (n : Nat) (g : Course → Course) : (s.updCourse n g).errors = s.errors := rfl
@[simp] theorem updCourse_retired (n : Nat) (g : Course → Course) : (s.updCourse n g).retired = s.retired := rfl
@[simp] theorem updCourse_banks (n : Nat) (g : Course → Course) : (s.updCourse n g).banks = s.banks := rfl
@[simp] theorem updCourse_mem (n : Nat) (g : Course → Course) : (s.updCourse n g).mem = s.mem := rfl
@[simp] theorem updCourse_outside (n : Nat) (g : Course → Course) : (s.updCourse n g).outside = s.outside := rfl
@[simp] theorem updCourse_efmt (n : Nat) (g : Course → Course) : (s.updCourse n g).efmt = s.efmt := rfl
@[simp] theorem updCourse_lineTag (n : Nat) (g : Course → Course) : (s.updCourse n g).lineTag = s.lineTag := rfl
@[simp] theorem updCourse_cached (n : Nat) (g : Course → Course) : (s.updCourse n g).cached = s.cached := rfl
@[simp] theorem updCourse_stores (n : Nat) (g : Course → Course) : (s.updCourse n g).stores = s.stores := rfl
@[simp] theorem updCourse_writes (n : Nat) (g : Course → Course) : (s.updCourse n g).writes = s.writes := rfl
@[simp] theorem updCourse_nextWrite (n : Nat) (g : Course → Course) : (s.updCourse n g).nextWrite = s.nextWrite := rfl
@[simp] theorem updCourse_clocks (n : Nat) (g : Course → Course) : (s.updCourse n g).clocks = s.clocks := rfl
@[simp] theorem updCourse_monitors (n : Nat) (g : Course → Course) : (s.updCourse n g).monitors = s.monitors := rfl
@[simp] theorem updCourse_cores (n : Nat) (g : Course → Course) : (s.updCourse n g).cores = s.cores := rfl
@[simp] theorem updCourse_islands (n : Nat) (g : Course → Course) : (s.updCourse n g).islands = s.islands := rfl
@[simp] theorem updCourse_parts (n : Nat) (g : Course → Course) : (s.updCourse n g).parts = s.parts := rfl
@[simp] theorem updCourse_ctxs (n : Nat) (g : Course → Course) : (s.updCourse n g).ctxs = s.ctxs := rfl
@[simp] theorem updCourse_queues (n : Nat) (g : Course → Course) : (s.updCourse n g).queues = s.queues := rfl
@[simp] theorem updCourse_grids (n : Nat) (g : Course → Course) : (s.updCourse n g).grids = s.grids := rfl
@[simp] theorem updCourse_nextGrid (n : Nat) (g : Course → Course) : (s.updCourse n g).nextGrid = s.nextGrid := rfl
@[simp] theorem updCourse_walls (n : Nat) (g : Course → Course) : (s.updCourse n g).walls = s.walls := rfl
@[simp] theorem updCourse_courses (n : Nat) (g : Course → Course) : (s.updCourse n g).courses = s.courses.upd n g := rfl
@[simp] theorem updCourse_nextCourse (n : Nat) (g : Course → Course) : (s.updCourse n g).nextCourse = s.nextCourse := rfl
@[simp] theorem updCourse_nextAge (n : Nat) (g : Course → Course) : (s.updCourse n g).nextAge = s.nextAge := rfl
@[simp] theorem updCourse_ops (n : Nat) (g : Course → Course) : (s.updCourse n g).ops = s.ops := rfl
@[simp] theorem updCourse_nextOp (n : Nat) (g : Course → Course) : (s.updCourse n g).nextOp = s.nextOp := rfl
@[simp] theorem updCourse_locks (n : Nat) (g : Course → Course) : (s.updCourse n g).locks = s.locks := rfl
@[simp] theorem updCourse_skips (n : Nat) (g : Course → Course) : (s.updCourse n g).skips = s.skips := rfl

/-! updWall -/

@[simp] theorem updWall_sched (n : Nat) (g : Wall → Wall) : (s.updWall n g).sched = s.sched := rfl
@[simp] theorem updWall_steps (n : Nat) (g : Wall → Wall) : (s.updWall n g).steps = s.steps := rfl
@[simp] theorem updWall_issuing (n : Nat) (g : Wall → Wall) : (s.updWall n g).issuing = s.issuing := rfl
@[simp] theorem updWall_clock (n : Nat) (g : Wall → Wall) : (s.updWall n g).clock = s.clock := rfl
@[simp] theorem updWall_model (n : Nat) (g : Wall → Wall) : (s.updWall n g).model = s.model := rfl
@[simp] theorem updWall_started (n : Nat) (g : Wall → Wall) : (s.updWall n g).started = s.started := rfl
@[simp] theorem updWall_ready (n : Nat) (g : Wall → Wall) : (s.updWall n g).ready = s.ready := rfl
@[simp] theorem updWall_faultPend (n : Nat) (g : Wall → Wall) : (s.updWall n g).faultPend = s.faultPend := rfl
@[simp] theorem updWall_capped (n : Nat) (g : Wall → Wall) : (s.updWall n g).capped = s.capped := rfl
@[simp] theorem updWall_devnum (n : Nat) (g : Wall → Wall) : (s.updWall n g).devnum = s.devnum := rfl
@[simp] theorem updWall_portMode (n : Nat) (g : Wall → Wall) : (s.updWall n g).portMode = s.portMode := rfl
@[simp] theorem updWall_cmd (n : Nat) (g : Wall → Wall) : (s.updWall n g).cmd = s.cmd := rfl
@[simp] theorem updWall_cmdErr (n : Nat) (g : Wall → Wall) : (s.updWall n g).cmdErr = s.cmdErr := rfl
@[simp] theorem updWall_cmdResult (n : Nat) (g : Wall → Wall) : (s.updWall n g).cmdResult = s.cmdResult := rfl
@[simp] theorem updWall_running (n : Nat) (g : Wall → Wall) : (s.updWall n g).running = s.running := rfl
@[simp] theorem updWall_heldPolicy (n : Nat) (g : Wall → Wall) : (s.updWall n g).heldPolicy = s.heldPolicy := rfl
@[simp] theorem updWall_policy (n : Nat) (g : Wall → Wall) : (s.updWall n g).policy = s.policy := rfl
@[simp] theorem updWall_windows (n : Nat) (g : Wall → Wall) : (s.updWall n g).windows = s.windows := rfl
@[simp] theorem updWall_flash (n : Nat) (g : Wall → Wall) : (s.updWall n g).flash = s.flash := rfl
@[simp] theorem updWall_irqs (n : Nat) (g : Wall → Wall) : (s.updWall n g).irqs = s.irqs := rfl
@[simp] theorem updWall_stages (n : Nat) (g : Wall → Wall) : (s.updWall n g).stages = s.stages := rfl
@[simp] theorem updWall_pushStatus (n : Nat) (g : Wall → Wall) : (s.updWall n g).pushStatus = s.pushStatus := rfl
@[simp] theorem updWall_sent (n : Nat) (g : Wall → Wall) : (s.updWall n g).sent = s.sent := rfl
@[simp] theorem updWall_counters (n : Nat) (g : Wall → Wall) : (s.updWall n g).counters = s.counters := rfl
@[simp] theorem updWall_hostRead (n : Nat) (g : Wall → Wall) : (s.updWall n g).hostRead = s.hostRead := rfl
@[simp] theorem updWall_spdm (n : Nat) (g : Wall → Wall) : (s.updWall n g).spdm = s.spdm := rfl
@[simp] theorem updWall_marks (n : Nat) (g : Wall → Wall) : (s.updWall n g).marks = s.marks := rfl
@[simp] theorem updWall_found (n : Nat) (g : Wall → Wall) : (s.updWall n g).found = s.found := rfl
@[simp] theorem updWall_errors (n : Nat) (g : Wall → Wall) : (s.updWall n g).errors = s.errors := rfl
@[simp] theorem updWall_retired (n : Nat) (g : Wall → Wall) : (s.updWall n g).retired = s.retired := rfl
@[simp] theorem updWall_banks (n : Nat) (g : Wall → Wall) : (s.updWall n g).banks = s.banks := rfl
@[simp] theorem updWall_mem (n : Nat) (g : Wall → Wall) : (s.updWall n g).mem = s.mem := rfl
@[simp] theorem updWall_outside (n : Nat) (g : Wall → Wall) : (s.updWall n g).outside = s.outside := rfl
@[simp] theorem updWall_efmt (n : Nat) (g : Wall → Wall) : (s.updWall n g).efmt = s.efmt := rfl
@[simp] theorem updWall_lineTag (n : Nat) (g : Wall → Wall) : (s.updWall n g).lineTag = s.lineTag := rfl
@[simp] theorem updWall_cached (n : Nat) (g : Wall → Wall) : (s.updWall n g).cached = s.cached := rfl
@[simp] theorem updWall_stores (n : Nat) (g : Wall → Wall) : (s.updWall n g).stores = s.stores := rfl
@[simp] theorem updWall_writes (n : Nat) (g : Wall → Wall) : (s.updWall n g).writes = s.writes := rfl
@[simp] theorem updWall_nextWrite (n : Nat) (g : Wall → Wall) : (s.updWall n g).nextWrite = s.nextWrite := rfl
@[simp] theorem updWall_clocks (n : Nat) (g : Wall → Wall) : (s.updWall n g).clocks = s.clocks := rfl
@[simp] theorem updWall_monitors (n : Nat) (g : Wall → Wall) : (s.updWall n g).monitors = s.monitors := rfl
@[simp] theorem updWall_cores (n : Nat) (g : Wall → Wall) : (s.updWall n g).cores = s.cores := rfl
@[simp] theorem updWall_islands (n : Nat) (g : Wall → Wall) : (s.updWall n g).islands = s.islands := rfl
@[simp] theorem updWall_parts (n : Nat) (g : Wall → Wall) : (s.updWall n g).parts = s.parts := rfl
@[simp] theorem updWall_ctxs (n : Nat) (g : Wall → Wall) : (s.updWall n g).ctxs = s.ctxs := rfl
@[simp] theorem updWall_queues (n : Nat) (g : Wall → Wall) : (s.updWall n g).queues = s.queues := rfl
@[simp] theorem updWall_grids (n : Nat) (g : Wall → Wall) : (s.updWall n g).grids = s.grids := rfl
@[simp] theorem updWall_nextGrid (n : Nat) (g : Wall → Wall) : (s.updWall n g).nextGrid = s.nextGrid := rfl
@[simp] theorem updWall_walls (n : Nat) (g : Wall → Wall) : (s.updWall n g).walls = s.walls.upd n g := rfl
@[simp] theorem updWall_courses (n : Nat) (g : Wall → Wall) : (s.updWall n g).courses = s.courses := rfl
@[simp] theorem updWall_nextCourse (n : Nat) (g : Wall → Wall) : (s.updWall n g).nextCourse = s.nextCourse := rfl
@[simp] theorem updWall_nextAge (n : Nat) (g : Wall → Wall) : (s.updWall n g).nextAge = s.nextAge := rfl
@[simp] theorem updWall_ops (n : Nat) (g : Wall → Wall) : (s.updWall n g).ops = s.ops := rfl
@[simp] theorem updWall_nextOp (n : Nat) (g : Wall → Wall) : (s.updWall n g).nextOp = s.nextOp := rfl
@[simp] theorem updWall_locks (n : Nat) (g : Wall → Wall) : (s.updWall n g).locks = s.locks := rfl
@[simp] theorem updWall_skips (n : Nat) (g : Wall → Wall) : (s.updWall n g).skips = s.skips := rfl

/-! updCtx -/

@[simp] theorem updCtx_sched (n : Nat) (g : Ctx → Ctx) : (s.updCtx n g).sched = s.sched := rfl
@[simp] theorem updCtx_steps (n : Nat) (g : Ctx → Ctx) : (s.updCtx n g).steps = s.steps := rfl
@[simp] theorem updCtx_issuing (n : Nat) (g : Ctx → Ctx) : (s.updCtx n g).issuing = s.issuing := rfl
@[simp] theorem updCtx_clock (n : Nat) (g : Ctx → Ctx) : (s.updCtx n g).clock = s.clock := rfl
@[simp] theorem updCtx_model (n : Nat) (g : Ctx → Ctx) : (s.updCtx n g).model = s.model := rfl
@[simp] theorem updCtx_started (n : Nat) (g : Ctx → Ctx) : (s.updCtx n g).started = s.started := rfl
@[simp] theorem updCtx_ready (n : Nat) (g : Ctx → Ctx) : (s.updCtx n g).ready = s.ready := rfl
@[simp] theorem updCtx_faultPend (n : Nat) (g : Ctx → Ctx) : (s.updCtx n g).faultPend = s.faultPend := rfl
@[simp] theorem updCtx_capped (n : Nat) (g : Ctx → Ctx) : (s.updCtx n g).capped = s.capped := rfl
@[simp] theorem updCtx_devnum (n : Nat) (g : Ctx → Ctx) : (s.updCtx n g).devnum = s.devnum := rfl
@[simp] theorem updCtx_portMode (n : Nat) (g : Ctx → Ctx) : (s.updCtx n g).portMode = s.portMode := rfl
@[simp] theorem updCtx_cmd (n : Nat) (g : Ctx → Ctx) : (s.updCtx n g).cmd = s.cmd := rfl
@[simp] theorem updCtx_cmdErr (n : Nat) (g : Ctx → Ctx) : (s.updCtx n g).cmdErr = s.cmdErr := rfl
@[simp] theorem updCtx_cmdResult (n : Nat) (g : Ctx → Ctx) : (s.updCtx n g).cmdResult = s.cmdResult := rfl
@[simp] theorem updCtx_running (n : Nat) (g : Ctx → Ctx) : (s.updCtx n g).running = s.running := rfl
@[simp] theorem updCtx_heldPolicy (n : Nat) (g : Ctx → Ctx) : (s.updCtx n g).heldPolicy = s.heldPolicy := rfl
@[simp] theorem updCtx_policy (n : Nat) (g : Ctx → Ctx) : (s.updCtx n g).policy = s.policy := rfl
@[simp] theorem updCtx_windows (n : Nat) (g : Ctx → Ctx) : (s.updCtx n g).windows = s.windows := rfl
@[simp] theorem updCtx_flash (n : Nat) (g : Ctx → Ctx) : (s.updCtx n g).flash = s.flash := rfl
@[simp] theorem updCtx_irqs (n : Nat) (g : Ctx → Ctx) : (s.updCtx n g).irqs = s.irqs := rfl
@[simp] theorem updCtx_stages (n : Nat) (g : Ctx → Ctx) : (s.updCtx n g).stages = s.stages := rfl
@[simp] theorem updCtx_pushStatus (n : Nat) (g : Ctx → Ctx) : (s.updCtx n g).pushStatus = s.pushStatus := rfl
@[simp] theorem updCtx_sent (n : Nat) (g : Ctx → Ctx) : (s.updCtx n g).sent = s.sent := rfl
@[simp] theorem updCtx_counters (n : Nat) (g : Ctx → Ctx) : (s.updCtx n g).counters = s.counters := rfl
@[simp] theorem updCtx_hostRead (n : Nat) (g : Ctx → Ctx) : (s.updCtx n g).hostRead = s.hostRead := rfl
@[simp] theorem updCtx_spdm (n : Nat) (g : Ctx → Ctx) : (s.updCtx n g).spdm = s.spdm := rfl
@[simp] theorem updCtx_marks (n : Nat) (g : Ctx → Ctx) : (s.updCtx n g).marks = s.marks := rfl
@[simp] theorem updCtx_found (n : Nat) (g : Ctx → Ctx) : (s.updCtx n g).found = s.found := rfl
@[simp] theorem updCtx_errors (n : Nat) (g : Ctx → Ctx) : (s.updCtx n g).errors = s.errors := rfl
@[simp] theorem updCtx_retired (n : Nat) (g : Ctx → Ctx) : (s.updCtx n g).retired = s.retired := rfl
@[simp] theorem updCtx_banks (n : Nat) (g : Ctx → Ctx) : (s.updCtx n g).banks = s.banks := rfl
@[simp] theorem updCtx_mem (n : Nat) (g : Ctx → Ctx) : (s.updCtx n g).mem = s.mem := rfl
@[simp] theorem updCtx_outside (n : Nat) (g : Ctx → Ctx) : (s.updCtx n g).outside = s.outside := rfl
@[simp] theorem updCtx_efmt (n : Nat) (g : Ctx → Ctx) : (s.updCtx n g).efmt = s.efmt := rfl
@[simp] theorem updCtx_lineTag (n : Nat) (g : Ctx → Ctx) : (s.updCtx n g).lineTag = s.lineTag := rfl
@[simp] theorem updCtx_cached (n : Nat) (g : Ctx → Ctx) : (s.updCtx n g).cached = s.cached := rfl
@[simp] theorem updCtx_stores (n : Nat) (g : Ctx → Ctx) : (s.updCtx n g).stores = s.stores := rfl
@[simp] theorem updCtx_writes (n : Nat) (g : Ctx → Ctx) : (s.updCtx n g).writes = s.writes := rfl
@[simp] theorem updCtx_nextWrite (n : Nat) (g : Ctx → Ctx) : (s.updCtx n g).nextWrite = s.nextWrite := rfl
@[simp] theorem updCtx_clocks (n : Nat) (g : Ctx → Ctx) : (s.updCtx n g).clocks = s.clocks := rfl
@[simp] theorem updCtx_monitors (n : Nat) (g : Ctx → Ctx) : (s.updCtx n g).monitors = s.monitors := rfl
@[simp] theorem updCtx_cores (n : Nat) (g : Ctx → Ctx) : (s.updCtx n g).cores = s.cores := rfl
@[simp] theorem updCtx_islands (n : Nat) (g : Ctx → Ctx) : (s.updCtx n g).islands = s.islands := rfl
@[simp] theorem updCtx_parts (n : Nat) (g : Ctx → Ctx) : (s.updCtx n g).parts = s.parts := rfl
@[simp] theorem updCtx_ctxs (n : Nat) (g : Ctx → Ctx) : (s.updCtx n g).ctxs = s.ctxs.upd n g := rfl
@[simp] theorem updCtx_queues (n : Nat) (g : Ctx → Ctx) : (s.updCtx n g).queues = s.queues := rfl
@[simp] theorem updCtx_grids (n : Nat) (g : Ctx → Ctx) : (s.updCtx n g).grids = s.grids := rfl
@[simp] theorem updCtx_nextGrid (n : Nat) (g : Ctx → Ctx) : (s.updCtx n g).nextGrid = s.nextGrid := rfl
@[simp] theorem updCtx_walls (n : Nat) (g : Ctx → Ctx) : (s.updCtx n g).walls = s.walls := rfl
@[simp] theorem updCtx_courses (n : Nat) (g : Ctx → Ctx) : (s.updCtx n g).courses = s.courses := rfl
@[simp] theorem updCtx_nextCourse (n : Nat) (g : Ctx → Ctx) : (s.updCtx n g).nextCourse = s.nextCourse := rfl
@[simp] theorem updCtx_nextAge (n : Nat) (g : Ctx → Ctx) : (s.updCtx n g).nextAge = s.nextAge := rfl
@[simp] theorem updCtx_ops (n : Nat) (g : Ctx → Ctx) : (s.updCtx n g).ops = s.ops := rfl
@[simp] theorem updCtx_nextOp (n : Nat) (g : Ctx → Ctx) : (s.updCtx n g).nextOp = s.nextOp := rfl
@[simp] theorem updCtx_locks (n : Nat) (g : Ctx → Ctx) : (s.updCtx n g).locks = s.locks := rfl
@[simp] theorem updCtx_skips (n : Nat) (g : Ctx → Ctx) : (s.updCtx n g).skips = s.skips := rfl

/-! updQueue -/

@[simp] theorem updQueue_sched (n : Nat) (g : Queue → Queue) : (s.updQueue n g).sched = s.sched := rfl
@[simp] theorem updQueue_steps (n : Nat) (g : Queue → Queue) : (s.updQueue n g).steps = s.steps := rfl
@[simp] theorem updQueue_issuing (n : Nat) (g : Queue → Queue) : (s.updQueue n g).issuing = s.issuing := rfl
@[simp] theorem updQueue_clock (n : Nat) (g : Queue → Queue) : (s.updQueue n g).clock = s.clock := rfl
@[simp] theorem updQueue_model (n : Nat) (g : Queue → Queue) : (s.updQueue n g).model = s.model := rfl
@[simp] theorem updQueue_started (n : Nat) (g : Queue → Queue) : (s.updQueue n g).started = s.started := rfl
@[simp] theorem updQueue_ready (n : Nat) (g : Queue → Queue) : (s.updQueue n g).ready = s.ready := rfl
@[simp] theorem updQueue_faultPend (n : Nat) (g : Queue → Queue) : (s.updQueue n g).faultPend = s.faultPend := rfl
@[simp] theorem updQueue_capped (n : Nat) (g : Queue → Queue) : (s.updQueue n g).capped = s.capped := rfl
@[simp] theorem updQueue_devnum (n : Nat) (g : Queue → Queue) : (s.updQueue n g).devnum = s.devnum := rfl
@[simp] theorem updQueue_portMode (n : Nat) (g : Queue → Queue) : (s.updQueue n g).portMode = s.portMode := rfl
@[simp] theorem updQueue_cmd (n : Nat) (g : Queue → Queue) : (s.updQueue n g).cmd = s.cmd := rfl
@[simp] theorem updQueue_cmdErr (n : Nat) (g : Queue → Queue) : (s.updQueue n g).cmdErr = s.cmdErr := rfl
@[simp] theorem updQueue_cmdResult (n : Nat) (g : Queue → Queue) : (s.updQueue n g).cmdResult = s.cmdResult := rfl
@[simp] theorem updQueue_running (n : Nat) (g : Queue → Queue) : (s.updQueue n g).running = s.running := rfl
@[simp] theorem updQueue_heldPolicy (n : Nat) (g : Queue → Queue) : (s.updQueue n g).heldPolicy = s.heldPolicy := rfl
@[simp] theorem updQueue_policy (n : Nat) (g : Queue → Queue) : (s.updQueue n g).policy = s.policy := rfl
@[simp] theorem updQueue_windows (n : Nat) (g : Queue → Queue) : (s.updQueue n g).windows = s.windows := rfl
@[simp] theorem updQueue_flash (n : Nat) (g : Queue → Queue) : (s.updQueue n g).flash = s.flash := rfl
@[simp] theorem updQueue_irqs (n : Nat) (g : Queue → Queue) : (s.updQueue n g).irqs = s.irqs := rfl
@[simp] theorem updQueue_stages (n : Nat) (g : Queue → Queue) : (s.updQueue n g).stages = s.stages := rfl
@[simp] theorem updQueue_pushStatus (n : Nat) (g : Queue → Queue) : (s.updQueue n g).pushStatus = s.pushStatus := rfl
@[simp] theorem updQueue_sent (n : Nat) (g : Queue → Queue) : (s.updQueue n g).sent = s.sent := rfl
@[simp] theorem updQueue_counters (n : Nat) (g : Queue → Queue) : (s.updQueue n g).counters = s.counters := rfl
@[simp] theorem updQueue_hostRead (n : Nat) (g : Queue → Queue) : (s.updQueue n g).hostRead = s.hostRead := rfl
@[simp] theorem updQueue_spdm (n : Nat) (g : Queue → Queue) : (s.updQueue n g).spdm = s.spdm := rfl
@[simp] theorem updQueue_marks (n : Nat) (g : Queue → Queue) : (s.updQueue n g).marks = s.marks := rfl
@[simp] theorem updQueue_found (n : Nat) (g : Queue → Queue) : (s.updQueue n g).found = s.found := rfl
@[simp] theorem updQueue_errors (n : Nat) (g : Queue → Queue) : (s.updQueue n g).errors = s.errors := rfl
@[simp] theorem updQueue_retired (n : Nat) (g : Queue → Queue) : (s.updQueue n g).retired = s.retired := rfl
@[simp] theorem updQueue_banks (n : Nat) (g : Queue → Queue) : (s.updQueue n g).banks = s.banks := rfl
@[simp] theorem updQueue_mem (n : Nat) (g : Queue → Queue) : (s.updQueue n g).mem = s.mem := rfl
@[simp] theorem updQueue_outside (n : Nat) (g : Queue → Queue) : (s.updQueue n g).outside = s.outside := rfl
@[simp] theorem updQueue_efmt (n : Nat) (g : Queue → Queue) : (s.updQueue n g).efmt = s.efmt := rfl
@[simp] theorem updQueue_lineTag (n : Nat) (g : Queue → Queue) : (s.updQueue n g).lineTag = s.lineTag := rfl
@[simp] theorem updQueue_cached (n : Nat) (g : Queue → Queue) : (s.updQueue n g).cached = s.cached := rfl
@[simp] theorem updQueue_stores (n : Nat) (g : Queue → Queue) : (s.updQueue n g).stores = s.stores := rfl
@[simp] theorem updQueue_writes (n : Nat) (g : Queue → Queue) : (s.updQueue n g).writes = s.writes := rfl
@[simp] theorem updQueue_nextWrite (n : Nat) (g : Queue → Queue) : (s.updQueue n g).nextWrite = s.nextWrite := rfl
@[simp] theorem updQueue_clocks (n : Nat) (g : Queue → Queue) : (s.updQueue n g).clocks = s.clocks := rfl
@[simp] theorem updQueue_monitors (n : Nat) (g : Queue → Queue) : (s.updQueue n g).monitors = s.monitors := rfl
@[simp] theorem updQueue_cores (n : Nat) (g : Queue → Queue) : (s.updQueue n g).cores = s.cores := rfl
@[simp] theorem updQueue_islands (n : Nat) (g : Queue → Queue) : (s.updQueue n g).islands = s.islands := rfl
@[simp] theorem updQueue_parts (n : Nat) (g : Queue → Queue) : (s.updQueue n g).parts = s.parts := rfl
@[simp] theorem updQueue_ctxs (n : Nat) (g : Queue → Queue) : (s.updQueue n g).ctxs = s.ctxs := rfl
@[simp] theorem updQueue_queues (n : Nat) (g : Queue → Queue) : (s.updQueue n g).queues = s.queues.upd n g := rfl
@[simp] theorem updQueue_grids (n : Nat) (g : Queue → Queue) : (s.updQueue n g).grids = s.grids := rfl
@[simp] theorem updQueue_nextGrid (n : Nat) (g : Queue → Queue) : (s.updQueue n g).nextGrid = s.nextGrid := rfl
@[simp] theorem updQueue_walls (n : Nat) (g : Queue → Queue) : (s.updQueue n g).walls = s.walls := rfl
@[simp] theorem updQueue_courses (n : Nat) (g : Queue → Queue) : (s.updQueue n g).courses = s.courses := rfl
@[simp] theorem updQueue_nextCourse (n : Nat) (g : Queue → Queue) : (s.updQueue n g).nextCourse = s.nextCourse := rfl
@[simp] theorem updQueue_nextAge (n : Nat) (g : Queue → Queue) : (s.updQueue n g).nextAge = s.nextAge := rfl
@[simp] theorem updQueue_ops (n : Nat) (g : Queue → Queue) : (s.updQueue n g).ops = s.ops := rfl
@[simp] theorem updQueue_nextOp (n : Nat) (g : Queue → Queue) : (s.updQueue n g).nextOp = s.nextOp := rfl
@[simp] theorem updQueue_locks (n : Nat) (g : Queue → Queue) : (s.updQueue n g).locks = s.locks := rfl
@[simp] theorem updQueue_skips (n : Nat) (g : Queue → Queue) : (s.updQueue n g).skips = s.skips := rfl

/-! updGrid -/

@[simp] theorem updGrid_sched (n : Nat) (g : Grid → Grid) : (s.updGrid n g).sched = s.sched := rfl
@[simp] theorem updGrid_steps (n : Nat) (g : Grid → Grid) : (s.updGrid n g).steps = s.steps := rfl
@[simp] theorem updGrid_issuing (n : Nat) (g : Grid → Grid) : (s.updGrid n g).issuing = s.issuing := rfl
@[simp] theorem updGrid_clock (n : Nat) (g : Grid → Grid) : (s.updGrid n g).clock = s.clock := rfl
@[simp] theorem updGrid_model (n : Nat) (g : Grid → Grid) : (s.updGrid n g).model = s.model := rfl
@[simp] theorem updGrid_started (n : Nat) (g : Grid → Grid) : (s.updGrid n g).started = s.started := rfl
@[simp] theorem updGrid_ready (n : Nat) (g : Grid → Grid) : (s.updGrid n g).ready = s.ready := rfl
@[simp] theorem updGrid_faultPend (n : Nat) (g : Grid → Grid) : (s.updGrid n g).faultPend = s.faultPend := rfl
@[simp] theorem updGrid_capped (n : Nat) (g : Grid → Grid) : (s.updGrid n g).capped = s.capped := rfl
@[simp] theorem updGrid_devnum (n : Nat) (g : Grid → Grid) : (s.updGrid n g).devnum = s.devnum := rfl
@[simp] theorem updGrid_portMode (n : Nat) (g : Grid → Grid) : (s.updGrid n g).portMode = s.portMode := rfl
@[simp] theorem updGrid_cmd (n : Nat) (g : Grid → Grid) : (s.updGrid n g).cmd = s.cmd := rfl
@[simp] theorem updGrid_cmdErr (n : Nat) (g : Grid → Grid) : (s.updGrid n g).cmdErr = s.cmdErr := rfl
@[simp] theorem updGrid_cmdResult (n : Nat) (g : Grid → Grid) : (s.updGrid n g).cmdResult = s.cmdResult := rfl
@[simp] theorem updGrid_running (n : Nat) (g : Grid → Grid) : (s.updGrid n g).running = s.running := rfl
@[simp] theorem updGrid_heldPolicy (n : Nat) (g : Grid → Grid) : (s.updGrid n g).heldPolicy = s.heldPolicy := rfl
@[simp] theorem updGrid_policy (n : Nat) (g : Grid → Grid) : (s.updGrid n g).policy = s.policy := rfl
@[simp] theorem updGrid_windows (n : Nat) (g : Grid → Grid) : (s.updGrid n g).windows = s.windows := rfl
@[simp] theorem updGrid_flash (n : Nat) (g : Grid → Grid) : (s.updGrid n g).flash = s.flash := rfl
@[simp] theorem updGrid_irqs (n : Nat) (g : Grid → Grid) : (s.updGrid n g).irqs = s.irqs := rfl
@[simp] theorem updGrid_stages (n : Nat) (g : Grid → Grid) : (s.updGrid n g).stages = s.stages := rfl
@[simp] theorem updGrid_pushStatus (n : Nat) (g : Grid → Grid) : (s.updGrid n g).pushStatus = s.pushStatus := rfl
@[simp] theorem updGrid_sent (n : Nat) (g : Grid → Grid) : (s.updGrid n g).sent = s.sent := rfl
@[simp] theorem updGrid_counters (n : Nat) (g : Grid → Grid) : (s.updGrid n g).counters = s.counters := rfl
@[simp] theorem updGrid_hostRead (n : Nat) (g : Grid → Grid) : (s.updGrid n g).hostRead = s.hostRead := rfl
@[simp] theorem updGrid_spdm (n : Nat) (g : Grid → Grid) : (s.updGrid n g).spdm = s.spdm := rfl
@[simp] theorem updGrid_marks (n : Nat) (g : Grid → Grid) : (s.updGrid n g).marks = s.marks := rfl
@[simp] theorem updGrid_found (n : Nat) (g : Grid → Grid) : (s.updGrid n g).found = s.found := rfl
@[simp] theorem updGrid_errors (n : Nat) (g : Grid → Grid) : (s.updGrid n g).errors = s.errors := rfl
@[simp] theorem updGrid_retired (n : Nat) (g : Grid → Grid) : (s.updGrid n g).retired = s.retired := rfl
@[simp] theorem updGrid_banks (n : Nat) (g : Grid → Grid) : (s.updGrid n g).banks = s.banks := rfl
@[simp] theorem updGrid_mem (n : Nat) (g : Grid → Grid) : (s.updGrid n g).mem = s.mem := rfl
@[simp] theorem updGrid_outside (n : Nat) (g : Grid → Grid) : (s.updGrid n g).outside = s.outside := rfl
@[simp] theorem updGrid_efmt (n : Nat) (g : Grid → Grid) : (s.updGrid n g).efmt = s.efmt := rfl
@[simp] theorem updGrid_lineTag (n : Nat) (g : Grid → Grid) : (s.updGrid n g).lineTag = s.lineTag := rfl
@[simp] theorem updGrid_cached (n : Nat) (g : Grid → Grid) : (s.updGrid n g).cached = s.cached := rfl
@[simp] theorem updGrid_stores (n : Nat) (g : Grid → Grid) : (s.updGrid n g).stores = s.stores := rfl
@[simp] theorem updGrid_writes (n : Nat) (g : Grid → Grid) : (s.updGrid n g).writes = s.writes := rfl
@[simp] theorem updGrid_nextWrite (n : Nat) (g : Grid → Grid) : (s.updGrid n g).nextWrite = s.nextWrite := rfl
@[simp] theorem updGrid_clocks (n : Nat) (g : Grid → Grid) : (s.updGrid n g).clocks = s.clocks := rfl
@[simp] theorem updGrid_monitors (n : Nat) (g : Grid → Grid) : (s.updGrid n g).monitors = s.monitors := rfl
@[simp] theorem updGrid_cores (n : Nat) (g : Grid → Grid) : (s.updGrid n g).cores = s.cores := rfl
@[simp] theorem updGrid_islands (n : Nat) (g : Grid → Grid) : (s.updGrid n g).islands = s.islands := rfl
@[simp] theorem updGrid_parts (n : Nat) (g : Grid → Grid) : (s.updGrid n g).parts = s.parts := rfl
@[simp] theorem updGrid_ctxs (n : Nat) (g : Grid → Grid) : (s.updGrid n g).ctxs = s.ctxs := rfl
@[simp] theorem updGrid_queues (n : Nat) (g : Grid → Grid) : (s.updGrid n g).queues = s.queues := rfl
@[simp] theorem updGrid_grids (n : Nat) (g : Grid → Grid) : (s.updGrid n g).grids = s.grids.upd n g := rfl
@[simp] theorem updGrid_nextGrid (n : Nat) (g : Grid → Grid) : (s.updGrid n g).nextGrid = s.nextGrid := rfl
@[simp] theorem updGrid_walls (n : Nat) (g : Grid → Grid) : (s.updGrid n g).walls = s.walls := rfl
@[simp] theorem updGrid_courses (n : Nat) (g : Grid → Grid) : (s.updGrid n g).courses = s.courses := rfl
@[simp] theorem updGrid_nextCourse (n : Nat) (g : Grid → Grid) : (s.updGrid n g).nextCourse = s.nextCourse := rfl
@[simp] theorem updGrid_nextAge (n : Nat) (g : Grid → Grid) : (s.updGrid n g).nextAge = s.nextAge := rfl
@[simp] theorem updGrid_ops (n : Nat) (g : Grid → Grid) : (s.updGrid n g).ops = s.ops := rfl
@[simp] theorem updGrid_nextOp (n : Nat) (g : Grid → Grid) : (s.updGrid n g).nextOp = s.nextOp := rfl
@[simp] theorem updGrid_locks (n : Nat) (g : Grid → Grid) : (s.updGrid n g).locks = s.locks := rfl
@[simp] theorem updGrid_skips (n : Nat) (g : Grid → Grid) : (s.updGrid n g).skips = s.skips := rfl

/-! updOp -/

@[simp] theorem updOp_sched (n : Nat) (g : Op → Op) : (s.updOp n g).sched = s.sched := rfl
@[simp] theorem updOp_steps (n : Nat) (g : Op → Op) : (s.updOp n g).steps = s.steps := rfl
@[simp] theorem updOp_issuing (n : Nat) (g : Op → Op) : (s.updOp n g).issuing = s.issuing := rfl
@[simp] theorem updOp_clock (n : Nat) (g : Op → Op) : (s.updOp n g).clock = s.clock := rfl
@[simp] theorem updOp_model (n : Nat) (g : Op → Op) : (s.updOp n g).model = s.model := rfl
@[simp] theorem updOp_started (n : Nat) (g : Op → Op) : (s.updOp n g).started = s.started := rfl
@[simp] theorem updOp_ready (n : Nat) (g : Op → Op) : (s.updOp n g).ready = s.ready := rfl
@[simp] theorem updOp_faultPend (n : Nat) (g : Op → Op) : (s.updOp n g).faultPend = s.faultPend := rfl
@[simp] theorem updOp_capped (n : Nat) (g : Op → Op) : (s.updOp n g).capped = s.capped := rfl
@[simp] theorem updOp_devnum (n : Nat) (g : Op → Op) : (s.updOp n g).devnum = s.devnum := rfl
@[simp] theorem updOp_portMode (n : Nat) (g : Op → Op) : (s.updOp n g).portMode = s.portMode := rfl
@[simp] theorem updOp_cmd (n : Nat) (g : Op → Op) : (s.updOp n g).cmd = s.cmd := rfl
@[simp] theorem updOp_cmdErr (n : Nat) (g : Op → Op) : (s.updOp n g).cmdErr = s.cmdErr := rfl
@[simp] theorem updOp_cmdResult (n : Nat) (g : Op → Op) : (s.updOp n g).cmdResult = s.cmdResult := rfl
@[simp] theorem updOp_running (n : Nat) (g : Op → Op) : (s.updOp n g).running = s.running := rfl
@[simp] theorem updOp_heldPolicy (n : Nat) (g : Op → Op) : (s.updOp n g).heldPolicy = s.heldPolicy := rfl
@[simp] theorem updOp_policy (n : Nat) (g : Op → Op) : (s.updOp n g).policy = s.policy := rfl
@[simp] theorem updOp_windows (n : Nat) (g : Op → Op) : (s.updOp n g).windows = s.windows := rfl
@[simp] theorem updOp_flash (n : Nat) (g : Op → Op) : (s.updOp n g).flash = s.flash := rfl
@[simp] theorem updOp_irqs (n : Nat) (g : Op → Op) : (s.updOp n g).irqs = s.irqs := rfl
@[simp] theorem updOp_stages (n : Nat) (g : Op → Op) : (s.updOp n g).stages = s.stages := rfl
@[simp] theorem updOp_pushStatus (n : Nat) (g : Op → Op) : (s.updOp n g).pushStatus = s.pushStatus := rfl
@[simp] theorem updOp_sent (n : Nat) (g : Op → Op) : (s.updOp n g).sent = s.sent := rfl
@[simp] theorem updOp_counters (n : Nat) (g : Op → Op) : (s.updOp n g).counters = s.counters := rfl
@[simp] theorem updOp_hostRead (n : Nat) (g : Op → Op) : (s.updOp n g).hostRead = s.hostRead := rfl
@[simp] theorem updOp_spdm (n : Nat) (g : Op → Op) : (s.updOp n g).spdm = s.spdm := rfl
@[simp] theorem updOp_marks (n : Nat) (g : Op → Op) : (s.updOp n g).marks = s.marks := rfl
@[simp] theorem updOp_found (n : Nat) (g : Op → Op) : (s.updOp n g).found = s.found := rfl
@[simp] theorem updOp_errors (n : Nat) (g : Op → Op) : (s.updOp n g).errors = s.errors := rfl
@[simp] theorem updOp_retired (n : Nat) (g : Op → Op) : (s.updOp n g).retired = s.retired := rfl
@[simp] theorem updOp_banks (n : Nat) (g : Op → Op) : (s.updOp n g).banks = s.banks := rfl
@[simp] theorem updOp_mem (n : Nat) (g : Op → Op) : (s.updOp n g).mem = s.mem := rfl
@[simp] theorem updOp_outside (n : Nat) (g : Op → Op) : (s.updOp n g).outside = s.outside := rfl
@[simp] theorem updOp_efmt (n : Nat) (g : Op → Op) : (s.updOp n g).efmt = s.efmt := rfl
@[simp] theorem updOp_lineTag (n : Nat) (g : Op → Op) : (s.updOp n g).lineTag = s.lineTag := rfl
@[simp] theorem updOp_cached (n : Nat) (g : Op → Op) : (s.updOp n g).cached = s.cached := rfl
@[simp] theorem updOp_stores (n : Nat) (g : Op → Op) : (s.updOp n g).stores = s.stores := rfl
@[simp] theorem updOp_writes (n : Nat) (g : Op → Op) : (s.updOp n g).writes = s.writes := rfl
@[simp] theorem updOp_nextWrite (n : Nat) (g : Op → Op) : (s.updOp n g).nextWrite = s.nextWrite := rfl
@[simp] theorem updOp_clocks (n : Nat) (g : Op → Op) : (s.updOp n g).clocks = s.clocks := rfl
@[simp] theorem updOp_monitors (n : Nat) (g : Op → Op) : (s.updOp n g).monitors = s.monitors := rfl
@[simp] theorem updOp_cores (n : Nat) (g : Op → Op) : (s.updOp n g).cores = s.cores := rfl
@[simp] theorem updOp_islands (n : Nat) (g : Op → Op) : (s.updOp n g).islands = s.islands := rfl
@[simp] theorem updOp_parts (n : Nat) (g : Op → Op) : (s.updOp n g).parts = s.parts := rfl
@[simp] theorem updOp_ctxs (n : Nat) (g : Op → Op) : (s.updOp n g).ctxs = s.ctxs := rfl
@[simp] theorem updOp_queues (n : Nat) (g : Op → Op) : (s.updOp n g).queues = s.queues := rfl
@[simp] theorem updOp_grids (n : Nat) (g : Op → Op) : (s.updOp n g).grids = s.grids := rfl
@[simp] theorem updOp_nextGrid (n : Nat) (g : Op → Op) : (s.updOp n g).nextGrid = s.nextGrid := rfl
@[simp] theorem updOp_walls (n : Nat) (g : Op → Op) : (s.updOp n g).walls = s.walls := rfl
@[simp] theorem updOp_courses (n : Nat) (g : Op → Op) : (s.updOp n g).courses = s.courses := rfl
@[simp] theorem updOp_nextCourse (n : Nat) (g : Op → Op) : (s.updOp n g).nextCourse = s.nextCourse := rfl
@[simp] theorem updOp_nextAge (n : Nat) (g : Op → Op) : (s.updOp n g).nextAge = s.nextAge := rfl
@[simp] theorem updOp_ops (n : Nat) (g : Op → Op) : (s.updOp n g).ops = s.ops.upd n g := rfl
@[simp] theorem updOp_nextOp (n : Nat) (g : Op → Op) : (s.updOp n g).nextOp = s.nextOp := rfl
@[simp] theorem updOp_locks (n : Nat) (g : Op → Op) : (s.updOp n g).locks = s.locks := rfl
@[simp] theorem updOp_skips (n : Nat) (g : Op → Op) : (s.updOp n g).skips = s.skips := rfl

/-! updFrag -/

@[simp] theorem updFrag_sched (r : FragRef) (g : Frag → Frag) : (s.updFrag r g).sched = s.sched := rfl
@[simp] theorem updFrag_steps (r : FragRef) (g : Frag → Frag) : (s.updFrag r g).steps = s.steps := rfl
@[simp] theorem updFrag_issuing (r : FragRef) (g : Frag → Frag) : (s.updFrag r g).issuing = s.issuing := rfl
@[simp] theorem updFrag_clock (r : FragRef) (g : Frag → Frag) : (s.updFrag r g).clock = s.clock := rfl
@[simp] theorem updFrag_model (r : FragRef) (g : Frag → Frag) : (s.updFrag r g).model = s.model := rfl
@[simp] theorem updFrag_started (r : FragRef) (g : Frag → Frag) : (s.updFrag r g).started = s.started := rfl
@[simp] theorem updFrag_ready (r : FragRef) (g : Frag → Frag) : (s.updFrag r g).ready = s.ready := rfl
@[simp] theorem updFrag_faultPend (r : FragRef) (g : Frag → Frag) : (s.updFrag r g).faultPend = s.faultPend := rfl
@[simp] theorem updFrag_capped (r : FragRef) (g : Frag → Frag) : (s.updFrag r g).capped = s.capped := rfl
@[simp] theorem updFrag_devnum (r : FragRef) (g : Frag → Frag) : (s.updFrag r g).devnum = s.devnum := rfl
@[simp] theorem updFrag_portMode (r : FragRef) (g : Frag → Frag) : (s.updFrag r g).portMode = s.portMode := rfl
@[simp] theorem updFrag_cmd (r : FragRef) (g : Frag → Frag) : (s.updFrag r g).cmd = s.cmd := rfl
@[simp] theorem updFrag_cmdErr (r : FragRef) (g : Frag → Frag) : (s.updFrag r g).cmdErr = s.cmdErr := rfl
@[simp] theorem updFrag_cmdResult (r : FragRef) (g : Frag → Frag) : (s.updFrag r g).cmdResult = s.cmdResult := rfl
@[simp] theorem updFrag_running (r : FragRef) (g : Frag → Frag) : (s.updFrag r g).running = s.running := rfl
@[simp] theorem updFrag_heldPolicy (r : FragRef) (g : Frag → Frag) : (s.updFrag r g).heldPolicy = s.heldPolicy := rfl
@[simp] theorem updFrag_policy (r : FragRef) (g : Frag → Frag) : (s.updFrag r g).policy = s.policy := rfl
@[simp] theorem updFrag_windows (r : FragRef) (g : Frag → Frag) : (s.updFrag r g).windows = s.windows := rfl
@[simp] theorem updFrag_flash (r : FragRef) (g : Frag → Frag) : (s.updFrag r g).flash = s.flash := rfl
@[simp] theorem updFrag_irqs (r : FragRef) (g : Frag → Frag) : (s.updFrag r g).irqs = s.irqs := rfl
@[simp] theorem updFrag_stages (r : FragRef) (g : Frag → Frag) : (s.updFrag r g).stages = s.stages := rfl
@[simp] theorem updFrag_pushStatus (r : FragRef) (g : Frag → Frag) : (s.updFrag r g).pushStatus = s.pushStatus := rfl
@[simp] theorem updFrag_sent (r : FragRef) (g : Frag → Frag) : (s.updFrag r g).sent = s.sent := rfl
@[simp] theorem updFrag_counters (r : FragRef) (g : Frag → Frag) : (s.updFrag r g).counters = s.counters := rfl
@[simp] theorem updFrag_hostRead (r : FragRef) (g : Frag → Frag) : (s.updFrag r g).hostRead = s.hostRead := rfl
@[simp] theorem updFrag_spdm (r : FragRef) (g : Frag → Frag) : (s.updFrag r g).spdm = s.spdm := rfl
@[simp] theorem updFrag_marks (r : FragRef) (g : Frag → Frag) : (s.updFrag r g).marks = s.marks := rfl
@[simp] theorem updFrag_found (r : FragRef) (g : Frag → Frag) : (s.updFrag r g).found = s.found := rfl
@[simp] theorem updFrag_errors (r : FragRef) (g : Frag → Frag) : (s.updFrag r g).errors = s.errors := rfl
@[simp] theorem updFrag_retired (r : FragRef) (g : Frag → Frag) : (s.updFrag r g).retired = s.retired := rfl
@[simp] theorem updFrag_banks (r : FragRef) (g : Frag → Frag) : (s.updFrag r g).banks = s.banks := rfl
@[simp] theorem updFrag_mem (r : FragRef) (g : Frag → Frag) : (s.updFrag r g).mem = s.mem := rfl
@[simp] theorem updFrag_outside (r : FragRef) (g : Frag → Frag) : (s.updFrag r g).outside = s.outside := rfl
@[simp] theorem updFrag_efmt (r : FragRef) (g : Frag → Frag) : (s.updFrag r g).efmt = s.efmt := rfl
@[simp] theorem updFrag_lineTag (r : FragRef) (g : Frag → Frag) : (s.updFrag r g).lineTag = s.lineTag := rfl
@[simp] theorem updFrag_cached (r : FragRef) (g : Frag → Frag) : (s.updFrag r g).cached = s.cached := rfl
@[simp] theorem updFrag_stores (r : FragRef) (g : Frag → Frag) : (s.updFrag r g).stores = s.stores := rfl
@[simp] theorem updFrag_writes (r : FragRef) (g : Frag → Frag) : (s.updFrag r g).writes = s.writes := rfl
@[simp] theorem updFrag_nextWrite (r : FragRef) (g : Frag → Frag) : (s.updFrag r g).nextWrite = s.nextWrite := rfl
@[simp] theorem updFrag_clocks (r : FragRef) (g : Frag → Frag) : (s.updFrag r g).clocks = s.clocks := rfl
@[simp] theorem updFrag_monitors (r : FragRef) (g : Frag → Frag) : (s.updFrag r g).monitors = s.monitors := rfl
@[simp] theorem updFrag_cores (r : FragRef) (g : Frag → Frag) : (s.updFrag r g).cores = s.cores := rfl
@[simp] theorem updFrag_islands (r : FragRef) (g : Frag → Frag) : (s.updFrag r g).islands = s.islands := rfl
@[simp] theorem updFrag_parts (r : FragRef) (g : Frag → Frag) : (s.updFrag r g).parts = s.parts := rfl
@[simp] theorem updFrag_ctxs (r : FragRef) (g : Frag → Frag) : (s.updFrag r g).ctxs = s.ctxs := rfl
@[simp] theorem updFrag_queues (r : FragRef) (g : Frag → Frag) : (s.updFrag r g).queues = s.queues := rfl
@[simp] theorem updFrag_grids (r : FragRef) (g : Frag → Frag) : (s.updFrag r g).grids = s.grids := rfl
@[simp] theorem updFrag_nextGrid (r : FragRef) (g : Frag → Frag) : (s.updFrag r g).nextGrid = s.nextGrid := rfl
@[simp] theorem updFrag_walls (r : FragRef) (g : Frag → Frag) : (s.updFrag r g).walls = s.walls := rfl
@[simp] theorem updFrag_courses (r : FragRef) (g : Frag → Frag) : (s.updFrag r g).courses = s.courses.upd r.uid fun c => c.updFrag r.serial g := rfl
@[simp] theorem updFrag_nextCourse (r : FragRef) (g : Frag → Frag) : (s.updFrag r g).nextCourse = s.nextCourse := rfl
@[simp] theorem updFrag_nextAge (r : FragRef) (g : Frag → Frag) : (s.updFrag r g).nextAge = s.nextAge := rfl
@[simp] theorem updFrag_ops (r : FragRef) (g : Frag → Frag) : (s.updFrag r g).ops = s.ops := rfl
@[simp] theorem updFrag_nextOp (r : FragRef) (g : Frag → Frag) : (s.updFrag r g).nextOp = s.nextOp := rfl
@[simp] theorem updFrag_locks (r : FragRef) (g : Frag → Frag) : (s.updFrag r g).locks = s.locks := rfl
@[simp] theorem updFrag_skips (r : FragRef) (g : Frag → Frag) : (s.updFrag r g).skips = s.skips := rfl

/-! setClock -/

@[simp] theorem setClock_sched (i j n : Nat) : (s.setClock i j n).sched = s.sched := rfl
@[simp] theorem setClock_steps (i j n : Nat) : (s.setClock i j n).steps = s.steps := rfl
@[simp] theorem setClock_issuing (i j n : Nat) : (s.setClock i j n).issuing = s.issuing := rfl
@[simp] theorem setClock_clock (i j n : Nat) : (s.setClock i j n).clock = s.clock := rfl
@[simp] theorem setClock_model (i j n : Nat) : (s.setClock i j n).model = s.model := rfl
@[simp] theorem setClock_started (i j n : Nat) : (s.setClock i j n).started = s.started := rfl
@[simp] theorem setClock_ready (i j n : Nat) : (s.setClock i j n).ready = s.ready := rfl
@[simp] theorem setClock_faultPend (i j n : Nat) : (s.setClock i j n).faultPend = s.faultPend := rfl
@[simp] theorem setClock_capped (i j n : Nat) : (s.setClock i j n).capped = s.capped := rfl
@[simp] theorem setClock_devnum (i j n : Nat) : (s.setClock i j n).devnum = s.devnum := rfl
@[simp] theorem setClock_portMode (i j n : Nat) : (s.setClock i j n).portMode = s.portMode := rfl
@[simp] theorem setClock_cmd (i j n : Nat) : (s.setClock i j n).cmd = s.cmd := rfl
@[simp] theorem setClock_cmdErr (i j n : Nat) : (s.setClock i j n).cmdErr = s.cmdErr := rfl
@[simp] theorem setClock_cmdResult (i j n : Nat) : (s.setClock i j n).cmdResult = s.cmdResult := rfl
@[simp] theorem setClock_running (i j n : Nat) : (s.setClock i j n).running = s.running := rfl
@[simp] theorem setClock_heldPolicy (i j n : Nat) : (s.setClock i j n).heldPolicy = s.heldPolicy := rfl
@[simp] theorem setClock_policy (i j n : Nat) : (s.setClock i j n).policy = s.policy := rfl
@[simp] theorem setClock_windows (i j n : Nat) : (s.setClock i j n).windows = s.windows := rfl
@[simp] theorem setClock_flash (i j n : Nat) : (s.setClock i j n).flash = s.flash := rfl
@[simp] theorem setClock_irqs (i j n : Nat) : (s.setClock i j n).irqs = s.irqs := rfl
@[simp] theorem setClock_stages (i j n : Nat) : (s.setClock i j n).stages = s.stages := rfl
@[simp] theorem setClock_pushStatus (i j n : Nat) : (s.setClock i j n).pushStatus = s.pushStatus := rfl
@[simp] theorem setClock_sent (i j n : Nat) : (s.setClock i j n).sent = s.sent := rfl
@[simp] theorem setClock_counters (i j n : Nat) : (s.setClock i j n).counters = s.counters := rfl
@[simp] theorem setClock_hostRead (i j n : Nat) : (s.setClock i j n).hostRead = s.hostRead := rfl
@[simp] theorem setClock_spdm (i j n : Nat) : (s.setClock i j n).spdm = s.spdm := rfl
@[simp] theorem setClock_marks (i j n : Nat) : (s.setClock i j n).marks = s.marks := rfl
@[simp] theorem setClock_found (i j n : Nat) : (s.setClock i j n).found = s.found := rfl
@[simp] theorem setClock_errors (i j n : Nat) : (s.setClock i j n).errors = s.errors := rfl
@[simp] theorem setClock_retired (i j n : Nat) : (s.setClock i j n).retired = s.retired := rfl
@[simp] theorem setClock_banks (i j n : Nat) : (s.setClock i j n).banks = s.banks := rfl
@[simp] theorem setClock_mem (i j n : Nat) : (s.setClock i j n).mem = s.mem := rfl
@[simp] theorem setClock_outside (i j n : Nat) : (s.setClock i j n).outside = s.outside := rfl
@[simp] theorem setClock_efmt (i j n : Nat) : (s.setClock i j n).efmt = s.efmt := rfl
@[simp] theorem setClock_lineTag (i j n : Nat) : (s.setClock i j n).lineTag = s.lineTag := rfl
@[simp] theorem setClock_cached (i j n : Nat) : (s.setClock i j n).cached = s.cached := rfl
@[simp] theorem setClock_stores (i j n : Nat) : (s.setClock i j n).stores = s.stores := rfl
@[simp] theorem setClock_writes (i j n : Nat) : (s.setClock i j n).writes = s.writes := rfl
@[simp] theorem setClock_nextWrite (i j n : Nat) : (s.setClock i j n).nextWrite = s.nextWrite := rfl
@[simp] theorem setClock_clocks (i j n : Nat) : (s.setClock i j n).clocks = s.clocks.set (4 * i + j) n := rfl
@[simp] theorem setClock_monitors (i j n : Nat) : (s.setClock i j n).monitors = s.monitors := rfl
@[simp] theorem setClock_cores (i j n : Nat) : (s.setClock i j n).cores = s.cores := rfl
@[simp] theorem setClock_islands (i j n : Nat) : (s.setClock i j n).islands = s.islands := rfl
@[simp] theorem setClock_parts (i j n : Nat) : (s.setClock i j n).parts = s.parts := rfl
@[simp] theorem setClock_ctxs (i j n : Nat) : (s.setClock i j n).ctxs = s.ctxs := rfl
@[simp] theorem setClock_queues (i j n : Nat) : (s.setClock i j n).queues = s.queues := rfl
@[simp] theorem setClock_grids (i j n : Nat) : (s.setClock i j n).grids = s.grids := rfl
@[simp] theorem setClock_nextGrid (i j n : Nat) : (s.setClock i j n).nextGrid = s.nextGrid := rfl
@[simp] theorem setClock_walls (i j n : Nat) : (s.setClock i j n).walls = s.walls := rfl
@[simp] theorem setClock_courses (i j n : Nat) : (s.setClock i j n).courses = s.courses := rfl
@[simp] theorem setClock_nextCourse (i j n : Nat) : (s.setClock i j n).nextCourse = s.nextCourse := rfl
@[simp] theorem setClock_nextAge (i j n : Nat) : (s.setClock i j n).nextAge = s.nextAge := rfl
@[simp] theorem setClock_ops (i j n : Nat) : (s.setClock i j n).ops = s.ops := rfl
@[simp] theorem setClock_nextOp (i j n : Nat) : (s.setClock i j n).nextOp = s.nextOp := rfl
@[simp] theorem setClock_locks (i j n : Nat) : (s.setClock i j n).locks = s.locks := rfl
@[simp] theorem setClock_skips (i j n : Nat) : (s.setClock i j n).skips = s.skips := rfl

/-! State.renew: only marks and tags change. -/

@[simp] theorem renew_sched (ls : List Nat) : (s.renew ls).sched = s.sched := rfl
@[simp] theorem renew_steps (ls : List Nat) : (s.renew ls).steps = s.steps := rfl
@[simp] theorem renew_issuing (ls : List Nat) : (s.renew ls).issuing = s.issuing := rfl
@[simp] theorem renew_clock (ls : List Nat) : (s.renew ls).clock = s.clock := rfl
@[simp] theorem renew_model (ls : List Nat) : (s.renew ls).model = s.model := rfl
@[simp] theorem renew_started (ls : List Nat) : (s.renew ls).started = s.started := rfl
@[simp] theorem renew_ready (ls : List Nat) : (s.renew ls).ready = s.ready := rfl
@[simp] theorem renew_faultPend (ls : List Nat) : (s.renew ls).faultPend = s.faultPend := rfl
@[simp] theorem renew_capped (ls : List Nat) : (s.renew ls).capped = s.capped := rfl
@[simp] theorem renew_devnum (ls : List Nat) : (s.renew ls).devnum = s.devnum := rfl
@[simp] theorem renew_portMode (ls : List Nat) : (s.renew ls).portMode = s.portMode := rfl
@[simp] theorem renew_cmd (ls : List Nat) : (s.renew ls).cmd = s.cmd := rfl
@[simp] theorem renew_cmdErr (ls : List Nat) : (s.renew ls).cmdErr = s.cmdErr := rfl
@[simp] theorem renew_cmdResult (ls : List Nat) : (s.renew ls).cmdResult = s.cmdResult := rfl
@[simp] theorem renew_running (ls : List Nat) : (s.renew ls).running = s.running := rfl
@[simp] theorem renew_heldPolicy (ls : List Nat) : (s.renew ls).heldPolicy = s.heldPolicy := rfl
@[simp] theorem renew_policy (ls : List Nat) : (s.renew ls).policy = s.policy := rfl
@[simp] theorem renew_windows (ls : List Nat) : (s.renew ls).windows = s.windows := rfl
@[simp] theorem renew_flash (ls : List Nat) : (s.renew ls).flash = s.flash := rfl
@[simp] theorem renew_irqs (ls : List Nat) : (s.renew ls).irqs = s.irqs := rfl
@[simp] theorem renew_stages (ls : List Nat) : (s.renew ls).stages = s.stages := rfl
@[simp] theorem renew_pushStatus (ls : List Nat) : (s.renew ls).pushStatus = s.pushStatus := rfl
@[simp] theorem renew_sent (ls : List Nat) : (s.renew ls).sent = s.sent := rfl
@[simp] theorem renew_counters (ls : List Nat) : (s.renew ls).counters = s.counters := rfl
@[simp] theorem renew_hostRead (ls : List Nat) : (s.renew ls).hostRead = s.hostRead := rfl
@[simp] theorem renew_spdm (ls : List Nat) : (s.renew ls).spdm = s.spdm := rfl
@[simp] theorem renew_errors (ls : List Nat) : (s.renew ls).errors = s.errors := rfl
@[simp] theorem renew_retired (ls : List Nat) : (s.renew ls).retired = s.retired := rfl
@[simp] theorem renew_banks (ls : List Nat) : (s.renew ls).banks = s.banks := rfl
@[simp] theorem renew_mem (ls : List Nat) : (s.renew ls).mem = s.mem := rfl
@[simp] theorem renew_outside (ls : List Nat) : (s.renew ls).outside = s.outside := rfl
@[simp] theorem renew_efmt (ls : List Nat) : (s.renew ls).efmt = s.efmt := rfl
@[simp] theorem renew_cached (ls : List Nat) : (s.renew ls).cached = s.cached := rfl
@[simp] theorem renew_stores (ls : List Nat) : (s.renew ls).stores = s.stores := rfl
@[simp] theorem renew_writes (ls : List Nat) : (s.renew ls).writes = s.writes := rfl
@[simp] theorem renew_nextWrite (ls : List Nat) : (s.renew ls).nextWrite = s.nextWrite := rfl
@[simp] theorem renew_clocks (ls : List Nat) : (s.renew ls).clocks = s.clocks := rfl
@[simp] theorem renew_monitors (ls : List Nat) : (s.renew ls).monitors = s.monitors := rfl
@[simp] theorem renew_cores (ls : List Nat) : (s.renew ls).cores = s.cores := rfl
@[simp] theorem renew_islands (ls : List Nat) : (s.renew ls).islands = s.islands := rfl
@[simp] theorem renew_parts (ls : List Nat) : (s.renew ls).parts = s.parts := rfl
@[simp] theorem renew_ctxs (ls : List Nat) : (s.renew ls).ctxs = s.ctxs := rfl
@[simp] theorem renew_queues (ls : List Nat) : (s.renew ls).queues = s.queues := rfl
@[simp] theorem renew_grids (ls : List Nat) : (s.renew ls).grids = s.grids := rfl
@[simp] theorem renew_nextGrid (ls : List Nat) : (s.renew ls).nextGrid = s.nextGrid := rfl
@[simp] theorem renew_walls (ls : List Nat) : (s.renew ls).walls = s.walls := rfl
@[simp] theorem renew_courses (ls : List Nat) : (s.renew ls).courses = s.courses := rfl
@[simp] theorem renew_nextCourse (ls : List Nat) : (s.renew ls).nextCourse = s.nextCourse := rfl
@[simp] theorem renew_nextAge (ls : List Nat) : (s.renew ls).nextAge = s.nextAge := rfl
@[simp] theorem renew_ops (ls : List Nat) : (s.renew ls).ops = s.ops := rfl
@[simp] theorem renew_nextOp (ls : List Nat) : (s.renew ls).nextOp = s.nextOp := rfl
@[simp] theorem renew_locks (ls : List Nat) : (s.renew ls).locks = s.locks := rfl
@[simp] theorem renew_skips (ls : List Nat) : (s.renew ls).skips = s.skips := rfl
@[simp] theorem renew_marks (ls : List Nat) : (s.renew ls).marks = s.marks.filter fun l => !ls.contains l := rfl
@[simp] theorem renew_found (ls : List Nat) : (s.renew ls).found = s.found := rfl

/-! State.noteBad: only the errors that are found change. -/

@[simp] theorem noteBad_sched (ctx : Nat) (ls : List Nat) : (s.noteBad ctx ls).sched = s.sched := rfl
@[simp] theorem noteBad_steps (ctx : Nat) (ls : List Nat) : (s.noteBad ctx ls).steps = s.steps := rfl
@[simp] theorem noteBad_issuing (ctx : Nat) (ls : List Nat) : (s.noteBad ctx ls).issuing = s.issuing := rfl
@[simp] theorem noteBad_clock (ctx : Nat) (ls : List Nat) : (s.noteBad ctx ls).clock = s.clock := rfl
@[simp] theorem noteBad_model (ctx : Nat) (ls : List Nat) : (s.noteBad ctx ls).model = s.model := rfl
@[simp] theorem noteBad_started (ctx : Nat) (ls : List Nat) : (s.noteBad ctx ls).started = s.started := rfl
@[simp] theorem noteBad_ready (ctx : Nat) (ls : List Nat) : (s.noteBad ctx ls).ready = s.ready := rfl
@[simp] theorem noteBad_faultPend (ctx : Nat) (ls : List Nat) : (s.noteBad ctx ls).faultPend = s.faultPend := rfl
@[simp] theorem noteBad_capped (ctx : Nat) (ls : List Nat) : (s.noteBad ctx ls).capped = s.capped := rfl
@[simp] theorem noteBad_devnum (ctx : Nat) (ls : List Nat) : (s.noteBad ctx ls).devnum = s.devnum := rfl
@[simp] theorem noteBad_portMode (ctx : Nat) (ls : List Nat) : (s.noteBad ctx ls).portMode = s.portMode := rfl
@[simp] theorem noteBad_cmd (ctx : Nat) (ls : List Nat) : (s.noteBad ctx ls).cmd = s.cmd := rfl
@[simp] theorem noteBad_cmdErr (ctx : Nat) (ls : List Nat) : (s.noteBad ctx ls).cmdErr = s.cmdErr := rfl
@[simp] theorem noteBad_cmdResult (ctx : Nat) (ls : List Nat) : (s.noteBad ctx ls).cmdResult = s.cmdResult := rfl
@[simp] theorem noteBad_running (ctx : Nat) (ls : List Nat) : (s.noteBad ctx ls).running = s.running := rfl
@[simp] theorem noteBad_heldPolicy (ctx : Nat) (ls : List Nat) : (s.noteBad ctx ls).heldPolicy = s.heldPolicy := rfl
@[simp] theorem noteBad_policy (ctx : Nat) (ls : List Nat) : (s.noteBad ctx ls).policy = s.policy := rfl
@[simp] theorem noteBad_windows (ctx : Nat) (ls : List Nat) : (s.noteBad ctx ls).windows = s.windows := rfl
@[simp] theorem noteBad_flash (ctx : Nat) (ls : List Nat) : (s.noteBad ctx ls).flash = s.flash := rfl
@[simp] theorem noteBad_irqs (ctx : Nat) (ls : List Nat) : (s.noteBad ctx ls).irqs = s.irqs := rfl
@[simp] theorem noteBad_stages (ctx : Nat) (ls : List Nat) : (s.noteBad ctx ls).stages = s.stages := rfl
@[simp] theorem noteBad_pushStatus (ctx : Nat) (ls : List Nat) : (s.noteBad ctx ls).pushStatus = s.pushStatus := rfl
@[simp] theorem noteBad_sent (ctx : Nat) (ls : List Nat) : (s.noteBad ctx ls).sent = s.sent := rfl
@[simp] theorem noteBad_counters (ctx : Nat) (ls : List Nat) : (s.noteBad ctx ls).counters = s.counters := rfl
@[simp] theorem noteBad_hostRead (ctx : Nat) (ls : List Nat) : (s.noteBad ctx ls).hostRead = s.hostRead := rfl
@[simp] theorem noteBad_spdm (ctx : Nat) (ls : List Nat) : (s.noteBad ctx ls).spdm = s.spdm := rfl
@[simp] theorem noteBad_errors (ctx : Nat) (ls : List Nat) : (s.noteBad ctx ls).errors = s.errors := rfl
@[simp] theorem noteBad_retired (ctx : Nat) (ls : List Nat) : (s.noteBad ctx ls).retired = s.retired := rfl
@[simp] theorem noteBad_banks (ctx : Nat) (ls : List Nat) : (s.noteBad ctx ls).banks = s.banks := rfl
@[simp] theorem noteBad_mem (ctx : Nat) (ls : List Nat) : (s.noteBad ctx ls).mem = s.mem := rfl
@[simp] theorem noteBad_outside (ctx : Nat) (ls : List Nat) : (s.noteBad ctx ls).outside = s.outside := rfl
@[simp] theorem noteBad_efmt (ctx : Nat) (ls : List Nat) : (s.noteBad ctx ls).efmt = s.efmt := rfl
@[simp] theorem noteBad_cached (ctx : Nat) (ls : List Nat) : (s.noteBad ctx ls).cached = s.cached := rfl
@[simp] theorem noteBad_stores (ctx : Nat) (ls : List Nat) : (s.noteBad ctx ls).stores = s.stores := rfl
@[simp] theorem noteBad_writes (ctx : Nat) (ls : List Nat) : (s.noteBad ctx ls).writes = s.writes := rfl
@[simp] theorem noteBad_nextWrite (ctx : Nat) (ls : List Nat) : (s.noteBad ctx ls).nextWrite = s.nextWrite := rfl
@[simp] theorem noteBad_clocks (ctx : Nat) (ls : List Nat) : (s.noteBad ctx ls).clocks = s.clocks := rfl
@[simp] theorem noteBad_monitors (ctx : Nat) (ls : List Nat) : (s.noteBad ctx ls).monitors = s.monitors := rfl
@[simp] theorem noteBad_cores (ctx : Nat) (ls : List Nat) : (s.noteBad ctx ls).cores = s.cores := rfl
@[simp] theorem noteBad_islands (ctx : Nat) (ls : List Nat) : (s.noteBad ctx ls).islands = s.islands := rfl
@[simp] theorem noteBad_parts (ctx : Nat) (ls : List Nat) : (s.noteBad ctx ls).parts = s.parts := rfl
@[simp] theorem noteBad_ctxs (ctx : Nat) (ls : List Nat) : (s.noteBad ctx ls).ctxs = s.ctxs := rfl
@[simp] theorem noteBad_queues (ctx : Nat) (ls : List Nat) : (s.noteBad ctx ls).queues = s.queues := rfl
@[simp] theorem noteBad_grids (ctx : Nat) (ls : List Nat) : (s.noteBad ctx ls).grids = s.grids := rfl
@[simp] theorem noteBad_nextGrid (ctx : Nat) (ls : List Nat) : (s.noteBad ctx ls).nextGrid = s.nextGrid := rfl
@[simp] theorem noteBad_walls (ctx : Nat) (ls : List Nat) : (s.noteBad ctx ls).walls = s.walls := rfl
@[simp] theorem noteBad_courses (ctx : Nat) (ls : List Nat) : (s.noteBad ctx ls).courses = s.courses := rfl
@[simp] theorem noteBad_nextCourse (ctx : Nat) (ls : List Nat) : (s.noteBad ctx ls).nextCourse = s.nextCourse := rfl
@[simp] theorem noteBad_nextAge (ctx : Nat) (ls : List Nat) : (s.noteBad ctx ls).nextAge = s.nextAge := rfl
@[simp] theorem noteBad_ops (ctx : Nat) (ls : List Nat) : (s.noteBad ctx ls).ops = s.ops := rfl
@[simp] theorem noteBad_nextOp (ctx : Nat) (ls : List Nat) : (s.noteBad ctx ls).nextOp = s.nextOp := rfl
@[simp] theorem noteBad_locks (ctx : Nat) (ls : List Nat) : (s.noteBad ctx ls).locks = s.locks := rfl
@[simp] theorem noteBad_skips (ctx : Nat) (ls : List Nat) : (s.noteBad ctx ls).skips = s.skips := rfl
@[simp] theorem noteBad_lineTag (ctx : Nat) (ls : List Nat) : (s.noteBad ctx ls).lineTag = s.lineTag := rfl
@[simp] theorem noteBad_marks (ctx : Nat) (ls : List Nat) : (s.noteBad ctx ls).marks = s.marks := rfl
@[simp] theorem noteBad_found (ctx : Nat) (ls : List Nat) :
    (s.noteBad ctx ls).found = s.found ++ (dedup ls).map fun l => (l, ctx) := rfl

/-! State.claim: only the errors that are found change. -/

@[simp] theorem claim_sched (ctx : Nat) : (s.claim ctx).sched = s.sched := rfl
@[simp] theorem claim_steps (ctx : Nat) : (s.claim ctx).steps = s.steps := rfl
@[simp] theorem claim_issuing (ctx : Nat) : (s.claim ctx).issuing = s.issuing := rfl
@[simp] theorem claim_clock (ctx : Nat) : (s.claim ctx).clock = s.clock := rfl
@[simp] theorem claim_model (ctx : Nat) : (s.claim ctx).model = s.model := rfl
@[simp] theorem claim_started (ctx : Nat) : (s.claim ctx).started = s.started := rfl
@[simp] theorem claim_ready (ctx : Nat) : (s.claim ctx).ready = s.ready := rfl
@[simp] theorem claim_faultPend (ctx : Nat) : (s.claim ctx).faultPend = s.faultPend := rfl
@[simp] theorem claim_capped (ctx : Nat) : (s.claim ctx).capped = s.capped := rfl
@[simp] theorem claim_devnum (ctx : Nat) : (s.claim ctx).devnum = s.devnum := rfl
@[simp] theorem claim_portMode (ctx : Nat) : (s.claim ctx).portMode = s.portMode := rfl
@[simp] theorem claim_cmd (ctx : Nat) : (s.claim ctx).cmd = s.cmd := rfl
@[simp] theorem claim_cmdErr (ctx : Nat) : (s.claim ctx).cmdErr = s.cmdErr := rfl
@[simp] theorem claim_cmdResult (ctx : Nat) : (s.claim ctx).cmdResult = s.cmdResult := rfl
@[simp] theorem claim_running (ctx : Nat) : (s.claim ctx).running = s.running := rfl
@[simp] theorem claim_heldPolicy (ctx : Nat) : (s.claim ctx).heldPolicy = s.heldPolicy := rfl
@[simp] theorem claim_policy (ctx : Nat) : (s.claim ctx).policy = s.policy := rfl
@[simp] theorem claim_windows (ctx : Nat) : (s.claim ctx).windows = s.windows := rfl
@[simp] theorem claim_flash (ctx : Nat) : (s.claim ctx).flash = s.flash := rfl
@[simp] theorem claim_irqs (ctx : Nat) : (s.claim ctx).irqs = s.irqs := rfl
@[simp] theorem claim_stages (ctx : Nat) : (s.claim ctx).stages = s.stages := rfl
@[simp] theorem claim_pushStatus (ctx : Nat) : (s.claim ctx).pushStatus = s.pushStatus := rfl
@[simp] theorem claim_sent (ctx : Nat) : (s.claim ctx).sent = s.sent := rfl
@[simp] theorem claim_counters (ctx : Nat) : (s.claim ctx).counters = s.counters := rfl
@[simp] theorem claim_hostRead (ctx : Nat) : (s.claim ctx).hostRead = s.hostRead := rfl
@[simp] theorem claim_spdm (ctx : Nat) : (s.claim ctx).spdm = s.spdm := rfl
@[simp] theorem claim_errors (ctx : Nat) : (s.claim ctx).errors = s.errors := rfl
@[simp] theorem claim_retired (ctx : Nat) : (s.claim ctx).retired = s.retired := rfl
@[simp] theorem claim_banks (ctx : Nat) : (s.claim ctx).banks = s.banks := rfl
@[simp] theorem claim_mem (ctx : Nat) : (s.claim ctx).mem = s.mem := rfl
@[simp] theorem claim_outside (ctx : Nat) : (s.claim ctx).outside = s.outside := rfl
@[simp] theorem claim_efmt (ctx : Nat) : (s.claim ctx).efmt = s.efmt := rfl
@[simp] theorem claim_cached (ctx : Nat) : (s.claim ctx).cached = s.cached := rfl
@[simp] theorem claim_stores (ctx : Nat) : (s.claim ctx).stores = s.stores := rfl
@[simp] theorem claim_writes (ctx : Nat) : (s.claim ctx).writes = s.writes := rfl
@[simp] theorem claim_nextWrite (ctx : Nat) : (s.claim ctx).nextWrite = s.nextWrite := rfl
@[simp] theorem claim_clocks (ctx : Nat) : (s.claim ctx).clocks = s.clocks := rfl
@[simp] theorem claim_monitors (ctx : Nat) : (s.claim ctx).monitors = s.monitors := rfl
@[simp] theorem claim_cores (ctx : Nat) : (s.claim ctx).cores = s.cores := rfl
@[simp] theorem claim_islands (ctx : Nat) : (s.claim ctx).islands = s.islands := rfl
@[simp] theorem claim_parts (ctx : Nat) : (s.claim ctx).parts = s.parts := rfl
@[simp] theorem claim_ctxs (ctx : Nat) : (s.claim ctx).ctxs = s.ctxs := rfl
@[simp] theorem claim_queues (ctx : Nat) : (s.claim ctx).queues = s.queues := rfl
@[simp] theorem claim_grids (ctx : Nat) : (s.claim ctx).grids = s.grids := rfl
@[simp] theorem claim_nextGrid (ctx : Nat) : (s.claim ctx).nextGrid = s.nextGrid := rfl
@[simp] theorem claim_walls (ctx : Nat) : (s.claim ctx).walls = s.walls := rfl
@[simp] theorem claim_courses (ctx : Nat) : (s.claim ctx).courses = s.courses := rfl
@[simp] theorem claim_nextCourse (ctx : Nat) : (s.claim ctx).nextCourse = s.nextCourse := rfl
@[simp] theorem claim_nextAge (ctx : Nat) : (s.claim ctx).nextAge = s.nextAge := rfl
@[simp] theorem claim_ops (ctx : Nat) : (s.claim ctx).ops = s.ops := rfl
@[simp] theorem claim_nextOp (ctx : Nat) : (s.claim ctx).nextOp = s.nextOp := rfl
@[simp] theorem claim_locks (ctx : Nat) : (s.claim ctx).locks = s.locks := rfl
@[simp] theorem claim_skips (ctx : Nat) : (s.claim ctx).skips = s.skips := rfl
@[simp] theorem claim_lineTag (ctx : Nat) : (s.claim ctx).lineTag = s.lineTag := rfl
@[simp] theorem claim_marks (ctx : Nat) : (s.claim ctx).marks = s.marks := rfl
@[simp] theorem claim_found (ctx : Nat) :
    (s.claim ctx).found = s.found.map fun p => if p.2 = noCtx then (p.1, ctx) else p := rfl

end Sys2Proof.Machine
end

