-- ==== Sys2Proof/Laws/Registers.lean ====
section
/-!
SUPPORT. Registers: reading after writing, for the vector registers, the trits and the scalars of a course.
-/

set_option Elab.async false

namespace Sys2Proof.Machine

/-- The lanes of a mask lie below 64, each once. -/
theorem lanesOf_lt {m : Dword} {l : Nat} (h : l ∈ lanesOf m) : l < 64 := by
  simp only [lanesOf, List.mem_filter, List.mem_range] at h
  exact h.1

theorem lanesOf_nodup (m : Dword) : (lanesOf m).Nodup := List.Nodup.sublist List.filter_sublist List.nodup_range

theorem mem_lanesOf {m : Dword} {l : Nat} : l ∈ lanesOf m ↔ l < 64 ∧ m.getLsbD l = true := by
  simp [lanesOf]

@[simp] theorem v?_setV_self (c : Course) (r l : Nat) (x : Word) : (c.setV r l x).v? r l = some x := by
  simp [Course.v?, Course.setV]

theorem v?_setV_ne (c : Course) {r l r' l' : Nat} (x : Word) (hl : l < 64) (hl' : l' < 64) (h : ¬(r' = r ∧ l' = l)) :
    (c.setV r l x).v? r' l' = c.v? r' l' := by
  simp only [Course.v?, Course.setV]
  exact Tab.get?_set_ne _ _ (by omega)

theorem v?_setV (c : Course) {r l r' l' : Nat} (x : Word) (hl : l < 64) (hl' : l' < 64) :
    (c.setV r l x).v? r' l' = if r' = r ∧ l' = l then some x else c.v? r' l' := by
  split
  · rename_i h; obtain ⟨rfl, rfl⟩ := h; simp
  · exact v?_setV_ne c x hl hl' ‹_›

/-- What writing one register of each lane does. -/
theorem v?_eachLane (c : Course) (R : Nat) (g : Nat → Option Word) (lanes : List Nat) (hn : lanes.Nodup)
    (hb : ∀ l ∈ lanes, l < 64) {r l : Nat} (hl : l < 64) :
    (c.eachLane lanes fun l c => match g l with
      | some x => c.setV R l x
      | none => c).v? r l = if r = R ∧ l ∈ lanes then (g l).or (c.v? r l) else c.v? r l := by
  induction lanes generalizing c with
  | nil => simp [Course.eachLane]
  | cons k ks ih =>
    have hk : k < 64 := hb k (by simp)
    obtain ⟨hk', hn'⟩ := List.nodup_cons.1 hn
    have step := fun c' => ih c' hn' fun l hl => hb l (by simp [hl])
    simp only [Course.eachLane] at step
    simp only [Course.eachLane, List.foldl_cons, step]
    cases hg : g k with
    | none =>
      by_cases hlk : l = k
      · subst hlk; simp [hk', hg]
      · simp [hlk]
    | some x =>
      simp only [v?_setV c x hk hl]
      by_cases hlk : l = k
      · subst hlk
        by_cases hr : r = R
        · subst hr; simp [hk', hg]
        · simp [hr]
      · simp [hlk]

@[simp] theorem trit?_setQ_self (c : Course) (q l : Nat) (t : Trit) : (c.setQ q l t).trit? q l = t := by
  simp only [Course.trit?, Course.setQ, Tab.getD_set]
  cases t <;> rfl

theorem trit?_setQ_ne (c : Course) {q l q' l' : Nat} (t : Trit) (hl : l < 64) (hl' : l' < 64) (h : ¬(q' = q ∧ l' = l)) :
    (c.setQ q l t).trit? q' l' = c.trit? q' l' := by
  simp only [Course.trit?, Course.setQ, Tab.getD_set]
  rw [if_neg (by omega)]

/-- What writing one trit of each lane does. -/
theorem trit?_eachLane (c : Course) (Q : Nat) (g : Nat → Trit) (lanes : List Nat) (hn : lanes.Nodup)
    (hb : ∀ l ∈ lanes, l < 64) {q l : Nat} (hl : l < 64) :
    (c.eachLane lanes fun l c => c.setQ Q l (g l)).trit? q l = if q = Q ∧ l ∈ lanes then g l else c.trit? q l := by
  induction lanes generalizing c with
  | nil => simp [Course.eachLane]
  | cons k ks ih =>
    have hk : k < 64 := hb k (by simp)
    obtain ⟨hk', hn'⟩ := List.nodup_cons.1 hn
    have step := fun c' => ih c' hn' fun l hl => hb l (by simp [hl])
    simp only [Course.eachLane] at step
    simp only [Course.eachLane, List.foldl_cons, step]
    by_cases hlk : l = k
    · subst hlk
      by_cases hq : q = Q
      · subst hq; simp [hk']
      · have h : ¬(q = Q ∧ l = l) := by simp [hq]
        simp [hq, trit?_setQ_ne c (g l) hk hl h]
    · have h : ¬(q = Q ∧ l = k) := by simp [hlk]
      simp [hlk, trit?_setQ_ne c (g k) hk hl h]

/-- The course of the issuing fragment after a change of it. -/
theorem course?_updCourse (s : State) (n : Nat) (g : Course → Course) : (s.updCourse n g).course? n = (s.course? n).map g := by
  simp [State.course?]

theorem course?_updCourse_ne (s : State) {n m : Nat} (g : Course → Course) (h : m ≠ n) :
    (s.updCourse n g).course? m = s.course? m := by
  simp [State.course?, Tab.get?_upd_ne _ _ h]

/-- What a live issuing fragment is. -/
theorem issuer?_course {s : State} {e : Env} (h : s.issuer? = some e) :
    s.course? e.r.uid = some e.c ∧ e.c.frags.get? e.r.serial = some e.f ∧ s.wall? e.c.age = some e.w
      ∧ s.issuing = some e.r := by
  unfold State.issuer? at h
  split at h
  · cases h
  · split at h
    · cases h
    · split at h
      · cases h
      · split at h
        · cases h
        · cases h; exact ⟨‹_›, ‹_›, ‹_›, ‹_›⟩

end Sys2Proof.Machine
end

