-- ==== Sys2Proof/Machine/Oof.lean ====
section
/-!
DEFINITION. The Ovhodor object format (R166 to R171): relocatable objects and linked images as data, the bytes of their
files, and the reader of those bytes.
-/

namespace Sys2Proof.Tools

/-- A name, a path or a piece of source text. -/
abbrev Text := List Char

/-- The kinds of sections (R167). -/
inductive SecKind where
  | text | rodata | data | bss | stash | layout | kinfo | sym | reloc | line
  deriving DecidableEq, Repr

/-- KIND of a section table entry (R167). -/
def SecKind.code : SecKind → Nat
  | .text => 1 | .rodata => 2 | .data => 3 | .bss => 4 | .stash => 5 | .layout => 6 | .kinfo => 7 | .sym => 8 | .reloc => 9
  | .line => 10
/-- The section kind of a KIND value (R167). -/
def SecKind.ofCode : Nat → Option SecKind
  | 1 => some .text | 2 => some .rodata | 3 => some .data | 4 => some .bss | 5 => some .stash | 6 => some .layout
  | 7 => some .kinfo | 8 => some .sym | 9 => some .reloc | 10 => some .line
  | _ => none
/-- The kinds that hold a program's contents, in ascending order. -/
def SecKind.contents : List SecKind := [.text, .rodata, .data, .bss, .stash, .layout, .kinfo]
/-- The kinds that the loader maps (R167), in the order of placement (R172). -/
def SecKind.loaded : List SecKind := [.text, .rodata, .data, .bss, .layout, .kinfo]
/-- Whether the loader maps the kind writable (R167). -/
def SecKind.writable (k : SecKind) : Bool := k == .data || k == .bss
/-- Whether the loader maps the kind executable (R167). -/
def SecKind.executable (k : SecKind) : Bool := k == .text
/-- Whether the kind takes bytes in the file (R156, R167). -/
def SecKind.inFile (k : SecKind) : Bool := k != .bss && k != .stash

/-- A section: log2 of its alignment, the bytes it occupies, its contents (none for .bss and .stash) and its load address
(R167). -/
structure Sec where
  kind : SecKind
  align : Nat
  size : Nat
  bytes : List Byte
  addr : Nat := 0
  deriving DecidableEq, Repr

/-- SECT of a symbol (R168). -/
inductive SymSect where
  | absolute | undefined
  | sec (k : SecKind)
  deriving DecidableEq, Repr

/-- TYPE of a symbol (R168). -/
inductive SymType where
  | label | constant | kernel | layout
  deriving DecidableEq, Repr

/-- BIND of a symbol (R168). -/
inductive Bind where
  | local | global | extern
  deriving DecidableEq, Repr

/-- A symbol (R168). -/
structure Sym where
  name : Text
  sect : SymSect
  bind : Bind
  type : SymType
  value : Nat
  size : Nat := 0
  deriving DecidableEq, Repr

/-- The relocation types (R170). -/
inductive RelType where
  | abs64 | abs32 | j18 | l17 | pc19 | stash32 | imm10
  deriving DecidableEq, Repr

/-- A relocation: the section and offset of the patched item, the symbol's index and the addend (R169). -/
structure Rel where
  type : RelType
  sect : SecKind
  off : Nat
  sym : Nat
  addend : Int
  deriving DecidableEq, Repr

/-- An entry of the line table: the offset of an instruction word in .text, its line, file and column (R171). -/
structure LineEnt where
  off : Nat
  line : Nat
  file : Nat
  col : Nat
  deriving DecidableEq, Repr

/-- A relocatable object, or a linked image (R166). -/
structure Object where
  image : Bool
  secs : List Sec
  syms : List Sym
  rels : List Rel
  files : List Text
  lines : List LineEnt
  deriving DecidableEq, Repr

/-- The section of a kind. -/
def Object.sec? (o : Object) (k : SecKind) : Option Sec := o.secs.find? fun s => s.kind == k

/-! Bytes. -/

/-- A number in n bytes, little-endian (R6). -/
def le (n v : Nat) : List Byte := (List.range n).map fun i => BitVec.ofNat 8 (v >>> (8 * i))
/-- A signed number in n bytes, in two's complement (R157). -/
def leInt (n : Nat) (v : Int) : List Byte := le n (v % (2 ^ (8 * n) : Nat)).toNat
/-- The number that bytes hold, little-endian (R6). -/
def unLe : List Byte → Nat
  | [] => 0
  | b :: bs => b.toNat + 256 * unLe bs
/-- The least multiple of a that is at or above n. -/
def upTo (a n : Nat) : Nat := (n + a - 1) / a * a
/-- The bytes of a name in UTF-8 (R150). -/
def Text.utf8 (t : Text) : List Byte := t.flatMap fun c => (String.utf8EncodeChar c).map fun b => BitVec.ofNat 8 b.toNat

def SymSect.code : SymSect → Nat
  | .absolute => 0
  | .undefined => 0xFF
  | .sec k => k.code
def SymSect.ofCode (n : Nat) : Option SymSect :=
  if n = 0 then some .absolute else if n = 0xFF then some .undefined else (SecKind.ofCode n).map .sec
def SymType.code : SymType → Nat
  | .label => 0 | .constant => 1 | .kernel => 2 | .layout => 3
def SymType.ofCode : Nat → Option SymType
  | 0 => some .label | 1 => some .constant | 2 => some .kernel | 3 => some .layout
  | _ => none
def Bind.code : Bind → Nat
  | .local => 0 | .global => 1 | .extern => 2
def Bind.ofCode : Nat → Option Bind
  | 0 => some .local | 1 => some .global | 2 => some .extern
  | _ => none
def RelType.code : RelType → Nat
  | .abs64 => 1 | .abs32 => 2 | .j18 => 3 | .l17 => 4 | .pc19 => 5 | .stash32 => 6 | .imm10 => 7
def RelType.ofCode : Nat → Option RelType
  | 1 => some .abs64 | 2 => some .abs32 | 3 => some .j18 | 4 => some .l17 | 5 => some .pc19 | 6 => some .stash32
  | 7 => some .imm10
  | _ => none

/-- The pool of names (R168, R171): the symbols' names, then the files' paths, each ended by a zero byte. -/
def Object.pool (o : Object) : List (List Byte) :=
  ((o.syms.map fun s => s.name) ++ o.files).map fun t => t.utf8 ++ [0]

/-- Offsets of strings that stand one after another. -/
def offsets (n : Nat) : List (List Byte) → List Nat
  | [] => []
  | s :: ss => n :: offsets (n + s.length) ss

/-- An entry of .sym with the offset of its name (R168). -/
def Sym.bytes (name : Nat) (s : Sym) : List Byte :=
  le 4 name ++ [BitVec.ofNat 8 s.sect.code] ++ le 3 (s.bind.code + 4 * s.type.code) ++ le 8 s.value ++ le 8 s.size
/-- An entry of .reloc (R169). -/
def Rel.bytes (r : Rel) : List Byte :=
  le 8 r.off ++ le 1 r.sect.code ++ le 1 r.type.code ++ le 2 0 ++ le 4 r.sym ++ leInt 8 r.addend
/-- An entry of .line (R171). -/
def LineEnt.bytes (l : LineEnt) : List Byte := le 8 l.off ++ le 4 l.line ++ le 2 l.file ++ le 2 l.col

/-- .sym (R168). -/
def Object.symBytes (o : Object) : List Byte :=
  let pool := o.pool
  le 4 o.syms.length ++ le 4 (pool.flatten).length ++
    (o.syms.zip (offsets 0 pool)).flatMap (fun p => p.1.bytes p.2) ++ pool.flatten
/-- .reloc (R169). -/
def Object.relBytes (o : Object) : List Byte := le 4 o.rels.length ++ le 4 0 ++ o.rels.flatMap Rel.bytes
/-- .line (R171). -/
def Object.lineBytes (o : Object) : List Byte :=
  le 4 o.files.length ++ le 4 o.lines.length ++ ((offsets 0 o.pool).drop o.syms.length).flatMap (le 4) ++
    o.lines.flatMap LineEnt.bytes

/-- The sections of the file: the program's, which are not empty, then .sym, .reloc (where there is one) and .line. -/
def Object.allSecs (o : Object) : List Sec :=
  let table (k : SecKind) (bs : List Byte) : Sec := ⟨k, 3, bs.length, bs, 0⟩
  o.secs ++ [table .sym o.symBytes] ++ (if o.rels.isEmpty then [] else [table .reloc o.relBytes]) ++ [table .line o.lineBytes]

/-- The section table and the contents, with the contents of each section at the next multiple of its alignment (R167). -/
def layOut (pos : Nat) : List Sec → List Byte × List Byte
  | [] => ([], [])
  | s :: ss =>
    let at' := if s.kind.inFile then upTo (2 ^ s.align) pos else pos
    let n := if s.kind.inFile then s.bytes.length else 0
    let rest := layOut (at' + n) ss
    (le 1 s.kind.code ++ le 1 s.align ++ le 6 0 ++ le 8 s.addr ++ le 8 (if s.kind.inFile then at' else 0) ++ le 8 n ++ le 8 s.size ++
      le 8 0 ++ rest.1,
     List.replicate (at' - pos) 0 ++ (if s.kind.inFile then s.bytes else []) ++ rest.2)

/-- The header (R166): MAGIC, VERSION, TYPE, SECTCOUNT, SECTSIZE and SECTOFF. -/
def header (image : Bool) (count : Nat) : List Byte :=
  le 4 0x00464F4F ++ le 2 1 ++ le 1 (if image then 2 else 1) ++ le 1 0 ++ le 10 0 ++ le 2 count ++ le 2 48 ++ le 8 64 ++ le 34 0

/-- The bytes of an object's or an image's file (R166 to R171). -/
def Object.bytes (o : Object) : List Byte :=
  let ss := o.allSecs
  let body := layOut (64 + 48 * ss.length) ss
  header o.image ss.length ++ body.1 ++ body.2

/-! The reader. -/

/-- The bytes of a slice; none where it leaves the file. -/
def slice (bs : List Byte) (off n : Nat) : Option (List Byte) :=
  if off + n ≤ bs.length then some ((bs.drop off).take n) else none
/-- The number in a slice. -/
def num (bs : List Byte) (off n : Nat) : Option Nat := (slice bs off n).map unLe

/-- A name of the pool: the bytes up to the zero byte. -/
def nameAt (pool : List Byte) (off : Nat) : Text :=
  (String.fromUTF8? ⟨(((pool.drop off).takeWhile fun b => b != 0).map fun b => UInt8.ofNat b.toNat).toArray⟩).elim [] String.toList

def readSym (pool bs : List Byte) (i : Nat) : Option Sym := do
  let e ← slice bs (8 + 24 * i) 24
  let name ← num e 0 4
  let sect ← (num e 4 1).bind SymSect.ofCode
  let bt ← num e 5 3
  let bind ← Bind.ofCode (bt % 4)
  let type ← SymType.ofCode (bt / 4 % 8)
  let value ← num e 8 8
  let size ← num e 16 8
  pure ⟨nameAt pool name, sect, bind, type, value, size⟩

/-- A signed number of n bytes. -/
def toSigned (n v : Nat) : Int := if v < 2 ^ (8 * n - 1) then v else (v : Int) - (2 ^ (8 * n) : Nat)

def readRel (bs : List Byte) (i : Nat) : Option Rel := do
  let e ← slice bs (8 + 24 * i) 24
  let off ← num e 0 8
  let sect ← (num e 8 1).bind SecKind.ofCode
  let type ← (num e 9 1).bind RelType.ofCode
  let sym ← num e 12 4
  let addend ← num e 16 8
  pure ⟨type, sect, off, sym, toSigned 8 addend⟩

def readLine (bs : List Byte) (at' i : Nat) : Option LineEnt := do
  let e ← slice bs (at' + 16 * i) 16
  pure ⟨← num e 0 8, ← num e 8 4, ← num e 12 2, ← num e 14 2⟩

/-- A section of the table (R167). -/
def readSec (bs : List Byte) (at' : Nat) : Option Sec := do
  let e ← slice bs at' 48
  let kind ← (num e 0 1).bind SecKind.ofCode
  let align ← num e 1 1
  let addr ← num e 8 8
  let off ← num e 16 8
  let n ← num e 24 8
  let size ← num e 32 8
  let data ← if kind.inFile then slice bs off n else if n = 0 then some [] else none
  if align < 2 || 16 < align || (kind.inFile && n != size) then none else pure ⟨kind, align, size, data, addr⟩

/-- Kinds strictly rise (R167). -/
def kindsRise : List Sec → Bool
  | a :: b :: ss => a.kind.code < b.kind.code && kindsRise (b :: ss)
  | _ => true

/-- The object or the image in the bytes of a file; none where R166 to R171 are not met. -/
def readObject (bs : List Byte) : Option Object := do
  let magic ← num bs 0 4
  let version ← num bs 4 2
  let type ← num bs 6 1
  let count ← num bs 18 2
  let size ← num bs 20 2
  let off ← num bs 22 8
  if magic != 0x00464F4F || version != 1 || !(type == 1 || type == 2) || count == 0 || 10 < count || size != 48 || off % 8 != 0
  then none else
  let secs ← (List.range count).mapM fun i => readSec bs (off + 48 * i)
  if !kindsRise secs then none else
  let part (k : SecKind) : List Byte := match secs.find? fun s => s.kind == k with
    | some s => s.bytes
    | none => le 8 0
  let sym := part .sym
  let nsym ← num sym 0 4
  let npool ← num sym 4 4
  let pool ← slice sym (8 + 24 * nsym) npool
  let syms ← (List.range nsym).mapM (readSym pool sym)
  let rel := part .reloc
  let nrel ← num rel 0 4
  let rels ← (List.range nrel).mapM (readRel rel)
  let line := part .line
  let nfile ← num line 0 4
  let nline ← num line 4 4
  let files ← (List.range nfile).mapM fun i => (num line (8 + 4 * i) 4).map (nameAt pool)
  let lines ← (List.range nline).mapM (readLine line (8 + 4 * nfile))
  pure ⟨type == 2, secs.filter fun s => SecKind.contents.contains s.kind, syms, rels, files, lines⟩

end Sys2Proof.Tools
end

