-- ==== Sys2Proof/Machine/SmasText.lean ====
section
/-!
DEFINITION. The source text of smas: tokens and literals (R150, R151), expressions and their 64-bit arithmetic (R152), and
absolute and relocatable values (R153).
-/

namespace Sys2Proof.Tools

/-- Why smas or smld stops (R150 to R172). -/
inductive ToolError where
  /-- A token that R151 does not give. -/
  | token
  /-- A statement, directive or operand list that no rule gives (R15, R150, R154). -/
  | statement
  /-- A bad identifier (R151). -/
  | identifier
  /-- Division by zero, a bad shift count or a result outside 64 bits (R152). -/
  | arithmetic
  /-- An operation that R153 does not allow on a relocatable value, or one where an absolute value must stand. -/
  | relocatable
  /-- A symbol that is not defined, defined twice or defined in a circle, or a binding that R159 refuses. -/
  | symbol
  /-- A value outside its range (R154, R157, R158, R162, R164, R170). -/
  | range
  /-- A register operand that its kind, the windows or the kernel's directives do not allow (R119, R154). -/
  | register
  /-- A statement in a section, or at a location, where it may not stand (R155, R156, R162). -/
  | misplaced
  /-- A macro that R160 refuses, or an inclusion that R161 refuses. -/
  | expansion
  /-- An object that smld refuses: a name that is global twice, an unresolved extern, a section past 2^56, a file that is no
  object (R172). -/
  | link
  deriving DecidableEq, Repr

/-- Where a statement stands: its file, line and column (R171). -/
structure Loc where
  file : Nat
  line : Nat
  col : Nat
  deriving DecidableEq, Repr

/-- A tool stops at the first error with its place. -/
abbrev Tool (α : Type) := Except (Loc × ToolError) α

/-! Characters and tokens. -/

def isDigit (c : Char) : Bool := '0' ≤ c && c ≤ '9'
/-- A letter (R151). The rule says no more of letters in UTF-8 text; the model takes those of ASCII (log 75). -/
def isLetter (c : Char) : Bool := ('a' ≤ c && c ≤ 'z') || ('A' ≤ c && c ≤ 'Z')
def isIdStart (c : Char) : Bool := isLetter c || c == '_'
def isIdChar (c : Char) : Bool := isIdStart c || isDigit c
def isSpace (c : Char) : Bool := c == ' ' || c == '\t' || c == '\r'

/-- A token (R151). A word is an identifier, a register, a mnemonic or a directive; an integer literal and a floating literal
hold their exact values, the latter as digits and a power of ten. -/
inductive Tok where
  | word (w : Text)
  | int (n : Nat)
  | float (digits : Nat) (exp : Int)
  | str (s : Text)
  | op (s : Text)
  deriving DecidableEq, Repr

/-- The digits' value in a base of a text whose characters are digits of it, with single underscores between them. -/
def digitVal (c : Char) : Nat :=
  if isDigit c then c.toNat - 48 else if 'a' ≤ c && c ≤ 'f' then c.toNat - 87 else if 'A' ≤ c && c ≤ 'F' then c.toNat - 55 else 99

/-- Digits with a single underscore allowed between any two (R151). -/
def digitsGo (base : Nat) (acc : Nat) (wasDigit : Bool) : Text → Option Nat
  | [] => if wasDigit then some acc else none
  | c :: cs =>
    if c == '_' then (if wasDigit then digitsGo base acc false cs else none)
    else if digitVal c < base then digitsGo base (acc * base + digitVal c) true cs
    else none

/-- An integer literal (R151). -/
def intLit : Text → Option Nat
  | '0' :: 'x' :: cs => digitsGo 16 0 false cs
  | '0' :: 'b' :: cs => digitsGo 2 0 false cs
  | cs => digitsGo 10 0 false cs

/-- Plain decimal digits, which may be none. -/
def plainDigits (cs : Text) : Option Nat :=
  if cs.all isDigit then some (cs.foldl (fun n c => n * 10 + digitVal c) 0) else none

/-- A floating literal: decimal digits with a point, an exponent, or both (R151). The digits may all stand on one side of the
point, which R151 leaves open (log 79). -/
def floatLit (cs : Text) : Option (Nat × Int) :=
  let mant := cs.takeWhile fun c => c != 'e' && c != 'E'
  let tail := cs.drop mant.length
  let whole := mant.takeWhile fun c => c != '.'
  let frac := (mant.drop whole.length).drop 1
  let exp : Option Int := match tail with
    | [] => some 0
    | _ :: '-' :: ds => if ds.isEmpty then none else (plainDigits ds).map fun n => -(n : Int)
    | _ :: '+' :: ds => if ds.isEmpty then none else (plainDigits ds).map fun n => (n : Int)
    | _ :: ds => if ds.isEmpty then none else (plainDigits ds).map fun n => (n : Int)
  if (whole ++ frac).isEmpty || (tail.isEmpty && mant.length == whole.length) then none else
  match plainDigits (whole ++ frac), exp with
  | some n, some e => some (n, e - frac.length)
  | _, _ => none

/-- The text of a number: letters, digits, underscores and points, and a sign after the exponent's letter. -/
def numberText (hex : Bool) : Text → Text
  | c :: d :: cs =>
    if !hex && (c == 'e' || c == 'E') && (d == '+' || d == '-') then c :: d :: numberText hex cs
    else if isIdChar c || c == '.' then c :: numberText hex (d :: cs) else []
  | [c] => if isIdChar c || c == '.' then [c] else []
  | [] => []

/-- The operators and punctuation of one and of two characters. -/
def isOp (c : Char) : Bool := "+-*/%&^|!()[],~:".toList.contains c

/-- The tokens of a statement's text; fuel is its length. -/
def tokens : Nat → Text → Option (List Tok)
  | 0, cs => if cs.isEmpty then some [] else none
  | n + 1, cs => match cs with
    | [] => some []
    | c :: rest =>
      if isSpace c then tokens n rest
      else if isIdStart c || (c == '.' && !(rest.take 1).any isDigit) then
        let w := c :: rest.takeWhile fun d => isIdChar d || d == '.'
        (tokens n (cs.drop w.length)).map (.word w :: ·)
      else if isDigit c || c == '.' then
        let w := numberText (match cs with | '0' :: 'x' :: _ => true | _ => false) cs
        match intLit w, floatLit w, tokens n (cs.drop w.length) with
        | some v, _, some ts => some (.int v :: ts)
        | none, some (v, e), some ts => some (.float v e :: ts)
        | _, _, _ => none
      else if c == '"' then
        let w := rest.takeWhile (· != '"')
        if rest.length == w.length then none else (tokens n (rest.drop (w.length + 1))).map (.str w :: ·)
      else match cs with
        | '<' :: '<' :: more => (tokens n more).map (.op ['<', '<'] :: ·)
        | '>' :: '>' :: more => (tokens n more).map (.op ['>', '>'] :: ·)
        | _ => if isOp c then (tokens n rest).map (.op [c] :: ·) else none

/-- The tokens of a text. -/
def lex (t : Text) : Option (List Tok) := tokens t.length t

/-- A decimal number without a leading zero below a bound. -/
def regNum (bound : Nat) (cs : Text) : Option Nat :=
  match cs with
  | [] => none
  | '0' :: _ :: _ => none
  | _ => (plainDigits cs).bind fun n => if n < bound then some n else none

/-- A register name: its letter and its number (R151). -/
def regName (w : Text) : Option (Char × Nat) :=
  let of (c : Char) (bound : Nat) (cs : Text) : Option (Char × Nat) := (regNum bound cs).map fun n => (c, n)
  match w with
  | 'v' :: cs => of 'v' 256 cs
  | 's' :: cs => of 's' 384 cs
  | 'q' :: cs => of 'q' 16 cs
  | 'z' :: cs => of 'z' 8 cs
  | _ => none

/-- An identifier (R151): a letter or underscore, then letters, digits and underscores, at most 255, and no register name;
inf and nan are identifiers too (log 79). -/
def isIdent (w : Text) : Bool :=
  (match w with | c :: _ => isIdStart c | [] => false) && w.all isIdChar && w.length ≤ 255 && (regName w).isNone

/-! Expressions. -/

/-- The binary operators (R152). -/
inductive BinOp where
  | mul | div | mod | add | sub | shl | shr | and | xor | or
  deriving DecidableEq, Repr

/-- An expression (R152). -/
inductive Expr where
  | num (n : Nat)
  | sym (name : Text)
  | neg (e : Expr)
  | not (e : Expr)
  | bin (op : BinOp) (a b : Expr)
  deriving DecidableEq, Repr

/-- The operator of a token and its level: 2 binds tightest of the binary ones, 7 loosest (R152). -/
def binOf : Text → Option (BinOp × Nat)
  | ['*'] => some (.mul, 2) | ['/'] => some (.div, 2) | ['%'] => some (.mod, 2)
  | ['+'] => some (.add, 3) | ['-'] => some (.sub, 3)
  | ['<', '<'] => some (.shl, 4) | ['>', '>'] => some (.shr, 4)
  | ['&'] => some (.and, 5) | ['^'] => some (.xor, 6) | ['|'] => some (.or, 7)
  | _ => none

mutual
/-- An expression of a level and the tokens after it; level 1 is the unary one. Operators of one level associate left to
right (R152). -/
def parseAt : Nat → Nat → List Tok → Option (Expr × List Tok)
  | 0, _, _ => none
  | n + 1, lvl, ts =>
    if lvl ≤ 1 then
      match ts with
      | .op ['-'] :: r => (parseAt n 1 r).map fun p => (.neg p.1, p.2)
      | .op ['!'] :: r => (parseAt n 1 r).map fun p => (.not p.1, p.2)
      | .op ['('] :: r => match parseAt n 7 r with
        | some (e, .op [')'] :: r') => some (e, r')
        | _ => none
      | .int v :: r => some (.num v, r)
      | .word w :: r => if isIdent w then some (.sym w, r) else none
      | _ => none
    else match parseAt n (lvl - 1) ts with
      | some (e, r) => parseMore n lvl e r
      | none => none
/-- The further operators and operands of a level. -/
def parseMore : Nat → Nat → Expr → List Tok → Option (Expr × List Tok)
  | 0, _, _, _ => none
  | n + 1, lvl, e, ts => match ts with
    | .op o :: r => match binOf o with
      | some (op, l) =>
        if l = lvl then match parseAt n (lvl - 1) r with
          | some (f, r') => parseMore n lvl (.bin op e f) r'
          | none => none
        else some (e, ts)
      | none => some (e, ts)
    | _ => some (e, ts)
end

/-- The expression that all the tokens form. -/
def parseExpr (ts : List Tok) : Option Expr :=
  match parseAt (8 * ts.length + 8) 7 ts with
  | some (e, []) => some e
  | _ => none

/-! Values. -/

/-- A value: absolute, or a symbol plus an absolute value (R153). -/
structure Value where
  n : Int
  base : Option Text := none
  deriving DecidableEq, Repr

/-- A number read in 64-bit two's complement (R152). -/
def wrap64 (n : Int) : Int :=
  let m := n % 2 ^ 64
  if m < 2 ^ 63 then m else m - 2 ^ 64

/-- A result inside 64 bits (R152). -/
def inside (n : Int) : Except ToolError Int := if -2 ^ 63 ≤ n && n < 2 ^ 63 then .ok n else .error .arithmetic

/-- Bitwise operations on 64-bit patterns. -/
def bits64 (f : BitVec 64 → BitVec 64 → BitVec 64) (a b : Int) : Int := (f (BitVec.ofInt 64 a) (BitVec.ofInt 64 b)).toInt

/-- A binary operator on absolute values (R152). -/
def BinOp.run (op : BinOp) (a b : Int) : Except ToolError Int :=
  match op with
  | .mul => inside (a * b)
  | .div => if b = 0 then .error .arithmetic else inside (a.tdiv b)
  | .mod => if b = 0 then .error .arithmetic else .ok (a.tmod b)
  | .add => inside (a + b)
  | .sub => inside (a - b)
  | .shl => if 0 ≤ b && b ≤ 63 then .ok (wrap64 (a * 2 ^ b.toNat)) else .error .arithmetic
  | .shr => if 0 ≤ b && b ≤ 63 then .ok (a / 2 ^ b.toNat) else .error .arithmetic
  | .and => .ok (bits64 (· &&& ·) a b)
  | .xor => .ok (bits64 (· ^^^ ·) a b)
  | .or => .ok (bits64 (· ||| ·) a b)

/-- An expression's value, with the values of its symbols and the places of the symbols of this source (R152, R153). That
the difference of two relocatable values of one section is absolute is taken for symbol + n too (log 75). -/
def Expr.eval (look : Text → Except ToolError Value) (place : Text → Option (SecKind × Nat)) : Expr → Except ToolError Value
  | .num n => if n < 2 ^ 64 then .ok ⟨wrap64 n, none⟩ else .error .arithmetic
  | .sym w => look w
  | .neg e => do
    let v ← e.eval look place
    if v.base.isSome then .error .relocatable else pure ⟨← inside (-v.n), none⟩
  | .not e => do
    let v ← e.eval look place
    if v.base.isSome then .error .relocatable else pure ⟨-v.n - 1, none⟩
  | .bin op e f => do
    let a ← e.eval look place
    let b ← f.eval look place
    match a.base, b.base with
    | none, none => pure ⟨← op.run a.n b.n, none⟩
    | some w, none => match op with
      | .add => pure ⟨← inside (a.n + b.n), some w⟩
      | .sub => pure ⟨← inside (a.n - b.n), some w⟩
      | _ => .error .relocatable
    | none, some w => match op with
      | .add => pure ⟨← inside (a.n + b.n), some w⟩
      | _ => .error .relocatable
    | some w, some x => match op, place w, place x with
      | .sub, some p, some q =>
        if p.1 = q.1 then pure ⟨← inside ((p.2 : Int) + a.n - ((q.2 : Int) + b.n)), none⟩ else .error .relocatable
      | _, _, _ => .error .relocatable

/-- The symbols of a source while it is assembled: labels with their places, .equ definitions, names declared .extern
(R159). -/
structure Names where
  labels : List (Text × SymType × SecKind × Nat) := []
  equs : List (Text × Expr) := []
  externs : List Text := []
  deriving DecidableEq, Repr

/-- The place of a label. -/
def Names.place (t : Names) (w : Text) : Option (SecKind × Nat) := (t.labels.lookup w).map fun p => p.2

/-- The value of a name; the fuel bounds the definitions passed through, so that a circular one is an error (R159). -/
def Names.value (t : Names) : Nat → Text → Except ToolError Value
  | 0, _ => .error .symbol
  | n + 1, w =>
    if (t.labels.lookup w).isSome then .ok ⟨0, some w⟩ else
    match t.equs.lookup w with
    | some e => e.eval (t.value n) t.place
    | none => if t.externs.contains w then .ok ⟨0, some w⟩ else .error .symbol

/-- The value of an expression under the names. -/
def Names.eval (t : Names) (e : Expr) : Except ToolError Value := e.eval (t.value (t.equs.length + 1)) t.place

/-- An absolute value (R153). -/
def Names.abs (t : Names) (e : Expr) : Except ToolError Int := do
  let v ← t.eval e
  if v.base.isSome then .error .relocatable else pure v.n

/-- A value in a range. -/
def within (lo hi v : Int) : Except ToolError Int := if lo ≤ v && v ≤ hi then .ok v else .error .range

/-! Floating literals (R157). -/

/-- The code of a decimal number in a floating format, rounded once to nearest with ties to even (R157); none where a finite
literal rounds beyond the largest finite value. -/
def decimalCode (f : Fmt) (neg : Bool) (digits : Nat) (exp : Int) : Option Nat :=
  let m := if 0 ≤ exp then digits * 10 ^ exp.toNat else digits * 2 ^ 1100 / 10 ^ exp.natAbs
  let sticky := exp < 0 && digits * 2 ^ 1100 % 10 ^ exp.natAbs != 0
  let c := f.round .rn neg m (if 0 ≤ exp then 0 else -1100) sticky
  if f.infCode == some (c % 2 ^ (f.bits - 1)) then none else some c

/-- An item of a floating data directive: a floating or an integer literal, inf or nan, optionally negated; ~ is all ones
(R157). -/
def floatItem (f : Fmt) (ts : List Tok) : Except ToolError Nat :=
  let (neg, ts) := match ts with
    | .op ['-'] :: r => (true, r)
    | _ => (false, ts)
  let of (o : Option Nat) : Except ToolError Nat := match o with
    | some c => .ok c
    | none => .error .range
  match ts with
  | [.int n] => of (decimalCode f neg n 0)
  | [.float n e] => of (decimalCode f neg n e)
  | [.word w] =>
    if w = "inf".toList then .ok (f.signed neg (f.infCode.getD 0))
    else if w = "nan".toList then .ok f.nanCode else .error .statement
  | [.op ['~']] => if neg then .error .statement else .ok (2 ^ f.bits - 1)
  | _ => .error .statement

end Sys2Proof.Tools
end

