-- ==== Sys2Proof/Machine/SmasForms.lean ====
section
/-!
DEFINITION. The instruction statements of smas: the mnemonics that R122 reads off the class tables of R125 to R147, the
operands of each form in their written order, and the encoding of an operand under the windows (R114, R117, R119, R154).
-/

namespace Sys2Proof.Tools

/-- The kinds of register operands (R117): vs is v or s, vps is vp or s, q08 is q0 or q8. -/
inductive RegK where
  | v | s | x | vp | v4 | vA | sp | q | z | q08 | vps
  deriving DecidableEq, Repr

/-- An operand of a form and the bits of the word that it fills. -/
inductive Opnd where
  /-- A register in the field at a bit. -/
  | reg (k : RegK) (pos : Nat)
  /-- An s register, or 0 where it is left out (R122, R280). -/
  | sOr0 (pos : Nat)
  /-- An absolute value from lo to hi in a field of w bits. -/
  | imm (w pos : Nat) (lo hi : Int)
  /-- A multiple of 8 up to hi, held divided by 8 (R128). -/
  | win (pos : Nat) (hi : Int)
  /-- IMM10 of addi, ori and movi, which may be relocatable (R154, R170). -/
  | imm10
  /-- A label in OFF18, OFF17 or IMM19 (R114, R170). -/
  | label (rel : RelType)
  /-- A special register in field B; `write` for csrw (R125, R174). -/
  | csr (write : Bool)
  /-- D of csrr or A of csrw, of the kind that the special register asks for, checked with the word. -/
  | csrReg (pos : Nat)
  /-- [base + offset]: the base's kind, the access size (R137). -/
  | mem (k : RegK) (size : Nat)
  /-- [s1 + slots] (R137, R208). -/
  | slot
  /-- [base]: an address without an offset (R139, R278, R280). -/
  | addr (k : RegK) (pos : Nat)
  /-- [base, index] (R138). -/
  | indexed
  /-- A wall barrier's number, or [s] for a stash barrier object (R140, R271). -/
  | barrier
  deriving DecidableEq, Repr

/-- A form: its word with every operand field zero, and its operands in the order in which they are written. -/
structure Form where
  word : Nat
  ops : List Opnd
  deriving DecidableEq, Repr

/-- The special registers by name (R174). -/
def csrs : List (String × Nat) :=
  [("%lane", 0x00), ("%course", 0x01), ("%wall", 0x02), ("%frag", 0x03), ("%grid", 0x04), ("%width", 0x05), ("%clock", 0x06),
   ("%age", 0x07), ("WV", 0x10), ("WS", 0x11), ("RM", 0x12), ("FMT", 0x13), ("CAUSE", 0x20), ("TPC", 0x21), ("FADDR", 0x22),
   ("FLANES", 0x23), ("TVEC", 0x24)]

/-! Words of the formats with their operand fields zero (R113). -/

def rWord (cls op : Nat) (b : Nat := 0) : Nat := cls * 2 ^ 27 + op * 2 ^ 21 + b
def iWord (cls op : Nat) (imm : Nat := 0) : Nat := cls * 2 ^ 27 + op * 2 ^ 24 + imm
def mWord (cls op : Nat) : Nat := cls * 2 ^ 27 + op * 2 ^ 23

/-- Fields D, A and B of format R. -/
def rD (k : RegK) : Opnd := .reg k 14
def rA (k : RegK) : Opnd := .reg k 7
def rB (k : RegK) : Opnd := .reg k 0
/-- A form of format R. -/
def rForm (cls op : Nat) (ops : List Opnd) (b : Nat := 0) : Option Form := some ⟨rWord cls op b, ops⟩

/-- The number of a name; a table's unused numbers have the empty name, which names nothing. -/
def nth (names : List String) (s : String) : Option Nat := if s = "" then none else names.idxOf? s

def condNames : List String := ["eq", "ne", "lt", "le"]
/-- COND with the two compare aliases of R122, which swap A and B. -/
def condOf (s : String) : Option (Nat × Bool) :=
  if s = "gt" then some (2, true) else if s = "ge" then some (3, true) else (nth condNames s).map fun n => (n, false)
def icondNames : List String := ["eq", "ne", "lt", "le", "gt", "ge"]
def scNames : List String := ["crs", "wal", "par", "isl", "dev", "sys"]
def vtNames : List String := ["i32", "n32", "f32", "f16", "bf16", "i16", "n16", "f64"]
def segNames : List String := ["seg4", "seg8", "seg16", "seg32", "seg64"]
def lvlNames : List String := ["tensor", "tile", "line"]
def modeNames : List String := ["is", "ix", "s", "six", "i", "x"]

/-- v, or vp under f64 (R121). -/
def vtKind (vt : Nat) : RegK := if vt = 7 then .vp else .v

/-- The operands D, A, B of a compare; the aliases swap A and B. -/
def cmpOps (swap : Bool) (k : RegK) : List Opnd :=
  if swap then [rD .q, rB k, rA k] else [rD .q, rA k, rB k]

def sysForm : List String → Option Form
  | ["brk"] => some ⟨rWord 1 0x00, [.imm 21 0 0 0x1FFFFF]⟩
  | ["trap"] => some ⟨rWord 1 0x01, [.imm 21 0 0 0x1FFFFF]⟩
  | ["rft"] => some ⟨rWord 1 0x02, []⟩
  | ["csrr"] => some ⟨rWord 1 0x10, [.csrReg 14, .csr false]⟩
  | ["csrw"] => some ⟨rWord 1 0x11, [.csr true, .csrReg 7]⟩
  | ["frinfo"] => rForm 1 0x12 [rD .s, rA .s]
  | ["repair"] => rForm 1 0x13 [rD .s, rA .s]
  | _ => none

def brForm : List String → Option Form
  | [op, uk] => do
    let o ← nth ["t", "f", "k", "any", "all", "none"] op
    let u ← nth ["f", "t", "w", "x"] uk
    if o = 2 && u ≠ 0 then none else some ⟨iWord 2 o + u * 2 ^ 22, [.reg .q 18, .label .j18]⟩
  | _ => none

def jmpForm : List String → Option Form
  | ["j"] => some ⟨iWord 3 0, [.label .l17]⟩
  | ["call"] => some ⟨iWord 3 1, [.reg .v 17, .label .l17]⟩
  | ["joinat"] => some ⟨iWord 3 2, [.label .l17]⟩
  | ["join"] => some ⟨iWord 3 3, []⟩
  | ["jx"] => rForm 3 0x38 [rA .v]
  | ["calx"] => rForm 3 0x39 [rD .v, rA .v]
  | ["ret"] => rForm 3 0x3A [rA .v]
  | _ => none

def ctlForm : List String → Option Form
  | ["win"] => some ⟨rWord 4 0, [.win 0 192, .win 6 320]⟩
  | ["yield"] => some ⟨rWord 4 1, []⟩
  | ["exit"] => some ⟨rWord 4 2, []⟩
  | ["nop"] => some ⟨rWord 4 3, []⟩
  | ["prio"] => some ⟨rWord 4 4, []⟩
  | _ => none

/-- The forms that si and vi share (R129, R132): class, register kind, type names, and how many of the types each of
mulh, div and rem has. -/
def intForm (cls : Nat) (k : RegK) (tys : List String) : List String → Option Form
  | [op] =>
    match nth ["and", "or", "xor"] op, nth ["shl", "shr", "sra"] op with
    | some n, _ => rForm cls (56 + n) [rD k, rA k, rB k]
    | none, some n => rForm cls (60 + n) [rD k, rA k, rB k]
    | none, none => none
  | ["cmp", c, t] => do
    let (n, swap) ← condOf c
    let ty ← nth (tys.take 3) t
    rForm cls ((10 + n) * 4 + ty) (cmpOps swap k)
  | [op, t] => do
    let fn ← nth ["add", "sub", "mul", "mulh", "mad", "div", "rem", "min", "max"] op
    let ty ← nth tys t
    if cls = 5 && fn = 4 || cls = 8 && ty = 3 && (fn = 3 || fn = 5 || fn = 6) then none
    else rForm cls (fn * 4 + ty) [rD k, rA k, rB k]
  | _ => none

def siForm : List String → Option Form
  | ["mov", "b64"] => rForm 5 38 [rD .s, rA .s]
  | p => intForm 5 .s ["i64", "n64", "b64"] p

def viForm : List String → Option Form
  | ["abs", t] => (nth ["i32", "", "", "i16"] t).bind fun ty => rForm 8 (36 + ty) [rD .v, rA .v] 0
  | ["neg", t] => (nth ["i32", "", "", "i16"] t).bind fun ty => rForm 8 (36 + ty) [rD .v, rA .v] 1
  | ["clz", "b32"] => rForm 8 38 [rD .v, rA .v] 2
  | ["popc", "b32"] => rForm 8 38 [rD .v, rA .v] 3
  | ["mov", "b32"] => rForm 8 38 [rD .v, rA .v] 4
  | p => intForm 8 .v ["i32", "n32", "b32", "i16"] p

/-- sii and vii (R130): their class, register kind, shift range and compare types. -/
def immForm (cls : Nat) (k : RegK) (sh : Int) (tys : List String) : List String → Option Form
  | ["cmpi", c, t] => do
    let n ← nth icondNames c
    let ty ← nth tys t
    some ⟨iWord cls 6 (n * 2 ^ 7 + ty * 2 ^ 6),
      [.reg .q 17, .reg k 10, if ty = 0 then .imm 6 0 (-32) 31 else .imm 6 0 0 63]⟩
  | [op] => do
    let n ← nth ["addi", "andi", "ori", "xori", "shli", "shri", "", "movi"] op
    match n with
    | 0 | 2 => some ⟨iWord cls n, [.reg k 17, .reg k 10, .imm10]⟩
    | 1 | 3 => some ⟨iWord cls n, [.reg k 17, .reg k 10, .imm 10 0 (-512) 511]⟩
    | 4 | 5 => some ⟨iWord cls n, [.reg k 17, .reg k 10, .imm 10 0 0 sh]⟩
    | 7 => some ⟨iWord cls n, [.reg k 17, .imm10]⟩
    | _ => none
  | _ => none

def sluForm : List String → Option Form
  | ["hi"] => some ⟨7 * 2 ^ 27, [.reg .s 19, .imm 19 0 (-262144) 262143]⟩
  | ["pc"] => some ⟨7 * 2 ^ 27 + 2 ^ 26, [.reg .s 19, .label .pc19]⟩
  | _ => none

def vfForm : List String → Option Form
  | ["cmp", c, "f32"] => do
    let (n, swap) ← condOf c
    rForm 10 ((8 + n) * 4) (cmpOps swap .v)
  | [op, t] => do
    let ty ← nth ["f32", "f16", "bf16"] t
    match nth ["add", "sub", "mul", "fma", "div", "min", "max"] op,
        nth ["abs", "neg", "rcp", "rsq", "sqrt", "exp2", "log2", "floor", "mov"] op with
    | some fn, _ => rForm 10 (fn * 4 + ty) [rD .v, rA .v, rB .v]
    | none, some u => rForm 10 (28 + ty) [rD .v, rA .v] u
    | none, none => none
  | _ => none

def vdForm : List String → Option Form
  | ["sqrt"] => rForm 11 5 [rD .vp, rA .vp]
  | ["cmp", c] => do
    let (n, swap) ← condOf c
    rForm 11 (8 + n) (cmpOps swap .vp)
  | [op] => do
    let n ← nth ["add", "sub", "mul", "fma", "div", "", "min", "max"] op
    rForm 11 n [rD .vp, rA .vp, rB .vp]
  | _ => none

/-- vx.cvt[.rnd].to.from[.h1] (R135). -/
def cvtForm (rnd : Nat) (to' src : String) (h : Nat) : Option Form := do
  let t ← nth vtNames to'
  let f ← nth vtNames src
  rForm 12 (32 + rnd) [rD (vtKind t), rA (vtKind f)] (h * 64 + f * 8 + t)

/-- RND by its suffix (R121). -/
def rndOf (s : String) : Option Nat := (nth ["rn", "rz", "rd", "ru"] s).map fun n => n + 4

def vxForm : List String → Option Form
  | ["cvt", a, b] => cvtForm 0 a b 0
  | ["cvt", a, b, c] =>
    if c = "h1" then cvtForm 0 a b 1 else (rndOf a).bind fun r => cvtForm r b c 0
  | ["cvt", r, a, b, "h1"] => (rndOf r).bind fun r => cvtForm r a b 1
  | ["isabs", t] => (nth vtNames t).bind fun n => rForm 12 n [rD .q, rA (vtKind n)]
  | ["ora", t] => (nth vtNames t).bind fun n => rForm 12 (8 + n) [rD (vtKind n), rA (vtKind n), rB (vtKind n)]
  | ["mkabs", t] => (nth vtNames t).bind fun n => rForm 12 (16 + n) [rD (vtKind n), rA (vtKind n), rB .q]
  | ["sel", t] => (nth vtNames t).bind fun n => rForm 12 (24 + n) [rD (vtKind n), rA (vtKind n), rB .q]
  | ["qand"] => rForm 12 40 [rD .q, rA .q, rB .q]
  | ["qor"] => rForm 12 41 [rD .q, rA .q, rB .q]
  | ["qnot"] => rForm 12 42 [rD .q, rA .q]
  | ["qxor"] => rForm 12 43 [rD .q, rA .q, rB .q]
  | ["qmov"] => rForm 12 44 [rD .q, rA .q]
  | ["qset"] => rForm 12 45 [rD .q, .imm 7 0 0 2]
  | ["qpack"] => rForm 12 46 [rD .v, rA .q08]
  | ["qunpack"] => rForm 12 47 [rD .q08, rA .v]
  | _ => none

/-- VT and SEG of red, scan and topk (R136). -/
def vcGroup (op : Nat) (topk : Bool) (t g : String) : Option Form := do
  let vt ← nth vtNames t
  let sg ← nth segNames g
  rForm 13 op [rD (if topk then .vp else if vt = 7 then .v4 else .vp), rA (vtKind vt)] (vt * 16 + sg)

def vcForm : List String → Option Form
  | ["red", o, t, g] => (nth ["add", "min", "max"] o).bind fun n => vcGroup n false t g
  | ["scan", o, t, g] => (nth ["add", "min", "max"] o).bind fun n => vcGroup (8 + n) false t g
  | ["topk", k, t, g] =>
    (nth ["k1", "k2", "k3", "k4", "k5", "k6", "k7", "k8"] k).bind fun n => vcGroup (16 + n) true t g
  | ["rebal"] => rForm 13 0x18 [rD .vp, rA .v, rB .s]
  | ["conflict"] => rForm 13 0x20 [rD .q, rA .vp]
  | ["shfl", "idx"] => rForm 13 0x28 [rD .v, rA .v, rB .v]
  | ["shfl", o] => (nth ["up", "down", "xor"] o).bind fun n => rForm 13 (0x29 + n) [rD .v, rA .v, rB .s]
  | ["vote", o] => (nth ["any", "all", "none"] o).bind fun n => rForm 13 (0x30 + n) [rD .q, rA .q]
  | ["bcast"] => rForm 13 0x38 [rD .v, rA .v, rB .s]
  | ["wrlane"] => rForm 13 0x39 [rD .v, rA .s, rB .s]
  | _ => none

/-- The data register's kind by log2 of the size less one: v, v, vp, v4 (R137). -/
def sizeKind (n : Nat) : RegK := match n with
  | 2 => .vp
  | 3 => .v4
  | _ => .v

/-- ld and st (R137). -/
def memForm (cls : Nat) : List String → Option Form
  | ["stk"] => some ⟨mWord cls 0xC, [.reg .v 16, .slot]⟩
  | [sp, b] => do
    let n ← nth ["b16", "b32", "b64", "b128"] b
    match sp with
    | "g" => some ⟨mWord cls n, [.reg (sizeKind n) 16, .mem .vps (2 * 2 ^ n)]⟩
    | "s" => some ⟨mWord cls (4 + n), [.reg (sizeKind n) 16, .mem .x (2 * 2 ^ n)]⟩
    | "c" => if cls = 14 && (n = 1 || n = 2) then some ⟨mWord cls (7 + n), [.reg (sizeKind n) 16, .mem .vps (2 * 2 ^ n)]⟩ else none
    | "k" => if n = 1 || n = 2 then some ⟨mWord cls (9 + n), [.reg .s 16, .mem .s (2 * 2 ^ n)]⟩ else none
    | _ => none
  | _ => none

/-- ldx and stx (R138). -/
def indexForm (cls : Nat) : List String → Option Form
  | [sp, b] => do
    let n ← nth ["b16", "b32", "b64"] b
    let m ← nth ["g", "s"] sp
    rForm cls (4 * m + n) [rD (sizeKind n), .indexed]
  | _ => none

/-- OP of an atomic by its name and type (R139). -/
def atOp (o t : String) : Option Nat :=
  let six := ["i32", "n32", "f32", "i64", "n64", "f64"]
  let two (base : Nat) : Option Nat := (nth ["b32", "b64"] t).map fun n => base + n
  match o with
  | "add" => nth ["i32", "n32", "b32", "i64", "n64", "b64"] t
  | "fadd" => (nth ["f32", "f64"] t).map fun n => 0x06 + n
  | "min" => (nth six t).map fun n => 0x08 + n
  | "max" => (nth six t).map fun n => 0x0E + n
  | "and" => two 0x14
  | "or" => two 0x16
  | "xor" => two 0x18
  | "xchg" => two 0x1A
  | "cas" => two 0x1C
  | "slot" => (nth ["n32", "n64"] t).map fun n => 0x1E + n
  | _ => none

def atForm : List String → Option Form
  | o :: t :: sc :: ord => do
    let op ← atOp o t
    let s ← nth scNames sc
    let r ← match ord with
      | [] => some 0
      | [r] => (nth ["acq", "rel", "ar"] r).map fun n => n + 1
      | _ => none
    let wide := ["i64", "n64", "f64", "b64"].contains t
    let k : RegK := if o = "cas" then (if wide then .v4 else .vp) else if wide then .vp else .v
    rForm 18 op [rD k, .addr .vps 7] (s * 16 + r * 4)
  | _ => none

def synForm : List String → Option Form
  | ["bar"] => some ⟨rWord 19 0, [.barrier]⟩
  | ["arrive"] => some ⟨rWord 19 1, [.barrier]⟩
  | ["bwait"] => some ⟨rWord 19 2, [.barrier]⟩
  | ["fence", k, sc] => do
    let n ← nth ["acq", "rel", "ar", "tot"] k
    let s ← nth scNames sc
    some ⟨rWord 19 3 (s * 4 + n), []⟩
  | ["waitc"] => some ⟨rWord 19 4, [.imm 3 6 0 7, .imm 3 3 0 7, .imm 3 0 0 7]⟩
  | ["waitcmp", c, b] => do
    let n ← nth ["eq", "ne"] c
    let m ← nth ["b32", "b64"] b
    rForm 19 (8 + 2 * m + n) [rD .s, .addr .s 7, rB .s]
  | ["sigadd", sc] => (nth scNames sc).bind fun s => rForm 19 (0x10 + s) [.sOr0 14, .addr .s 7, rB .s]
  | ["sigwait", sc] => (nth scNames sc).bind fun s => rForm 19 (0x18 + s) [.sOr0 14, .addr .s 7, rB .s]
  | _ => none

/-- The suffixes of tl.mma (R142): REUSE, KC, KN. -/
def mmaBits : List String → Option Nat
  | [] => some 0
  | "reuse" :: p => match p with
    | "kc" :: r => (kn r).map fun n => n + 24
    | r => (kn r).map fun n => n + 16
  | "kc" :: r => (kn r).map fun n => n + 8
  | r => kn r
where
  /-- KN: empty for one step. -/
  kn : List String → Option Nat
    | [] => some 0
    | [s] => (nth ["kn2", "kn3", "kn4", "kn5", "kn6", "kn7", "kn8"] s).map fun n => n + 1
    | _ => none

def tlForm : List String → Option Form
  | ["setfmt"] => rForm 21 0 [rA .s]
  | ["drain"] => rForm 21 1 [rD .z, rA .sp]
  | ["zero"] => rForm 21 2 [rD .z]
  | ["load"] => rForm 21 3 [rD .z, rA .s]
  | "mma" :: p => (mmaBits p).bind fun n => rForm 21 (0x20 + n) [rD .z, rA .vA, rB .sp]
  | _ => none

def cpyForm : List String → Option Form
  | ["g2s"] => rForm 22 0 [rD .s, rA .s, rB .s]
  | ["s2g"] => rForm 22 1 [rD .s, rA .s, rB .s]
  | ["g2g"] => rForm 22 2 [rD .s, rA .s, rB .s]
  | ["batch"] => rForm 22 3 [.sOr0 14, .sOr0 7]
  | ["wait"] => rForm 22 4 [rA .s]
  | ["bind"] => rForm 22 5 [rD .s, rA .s, rB .s]
  | ["unbind"] => rForm 22 6 [rA .s]
  | _ => none

/-- MODE and LVL of a lock form (R146). -/
def lkMod (l m : String) : Option Nat := do
  let a ← nth lvlNames l
  let b ← nth modeNames m
  some (a * 8 + b)

def lkForm : List String → Option Form
  | ["acq", "try", l, m] => (lkMod l m).bind fun n => rForm 25 0 [rD .q, rA .vps] (n + 32)
  | ["acq", l, m] => (lkMod l m).bind fun n => rForm 25 0 [rD .q, rA .vps] n
  | ["rel", l, m] => (lkMod l m).bind fun n => rForm 25 1 [rA .vps] n
  | ["relall"] => rForm 25 2 []
  | ["esc", l, m] => (lkMod l m).bind fun n => rForm 25 3 [rD .q, rA .vps] n
  | ["query", l] => (nth lvlNames l).bind fun n => rForm 25 4 [rD .v, rA .vps] (n * 8)
  | _ => none

/-- The form of a mnemonic, from its parts (R122, R123). -/
def formOf : List String → Option Form
  | "sys" :: p => sysForm p
  | "br" :: p => brForm p
  | "jmp" :: p => jmpForm p
  | "ctl" :: p => ctlForm p
  | "si" :: p => siForm p
  | "sii" :: p => immForm 6 .s 63 ["i64", "n64"] p
  | "slu" :: p => sluForm p
  | "vi" :: p => viForm p
  | "vii" :: p => immForm 9 .v 31 ["i32", "n32"] p
  | "vf" :: p => vfForm p
  | "vd" :: p => vdForm p
  | "vx" :: p => vxForm p
  | "vc" :: p => vcForm p
  | "ld" :: p => memForm 14 p
  | "st" :: p => memForm 15 p
  | "ldx" :: p => indexForm 16 p
  | "stx" :: p => indexForm 17 p
  | "at" :: p => atForm p
  | "syn" :: p => synForm p
  | ["wq", o] => (nth ["push", "pop", "trypop", "launch"] o).bind fun n => rForm 20 n [rD .s, rA .s, rB .s]
  | "tl" :: p => tlForm p
  | "cpy" :: p => cpyForm p
  | ["kv", "gather"] => rForm 23 0 [rD .s, rA .s, rB .s]
  | ["kv", "append"] => rForm 23 1 [rA .vp, rB .vp]
  | ["kv", "fork"] => rForm 23 2 [rD .s, rA .s]
  | ["kv", "drop"] => rForm 23 3 [rA .s]
  | ["xf", "run", o] => (nth ["transpose", "requant", "compact", "expand"] o).bind fun n => rForm 24 n [rA .s, rB .s]
  | ["xf", "cancel"] => rForm 24 8 [rA .s]
  | "lk" :: p => lkForm p
  | ["ex", "acq"] => rForm 26 0 [rD .vp, rA .v] 0
  | ["ex", "acq", "try"] => rForm 26 0 [rD .vp, rA .v] 1
  | ["ex", "rel"] => rForm 26 1 [rA .v]
  | ["ex", "hint"] => rForm 26 2 [rA .x]
  | ["ex", "stat"] => rForm 26 3 [rD .s, rA .s]
  | _ => none

/-- The parts of a mnemonic between its dots. -/
def partsGo (cur : Text) : Text → List String
  | [] => [String.ofList cur.reverse]
  | c :: cs => if c == '.' then String.ofList cur.reverse :: partsGo [] cs else partsGo (c :: cur) cs

/-- The form of a mnemonic (R15, R122). -/
def formOfText (w : Text) : Option Form := formOf (partsGo [] w)

/-! Operands. -/

/-- What surrounds an instruction: the windows (R119), and in a kernel its width and register cap (R154). -/
structure Around where
  wv : Nat := 0
  ws : Nat := 0
  kernel : Option (Nat × Nat) := none
  deriving DecidableEq, Repr

/-- Registers of a group of kind vA at a width (R117). -/
def groupA (width : Nat) : Nat := if width = 64 then 8 else if width = 32 then 16 else 32

/-- The vector registers that an operand of a kind names. -/
def RegK.count (k : RegK) (width : Nat) : Nat := match k with
  | .vp | .vps => 2
  | .v4 => 4
  | .vA => groupA width
  | _ => 1

/-- The field value of a register under the windows (R119). -/
def regField (a : Around) (c : Char) (n : Nat) : Except ToolError Nat :=
  if c == 'v' then (if a.wv ≤ n && n < a.wv + 64 then .ok (n - a.wv) else .error .register)
  else if c == 's' then
    if n = 1 || n = 2 then .ok (0x40 + n)
    else if a.ws ≠ 0 && (n = a.ws + 1 || n = a.ws + 2) then .error .register
    else if a.ws ≤ n && n < a.ws + 64 then .ok (0x40 + n - a.ws) else .error .register
  else .ok n

/-- Whether a field value and the file of its register fit a kind (R117). -/
def RegK.fits (k : RegK) (c : Char) (n : Nat) : Bool :=
  match k with
  | .v | .vA => c == 'v'
  | .s => c == 's'
  | .x => c == 'v' || c == 's'
  | .vp => c == 'v' && n % 2 == 0
  | .v4 => c == 'v' && n % 4 == 0
  | .sp => c == 's' && n % 2 == 0
  | .q => c == 'q'
  | .q08 => c == 'q' && n % 8 == 0
  | .z => c == 'z'
  | .vps => c == 's' || (c == 'v' && n % 2 == 0)

/-- A register operand: its field value, with the checks of R117, R119 and R154. -/
def regOpnd (a : Around) (k : RegK) (w : Text) : Except ToolError Nat :=
  match regName w with
  | none => .error .statement
  | some (c, n) => do
    let f ← regField a c n
    if !k.fits c f then .error .register else
    match a.kernel with
    | none => if k == .vA && f % 8 ≠ 0 then .error .register else .ok f
    | some (width, cap) =>
      if k == .vA && f % groupA width ≠ 0 then .error .register
      else if c == 'v' && cap < n + k.count width then .error .register else .ok f

/-- The operands of a statement: its tokens between the commas that stand outside brackets and parentheses. -/
def splitGo (depth : Nat) (cur : List Tok) : List Tok → List (List Tok)
  | [] => [cur.reverse]
  | t :: ts =>
    if t = .op ['['] || t = .op ['('] then splitGo (depth + 1) (t :: cur) ts
    else if t = .op [']'] || t = .op [')'] then splitGo (depth - 1) (t :: cur) ts
    else if t = .op [','] && depth = 0 then cur.reverse :: splitGo depth [] ts
    else splitGo depth (t :: cur) ts

/-- The operands; no token is no operand. -/
def operands (ts : List Tok) : List (List Tok) := if ts.isEmpty then [] else splitGo 0 [] ts

/-- A value's low bits as a field. -/
def fieldBits (w pos : Nat) (v : Int) : Nat := (v % 2 ^ w).toNat * 2 ^ pos

/-- An expression that must be absolute. -/
def absTok (t : Names) (ts : List Tok) : Except ToolError Int :=
  match parseExpr ts with
  | some e => t.abs e
  | none => .error .statement

/-- The tokens between brackets. -/
def bracketed (ts : List Tok) : Option (List Tok) :=
  match ts with
  | .op ['['] :: r => if r.getLast? = some (.op [']']) then some r.dropLast else none
  | _ => none

/-- [base], [base + expression] or [base - expression]: the base's name and the offset (R137). -/
def memOpnd (t : Names) (ts : List Tok) : Except ToolError (Text × Int) :=
  match bracketed ts with
  | some [.word w] => .ok (w, 0)
  | some (.word w :: .op o :: r) =>
    if o = ['+'] || o = ['-'] then (absTok t (.int 0 :: .op o :: r)).map fun n => (w, n) else .error .statement
  | _ => .error .statement

/-- The bits that an operand adds to the word, and the relocation that its value asks for: the type, the symbol and the
addend. `here` is the location of the word, where it stands in .text. A register field that holds 0 before another operand has no
written form (log 79). -/
def Opnd.bits (t : Names) (a : Around) (here : Nat) (o : Opnd) (ts : List Tok) :
    Except ToolError (Nat × Option (RelType × Text × Int)) :=
  let plain (r : Except ToolError Nat) : Except ToolError (Nat × Option (RelType × Text × Int)) := r.map fun n => (n, none)
  let word (f : Text → Except ToolError Nat) : Except ToolError Nat := match ts with
    | [.word w] => f w
    | _ => .error .statement
  let value : Except ToolError Value := match parseExpr ts with
    | some e => t.eval e
    | none => .error .statement
  match o with
  | .reg k pos => plain (word fun w => (regOpnd a k w).map fun f => f * 2 ^ pos)
  | .sOr0 pos => plain (word fun w => (regOpnd a .s w).map fun f => f * 2 ^ pos)
  | .imm w pos lo hi => plain do
    let v ← within lo hi (← absTok t ts)
    pure (fieldBits w pos v)
  | .win pos hi => plain do
    let v ← within 0 hi (← absTok t ts)
    if v % 8 ≠ 0 then .error .range else pure ((v / 8).toNat * 2 ^ pos)
  | .imm10 => do
    let v ← value
    match v.base with
    | none => plain ((within (-512) 511 v.n).map (fieldBits 10 0))
    | some w => pure (0, some (.imm10, w, v.n))
  | .label rel => do
    let v ← value
    let (w, lim) : Nat × Int := match rel with
      | .j18 => (18, 131072)
      | .l17 => (17, 65536)
      | _ => (19, 262144)
    match v.base with
    | none => if rel = .pc19 then plain ((within (-262144) 262143 v.n).map (fieldBits 19 0)) else .error .statement
    | some s => match t.place s with
      | some (.text, off) =>
        if rel = .pc19 then pure (0, some (rel, s, v.n)) else
        let d : Int := off + v.n - here
        if d % 4 ≠ 0 then .error .range else plain ((within (-lim) (lim - 1) (d / 4)).map (fieldBits w 0))
      | _ => pure (0, some (rel, s, v.n))
  | .csr _ => match ts with
    | [.word w] => plain (csrs.lookup (String.ofList w) |>.elim (.error .statement) .ok)
    | [.op ['%'], .word w] => plain (csrs.lookup (String.ofList ('%' :: w)) |>.elim (.error .statement) .ok)
    | _ => .error .statement
  | .csrReg pos => plain (word fun w => (regOpnd a .x w).map fun f => f * 2 ^ pos)
  | .mem k size => plain do
    let (w, off) ← memOpnd t ts
    let f ← regOpnd a k w
    if off % size ≠ 0 then .error .range else
    let n ← within (-256) 255 (off / size)
    pure (f * 2 ^ 9 + fieldBits 9 0 n)
  | .slot => plain do
    let (w, off) ← memOpnd t ts
    if w ≠ "s1".toList then .error .register else
    let n ← within (-256) 255 off
    pure (fieldBits 9 0 n)
  | .addr k pos => plain <| match bracketed ts with
    | some [.word w] => (regOpnd a k w).map fun f => f * 2 ^ pos
    | _ => .error .statement
  | .indexed => plain <| match bracketed ts with
    | some [.word b, .op [','], .word i] => do
      let f ← regOpnd a .s b
      let g ← regOpnd a .v i
      pure (f * 2 ^ 7 + g)
    | _ => .error .statement
  | .barrier => plain <| match bracketed ts with
    | some [.word w] => (regOpnd a .s w).map fun f => f * 2 ^ 5 + 2 ^ 4
    | some _ => .error .statement
    | none => do
      let v ← within 0 15 (← absTok t ts)
      pure v.toNat

/-- The operands that are written, in place of those of the form: a trailing register or 0 may be left out, and D of a
signal form (R122, R280). -/
def Form.written : List Opnd → Nat → Option (List Opnd)
  | ops, n =>
    if ops.length = n then some ops else
    match ops with
    | [.sOr0 d, .sOr0 _] => if n = 1 then some [.sOr0 d] else if n = 0 then some [] else none
    | .sOr0 _ :: rest => if rest.length = n then some rest else none
    | _ => none

/-- Inside a kernel, a register that an instruction names, in any group of a v operand, lies at or above the register cap (R154,
R296). -/
def overCap (a : Around) (i : Instr) : Bool := match a.kernel with
  | none => false
  | some (width, cap) => i.operands.any fun o => match o.vregs width with
    | some (first, n) => decide (cap < a.wv + first + n)
    | none => false

/-- The word of an instruction statement and its relocations. A word that the decoder refuses is an error (R124, R154). -/
def assembleWord (t : Names) (a : Around) (here : Nat) (mnem : Text) (ts : List Tok) :
    Except ToolError (Nat × List (RelType × Text × Int)) :=
  match formOfText mnem with
  | none => .error .statement
  | some f =>
    let args := operands ts
    match Form.written f.ops args.length with
    | none => .error .statement
    | some ops => do
      let parts ← (ops.zip args).mapM fun p => p.1.bits t a here p.2
      let w := parts.foldl (fun n p => n + p.1) f.word
      match decode (BitVec.ofNat 32 w) with
      | .ok i => if overCap a i then .error .register else pure (w, parts.filterMap fun p => p.2)
      | .error _ => .error .range

end Sys2Proof.Tools
end

