-- ==== Sys2Proof/Machine/Smas.lean ====
section
/-!
DEFINITION. The assembler smas: lines, macros and inclusion (R150, R160, R161), sections and data (R155 to R158), symbols
(R159), kernels and layout records (R162 to R165), and the object it writes (R166 to R171).
-/

namespace Sys2Proof.Tools

/-! Lines, macros and files. -/

/-- A statement: its place, its labels, its first word and the tokens after that. -/
structure Stmt where
  loc : Loc
  labels : List Text
  head : Text
  toks : List Tok
  deriving DecidableEq, Repr

/-- A macro: its name, its parameters and the lines of its body (R160). -/
structure MacroDef where
  name : Text
  params : List Text
  body : List Text
  deriving DecidableEq, Repr

/-- The reading of a source: the macros, the one that is being defined, the expansions so far, the files so far and the
statements so far, last first. -/
structure Reading where
  macros : List MacroDef := []
  open' : Option MacroDef := none
  count : Nat := 0
  files : List Text := []
  out : List Stmt := []
  deriving DecidableEq, Repr

/-- A line without its comment; a semicolon in a string begins none (R150). -/
def dropComment (inStr : Bool) : Text → Text
  | [] => []
  | c :: cs => if c == '"' then c :: dropComment (!inStr) cs else if c == ';' && !inStr then [] else c :: dropComment inStr cs

/-- A text without white space at its ends. -/
def trim (t : Text) : Text := ((t.dropWhile isSpace).reverse.dropWhile isSpace).reverse

/-- A character of a label; in the body of a macro also of one that $$ or a parameter completes (R160). -/
def isLabelChar (body : Bool) (c : Char) : Bool := isIdChar c || (body && (c == '$' || c == '\\'))

/-- The labels before a statement, the statement's text and its column (R150). -/
def takeLabels (body : Bool) : Nat → Nat → Text → List Text × Nat × Text
  | 0, col, t => ([], col, t)
  | n + 1, col, t =>
    let s := t.dropWhile isSpace
    let col := col + (t.length - s.length)
    let w := s.takeWhile (isLabelChar body)
    let r := (s.drop w.length).dropWhile isSpace
    match w, r with
    | _ :: _, ':' :: more =>
      let rest := takeLabels body n (col + (s.length - more.length)) more
      (w :: rest.1, rest.2)
    | _, _ => ([], col, s)

/-- The first word of a statement's text and the text after it. -/
def headWord (s : Text) : Text × Text :=
  let w := s.takeWhile fun c => isIdChar c || c == '.'
  (w, s.drop w.length)

/-- Texts between the commas that stand outside strings, brackets and parentheses. -/
def splitText (inStr : Bool) (depth : Nat) (cur : Text) : Text → List Text
  | [] => [trim cur.reverse]
  | c :: cs =>
    if c == '"' then splitText (!inStr) depth (c :: cur) cs
    else if inStr then splitText inStr depth (c :: cur) cs
    else if c == '[' || c == '(' then splitText inStr (depth + 1) (c :: cur) cs
    else if c == ']' || c == ')' then splitText inStr (depth - 1) (c :: cur) cs
    else if c == ',' && depth == 0 then trim cur.reverse :: splitText inStr depth [] cs
    else splitText inStr depth (c :: cur) cs

/-- The arguments in a text; an empty one between commas counts as supplied, which R160 leaves open (log 75). -/
def args (t : Text) : List Text := if (trim t).isEmpty then [] else splitText false 0 [] t

/-- The longest parameter whose name begins a text, with its argument; of two with one name the first (log 79). -/
def bestParam (ps : List (Text × Text)) (t : Text) : Option (Text × Text) :=
  (ps.filter fun p => p.1.isPrefixOf t).foldl
    (fun b p => match b with
      | some q => if q.1.length < p.1.length then some p else some q
      | none => some p) none

/-- A line of a body with its parameters replaced by their arguments, and $$ by the number of the expansion (R160); fuel is
the line's length. -/
def substitute (ps : List (Text × Text)) (n : Text) : Nat → Text → Text
  | 0, t => t
  | k + 1, t => match t with
    | [] => []
    | '\\' :: cs => match bestParam ps cs with
      | some (p, a) => a ++ substitute ps n k (cs.drop p.length)
      | none => '\\' :: substitute ps n k cs
    | '$' :: '$' :: cs => n ++ substitute ps n k cs
    | c :: cs => c :: substitute ps n k cs

/-- The lines of a text. -/
def linesGo (cur : Text) : Text → List Text
  | [] => if cur.isEmpty then [] else [cur.reverse]
  | c :: cs => if c == '\n' then cur.reverse :: linesGo [] cs else linesGo (c :: cur) cs

/-- The directory of a path, with its slash. -/
def dirOf (p : Text) : Text := (p.reverse.dropWhile (· != '/')).reverse

/-- A path in a directory. -/
def inDir (d p : Text) : Text := if d.isEmpty || d.getLast? = some '/' then d ++ p else d ++ '/' :: p

/-- Where an included path is looked for, in order (R161). -/
def candidates (dirs : List Text) (includer p : Text) : List Text :=
  match p with
  | '/' :: _ => [p]
  | _ => (dirOf includer ++ p) :: dirs.map fun d => inDir d p

/-- The index of a file in the object's list of files, to which it is added where it is new (R171). -/
def Reading.fileNo (r : Reading) (p : Text) : Nat × Reading :=
  match r.files.idxOf? p with
  | some i => (i, r)
  | none => (r.files.length, { r with files := r.files ++ [p] })

/-- The definition that .macro begins (R160). -/
def macroOf (loc : Loc) (rest : Text) : Tool MacroDef :=
  let s := trim rest
  let name := s.takeWhile fun c => !isSpace c
  let params := args (s.drop name.length)
  if isIdent name && params.length ≤ 16 && params.all isIdent then .ok ⟨name, params, []⟩ else .error (loc, .expansion)

mutual
/-- One line. `fs` gives the text of a path; `over?` is the place that the lines of an expansion take; `md` and `inc` are the
depths of expansion and inclusion (R160, R161). An expansion takes the file and the column of its invocation with the line, and
an .include in a body is looked for beside the file of the invocation; a macro is known from its definition on, and the lines of a
file that a body includes are lines of that file, and arguments beyond the parameters are an error, as is
a definition still open at the end of an included file (log 79). Labels before .endm end the body (R150). -/
def readLine1 (fs : Text → Option Text) (dirs : List Text) :
    Nat → Option Loc → Nat → Nat → Nat → Text → Text → Reading → Tool Reading
  | 0, _, _, _, no, _, _, _ => .error (⟨0, no, 1⟩, .expansion)
  | k + 1, over?, md, inc, no, path, line, r =>
    let text := dropComment false line
    let (file, r) := r.fileNo path
    let (labels, col, s) := takeLabels r.open'.isSome text.length 1 text
    let loc : Loc := over?.getD ⟨file, no, col⟩
    let (head, rest) := headWord s
    match r.open' with
    | some m =>
      if head = ".endm".toList then
        if !(trim rest).isEmpty then .error (loc, .statement) else
        let last := if labels.isEmpty then [] else [labels.flatMap fun w => w ++ [':']]
        .ok { r with macros := r.macros ++ [{ m with body := m.body ++ last }], open' := none }
      else if head = ".macro".toList then .error (loc, .expansion)
      else .ok { r with open' := some { m with body := m.body ++ [text] } }
    | none =>
      let push (h : Text) (ts : List Tok) (r : Reading) : Reading := { r with out := ⟨loc, labels, h, ts⟩ :: r.out }
      if !labels.all isIdent then .error (loc, .identifier) else
      if head.isEmpty then
        if s.isEmpty then .ok (if labels.isEmpty then r else push [] [] r) else .error (loc, .statement)
      else if head = ".macro".toList then
        if over?.isSome then .error (loc, .expansion) else
        match macroOf loc rest with
        | .ok m => if r.macros.any fun n => n.name = m.name then .error (loc, .expansion) else
          .ok { (if labels.isEmpty then r else push [] [] r) with open' := some m }
        | .error e => .error e
      else if head = ".include".toList then
        match lex rest with
        | some [.str p] =>
          if 16 ≤ inc then .error (loc, .expansion) else
          match (candidates dirs path p).find? fun q => (fs q).isSome with
          | none => .error (loc, .expansion)
          | some q =>
            let r := push ".text".toList [] r
            match readLines1 fs dirs k none md (inc + 1) 1 q (linesGo [] ((fs q).getD [])) r with
            | .ok r => if r.open'.isSome then .error (loc, .expansion) else .ok r
            | .error e => .error e
        | _ => .error (loc, .statement)
      else match r.macros.find? fun m => m.name = head with
        | some m =>
          let as := args rest
          if as.length ≠ m.params.length || 32 ≤ md then .error (loc, .expansion) else
          let n := (Nat.toDigits 10 r.count)
          let body := m.body.map fun t => substitute (m.params.zip as) n t.length t
          let r := { (if labels.isEmpty then r else push [] [] r) with count := r.count + 1 }
          readLines1 fs dirs k (some loc) (md + 1) inc no path body r
        | none => match lex rest with
          | some ts => .ok (push head ts r)
          | none => .error (loc, .token)
/-- Lines one after another; the lines of an expansion keep the number of the invocation. -/
def readLines1 (fs : Text → Option Text) (dirs : List Text) :
    Nat → Option Loc → Nat → Nat → Nat → Text → List Text → Reading → Tool Reading
  | _, _, _, _, _, _, [], r => .ok r
  | 0, _, _, _, no, _, _ :: _, _ => .error (⟨0, no, 1⟩, .expansion)
  | k + 1, over?, md, inc, no, path, t :: ts, r =>
    match readLine1 fs dirs k over? md inc no path t r with
    | .ok r => readLines1 fs dirs k over? md inc (if over?.isSome then no else no + 1) path ts r
    | .error e => .error e
end

/-! Statements. -/

/-- A kernel (R162): its name, the entry's location, its descriptor's place in .kinfo, and its directives. -/
structure KernelDef where
  name : Text
  entry : Nat
  desc : Nat
  dirs : List (Text × Loc × List (List Tok)) := []
  deriving DecidableEq, Repr

/-- What a piece of a section holds. -/
inductive What where
  /-- n bytes of one value. -/
  | fill (n : Nat) (b : Nat)
  /-- n words of ctl.nop (R158). -/
  | nops (n : Nat)
  /-- One item of an integer data directive: its size, its range and its expression or ~ (R157). -/
  | item (size : Nat) (lo hi : Int) (ts : List Tok)
  /-- n copies of a code of a size in bytes (R157). -/
  | codes (n size code : Nat)
  /-- One floating item (R157). -/
  | float (f : Fmt) (ts : List Tok)
  /-- An instruction word; `kernel` is the index of the kernel around it (R154). -/
  | insn (mnem : Text) (ts : List Tok) (kernel : Option Nat)
  /-- A kernel descriptor (R163), by the index of its kernel. -/
  | desc (i : Nat)
  /-- A layout record (R164), by the operands after its name. -/
  | layout (ops : List (List Tok))
  deriving DecidableEq, Repr

/-- A piece of a section at its location, with the statement's place. -/
structure Piece1 where
  kind : SecKind
  off : Nat
  loc : Loc
  what : What
  deriving DecidableEq, Repr

/-- The placing of a source's statements: the current section, the sizes and alignments of the sections, the pieces (last
first), the names in order of definition, the bindings, the kernels, and the first size that could not be found. -/
structure Placing where
  cur : SecKind := .text
  sizes : Tab Nat := []
  aligns : Tab Nat := []
  pieces : List Piece1 := []
  names : Names := {}
  order : List Text := []
  binds : List (Text × Bind) := []
  kernels : List KernelDef := []
  inKernel : Bool := false
  bad : Option (Loc × ToolError) := none
  deriving DecidableEq, Repr

def Placing.size (p : Placing) (k : SecKind) : Nat := p.sizes.getD k.code 0
def Placing.here (p : Placing) : Nat := p.size p.cur

/-- A piece of n bytes at the end of a section. -/
def Placing.add (p : Placing) (k : SecKind) (loc : Loc) (n : Nat) (w : What) : Placing :=
  { p with pieces := ⟨k, p.size k, loc, w⟩ :: p.pieces, sizes := p.sizes.set k.code (p.size k + n) }

/-- An alignment that a section needs: the largest counts, and at least 4 (R158). -/
def Placing.need (p : Placing) (k : SecKind) (log : Nat) : Placing :=
  { p with aligns := p.aligns.set k.code (max log (p.aligns.getD k.code 2)) }

/-- A symbol is defined once (R159). -/
def Placing.define (p : Placing) (loc : Loc) (w : Text) : Tool Placing :=
  if !isIdent w then .error (loc, .identifier)
  else if p.order.contains w then .error (loc, .symbol) else .ok { p with order := p.order ++ [w] }

/-- A label, a kernel's or a layout record's name at a place. -/
def Placing.label (p : Placing) (loc : Loc) (w : Text) (ty : SymType) (k : SecKind) (off : Nat) : Tool Placing := do
  let p ← p.define loc w
  pure { p with names := { p.names with labels := p.names.labels ++ [(w, ty, k, off)] } }

/-- An error that a later placing may not meet: the first one is noted, and counts once the names are settled (R153, R159). -/
def Placing.note (p : Placing) (loc : Loc) (e : ToolError) : Placing := { p with bad := p.bad <|> some (loc, e) }

/-- A size under the names of the placing before; a size that they do not give is taken as 0 and noted. -/
def Placing.sized (p : Placing) (t : Names) (loc : Loc) (lo hi : Int) (ts : List Tok) : Nat × Placing :=
  match absTok t ts >>= within lo hi with
  | .ok v => (v.toNat, p)
  | .error e => (0, p.note loc e)

/-- Padding to a multiple of n: words of ctl.nop in .text, with zero bytes before them up to a multiple of 4; zero bytes
elsewhere (R158). -/
def Placing.pad (p : Placing) (loc : Loc) (n : Nat) : Placing :=
  let k := p.cur
  let gap := upTo n p.here - p.here
  if k = .text then
    let z := upTo 4 p.here - p.here
    let z := min z gap
    (p.add k loc z (.fill z 0)).add k loc (gap - z) (.nops ((gap - z) / 4))
  else p.add k loc gap (.fill gap 0)

/-- Size, range and ~ of the integer data directives (R157). -/
def dataDir (w : String) : Option (Nat × Int × Int) := match w with
  | ".byte" => some (1, -128, 255)
  | ".half" => some (2, -32768, 65535)
  | ".word" => some (4, -2 ^ 31, 2 ^ 32 - 1)
  | ".dword" => some (8, -2 ^ 63, 2 ^ 63 - 1)
  | _ => none

/-- The formats of the floating data directives (R157). -/
def floatDir (w : String) : Option Fmt := match w with
  | ".f16" => some .f16
  | ".bf16" => some .bf16
  | ".f32" => some .f32
  | ".f64" => some .f64
  | _ => none

/-- Bits and absent code of a format by its name (R43); none where it has no absent code. -/
def absentOf (w : String) : Option (Nat × Nat) :=
  if w = "e8m0" then some (8, 0xFF) else
  let of (f : Fmt) : Option (Nat × Nat) := f.absent.map fun a => (f.bits, a)
  match w with
  | "f64" => of .f64 | "f32" => of .f32 | "f16" => of .f16 | "bf16" => of .bf16 | "e5m2" => of .e5m2 | "e4m3" => of .e4m3
  | "e2m1" => of .e2m1 | "i64" => of .i64 | "i32" => of .i32 | "i16" => of .i16 | "i8" => of .i8 | "i4" => of .i4
  | "n64" => of .n64 | "n32" => of .n32 | "n16" => of .n16 | "q8" => of .q8 | "q4" => of .q4
  | _ => none

/-- The section that a directive makes current (R155). -/
def sectionOf (w : String) : Option SecKind := match w with
  | ".text" => some .text
  | ".rodata" => some .rodata
  | ".data" => some .data
  | ".bss" => some .bss
  | _ => none

/-- One statement without its labels, placed under the names of the placing before. -/
def Placing.stmt (p : Placing) (t : Names) (s : Stmt) : Tool Placing :=
  let err (e : ToolError) : Tool Placing := .error (s.loc, e)
  let ops := operands s.toks
  let name? : Option Text := match ops with
    | [.word w] :: _ => some w
    | _ => none
  let h := String.ofList s.head
  match sectionOf h, dataDir h, floatDir h with
  | some k, _, _ => if ops.isEmpty then .ok { p with cur := k } else err .statement
  | none, some (size, lo, hi), _ =>
    if !p.cur.inFile || (p.cur = .text && size < 4) then err .misplaced
    else if ops.isEmpty then err .statement
    else .ok (ops.foldl (fun q ts => q.add q.cur s.loc size (.item size lo hi ts)) p)
  | none, none, some f =>
    if !p.cur.inFile || p.cur = .text then err .misplaced
    else if ops.isEmpty then err .statement
    else .ok (ops.foldl (fun q ts => q.add q.cur s.loc (f.bits / 8) (.float f ts)) p)
  | none, none, none =>
  match h with
  | "" => .ok p
  | ".section" => match ops with
    | [[.word w]] => match sectionOf (String.ofList w) with
      | some k => .ok { p with cur := k }
      | none => if w = ".stash".toList then .ok { p with cur := .stash } else err .misplaced
    | _ => err .statement
  | ".absent" => match ops with
    | [[.word f], n] => match absentOf (String.ofList f) with
      | some (bits, code) =>
        if !p.cur.inFile || p.cur = .text then err .misplaced else
        let (n, q) := p.sized t s.loc 1 (2 ^ 24) n
        if bits = 4 then
          .ok ((if n % 2 ≠ 0 then q.note s.loc .range else q).add q.cur s.loc (n / 2) (.codes (n / 2) 1 (code * 17)))
        else .ok (q.add q.cur s.loc (n * (bits / 8)) (.codes n (bits / 8) code))
      | none => err .statement
    | _ => err .statement
  | ".space" => match ops with
    | [n] =>
      let (n, q) := p.sized t s.loc 0 (2 ^ 32) n
      .ok (q.add q.cur s.loc n (.fill n 0))
    | [n, b] =>
      if !p.cur.inFile then err .misplaced else
      let (n, q) := p.sized t s.loc 0 (2 ^ 32) n
      let (b, q) := q.sized t s.loc 0 255 b
      .ok (q.add q.cur s.loc n (.fill n b))
    | _ => err .statement
  | ".align" => match ops with
    | [n] =>
      let (n, q) := p.sized t s.loc 1 65536 n
      if n = 0 then .ok q
      else if n ≠ 2 ^ Nat.log2 n || (p.cur = .text && n < 4) then .ok (q.note s.loc .range)
      else .ok ((q.pad s.loc n).need q.cur (Nat.log2 n))
    | _ => err .statement
  | ".equ" => match ops with
    | [[.word w], e] => match parseExpr e with
      | some e => do
        let q ← p.define s.loc w
        pure { q with names := { q.names with equs := q.names.equs ++ [(w, e)] } }
      | none => err .statement
    | _ => err .statement
  | ".global" | ".local" | ".extern" => match ops with
    | [[.word w]] =>
      let b : Bind := if h = ".global" then .global else if h = ".local" then .local else .extern
      if !isIdent w then err .identifier
      else if (p.binds.lookup w).any (· != b) then err .symbol
      else .ok { p with binds := p.binds ++ (if (p.binds.lookup w).isSome then [] else [(w, b)]) }
    | _ => err .statement
  | ".kernel" => match ops with
    | [[.word w]] =>
      if p.inKernel || p.cur ≠ .text then err .misplaced else do
      let gap := upTo 4 p.here - p.here
      let p := p.add .text s.loc gap (.fill gap 0)
      let d := p.size .kinfo
      let q ← p.label s.loc w .kernel .kinfo d
      let q := (q.add .kinfo s.loc 64 (.desc q.kernels.length)).need .kinfo 6
      pure { q with kernels := q.kernels ++ [⟨w, q.size .text, d, []⟩], inKernel := true }
    | _ => err .statement
  | ".endk" => if p.inKernel && ops.isEmpty then .ok { p with inKernel := false } else err .misplaced
  | ".width" | ".wall" | ".regcap" | ".stash" | ".ztiles" | ".stack" =>
    if !p.inKernel then err .misplaced else
    match p.kernels.reverse with
    | k :: ks =>
      if k.dirs.any fun d => d.1 = s.head then err .statement
      else .ok { p with kernels := (⟨k.name, k.entry, k.desc, k.dirs ++ [(s.head, s.loc, ops)]⟩ :: ks).reverse }
    | [] => err .misplaced
  | ".layout" => match name? with
    | some w => do
      let q ← p.label s.loc w .layout .layout (p.size .layout)
      pure ((q.add .layout s.loc 64 (.layout (ops.drop 1))).need .layout 6)
    | none => err .statement
  | _ =>
    if s.head.head? = some '.' then err .statement
    else if p.cur ≠ .text then err .misplaced
    else .ok ((if p.here % 4 ≠ 0 then p.note s.loc .misplaced else p).add .text s.loc 4 (.insn s.head s.toks (if p.inKernel then some (p.kernels.length - 1) else none)))

/-- A statement with its labels, which stand at the current location (R150). -/
def Placing.next (p : Placing) (t : Names) (s : Stmt) : Tool Placing := do
  let p ← s.labels.foldlM (fun p w => p.label s.loc w .label p.cur p.here) p
  p.stmt t s

/-- The placing of all statements under the names of a placing before. -/
def place (t : Names) (ss : List Stmt) : Tool Placing := do
  let p ← ss.foldlM (fun (p : Placing) s => p.next t s) ({} : Placing)
  let last : Loc := (ss.getLast?.map fun s => s.loc).getD ⟨0, 1, 1⟩
  if p.inKernel then .error (last, .misplaced) else
  pure { p with names := { p.names with externs := (p.binds.filter fun b => b.2 = .extern).map fun b => b.1 } }

/-- Placing again until the names no longer change, so that a size may use a name that is defined later (R153, R159). -/
def settle : Nat → Names → List Stmt → Tool Placing
  | 0, t, ss => do
    let p ← place t ss
    if p.names = t && p.bad.isNone then pure p else .error (p.bad.getD (⟨0, 1, 1⟩, .symbol))
  | n + 1, t, ss => do
    let p ← place t ss
    if p.names = t then
      match p.bad with
      | none => pure p
      | some e => .error e
    else settle n p.names ss

/-! The object. -/

/-- A relocation that still names its symbol. -/
abbrev Pending1 := RelType × SecKind × Nat × Text × Int

/-- The operand of a kernel directive, or its default (R162). -/
def KernelDef.value (k : KernelDef) (t : Names) (dir : String) (i count : Nat) (dflt : Nat) (ok : Int → Bool) : Tool Nat :=
  match k.dirs.find? fun d => d.1 = dir.toList with
  | none => .ok dflt
  | some (_, loc, ops) =>
    if ops.length ≠ count then .error (loc, .statement) else
    match absTok t (ops.getD i []) with
    | .ok v => if ok v then .ok v.toNat else .error (loc, .range)
    | .error e => .error (loc, e)

/-- Stash bytes of each split code (R32). -/
def splitBytes : List Nat := [0, 65536, 131072, 196608, 262144, 327680]

def KernelDef.width (k : KernelDef) (t : Names) : Tool Nat := k.value t ".width" 0 1 32 fun v => v = 16 || v = 32 || v = 64
def KernelDef.cap (k : KernelDef) (t : Names) : Tool Nat := k.value t ".regcap" 0 1 32 fun v => 8 ≤ v && v ≤ 256 && v % 8 = 0

/-- The descriptor's bytes, with ENTRY zero until the link (R163). -/
def KernelDef.bytes (k : KernelDef) (t : Names) : Tool (List Byte) := do
  let width ← k.width t
  let wall ← k.value t ".wall" 0 1 1 fun v => 1 ≤ v && v ≤ 64
  let cap ← k.cap t
  let split ← k.value t ".stash" 1 2 0 fun v => 0 ≤ v && v ≤ 5
  let stash ← k.value t ".stash" 0 2 0 fun v => 0 ≤ v && v ≤ splitBytes.getD split 0
  let z ← k.value t ".ztiles" 0 1 0 fun v => 0 ≤ v && v ≤ 8
  let stack ← k.value t ".stack" 0 1 0 fun v => 0 ≤ v && v ≤ 65535
  pure (le 64 (stash * 2 ^ 64 + stack * 2 ^ 96 + cap * 2 ^ 112 + width * 2 ^ 121 + wall * 2 ^ 128 + z * 2 ^ 135 + split * 2 ^ 139))

/-- The element formats by code (R165). -/
def elemNames : List String :=
  ["f32", "f16", "bf16", "e5m2", "e4m3", "e2m1", "i8", "i4", "q8", "q4", "i32", "n32", "i16", "n16", "f64", "b8", "b16", "b32",
   "b64"]

/-- Whether a group size fits a format (R164). -/
def groupFits (elem : Nat) (g : Int) : Bool :=
  if elem = 4 || elem = 5 then g = 32 else if elem = 8 || elem = 9 then g = 32 || g = 64 || g = 128 else g = 0

/-- A layout record's bytes and relocations at an offset of .layout (R164). -/
def layoutBytes (t : Names) (off : Nat) (ops : List (List Tok)) : Except ToolError (List Byte × List Pending1) :=
  match ops with
  | [.word f] :: rows :: cols :: stride :: base :: more =>
    match nth elemNames (String.ofList f) with
    | none => .error .statement
    | some elem =>
      if 3 < more.length then .error .statement else do
      let dim (ts : List Tok) : Except ToolError Nat := do
        let v ← within 1 (2 ^ 32 - 1) (← absTok t ts)
        pure v.toNat
      let r ← dim rows
      let c ← dim cols
      let st ← dim stride
      let g ← match more with
        | g :: _ => absTok t g
        | [] => pure 0
      if !groupFits elem g then .error .range else
      let address (field : Nat) (ts : Option (List Tok)) : Except ToolError (Nat × List Pending1) :=
        match ts with
        | none => .ok (0, [])
        | some ts => match parseExpr ts with
          | none => .error .statement
          | some e => do
            let v ← t.eval e
            match v.base with
            | none => pure ((v.n % 2 ^ 64).toNat, [])
            | some w => pure (0, [(.abs64, .layout, off + field, w, v.n)])
      let (b, rb) ← address 0 (some base)
      let (sc, rs) ← address 8 more[1]?
      let (z, rz) ← address 16 more[2]?
      let gc : Nat := if g = 32 then 1 else if g = 64 then 2 else if g = 128 then 3 else 0
      pure (le 8 b ++ le 8 sc ++ le 8 z ++ le 4 r ++ le 4 c ++ le 4 st ++ le 1 (elem + gc * 32) ++ le 27 0,
        rb ++ rs ++ rz)
  | _ => .error .statement

/-- The operands of a ctl.win, which set the windows for the words after it (R119, R128). -/
def windowsOf (t : Names) (a : Around) (mnem : Text) (ts : List Tok) : Around :=
  if mnem = "ctl.win".toList then
    match operands ts with
    | [v, s] => match absTok t v, absTok t s with
      | .ok v, .ok s => { a with wv := v.toNat, ws := s.toNat }
      | _, _ => a
    | _ => a
  else a

/-- The bytes of a piece and its relocations; the windows go from piece to piece. -/
def Piece1.bytes (t : Names) (ks : List KernelDef) (a : Around) (p : Piece1) : Tool (Around × List Byte × List Pending1) :=
  let fail {α : Type} (e : Except ToolError α) : Tool α := e.mapError fun e => (p.loc, e)
  let plain (bs : List Byte) : Tool (Around × List Byte × List Pending1) := .ok (a, bs, [])
  match p.what with
  | .fill n b => plain (List.replicate n (BitVec.ofNat 8 b))
  | .nops n => plain (List.replicate n (le 4 0x20600000)).flatten
  | .codes n size code => plain (List.replicate n (le size code)).flatten
  | .float f ts => do
    let c ← fail (floatItem f ts)
    plain (le (f.bits / 8) c)
  | .item size lo hi ts =>
    if ts = [.op ['~']] then plain (le size (2 ^ (8 * size - 1))) else do
    let v ← fail (match parseExpr ts with
      | some e => t.eval e
      | none => .error .statement)
    match v.base with
    | none => do
      let n ← fail (within lo hi v.n)
      plain (leInt size n)
    | some w =>
      let stash := (t.place w).any fun q => q.1 = .stash
      if size < 4 then .error (p.loc, .relocatable) else
      -- The section of an extern symbol is not known, so its word is ABS32 (log 79).
      let ty : RelType := if size = 8 then .abs64 else if stash then .stash32 else .abs32
      pure (a, le size 0, [(ty, p.kind, p.off, w, v.n)])
  | .insn m ts k => do
    let inside ← match k.bind fun i => ks[i]? with
      | none => pure none
      | some k => do
        let w ← k.width t
        let c ← k.cap t
        pure (some (w, c))
    let (w, rs) ← fail (assembleWord t { a with kernel := inside } p.off m ts)
    pure (windowsOf t a m ts, le 4 w, rs.map fun r => (r.1, .text, p.off, r.2.1, r.2.2))
  | .desc i => match ks[i]? with
    | none => .error (p.loc, .misplaced)
    | some k => do
      let bs ← k.bytes t
      plain bs
  | .layout ops => do
    let (bs, rs) ← fail (layoutBytes t p.off ops)
    pure (a, bs, rs)

/-- The bytes of the pieces of one section, and the relocations. -/
def sectionBytes (t : Names) (ks : List KernelDef) : Around → List Piece1 → Tool (List Byte × List Pending1)
  | _, [] => .ok ([], [])
  | a, p :: ps => do
    let (a, bs, rs) ← p.bytes t ks a
    let (bs', rs') ← sectionBytes t ks a ps
    pure (bs ++ bs', rs ++ rs')

/-- The symbol through which ENTRY is relocated: a label of .text at the entry, or one that smas makes (R163). -/
def KernelDef.entrySym (k : KernelDef) (t : Names) : Text :=
  match t.labels.find? fun l => l.2.2 = (SecKind.text, k.entry) with
  | some l => l.1
  | none => k.name ++ ".entry".toList

/-- The symbols of the object (R159, R168): those that the source defines, in order, then the externs, then the entry labels
that smas makes. R159 does not say what a .equ whose value rests on an extern symbol gives: the model gives it no entry, and
refuses to export it (log 75). -/
def Placing.syms (p : Placing) : Tool (List Sym) := do
  let none1 : Loc := ⟨0, 1, 1⟩
  let bind (w : Text) : Bind := (p.binds.lookup w).getD .local
  if p.binds.any fun b => (b.2 ≠ .extern && !p.order.contains b.1) || (b.2 = .extern && p.order.contains b.1)
  then .error (none1, .symbol) else
  let own ← p.order.mapM fun w => match p.names.labels.lookup w with
    | some (ty, k, off) =>
      pure [({ name := w, sect := .sec k, bind := bind w, type := ty, value := off, size := if ty = .label then 0 else 64 } : Sym)]
    | none => match p.names.value (p.names.equs.length + 1) w with
      | .error e => .error (none1, e)
      | .ok v => match v.base with
        | none => pure [({ name := w, sect := .absolute, bind := bind w, type := .constant, value := (v.n % 2 ^ 64).toNat } : Sym)]
        | some b => match p.names.place b with
          | some (k, off) =>
            pure [({ name := w, sect := .sec k, bind := bind w, type := .label, value := ((off + v.n) % 2 ^ 64).toNat } : Sym)]
          | none => if bind w = .local then pure [] else .error (none1, .symbol)
  let exts := p.names.externs.map fun w =>
    ({ name := w, sect := .undefined, bind := .extern, type := .label, value := 0 } : Sym)
  let made := (p.kernels.filter fun k => !(p.names.labels.any fun l => l.2.2 = (SecKind.text, k.entry))).map fun k =>
    ({ name := k.name ++ ".entry".toList, sect := .sec .text, bind := .local, type := .label, value := k.entry } : Sym)
  pure (own.flatten ++ exts ++ made)

/-- The object of a source that is placed. -/
def Placing.object (p : Placing) (files : List Text) : Tool Object := do
  let t := p.names
  let pieces := p.pieces.reverse
  let secs ← (SecKind.contents.filter fun k => 0 < p.size k).mapM fun k => do
    let (bs, rs) ← sectionBytes t p.kernels {} (if k.inFile then pieces.filter fun q => q.kind = k else [])
    pure (({ kind := k, align := p.aligns.getD k.code 2, size := p.size k, bytes := bs } : Sec), rs)
  let entries : List Pending1 := p.kernels.map fun k => (.abs64, .kinfo, k.desc, k.entrySym t, 0)
  let syms ← p.syms
  let rels ← (secs.flatMap (fun s => s.2) ++ entries).mapM fun r =>
    match syms.findIdx? fun s => s.name = r.2.2.2.1 with
    | some i => .ok (⟨r.1, r.2.1, r.2.2.1, i, r.2.2.2.2⟩ : Rel)
    | none => .error (⟨0, 1, 1⟩, .symbol)
  let lines := pieces.flatMap fun q => match q.what with
    | .insn .. => [(⟨q.off, q.loc.line, q.loc.file, q.loc.col⟩ : LineEnt)]
    | .nops n => (List.range n).map fun i => ⟨q.off + 4 * i, q.loc.line, q.loc.file, q.loc.col⟩
    | _ => []
  pure ⟨false, secs.map fun s => s.1, syms, rels, files, lines⟩

/-- The statements of a source file and of the files that it includes, and the paths (R150, R160, R161). A path
that names no file is an empty source (log 79). -/
def readSource (fs : Text → Option Text) (dirs : List Text) (path : Text) : Tool (List Text × List Stmt) := do
  let r ← readLines1 fs dirs (2 ^ 40) none 0 0 1 path (linesGo [] ((fs path).getD [])) { files := [path] }
  if r.open'.isSome then .error (⟨0, 1, 1⟩, .expansion) else pure (r.files, r.out.reverse)

/-- smas: the object of a source file. `fs` gives the text of each file, `dirs` the directories given with -I. -/
def smas (fs : Text → Option Text) (dirs : List Text) (path : Text) : Tool Object := do
  let (files, ss) ← readSource fs dirs path
  let p ← settle (ss.length + 2) {} ss
  p.object files

end Sys2Proof.Tools
end

