-- ==== Sys2Proof/Machine/Smld.lean ====
section
/-!
DEFINITION. The linker smld (R170, R172): the placing of sections, the resolution of symbols, the relocations, and the image
that it writes.
-/

namespace Sys2Proof.Tools

/-- The base address where none is given (R172). -/
def defaultBase : Nat := 0x0000004000000000

/-- The pieces of one kind in the order of the objects, each at its alignment (R172): their offsets by object, the size, the
largest alignment and the bytes. -/
def joinKind (k : SecKind) : Nat → List Object → List (Option Nat) × Nat × Nat × List Byte → List (Option Nat) × Nat × Nat × List Byte
  | _, [], acc => acc
  | i, o :: os, (offs, size, align, bs) =>
    match o.sec? k with
    | none => joinKind k (i + 1) os (offs ++ [none], size, align, bs)
    | some s =>
      let off := upTo (2 ^ s.align) size
      joinKind k (i + 1) os (offs ++ [some off], off + s.size, max align s.align,
        if k.inFile then bs ++ List.replicate (off - size) 0 ++ s.bytes else [])

/-- The kinds with their pieces, before addresses are given. -/
def joined (os : List Object) : List (SecKind × List (Option Nat) × Sec) :=
  (SecKind.contents.map fun k =>
    let r := joinKind k 0 os ([], 0, 2, [])
    (k, r.1, ({ kind := k, align := r.2.2.1, size := r.2.1, bytes := r.2.2.2 } : Sec))).filter fun p => 0 < p.2.2.size

/-- The addresses of the loaded kinds: the first at the base, each later one on the next 64 KiB boundary; .stash has none
(R172). None where a section would pass 2^56. -/
def giveAddrs (next : Nat) : List (SecKind × List (Option Nat) × Sec) → Option (List (SecKind × List (Option Nat) × Sec))
  | [] => some []
  | (k, offs, s) :: rest =>
    if SecKind.loaded.contains k then
      if 2 ^ 56 < next + s.size then none else
      (giveAddrs (upTo 65536 (next + s.size)) rest).map fun r => (k, offs, { s with addr := next }) :: r
    else (giveAddrs next rest).map fun r => (k, offs, s) :: r

/-- What a link knows: the objects and the placed kinds. -/
structure Plan where
  objs : List Object
  kinds : List (SecKind × List (Option Nat) × Sec)
  deriving DecidableEq, Repr

/-- Where the piece of an object in a kind begins: its offset in the merged section, and the section's address. -/
def Plan.start (p : Plan) (i : Nat) (k : SecKind) : Option (Nat × Nat) :=
  match p.kinds.find? fun q => q.1 = k with
  | some (_, offs, s) => match offs.getD i none with
    | some off => some (off, s.addr)
    | none => none
  | none => none

/-- A number as the 64-bit value of a symbol. -/
def signed64 (v : Nat) : Int := toSigned 8 (v % 2 ^ 64)

/-- The final value of a symbol that an object defines, and its section (R170). One whose section is empty in its object, so that
the link places nothing, has none, which R172 leaves open (log 79). -/
def Plan.own (p : Plan) (i : Nat) (s : Sym) : Option (Int × SymSect) := match s.sect with
  | .absolute => some (signed64 s.value, .absolute)
  | .undefined => none
  | .sec k => (p.start i k).map fun q => (signed64 (q.2 + q.1 + s.value), .sec k)

/-- The objects' indexes and their global definitions of a name (R172). -/
def Plan.globals (p : Plan) (w : Text) : List (Nat × Sym) :=
  p.objs.zipIdx.flatMap fun q => (q.1.syms.filter fun s => s.bind = .global && s.name = w).map fun s => (q.2, s)

/-- The final value of a symbol of an object; an undefined one has that of the one global definition of its name (R172). -/
def Plan.value (p : Plan) (i : Nat) (s : Sym) : Option (Int × SymSect) :=
  if s.sect = .undefined then
    match p.globals s.name with
    | [(j, d)] => p.own j d
    | _ => none
  else p.own i s

/-- Bits of a little-endian item replaced, the rest left unchanged (R170). -/
def patch (bs : List Byte) (pos n w : Nat) (v : Int) : List Byte :=
  let old := unLe ((bs.drop pos).take n)
  let new := old / 2 ^ w * 2 ^ w + (v % 2 ^ w).toNat
  bs.take pos ++ le n new ++ bs.drop (pos + n)

/-- One relocation on the bytes of the merged section: S, its section, P and the position (R170). -/
def Rel.run (r : Rel) (s : Int) (sect : SymSect) (addr : Int) (pos : Nat) (bs : List Byte) : Except ToolError (List Byte) :=
  let v := s + r.addend
  let near (w : Nat) : Except ToolError (List Byte) :=
    if (v - addr) % 4 ≠ 0 then .error .range else
    (within (-2 ^ (w - 1)) (2 ^ (w - 1) - 1) ((v - addr) / 4)).map fun n => patch bs pos 4 w n
  match r.type with
  | .abs64 => .ok (patch bs pos 8 64 v)
  | .abs32 => (within 0 (2 ^ 32 - 1) v).map fun n => patch bs pos 4 32 n
  | .j18 => near 18
  | .l17 => near 17
  | .pc19 => near 19
  | .stash32 => if sect = .sec .stash then (within 0 (2 ^ 32 - 1) v).map fun n => patch bs pos 4 32 n else .error .range
  | .imm10 =>
    if sect = .sec .stash || sect = .absolute then (within (-512) 511 v).map fun n => patch bs pos 4 10 n else .error .range

/-- The bytes of a kind with a relocation of object i applied. -/
def Plan.relocate (p : Plan) (i : Nat) (r : Rel) : Except ToolError Plan :=
  match (p.objs.getD i ⟨false, [], [], [], [], []⟩).syms[r.sym]?.bind (p.value i), p.start i r.sect with
  | some (s, sect), some (off, addr) => do
    let kinds ← p.kinds.mapM fun q =>
      if q.1 = r.sect then (r.run s sect (addr + off + r.off) (off + r.off) q.2.2.bytes).map fun bs => (q.1, q.2.1, { q.2.2 with bytes := bs })
      else .ok q
    pure { p with kinds := kinds }
  | _, _ => .error .link

/-- The symbols of the image: those that the objects define, with their locations in the merged sections (R172). -/
def Plan.syms (p : Plan) : List Sym :=
  p.objs.zipIdx.flatMap fun q => q.1.syms.filterMap fun s => match s.sect with
    | .undefined => none
    | .absolute => some s
    | .sec k => (p.start q.2 k).map fun st => { s with value := st.1 + s.value }

/-- The line table of the image, in ascending order of the merged .text (R171, R172); a path that two objects name stands in its
list twice (log 79). -/
def Plan.lines (p : Plan) : List Text × List LineEnt :=
  p.objs.zipIdx.foldl (fun acc q =>
    let base := ((p.start q.2 .text).map fun st => st.1).getD 0
    (acc.1 ++ q.1.files, acc.2 ++ q.1.lines.map fun l => ⟨l.off + base, l.line, l.file + acc.1.length, l.col⟩)) ([], [])

/-- smld: the image of relocatable objects, at a base address (R172). -/
def smld (os : List Object) (base : Nat := defaultBase) : Except ToolError Object :=
  if os.any fun o => o.image then .error .link else
  match giveAddrs base (joined os) with
  | none => .error .link
  | some kinds => do
    let p : Plan := ⟨os, kinds⟩
    let names := os.flatMap fun o => (o.syms.filter fun s => s.bind = .global).map fun s => s.name
    if names.any fun w => (p.globals w).length ≠ 1 then .error .link else
    if os.any fun o => o.syms.any fun s => s.sect = .undefined && (p.globals s.name).isEmpty then .error .link else
    let q ← (os.zipIdx.flatMap fun o => o.1.rels.map fun r => (o.2, r)).foldlM (fun q r => q.relocate r.1 r.2) p
    let (files, lines) := p.lines
    pure ⟨true, q.kinds.map fun k => k.2.2, p.syms, [], files, lines⟩

/-- What the loader maps of an image: each loaded section's address, bytes (zero for .bss) and permissions (R167, R172). -/
def Object.loads (o : Object) : List (Nat × List Byte × Bool × Bool) :=
  (o.secs.filter fun s => SecKind.loaded.contains s.kind).map fun s =>
    (s.addr, s.bytes ++ List.replicate (s.size - s.bytes.length) 0, s.kind.writable, s.kind.executable)

end Sys2Proof.Tools
end

