-- ==== Sys2Proof/Tests/Slice0.lean ====
section
/-!
SUPPORT. The package's own tests: ill-formed instructions, words written out from the encodings, a state for each hypothesis of
each statement (`wit_<statement>`), and single steps with results worked out by hand.
-/

set_option Elab.async false

namespace Sys2Proof.Tests

open Sys2Proof.Machine Sys2Proof.Claims

/-- Bytes of the under-stack at the start of every test: page tables at 0x20000 that map the addresses from 0x4000_0000 to the
physical addresses from 0, one leaf of 1 GiB with W, X and no format (R351, R352). -/
def tables : Tab Byte :=
  [(0x20000, 0x01), (0x20001, 0x10), (0x20002, 0x02), (0x21000, 0x01), (0x21001, 0x20), (0x21002, 0x02), (0x22008, 0x8F),
   (0x22009, 0x0F)]

/-- Two lanes of a course of width 64, at 0x4001_0000. -/
def frag0 : Frag := { pc := 0x40010000, lanes := 3, reserved := true, s2 := 16 }
def wall0 : Wall := { placedWall with width := 64 }
def course0 : Course :=
  { core := 0, slot := 0, gen := 0, age := 0, ctx := 0, grid := 0, index := 0, width := 64, cap := 256, entry := 0x40010000,
    stack := 16, tvec := 0x40000100, frags := [(0, frag0)] }
def tlb0 : Tlb := { ctx := 0, va := 0x40000000, size := 2 ^ 30, loc := 0, w := true, x := true, efmt := 31 }

/-- The device with a course and its wall alone on core 0, whose fragment 0 issues. -/
def at' (c : Course) (w : Wall) : State :=
  { State.reset with
    ready := true, issuing := some ⟨0, 0⟩, ctxs := [(0, { placedCtx with root := 0x20000 })], walls := [(0, w)],
    courses := [(0, c)], cores := [(0, { split := 1, tlb := [tlb0] })], mem := tables }

def env' (c : Course) (w : Wall) : Env := ⟨⟨0, 0⟩, c.frags.getD 0 frag0, c, w⟩

/-- Further bytes in memory, at a physical address of the test's page. -/
def State.with' (s : State) (pa : Nat) (bs : List Byte) : State := { s with mem := retireMem s.mem (cellsAt pa bs) }

def meets (s : State) (i : Instr) (e : Env) : Bool :=
  s.issuer? == some e && i.issueLegal e.c.width && (capBad i e).isNone && (tileBad i e.w).isNone

theorem issues_of_meets {s : State} {i : Instr} {e : Env} (h : meets s i e = true) : Issues s i e := by
  simp only [meets, Bool.and_eq_true, beq_iff_eq, Option.isNone_iff_eq_none] at h
  exact ⟨h.1.1.1, h.1.1.2, h.1.2, h.2⟩

def s0 : State := at' course0 wall0
def e0 : Env := env' course0 wall0

theorem ok_of {ε α : Type} {x : Except ε α} {v : α} (h : x.toOption = some v) : x = .ok v := by
  cases x with
  | ok y => cases h; rfl
  | error y => cases h
theorem error_of {ε α : Type} {x : Except ε α} {v : ε} (h : (match x with | .error y => some y | .ok _ => none) = some v) :
    x = .error v := by
  cases x with
  | ok y => cases h
  | error y => cases h; rfl

/-! Well-formedness. -/

/-- One term for each check of R117 and R124 that fails it alone: kinds v, vp, v4, vA, s, sp, sOr0, q and z; then the field
checks, in the order of Instr.fieldsLegal; then a step that is no instruction word. -/
def illFormed : List Instr :=
  [.viMov 0x44 4, .vdAdd 5 4 4, .ldG .b128 2 0x44 0, .tlMma false false 0 1 0x44 0x44, .siMov 4 0x44, .tlDrain 1 0x45,
   .synSigadd .dev 3 0x44 0x44, .vxQnot 16 0, .tlZero 8,
   .sysCsrr 0x44 0x08, .sysCsrw 0x44 0x20, .ctlWin 41 0, .ctlWin 0 25, .siiShli 0x44 0x44 64, .siiShri 0x44 0x44 64,
   .viiShli 4 4 32, .viiShri 4 4 32, .viMulh .i16 4 4 4, .viDiv .i16 4 4 4, .viRem .i16 4 4 4, .viCmp .eq .i16 4 4 4,
   .viAbs .n32 4 4, .viNeg .b32 4 4, .vxCvt .rn 4 4 false .i32 .i32, .vxCvt .rn 4 4 true .i32 .f32, .vxQset 1 3, .vxQpack 4 1,
   .vxQunpack 1 4, .vcTopk 0 4 4 .f64 .seg4, .ldxG .b128 4 0x44 4, .ldxS .b128 4 0x44 4, .stxG .b128 4 0x44 4, .stxS .b128 4 0x44 4,
   .synBar 1 false 0, .synArrive 0x44 true 1, .synBwait 1 false 0, .synFence .wal .tot, .tlMma false true 0 1 0 0x44,
   .lkEsc 1 0x44 .line .s, .lkEsc 1 0x44 .tile .is, .firmwareBringUp]
theorem test_ill_formed : ∀ i ∈ illFormed, ¬ i.WellFormed := by decide
/-- The checks that need the course: the width, the matrix group, the register cap and the tiles. -/
theorem test_ill_at_issue : (Instr.vcRedAdd 4 8 .i32 .seg64).issueLegal 32 = false ∧ (Instr.vcTopk 7 4 8 .i32 .seg4).issueLegal 64 = false ∧
    (Instr.tlMma false false 0 1 4 0x44).issueLegal 64 = false ∧ (Instr.tlMma false false 1 1 32 0x44).issueLegal 16 = false ∧
    capBad (.viMov 4 8) (env' { course0 with cap := 8 } wall0) = some 8 ∧ tileBad (.tlZero 7) { wall0 with ztiles := 7 } = some 7 := by
  decide

/-! Words written out from the encodings of spec/opcode_table.json, with the instruction that each stands for; in the state of
the witnesses each of them passes the first checks, so that `Issues` is met for every instruction. -/

def words_sys : List (Nat × Instr) :=
  [(0x0800004D, .sysBrk 77),
   (0x0820004D, .sysTrap 77),
   (0x08400000, .sysRft),
   (0x0A010000, .sysCsrr 4 0),
   (0x0A202412, .sysCsrw 72 18),
   (0x0A512400, .sysFrinfo 68 72),
   (0x0A712400, .sysRepair 68 72)]
theorem test_words_sys : ∀ p ∈ words_sys, decodeTableWord 32 p.1 = some p.2 ∧ meets s0 p.2 e0 = true := by decide

def words_br : List (Nat × Instr) :=
  [(0x1097FFFE, .brT .w 5 262142),
   (0x1197FFFE, .brF .w 5 262142),
   (0x1217FFFE, .brK 5 262142),
   (0x1397FFFE, .brAny .w 5 262142),
   (0x1497FFFE, .brAll .w 5 262142),
   (0x1597FFFE, .brNone .w 5 262142)]
theorem test_words_br : ∀ p ∈ words_br, decodeTableWord 32 p.1 = some p.2 ∧ meets s0 p.2 e0 = true := by decide

def words_jmp : List (Nat × Instr) :=
  [(0x1801FFFE, .jmpJ 131070),
   (0x1909FFFE, .jmpCall 4 131070),
   (0x1A01FFFE, .jmpJoinat 131070),
   (0x1B000000, .jmpJoin),
   (0x1F000400, .jmpJx 8),
   (0x1F210400, .jmpCalx 4 8),
   (0x1F400400, .jmpRet 8)]
theorem test_words_jmp : ∀ p ∈ words_jmp, decodeTableWord 32 p.1 = some p.2 ∧ meets s0 p.2 e0 = true := by decide

def words_ctl : List (Nat × Instr) :=
  [(0x200000C2, .ctlWin 3 2),
   (0x20200000, .ctlYield),
   (0x20400000, .ctlExit),
   (0x20600000, .ctlNop),
   (0x20800000, .ctlPrio)]
theorem test_words_ctl : ∀ p ∈ words_ctl, decodeTableWord 32 p.1 = some p.2 ∧ meets s0 p.2 e0 = true := by decide

def words_si : List (Nat × Instr) :=
  [(0x2831244C, .siAdd .n64 68 72 76),
   (0x28B1244C, .siSub .n64 68 72 76),
   (0x2931244C, .siMul .n64 68 72 76),
   (0x29B1244C, .siMulh .n64 68 72 76),
   (0x2AB1244C, .siDiv .n64 68 72 76),
   (0x2B31244C, .siRem .n64 68 72 76),
   (0x2BB1244C, .siMin .n64 68 72 76),
   (0x2C31244C, .siMax .n64 68 72 76),
   (0x2CD12400, .siMov 68 72),
   (0x2E21244C, .siCmp .lt .n64 4 72 76),
   (0x2F11244C, .siAnd 68 72 76),
   (0x2F31244C, .siOr 68 72 76),
   (0x2F51244C, .siXor 68 72 76),
   (0x2F91244C, .siShl 68 72 76),
   (0x2FB1244C, .siShr 68 72 76),
   (0x2FD1244C, .siSra 68 72 76)]
theorem test_words_si : ∀ p ∈ words_si, decodeTableWord 32 p.1 = some p.2 ∧ meets s0 p.2 e0 = true := by decide

def words_sii : List (Nat × Instr) :=
  [(0x30892003, .siiAddi 68 72 3),
   (0x31892003, .siiAndi 68 72 3),
   (0x32892003, .siiOri 68 72 3),
   (0x33892003, .siiXori 68 72 3),
   (0x34892003, .siiShli 68 72 3),
   (0x35892003, .siiShri 68 72 3),
   (0x36092243, .siiCmpi .gt true 4 72 3),
   (0x37880003, .siiMovi 68 3)]
theorem test_words_sii : ∀ p ∈ words_sii, decodeTableWord 32 p.1 = some p.2 ∧ meets s0 p.2 e0 = true := by decide

def words_slu : List (Nat × Instr) :=
  [(0x3A200003, .sluHi 68 3),
   (0x3E200003, .sluPc 68 3)]
theorem test_words_slu : ∀ p ∈ words_slu, decodeTableWord 32 p.1 = some p.2 ∧ meets s0 p.2 e0 = true := by decide

def words_vi : List (Nat × Instr) :=
  [(0x4021040C, .viAdd .n32 4 8 12),
   (0x40A1040C, .viSub .n32 4 8 12),
   (0x4121040C, .viMul .n32 4 8 12),
   (0x41A1040C, .viMulh .n32 4 8 12),
   (0x4221040C, .viMad .n32 4 8 12),
   (0x42A1040C, .viDiv .n32 4 8 12),
   (0x4321040C, .viRem .n32 4 8 12),
   (0x43A1040C, .viMin .n32 4 8 12),
   (0x4421040C, .viMax .n32 4 8 12),
   (0x44810400, .viAbs .i32 4 8),
   (0x44810401, .viNeg .i32 4 8),
   (0x44C10402, .viClz 4 8),
   (0x44C10403, .viPopc 4 8),
   (0x44C10404, .viMov 4 8),
   (0x4621040C, .viCmp .lt .n32 4 8 12),
   (0x4701040C, .viAnd 4 8 12),
   (0x4721040C, .viOr 4 8 12),
   (0x4741040C, .viXor 4 8 12),
   (0x4781040C, .viShl 4 8 12),
   (0x47A1040C, .viShr 4 8 12),
   (0x47C1040C, .viSra 4 8 12)]
theorem test_words_vi : ∀ p ∈ words_vi, decodeTableWord 32 p.1 = some p.2 ∧ meets s0 p.2 e0 = true := by decide

def words_vii : List (Nat × Instr) :=
  [(0x48082003, .viiAddi 4 8 3),
   (0x49082003, .viiAndi 4 8 3),
   (0x4A082003, .viiOri 4 8 3),
   (0x4B082003, .viiXori 4 8 3),
   (0x4C082003, .viiShli 4 8 3),
   (0x4D082003, .viiShri 4 8 3),
   (0x4E082243, .viiCmpi .gt true 4 8 3),
   (0x4F080003, .viiMovi 4 3)]
theorem test_words_vii : ∀ p ∈ words_vii, decodeTableWord 32 p.1 = some p.2 ∧ meets s0 p.2 e0 = true := by decide

def words_vf : List (Nat × Instr) :=
  [(0x5021040C, .vfAdd .f16 4 8 12),
   (0x50A1040C, .vfSub .f16 4 8 12),
   (0x5121040C, .vfMul .f16 4 8 12),
   (0x51A1040C, .vfFma .f16 4 8 12),
   (0x5221040C, .vfDiv .f16 4 8 12),
   (0x52A1040C, .vfMin .f16 4 8 12),
   (0x5321040C, .vfMax .f16 4 8 12),
   (0x53A10400, .vfAbs .f16 4 8),
   (0x53A10401, .vfNeg .f16 4 8),
   (0x53A10402, .vfRcp .f16 4 8),
   (0x53A10403, .vfRsq .f16 4 8),
   (0x53A10404, .vfSqrt .f16 4 8),
   (0x53A10405, .vfExp2 .f16 4 8),
   (0x53A10406, .vfLog2 .f16 4 8),
   (0x53A10407, .vfFloor .f16 4 8),
   (0x53A10408, .vfMov .f16 4 8),
   (0x5501040C, .vfCmp .lt 4 8 12)]
theorem test_words_vf : ∀ p ∈ words_vf, decodeTableWord 32 p.1 = some p.2 ∧ meets s0 p.2 e0 = true := by decide

def words_vd : List (Nat × Instr) :=
  [(0x5801040C, .vdAdd 4 8 12),
   (0x5821040C, .vdSub 4 8 12),
   (0x5841040C, .vdMul 4 8 12),
   (0x5861040C, .vdFma 4 8 12),
   (0x5881040C, .vdDiv 4 8 12),
   (0x58A10400, .vdSqrt 4 8),
   (0x58C1040C, .vdMin 4 8 12),
   (0x58E1040C, .vdMax 4 8 12),
   (0x5941040C, .vdCmp .lt 4 8 12)]
theorem test_words_vd : ∀ p ∈ words_vd, decodeTableWord 32 p.1 = some p.2 ∧ meets s0 p.2 e0 = true := by decide

def words_vx : List (Nat × Instr) :=
  [(0x60410400, .vxIsabs .f32 4 8),
   (0x6141040C, .vxOra .f32 4 8 12),
   (0x6241040C, .vxMkabs .f32 4 8 12),
   (0x6341040C, .vxSel .f32 4 8 12),
   (0x64A10410, .vxCvt .rz 4 8 false .f32 .i32),
   (0x6501040C, .vxQand 4 8 12),
   (0x6521040C, .vxQor 4 8 12),
   (0x65410400, .vxQnot 4 8),
   (0x6561040C, .vxQxor 4 8 12),
   (0x65810400, .vxQmov 4 8),
   (0x65A10002, .vxQset 4 2),
   (0x65C10400, .vxQpack 4 8),
   (0x65E20400, .vxQunpack 8 8)]
theorem test_words_vx : ∀ p ∈ words_vx, decodeTableWord 32 p.1 = some p.2 ∧ meets s0 p.2 e0 = true := by decide

def words_vc : List (Nat × Instr) :=
  [(0x68010421, .vcRedAdd 4 8 .f32 .seg8),
   (0x68210421, .vcRedMin 4 8 .f32 .seg8),
   (0x68410421, .vcRedMax 4 8 .f32 .seg8),
   (0x69010421, .vcScanAdd 4 8 .f32 .seg8),
   (0x69210421, .vcScanMin 4 8 .f32 .seg8),
   (0x69410421, .vcScanMax 4 8 .f32 .seg8),
   (0x6A210421, .vcTopk 1 4 8 .f32 .seg8),
   (0x6B01044C, .vcRebal 4 8 76),
   (0x6C010400, .vcConflict 4 8),
   (0x6D01040C, .vcShflIdx 4 8 12),
   (0x6D21044C, .vcShflUp 4 8 76),
   (0x6D41044C, .vcShflDown 4 8 76),
   (0x6D61044C, .vcShflXor 4 8 76),
   (0x6E010400, .vcVoteAny 4 8),
   (0x6E210400, .vcVoteAll 4 8),
   (0x6E410400, .vcVoteNone 4 8),
   (0x6F01044C, .vcBcast 4 8 76),
   (0x6F21244C, .vcWrlane 4 72 76)]
theorem test_words_vc : ∀ p ∈ words_vc, decodeTableWord 32 p.1 = some p.2 ∧ meets s0 p.2 e0 = true := by decide

def words_ld : List (Nat × Instr) :=
  [(0x708411FE, .ldG .b32 4 8 510),
   (0x728411FE, .ldS .b32 4 8 510),
   (0x748411FE, .ldC true 4 8 510),
   (0x75C491FE, .ldK true 68 72 510),
   (0x760401FE, .ldStk 4 510)]
theorem test_words_ld : ∀ p ∈ words_ld, decodeTableWord 32 p.1 = some p.2 ∧ meets s0 p.2 e0 = true := by decide

def words_st : List (Nat × Instr) :=
  [(0x788411FE, .stG .b32 4 8 510),
   (0x7A8411FE, .stS .b32 4 8 510),
   (0x7DC491FE, .stK true 68 72 510),
   (0x7E0401FE, .stStk 4 510)]
theorem test_words_st : ∀ p ∈ words_st, decodeTableWord 32 p.1 = some p.2 ∧ meets s0 p.2 e0 = true := by decide

def words_ldx : List (Nat × Instr) :=
  [(0x8021240C, .ldxG .b32 4 72 12),
   (0x80A1240C, .ldxS .b32 4 72 12)]
theorem test_words_ldx : ∀ p ∈ words_ldx, decodeTableWord 32 p.1 = some p.2 ∧ meets s0 p.2 e0 = true := by decide

def words_stx : List (Nat × Instr) :=
  [(0x8821240C, .stxG .b32 4 72 12),
   (0x88A1240C, .stxS .b32 4 72 12)]
theorem test_words_stx : ∀ p ∈ words_stx, decodeTableWord 32 p.1 = some p.2 ∧ meets s0 p.2 e0 = true := by decide

def words_at : List (Nat × Instr) :=
  [(0x90810444, .atAdd .n64 4 8 .dev .acq),
   (0x90E10444, .atFadd true 4 8 .dev .acq),
   (0x91610444, .atMin .i64 4 8 .dev .acq),
   (0x92210444, .atMax .i64 4 8 .dev .acq),
   (0x92A10444, .atAnd true 4 8 .dev .acq),
   (0x92E10444, .atOr true 4 8 .dev .acq),
   (0x93210444, .atXor true 4 8 .dev .acq),
   (0x93610444, .atXchg true 4 8 .dev .acq),
   (0x93A10444, .atCas true 4 8 .dev .acq),
   (0x93E10444, .atSlot true 4 8 .dev .acq)]
theorem test_words_at : ∀ p ∈ words_at, decodeTableWord 32 p.1 = some p.2 ∧ meets s0 p.2 e0 = true := by decide

def words_syn : List (Nat × Instr) :=
  [(0x98000890, .synBar 68 true 0),
   (0x98200890, .synArrive 68 true 0),
   (0x98400890, .synBwait 68 true 0),
   (0x98600013, .synFence .dev .tot),
   (0x98800053, .synWaitc 1 2 3),
   (0x9971244C, .synWaitcmp true true 68 72 76),
   (0x9A91244C, .synSigadd .dev 68 72 76),
   (0x9B91244C, .synSigwait .dev 68 72 76)]
theorem test_words_syn : ∀ p ∈ words_syn, decodeTableWord 32 p.1 = some p.2 ∧ meets s0 p.2 e0 = true := by decide

def words_wq : List (Nat × Instr) :=
  [(0xA011244C, .wqPush 68 72 76),
   (0xA031244C, .wqPop 68 72 76),
   (0xA051244C, .wqTrypop 68 72 76),
   (0xA071244C, .wqLaunch 68 72 76)]
theorem test_words_wq : ∀ p ∈ words_wq, decodeTableWord 32 p.1 = some p.2 ∧ meets s0 p.2 e0 = true := by decide

def words_tl : List (Nat × Instr) :=
  [(0xA8002400, .tlSetfmt 72),
   (0xA8212400, .tlDrain 4 72),
   (0xA8410000, .tlZero 4),
   (0xA8612400, .tlLoad 4 72),
   (0xAF21044C, .tlMma true true 1 4 8 76)]
theorem test_words_tl : ∀ p ∈ words_tl, decodeTableWord 32 p.1 = some p.2 ∧ meets s0 p.2 e0 = true := by decide

def words_cpy : List (Nat × Instr) :=
  [(0xB011244C, .cpyG2s 68 72 76),
   (0xB031244C, .cpyS2g 68 72 76),
   (0xB051244C, .cpyG2g 68 72 76),
   (0xB0712400, .cpyBatch 68 72),
   (0xB0802400, .cpyWait 72),
   (0xB0B1244C, .cpyBind 68 72 76),
   (0xB0C02400, .cpyUnbind 72)]
theorem test_words_cpy : ∀ p ∈ words_cpy, decodeTableWord 32 p.1 = some p.2 ∧ meets s0 p.2 e0 = true := by decide

def words_kv : List (Nat × Instr) :=
  [(0xB811244C, .kvGather 68 72 76),
   (0xB820040C, .kvAppend 8 12),
   (0xB8512400, .kvFork 68 72),
   (0xB8602400, .kvDrop 72)]
theorem test_words_kv : ∀ p ∈ words_kv, decodeTableWord 32 p.1 = some p.2 ∧ meets s0 p.2 e0 = true := by decide

def words_xf : List (Nat × Instr) :=
  [(0xC000244C, .xfRunTranspose 72 76),
   (0xC020244C, .xfRunRequant 72 76),
   (0xC040244C, .xfRunCompact 72 76),
   (0xC060244C, .xfRunExpand 72 76),
   (0xC1002400, .xfCancel 72)]
theorem test_words_xf : ∀ p ∈ words_xf, decodeTableWord 32 p.1 = some p.2 ∧ meets s0 p.2 e0 = true := by decide

def words_lk : List (Nat × Instr) :=
  [(0xC8010433, .lkAcq 4 8 true .line .six),
   (0xC8200413, .lkRel 8 .line .six),
   (0xC8400000, .lkRelall),
   (0xC861040D, .lkEsc 4 8 .tile .x),
   (0xC8810410, .lkQuery 4 8 .line)]
theorem test_words_lk : ∀ p ∈ words_lk, decodeTableWord 32 p.1 = some p.2 ∧ meets s0 p.2 e0 = true := by decide

def words_ex : List (Nat × Instr) :=
  [(0xD0010401, .exAcq 4 8 true),
   (0xD0200400, .exRel 8),
   (0xD0400400, .exHint 8),
   (0xD0712400, .exStat 68 72)]
theorem test_words_ex : ∀ p ∈ words_ex, decodeTableWord 32 p.1 = some p.2 ∧ meets s0 p.2 e0 = true := by decide

/-! Witnesses for scalar and vector arithmetic. The claims that name no hypothesis but `Issues` have theirs above. -/

theorem wit_ScalarImmediates : (63 : BitVec 10).toNat < 64 ∧ 64 ≤ (64 : BitVec 10).toNat ∧ (1 : Reg) ≠ 0 := by decide
theorem wit_VectorBitForms : 32 ≤ (32 : BitVec 10).toNat ∧ (0x80000000 : Word) ≠ 0 := by decide
theorem wit_FloatSpecialCases : Fmt.f32 ∈ [Fmt.f64, .f32, .f16, .bf16] ∧ Fmt.f32.isAbsent 0xFFFFFFFF = true ∧
    Fmt.f32.valF 0x7FC00000 = .nan ∧ Fmt.f32.isAbsent 0 = false ∧ (Val.fin false 1 0) ≠ .absent ∧ (Val.fin false 1 0) ≠ .nan := by
  decide
theorem wit_FloatCodes : (Fmt.e4m3, 4, 3, 7) ∈ [(Fmt.f64, 11, 52, 1023), (.f32, 8, 23, 127), (.f16, 5, 10, 15), (.bf16, 8, 7, 127),
      (.e5m2, 5, 2, 15), (.e4m3, 4, 3, 7), (.e2m1, 2, 1, 1)] ∧ 15 < 2 ^ 4 ∧ 7 < 2 ^ 3 ∧ finiteOf .f32 0x7F7FFFFF ≠ none ∧
    finiteOf .e2m1 7 = some 6 := by decide +kernel
theorem wit_CorrectRounding : -(topOf .f16) ≤ ratOf false 1 0 ∧ ratOf false 1 0 ≤ topOf .f16 ∧
    topOf .f64 < ratOf false 1 1024 ∧ topOf .f64 < 1 / ratOf false 1 (-1024) ∧ (1 : Nat) ≠ 0 := by decide +kernel
theorem wit_FloatExceptionalOperands : Fmt.f16 ∈ [Fmt.f64, .f32, .f16, .bf16] ∧ Fmt.f16.infCode = some 0x7C00 ∧
    Val.nan ≠ .absent ∧ Val.inf true ≠ .absent ∧ (1 : Nat) ≠ 0 := by decide
theorem wit_ExponentialCases : (3 : Nat) ≤ 2048 ∧ 3 < 2 ^ 11 * 2 ^ 1 ∧ ((1 : Int) : Rat) ≤ ratOf false 3 (-1) ∧
    ratOf false 3 (-1) < ((1 : Int) : Rat) + 1 := by decide +kernel
theorem wit_Conversion : Vt.f16.fmt.isAbsent 0xFFFF = true ∧ Vt.f16.fmt.val 0x7E00 = .nan ∧ Vt.i32.fmt.isFloat = false := by
  decide
theorem wit_TritForms : (Instr.vxQset 15 2).legal = true ∧ 7 < 8 := by decide
theorem kept_of {vt : Vt} {xs : List (Option Nat)}
    (h : (xs.all fun o => o.all fun x => decide (x < 2 ^ vt.fmt.bits) && x != absentOf vt) = true) : Kept vt xs := by
  intro x hx
  have := List.all_eq_true.1 h _ hx
  simpa using this
theorem wit_ReductionsAndScans : Vt.i32.fmt.isFloat = false ∧ [none, some 5].filterMap id ≠ [] ∧ Kept .i32 [none, some 5] ∧
    Kept .f32 [some 0x7FC00000, some 0] ∧ Vt.f32.fmt.valF 0x7FC00000 = .nan ∧ ([none, some 5] : List (Option Nat))[1]? = some (some 5) ∧
    ([none, some 5] : List (Option Nat))[0]? = some none :=
  ⟨rfl, by decide, kept_of (by decide), kept_of (by decide), by decide, rfl, rfl⟩
theorem wit_TopK : Vt.i32 ≠ .f64 ∧ Kept .i32 [none, some 5] := ⟨by decide, kept_of (by decide)⟩

/-! Traps and control flow. -/

def inHandler : Course := { course0 with frags := [(0, { frag0 with handler := true, tpc := 0x40010040 })] }

theorem wit_TrapEntry : e0.f.handler = false ∧ e0.c.tvec ≠ 0 ∧ (env' inHandler wall0).f.handler = true ∧
    (env' { course0 with tvec := 0 } wall0).c.tvec = 0 := by decide
theorem wit_ChecksAtIssue_width : (at' { course0 with width := 16 } wall0).issuer? = some (env' { course0 with width := 16 } wall0) ∧
    (Instr.vcRedAdd 4 8 .i32 .seg64).isWord = true ∧ (Instr.vcRedAdd 4 8 .i32 .seg64).issueLegal 16 = false := by decide
theorem wit_ChecksAtIssue_cap : (at' { course0 with cap := 8 } wall0).issuer? = some (env' { course0 with cap := 8 } wall0) ∧
    (Instr.viMov 4 8).issueLegal 64 = true ∧ capBad (.viMov 4 8) (env' { course0 with cap := 8 } wall0) = some 8 := by decide
theorem wit_ChecksAtIssue_tile : capBad (.tlZero 7) (env' course0 { wall0 with ztiles := 4 }) = none ∧
    (Instr.tlZero 7).issueLegal 64 = true ∧ tileBad (.tlZero 7) { wall0 with ztiles := 4 } = some 7 := by decide
theorem wit_ContextFatal : (s0.ctx? 0).isSome = true := by decide
theorem wit_BreakpointAndSoftwareTrap : Issues s0 (.sysBrk 5) e0 ∧ e0.f.handler = false ∧ e0.c.tvec ≠ 0 :=
  ⟨issues_of_meets (by decide), by decide, by decide⟩
theorem wit_ReturnFromTrap : Issues (at' inHandler wall0) .sysRft (env' inHandler wall0) ∧ (env' inHandler wall0).f.handler = true :=
  ⟨issues_of_meets (by decide), by decide⟩

def grid0 : Grid :=
  { ctx := 0, queue := 0, count := 5, record := ⟨0x40001000, 0, 5, 0, 0, 0, 0, false, false, 7, 0, false, 0⟩,
    kernel := ⟨0x40010000, 0, 16, 32, 64, 1, 1, 1⟩ }

theorem wit_SpecialRegisterReads : Issues { s0 with grids := [(0, grid0)] } (.sysCsrr 0x44 4) e0 ∧
    ({ s0 with grids := [(0, grid0)] } : State).grids.get? e0.c.grid = some grid0 := ⟨issues_of_meets (by decide), by decide⟩

/-- Scalar register 4 (field value 0x44) holds x. -/
def withS (x : Dword) : Course := { course0 with scal := [(4, x)] }
/-- A second fragment of the course, parked on an unmapped page. -/
def withParked (c : Course) : Course :=
  { c with frags := [(0, frag0), (1, { frag0 with reserved := false, lanes := 4, state := .parked 0x20 .service })] }

theorem wit_SpecialRegisterWrites_legal : (Instr.sysCsrw 0x44 0x24).legal = true := by decide
theorem wit_SpecialRegisterWrites_none : Issues s0 (.sysFrinfo 0x45 0x44) e0 ∧ s0.findFid 0 (2 ^ 64 - 1) = none ∧ Quiet e0 :=
  ⟨issues_of_meets (by decide), by decide, by decide, by decide, by decide⟩
theorem wit_SpecialRegisterWrites_some :
    let c := withParked (withS 1)
    (at' c wall0).findFid 0 1 = some ⟨0, 1⟩ ∧ (at' c wall0).course? 0 = some c ∧
      ((at' c wall0).frag? ⟨0, 1⟩).map (fun f => f.state) = some (.parked 0x20 .service) := by decide
/-- Fragments parked on one record, on none, and in a degraded stall; a pending store of lane 0 to the mapped page, and a signal
add; a stopped gather. -/
def stalled (pending : Dword) (records : List OutRec) : Frag := { frag0 with state := .parked 0x20 .service, pending := pending, records := records }
def entry0 (sig : Option Dword) (va : Nat) : SideEntry :=
  { uid := 0, ctx := 0, seq := 5, op := 1, sig := sig, cells := [(va, 7)], unit := va / 65536, vaddr := va, code := 0x20, size := 1, efmt := none,
    lanes := 1, word := 0, due := false }
def slogged (sig : Option Dword) (va : Nat) : State :=
  { s0 with cores := [(0, { split := 1, tlb := [tlb0], side := [entry0 sig va] })] }
theorem wit_RepairPresentations : (stalled 0 []).state = .parked 0x20 .service ∧ (stalled 2 [⟨0x4003, 2⟩]).records = ⟨0x4003, 2⟩ :: [] ∧
    (stalled 2 []).pending &&& ~~~2#64 = 0 ∧ (stalled 3 []).pending &&& ~~~2#64 ≠ 0 ∧
    s0.findFid 0 0 = some ⟨0, 0⟩ ∧ s0.course? 0 = some course0 ∧ course0.frags.get? 0 = some frag0 := by decide
theorem wit_RepairPresentations_replay : (slogged none 0x40030000).entry? 0 5 = some (entry0 none 0x40030000) ∧
    (slogged none 0x40030000).entryBehind 0 (entry0 none 0x40030000) = false ∧
    ((slogged none 0x40030000).xlateUnits 0 0 true (entry0 none 0x40030000).units).toOption.isSome = true ∧
    (slogged none 0x40030000).finishBefore 0 1 [0x30000] = slogged none 0x40030000 ∧
    (slogged (some 1) 0x40030000).markedIn [0x30000] = none ∧
    ((slogged none 0x90000000).xlateUnits 0 0 true (entry0 none 0x90000000).units).toOption.isSome = false ∧
    (slogged none 0x40030000).entryEid 0 (entry0 none 0x40030000) = 2 ^ 63 + 0 * 2 ^ 48 + 0 * 2 ^ 38 + 0 * 2 ^ 32 + 5 ∧
    s0.entry? 0 5 = none ∧ s0.findOp 0 1 0 0 5 = none := by decide +kernel
theorem wit_SpecialRegisterWrites_ready : s0.findFid 0 0 = some ⟨0, 0⟩ ∧ s0.frag? ⟨0, 0⟩ = some frag0 ∧ frag0.state = .ready := by
  decide

/-- q5 is TRUE in lane 0, FALSE in lane 1; q6 is unknown in lane 1; q7 is TRUE in both. -/
def withQ : Course := { course0 with trit := [(64 * 5, 1), (64 * 5 + 1, 0), (64 * 6, 1), (64 * 7, 1), (64 * 7 + 1, 1)] }
def envQ : Env := env' withQ wall0

theorem wit_DivergentBranches : Issues (at' withQ wall0) (.brT .x 5 3) envQ ∧
    envQ.lanes.filter (fun l => envQ.q 5 l = .u) = [] ∧
    ((at' withQ wall0).split envQ (groupBy' [envQ.pc + 4, branchTarget envQ.pc (3 : BitVec 18), envQ.pc + 8]
      (fun l => branchTo .t .x envQ.pc (branchTarget envQ.pc (3 : BitVec 18)) (envQ.q 5 l)) envQ.lanes)).isSome = true :=
  ⟨issues_of_meets (by decide), by decide, by decide⟩
theorem wit_DivergentBranches_unknown : Issues (at' withQ wall0) (.brF .x 6 3) envQ ∧
    envQ.lanes.filter (fun l => envQ.q 6 l = .u) ≠ [] := ⟨issues_of_meets (by decide), by decide⟩
theorem wit_DivergentBranches_k : ((at' withQ wall0).split envQ (groupBy' [envQ.pc + 4, branchTarget envQ.pc (3 : BitVec 18)]
    (fun l => if envQ.q 6 l = .u then envQ.pc + 4 else branchTarget envQ.pc (3 : BitVec 18)) envQ.lanes)).isSome = true := by decide

/-- No descriptor is free: 208 shared entries are in use and 64 fragments of the course are spilled. -/
def crowded : Course :=
  { withQ with frags := (0, frag0) :: (List.range 272).map fun i =>
      (i + 1, { frag0 with lanes := 4, reserved := false, spilled := decide (i < 64) }) }

theorem wit_DivergentBranches_full : Issues (at' crowded wall0) (.brT .w 5 3) (env' crowded wall0) ∧
    (at' crowded wall0).split (env' crowded wall0) [(0x40010004, 2), (0x40010010, 1)] = none ∧
    groupBy' [0x40010004, 0x40010010, 0x40010008] (fun l => branchTo .t .w 0x40010000 0x40010010 ((env' crowded wall0).q 5 l))
      [0, 1] = [(0x40010004, 2), (0x40010010, 1)] := ⟨issues_of_meets (by decide +kernel), by decide +kernel, by decide⟩
theorem wit_SplitPlacesLanes : s0.issuer? = some e0 ∧ s0.courses.sorted = true ∧ e0.c.frags.sorted = true ∧ e0.f.only = 0 ∧
    e0.f.lanes ≠ 0 ∧ e0.c.frags.length ≤ 4096 ∧ (∀ p ∈ e0.c.frags, p.1 < 65536) ∧
    (∀ l ∈ e0.lanes, (if l = 0 then (8 : Dword) else 12) ∈ [(8 : Dword), 12]) ∧
    (s0.split e0 (groupBy' [8, 12] (fun l => if l = 0 then 8 else 12) e0.lanes)).isSome = true := by decide
theorem wit_UniformBranches : (envQ.lanes.map fun l => envQ.q 5 l).foldr Trit.or .f = .t ∧
    (envQ.lanes.map fun l => envQ.q 5 l).foldr Trit.and .t = .f ∧ (envQ.lanes.map fun l => envQ.q 6 l).foldr Trit.and .t = .u ∧
    (envQ.lanes.map fun l => envQ.q 7 l).foldr Trit.and .t = .t ∧ (envQ.lanes.map fun l => envQ.q 8 l).foldr Trit.or .f = .u ∧
    Issues (at' withQ wall0) (.brAny .w 5 3) envQ := ⟨by decide, by decide, by decide, by decide, by decide, issues_of_meets (by decide)⟩

/-- v8 holds a word index in lane 0 and is absent in lane 1. -/
def withV8 : Course := { course0 with vec := [(64 * 8, 0x10004010)] }
def ev8 : Env := env' withV8 wall0

theorem wit_JumpsAndCalls : Issues (at' withV8 wall0) (.jmpCalx 8 8) ev8 ∧
    ((at' withV8 wall0).split ev8 (groupBy' (ev8.lanes.map (jumpTo ev8 8)) (jumpTo ev8 8) ev8.lanes)).isSome = true ∧
    (((at' withV8 wall0).putV ev8 8 fun l => if ev8.v .n32 8 l = BitVec.allOnes 32 then none else some (linkWord ev8.pc)).split
      ev8 (groupBy' (ev8.lanes.map (jumpTo ev8 8)) (jumpTo ev8 8) ev8.lanes)).isSome = true :=
  ⟨issues_of_meets (by decide), by decide, by decide⟩

def withJoins (n : Nat) (a : Dword) : Course := { course0 with frags := [(0, { frag0 with joins := List.replicate n (a, 3) })] }

theorem wit_JoinPoints : (env' (withJoins 7 0) wall0).f.joins.length < 8 ∧ 8 ≤ (env' (withJoins 8 0) wall0).f.joins.length ∧
    (∀ top ∈ (env' (withJoins 1 0) wall0).f.joins.head?, top.1 ≠ (env' (withJoins 1 0) wall0).pc) ∧
    (∃ top ∈ (env' (withJoins 1 0x40010000) wall0).f.joins.head?, top.1 = (env' (withJoins 1 0x40010000) wall0).pc) ∧
    meets (at' (withJoins 8 0) wall0) (.jmpJoinat 3) (env' (withJoins 8 0) wall0) = true := by
  refine ⟨by decide, by decide, ?_, ⟨(0x40010000, 3), rfl, rfl⟩, by decide⟩
  intro top h; cases h; decide

theorem wit_JoinCompletion : (at' { withJoins 1 0x40010000 with exited := 12 } wall0).course? 0 =
      some { withJoins 1 0x40010000 with exited := 12 } ∧
    (withJoins 1 0x40010000).frags.sorted = true ∧
    ({ frag0 with joins := [(0x40010000, 15)], state := .waiting .join .joined } : Frag).joins.head? = some (0x40010000, 15) := by decide
def parted : Course := { course0 with frags := [(0, frag0), (1, { frag0 with lanes := 4, s1 := 9, reserved := false })] }
theorem wit_MergedFragments : (at' parted wall0).course? 0 = some parted ∧ parted.frags.sorted = true ∧ ([1, 0] : List Nat).Nodup ∧
    parted.frags.get? 0 = some frag0 ∧ lowestLane frag0.lanes < lowestLane 4 ∧ frag0.s1 ≠ 9 := by decide

def pairs : State := { at' { course0 with token := true } wall0 with
  courses := [(0, { course0 with token := true }), (1, { course0 with slot := 1 })] }

theorem wit_CourseControl : Issues pairs .ctlPrio (env' { course0 with token := true } wall0) ∧
    pairs.pairOf { course0 with token := true } = some (1, { course0 with slot := 1 }) ∧ course0.token = false ∧
    (Instr.ctlWin 40 24).legal = true ∧ (Instr.ctlWin 41 0).legal = false :=
  ⟨issues_of_meets (by decide), by decide, by decide, by decide, by decide⟩

/-! Loads, stores, atomics and synchronisation. -/

/-- Scalar registers 4 to 6 (field values 0x44 to 0x46). -/
def withSs (x y z : Dword) : Course := { course0 with scal := [(4, x), (5, y), (6, z)] }
def leaf0 : Leaf := tlb0.leaf

/-- s4 names a byte of the mapped page. -/
def cmem : Course := withSs 0x40020000 5 7
def smem : State := at' cmem wall0
def emem : Env := env' cmem wall0

theorem wit_GlobalLoads : Issues smem (.ldG .b32 4 0x44 1) emem ∧ emem.f.active ≠ 0 ∧
    Reaches smem emem (accesses emem 4 (globalOf emem 0x44 1 4)) false [(0x4002, leaf0)] :=
  ⟨issues_of_meets (by decide), by decide, by decide, by decide⟩
theorem wit_GlobalLoads_x : Issues (at' (withSs 0x40020000 5 7) wall0) (.ldxG .b64 4 0x44 8) emem ∧
    Reaches smem emem (accesses emem 8 (indexedOf emem 0x44 8 8)) false [] :=
  ⟨issues_of_meets (by decide), by decide, by decide⟩
theorem wit_GlobalLoads_k : Issues smem (.ldK true 0x45 0x44 1) emem ∧ emem.sb 0x44 ≠ BitVec.allOnes 64 ∧
    Reaches smem emem [⟨0, 0x40020008, 8⟩] false [(0x4002, leaf0)] :=
  ⟨issues_of_meets (by decide), by decide, by decide, by decide⟩
theorem wit_GlobalLoads_absent : Issues s0 (.ldK true 0x45 0x44 1) e0 ∧ e0.sb 0x44 = BitVec.allOnes 64 ∧ Reaches s0 e0 [] false [] :=
  ⟨issues_of_meets (by decide), by decide, by decide, by decide⟩

/-- The stack slots 0 to 15 of a context whose stacks lie in the mapped page: slot 15 is the last. -/
def sstk : State := { s0 with ctxs := [(0, { placedCtx with root := 0x20000, spill := 0x40030000 })] }

theorem wit_GlobalLoads_stack : Issues sstk (.ldStk 4 15) e0 ∧ 0 ≤ e0.f.s1.toInt + (15 : BitVec 9).toInt ∧
    e0.f.s1.toInt + (15 : BitVec 9).toInt < (min e0.f.s2.toNat e0.c.stack : Nat) ∧
    (sstk.plan e0 (accesses e0 4 fun l => some (slotOf sstk e0 15 l)) false matches .go _ []) = true ∧
    sstk.sideHit e0 (accesses e0 4 fun l => some (slotOf sstk e0 15 l)) = none :=
  ⟨issues_of_meets (by decide), by decide, by decide, by decide, by decide⟩

/-- s4 is the last word of a window of 64 KiB, s5 its end. -/
def cst : Course := withSs 0xFFF8 0x10000 0
def sst : State := at' cst wall0
def est : Env := env' cst wall0

theorem wit_StashLoads : Issues sst (.ldS .b32 4 0x44 0) est ∧ est.f.active ≠ 0 ∧ est.w.regions = [] ∧
    sst.wall? est.c.age = some est.w ∧ inWindow est 4 (stashOf est 0x44 0 4) ∧ Reaches sst est [] false [] := by
  refine ⟨issues_of_meets (by decide), by decide, rfl, rfl, ?_, by decide, by decide⟩
  intro l hl o ho
  have : l ∈ [0, 1] := hl
  simp only [List.mem_cons, List.not_mem_nil, or_false] at this
  rcases this with rfl | rfl <;> (cases ho; decide)
theorem wit_StashLoads_outside : 0 ∈ est.lanes ∧ stashOf est 0x45 0 4 0 = some 0x10000 ∧
    (est.w.window : Int) < 0x10000 + (bytesOf .b32 : Nat) := by decide
theorem wit_Stores : Issues smem (.stG .b32 4 0x44 1) emem ∧
    Reaches smem emem ((stores emem 4 4 (globalOf emem 0x44 1 4)).map fun a => a.acc) true [(0x4002, leaf0)] :=
  ⟨issues_of_meets (by decide), by decide, by decide⟩
theorem wit_Stores_stash : Issues sst (.stS .b32 4 0x44 0) est ∧ est.w.regions = [] ∧ Reaches sst est [] true [] :=
  ⟨issues_of_meets (by decide), rfl, by decide, by decide⟩
theorem wit_Stores_k : Issues smem (.stK false 0x45 0x44 0) emem ∧
    Reaches smem emem [⟨lowestLane emem.f.active, 0x40020000, 4⟩] true [(0x4002, leaf0)] :=
  ⟨issues_of_meets (by decide), by decide, by decide⟩
theorem wit_Stores_absent : Issues s0 (.stK false 0x45 0x44 0) e0 ∧ e0.sb 0x44 = BitVec.allOnes 64 ∧ Reaches s0 e0 [] true [] :=
  ⟨issues_of_meets (by decide), by decide, by decide, by decide⟩
theorem wit_AccessTraps_slot : Issues s0 (.ldStk 4 16) e0 ∧
    ((min e0.f.s2.toNat e0.c.stack : Nat) : Int) ≤ e0.f.s1.toInt + (16 : BitVec 9).toInt := ⟨issues_of_meets (by decide), by decide⟩

/-- s4 is not a canonical address. -/
def cbad : Course := withSs 0x8000000000000000 0 0

theorem wit_AccessTraps_violation : Issues (at' cbad wall0) (.stG .b32 4 0x44 0) (env' cbad wall0) ∧
    (at' cbad wall0).sideHit (env' cbad wall0) (accesses (env' cbad wall0) 4 (globalOf (env' cbad wall0) 0x44 0 4)) = none ∧
    (at' cbad wall0).plan (env' cbad wall0) (accesses (env' cbad wall0) 4 (globalOf (env' cbad wall0) 0x44 0 4)) true =
      .violation 0x8000000000000000 3 ∧
    (at' cbad wall0).plan (env' cbad wall0) (accesses (env' cbad wall0) 4 (globalOf (env' cbad wall0) 0x44 0 4)) false =
      .violation 0x8000000000000000 3 := ⟨issues_of_meets (by decide), by decide, by decide, by decide⟩
theorem wit_AccessTraps_k : (env' cbad wall0).sb 0x44 ≠ BitVec.allOnes 64 ∧
    (at' cbad wall0).plan (env' cbad wall0) [⟨0, 0x8000000000000000, 4⟩] true = .violation 0x8000000000000000 1 ∧
    { s0 with ctxs := [(0, { placedCtx with spill := 2 ^ 63 })] }.plan e0 (accesses e0 4 fun l =>
      some (slotOf { s0 with ctxs := [(0, { placedCtx with spill := 2 ^ 63 })] } e0 15 l)) true matches .violation _ _ := by decide

/-- Lane 1 of s4's access lies in the next unit, for which the fragment has met the fault 0x02. -/
def cpark : Course := { withSs 0x4002FFFC 5 7 with frags := [(0, { frag0 with
  outcomes := [⟨0x4003, 2, 1, false, false⟩, ⟨0x4003, 2, 1, true, false⟩] })] }
def spark : State :=
  { at' cpark wall0 with cores := [(0, { tlb := [{ tlb0 with va := 0x40020000, size := 65536, loc := 0x20000 }] })] }
def epark : Env := env' cpark wall0
def leafP : Leaf := { leaf0 with va := 0x40020000, size := 65536, pa := 0x20000 }
def groupP (write : Bool) (word : Nat) : PGroup :=
  { lanes := 2, code := 2, on := .service, info := some ⟨0x4003, 0x40030000, 1, write, 0, word⟩ }

theorem wit_FaultingLoads : Issues spark (.ldG .b32 4 0x44 0) epark ∧
    spark.sideHit epark (accesses epark 4 (globalOf epark 0x44 0 4)) = none ∧
    spark.plan epark (accesses epark 4 (globalOf epark 0x44 0 4)) false = .go [(0x4002, leafP)] [(0x4003, 2, 1)] ∧
    faultGroups [(0x4003, 2, 1)] (accesses epark 4 (globalOf epark 0x44 0 4)) false 9 none = [groupP false 9] ∧
    spark.heldFull 0 1 = false ∧ epark.f.held = false := ⟨issues_of_meets (by decide), by decide⟩
theorem wit_FaultingLoads_full :
    { spark with cores := [(0, { held := List.replicate 64 ⟨0, 0, 0, 0, 0, false, 0, 2, 0, 0, 0⟩ })] }.heldFull 0 1 = true := by decide
theorem wit_FaultingStores : Issues spark (.stG .b32 4 0x44 0) epark ∧
    spark.plan epark ((stores epark 4 4 (globalOf epark 0x44 0 4)).map fun a => a.acc) true = .go [(0x4002, leafP)] [(0x4003, 2, 1)] ∧
    dedup ((stores epark 4 4 (globalOf epark 0x44 0 4)).filterMap fun a => faultOf [(0x4003, 2, 1)] a.acc) = [(0x4003, 2, 1)] ∧
    (sideRoom (fun _ => 1) (spark.sideUsed 0) [(0x4003, 2, 1)]).2 = [] ∧ spark.heldFull 0 1 = false :=
  ⟨issues_of_meets (by decide), by decide, by decide, by decide, by decide⟩
/-- An entry of the side log of the course. -/
def entryB : SideEntry := ⟨3, 0, 0, 0x4002, 0, 2, 1, none, 1, [(0x40020FF8, 7)], none, 0x40020FF8, 0, false⟩

theorem wit_FaultingStores_full : (sideRoom (fun _ => 1)
    (({ spark with cores := [(0, { side := List.replicate 256 entryB })] } : State).sideUsed 0) [(0x4003, 2, 1)]).2 ≠ [] := by
  decide +kernel
theorem wit_SideLogEntries : spark.courses.sorted = true ∧ spark.course? 0 = some epark.c ∧
    ∀ a ∈ [(⟨⟨1, 0x4002FFFC, 8⟩, [1, 2, 3, 4, 5, 6, 7, 8]⟩ : StAcc)], a.acc.len ≤ 16 ∧
      ∃ i < a.acc.len, (a.acc.va + i) % 2 ^ 64 / 65536 = 0x4003 := by decide
theorem wit_ParkingLanes : spark.issuer? = some epark ∧ spark.courses.sorted = true ∧ epark.c.frags.sorted = true ∧
    epark.c.frags.length ≤ 4096 ∧ (∀ p ∈ epark.c.frags, p.1 < 65536) ∧
    (∀ g ∈ [groupP false 9], g.lanes ≠ 0 ∧ g.lanes &&& epark.f.lanes = g.lanes) ∧ epark.f.lanes &&& ~~~2 ≠ 0 ∧
    1 ≤ spark.entryRoom 0 := by decide
theorem wit_PlanOfAccesses : (∀ u ∈ unitsOf 0x4002FFFC 8, smem.lookup 0 0 [] u true false = .ok leaf0) ∧
    unitsOf 0x4002FFFC 8 = [0x4002, 0x4003] ∧ smem.lookup 0 0 [] 0x800000000000 true false = .violation ∧
    smem.lookup 0 0 [] 0x8000 true false = .miss := by decide

def load0 : Op :=
  { uid := 0, ctx := 0, core := 0, work := .load (.vector 4 4) 1 [⟨0, 0x40020000, .mem 0x20000 31, 4, 0⟩] [] false }
def withOp (o : Op) : State := { s0 with ops := [(1, o)] }

theorem wit_LoadCompletion : (withOp load0).op? 1 = some load0 ∧ (withOp load0).earlierAccess 1 0 load0.work.touches = false ∧
    (withOp load0).markedIn load0.work.readLocs = none ∧ ∀ l ∈ load0.work.readLocs, isUnder l = true := by decide
/-- The same load under ld.c; its line is in the constant cache or not. -/
def loadC : Op := { load0 with work := .load (.vector 4 4) 1 [⟨0, 0x40020000, .mem 0x20000 31, 4, 0⟩] [] true }
theorem wit_LoadCompletion_const : (withOp loadC).op? 1 = some loadC ∧
    (withOp loadC).earlierAccess 1 0 loadC.work.touches = false ∧ (withOp loadC).markedIn loadC.work.readLocs = none ∧
    (∀ p ∈ [(⟨0, 0x40020000, .mem 0x20000 31, 4, 0⟩ : Piece)], ∀ loc g, p.tgt = .mem loc g → g < 32) ∧
    lineOf 0x20000 = 0x400 ∧ ((withOp loadC).core 0).cc.get? (32 * 0x400 + 31) = none ∧
    ({ cc := [(32 * 0x400 + 31, [1])] } : Core).cc.get? (32 * 0x400 + 31) = some [1] := by
  refine ⟨by decide, by decide, by decide, ?_, by decide, by decide, by decide⟩
  intro p hp loc g h
  cases List.mem_singleton.1 hp
  cases h
  decide
/-- A load of a location outside the package, which a live C = 1 window of the CXL port 0 maps. -/
def loadFar : Op := { load0 with work := .load (.vector 4 4) 1 [⟨0, 2 ^ 40, .mem (2 ^ 64) 31, 4, 0⟩] [] false }
def cxl : State := { withOp loadFar with portMode := [2, 1], windows := [(3, ⟨0, 1, 0, true, false, 0, 1, 16⟩)] }
theorem wit_LoadCompletion_far : cxl.op? 1 = some loadFar ∧ cxl.earlierAccess 1 0 loadFar.work.touches = false ∧
    cxl.markedIn loadFar.work.readLocs = none ∧ isUnder (2 ^ 64) = false ∧ cxl.cacheable (2 ^ 64) = true ∧
    (withOp loadFar).cacheable (2 ^ 64) = false := by decide +kernel

def write0 : Write := { id := 0, uid := 0, op := 1, cells := [(0x20000, 7), (0x20001, 8)], efmt := some 31, origin := 0 }
def sw : State := { s0 with stores := [write0], nextWrite := 1 }

theorem wit_StoresReachMemory : (sw.stores.find? fun x => x.id == 0) = some write0 ∧ write0.origin < 4 ∧
    sw.mayOriginate write0 = true ∧ (∀ x ∈ sw.writes, x.id ≠ 0) ∧ headWaits sw.writes = true ∧
    (write0.cells.map fun c => c.1).Nodup ∧ ∀ c ∈ write0.cells, isUnder c.1 = true := by decide
theorem wit_StoresReachMemory_other : let w := { write0 with applied := 1, vc := [1, 0, 0, 0] }
    (∀ x ∈ s0.stores, x.id ≠ 0) ∧ headWaits [w] = true ∧ { s0 with writes := [w] }.mayApply 3 w = true ∧ memWf s0.mem = true := by decide
theorem wit_StoreCompletion : (withOp { load0 with work := .store }).op? 1 = some { load0 with work := .store } ∧
    ∀ w ∈ (withOp load0).stores ++ (withOp load0).writes, w.op ≠ 1 := by decide

/-- Two lanes add at one address that s4 names. -/
def cat : Course := { cmem with vec := [(64 * 4, 1), (64 * 4 + 1, 2)] }
def eat : Env := env' cat wall0

theorem wit_Atomics : Issues (at' cat wall0) (.atAdd .n32 4 0x44 .dev .rel) eat ∧ Quiet eat ∧ eat.f.only = 0 ∧
    atomicLanes eat (.add .n32) 4 4 0x44 = [(⟨0, 0x40020000, 4⟩, 1, 0), (⟨1, 0x40020000, 4⟩, 2, 0)] ∧
    Reaches (at' cat wall0) eat ((atomicLanes eat (.add .n32) 4 4 0x44).map fun p => p.1) true [(0x4002, leaf0)] :=
  ⟨issues_of_meets (by decide), ⟨rfl, rfl, rfl⟩, rfl, by decide, by decide, by decide⟩
/-- A destination of which no lane has a value to add: nothing is accessed. -/
theorem wit_Atomics_none : Issues (at' { cat with vec := [(64 * 4, 2 ^ 32 - 1), (64 * 4 + 1, 2 ^ 32 - 1)] } wall0) (.atAdd .n32 4 0x44 .dev .rel)
      (env' { cat with vec := [(64 * 4, 2 ^ 32 - 1), (64 * 4 + 1, 2 ^ 32 - 1)] } wall0) ∧
    atomicLanes (env' { cat with scal := [(4, BitVec.allOnes 64)] } wall0) (.add .n32) 4 4 0x44 = [] :=
  ⟨issues_of_meets (by decide), by decide⟩
theorem wit_Atomics_under : ∀ x, 0x4002 * 65536 ≤ x → x < 0x4002 * 65536 + 65536 → isUnder (leaf0.pa + (x - leaf0.va)) = true := by
  intro x _ h
  show decide (0 + (x - 0x40000000) < 2 ^ 40) = true
  rw [decide_eq_true_eq]
  omega
theorem wit_Atomics_misaligned : ∃ p ∈ atomicLanes (env' { cat with scal := [(4, 0x40020002)] } wall0) (.add .n32) 4 4 0x44,
    p.1.va % p.1.len ≠ 0 := ⟨(⟨0, 0x40020002, 4⟩, 1, 0), by decide, by decide⟩
theorem wit_Atomics_waits : ¬ Quiet (env' { cat with ldc := 1 } wall0) ∧
    (∀ p ∈ atomicLanes (env' { cat with ldc := 1 } wall0) (.add .n32) 4 4 0x44, p.1.va % p.1.len = 0) :=
  ⟨fun h => absurd h.1 (by decide), by decide⟩
/-- Lane 0 adds in the mapped unit; lane 1 in a unit that faults, that misses, that is no address, or in the same one through a RED
window. -/
def catp (second : Nat) (outs : List XOut) : Course :=
  { withSs 0 0 0 with frags := [(0, { frag0 with outcomes := outs })],
                      vec := [(64 * 4, 1), (64 * 4 + 1, 2), (64 * 6, 0x40020000), (64 * 6 + 1, second % 2 ^ 32), (64 * 7, 0), (64 * 7 + 1, second / 2 ^ 32)] }
def satp (second : Nat) (outs : List XOut) : State :=
  { at' (catp second outs) wall0 with cores := [(0, { tlb := [{ tlb0 with va := 0x40020000, size := 65536, loc := 0x20000 }] })] }
def eatp (second : Nat) (outs : List XOut) : Env := env' (catp second outs) wall0
def out2 : List XOut := [⟨0x4003, 2, 1, true, false⟩]
def accsP (second : Nat) : List Acc := [⟨0, 0x40020000, 4⟩, ⟨1, second, 4⟩]

theorem wit_AtomicFaults : Issues (satp 0x40030000 out2) (.atAdd .n32 4 6 .dev .rlx) (eatp 0x40030000 out2) ∧
    (atomicLanes (eatp 0x40030000 out2) (.add .n32) 4 4 6).map (fun p => p.1) = accsP 0x40030000 ∧
    (satp 0x40030000 out2).sideHit (eatp 0x40030000 out2) (accsP 0x40030000) = none ∧ (eatp 0x40030000 out2).f.only = 0 ∧
    (satp 0x40030000 out2).plan (eatp 0x40030000 out2) (accsP 0x40030000) true = .go [(0x4002, leafP)] [(0x4003, 2, 1)] ∧
    (satp 0x40030000 out2).routeBad [(0x4002, leafP)] (.add .n32) 4 0 = [] ∧ (satp 0x40030000 out2).heldFull 0 1 = false :=
  ⟨issues_of_meets (by decide), by decide, by decide, by decide, by decide, by decide, by decide⟩
theorem wit_AtomicFaults_other :
    (satp 0x40030000 []).plan (eatp 0x40030000 []) (accsP 0x40030000) true = .miss [0x4003] ∧
    (satp 0x8000000000000000 []).plan (eatp 0x8000000000000000 []) (accsP 0x8000000000000000) true = .violation 0x8000000000000000 2 ∧
    ({ satp 0x40020FF8 [] with cores := [(0, { side := [entryB] })] } : State).sideHit (eatp 0x40020FF8 []) (accsP 0x40020FF8) =
      some 3 := by decide
/-- A window to another device, with RED and without. -/
def winR (red : Bool) : Window := { tbase := 0, target := 3, port := 0, c := false, red := red, devnum := 1, size := 1, base := 16 }
theorem wit_AtomicRoutes : let s := { s0 with windows := [(3, winR true)] }
    let far : Leaf := { leafP with pa := 2 ^ 40 }
    s.routeBad [(0x4002, far)] .or 4 0x18 = [(0x4002, 0x22, 0x18 + 256 * 3 + 1024 * 3)] ∧ s.routeBad [(0x4002, far)] (.fadd .f32) 4 6 = [] ∧
    s.isPosted [(0x4002, far)] (.fadd .f32) 4 .rlx 0x40020000 = true ∧ s.isPosted [(0x4002, far)] (.fadd .f32) 4 .acq 0x40020000 = false ∧
    carries (winR false) (.fadd .f32) 4 = false ∧ Tab.sorted [(0x4002, far)] = true := by decide +kernel
theorem wit_AtomicNewValues : Fmt.n32 ∈ [Fmt.i32, .i64, .n32, .n64] ∧ (0 : Word) ≠ i32Absent ∧ (0 : Dword) ≠ BitVec.allOnes 64 ∧
    [(⟨3, 0, 31, 5, 0⟩ : AtLane)][0]? = some ⟨3, 0, 31, 5, 0⟩ := by decide
theorem wit_AtomicNewValues_float : Fmt.f64 ∈ [Fmt.f32, .f64] ∧ Fmt.f32.absentCode ≠ 0 ∧ AtOp.fadd .f32 ∈
    [AtOp.fadd Fmt.f32, .min .f32, .max .f32] := by decide
theorem wit_SlotReservation : (4 : Nat) ≤ 9 ∧ 4 + (([⟨0, 0, 31, 5, 0⟩] : List AtLane).map fun l => l.x).sum ≤ 9 ∧
    ¬ 4 + (([⟨0, 0, 31, 5, 0⟩, ⟨1, 0, 31, 1, 0⟩] : List AtLane).map fun l => l.x).sum ≤ 9 := by decide

def atomic0 : Op :=
  { uid := 0, ctx := 0, core := 0, work := .atomic (.add .n32) 4 (.vector 4 4) [⟨0, 0x20000, 31, 1, 0⟩] [] }

theorem wit_AtomicService : ([⟨0, 0x20000, 31, 1, 0⟩, ⟨3, 0x20000, 31, 0, 2⟩] : List AtLane) ≠ [] ∧
    (∀ l ∈ ([⟨0, 0x20000, 31, 1, 0⟩, ⟨3, 0x20000, 31, 0, 2⟩] : List AtLane), l.loc = 0x20000 ∧ l.efmt = 31) ∧
    s0.latestNat 31 0x30000 4 = 0 ∧ (∃ l ∈ ([⟨3, 0x30000, 31, 0, 2⟩] : List AtLane), l.x = s0.latestNat 31 0x30000 4) ∧
    (∀ l ∈ ([⟨0, 0x30000, 31, 1, 0⟩] : List AtLane), l.x ≠ s0.latestNat 31 0x30000 4) ∧ (0 : Nat) ≠ 2 ^ (8 * 4) - 1 ∧
    ({ s0 with mem := retireMem [] (cellsAt 0x30000 (natLe 4 (2 ^ 32 - 1))) } : State).latestNat 31 0x30000 4 = 2 ^ (8 * 4) - 1 ∧
    ∀ i < 8, isUnder (0xFFFFFFFFF8 + i) = true := by decide +kernel
theorem wit_AtomicCompletion : (withOp atomic0).op? 1 = some atomic0 ∧
    (withOp atomic0).earlierAccess 1 0 atomic0.work.touches = false ∧
    (withOp atomic0).settledAt 0 atomic0.work.touches = true ∧ (withOp atomic0).markedIn atomic0.work.readLocs = none ∧
    ∀ l ∈ atomic0.work.readLocs, isUnder l = true := by decide

/-- Lane 0 is recorded at barrier 6; a load is outstanding. -/
def warr : Wall := { wall0 with arrived := [(64 * 6, 1)] }
def cbusy : Course := { course0 with ldc := 1 }

theorem wit_WallBarriers : Issues s0 (.synBar 0 false 6) e0 ∧ Quiet e0 ∧ e0.w.arrivedAt 6 e0.c.index &&& e0.f.lanes = 0 ∧
    Issues (at' course0 warr) (.synBwait 0 false 6) (env' course0 warr) ∧ warr.arrivedAt 6 0 &&& frag0.lanes ≠ 0 ∧
    ¬ Quiet (env' cbusy wall0) :=
  ⟨issues_of_meets (by decide), ⟨rfl, rfl, rfl⟩, by decide, issues_of_meets (by decide), by decide, fun h => absurd h.1 (by decide)⟩

def wfull : Wall := { wall0 with arrived := [(64 * 6, 3)] }
def sfull : State := at' { course0 with
  exited := 0xFFFFFFFFFFFFFFFC, frags := [(0, { frag0 with state := .waiting .barrier (.wallBarrier 6) })] } wfull

theorem wit_BarrierCompletion : sfull.wall? 0 = some wfull ∧ sfull.barrierFull 0 6 wfull = true ∧
    (∃ p ∈ wfull.arrived, p.1 / 64 = 6) ∧ sfull.courses.sorted = true ∧ ∀ p ∈ sfull.courses, p.2.frags.sorted = true :=
  ⟨rfl, by decide, ⟨(384, 3), by decide, rfl⟩, by decide, by decide⟩

/-- A stash object at offset 0xFFF0, the last of the window: EXPECTED, COUNT and PHASE are n, 0 and 0. -/
def wobj (n : Byte) : Wall :=
  { wall0 with stash := (cellsAt 0xFFF0 [n, 0, 0, 0, 0, 0, 0, 0, 0, 0, 0, 0]) }
def cobj (token off : Nat) : Course := withSs (BitVec.ofNat 64 (token * 2 ^ 32 + off)) 0 0

theorem wit_StashBarriers : Issues (at' (cobj 0 0xFFF0) (wobj 3)) (.synBar 0x44 true 0) (env' (cobj 0 0xFFF0) (wobj 3)) ∧
    0xFFF0 % 16 = 0 ∧ 0xFFF0 + 16 ≤ (wobj 3).window ∧ Quiet (env' (cobj 0 0xFFF0) (wobj 3)) ∧
    ((env' (cobj 0 0xFFF0) (wobj 3)).sb 0x44).toNat = 0xFFF0 ∧
    stashWord (at' (cobj 0 0xFFF0) (wobj 3)) (env' (cobj 0 0xFFF0) (wobj 3)) 0xFFF8 = 0 ∧
    (objectAfter 3 0 0 2).2 = 0 ∧ (objectAfter 2 0 0 2).2 ≠ 0 :=
  ⟨issues_of_meets (by decide), rfl, by decide, ⟨rfl, rfl, rfl⟩, by decide, by decide, by decide, by decide⟩
theorem wit_StashBarriers_misaligned : Issues (at' (cobj 0 8) wall0) (.synBwait 0x44 true 0) (env' (cobj 0 8) wall0) ∧
    ((env' (cobj 0 8) wall0).sb 0x44).toNat % 2 ^ 32 % 16 ≠ 0 := ⟨issues_of_meets (by decide), by decide⟩
theorem wit_FencesAndCounterWaits : Issues s0 (.synFence .sys .tot) e0 ∧ Quiet e0 ∧ e0.f.totV = none ∧
    (∀ i < 4, ∀ j < 4, s0.clockOf e0.island j ≤ s0.clockOf i j) ∧ s0.outPending e0.island = [] :=
  ⟨issues_of_meets (by decide), ⟨rfl, rfl, rfl⟩, rfl, by decide, by decide⟩
theorem wit_FencesAndCounterWaits_wait : Issues { s0 with clocks := [(0, 1)] } (.synFence .dev .tot) e0 ∧
    (∃ i < 4, ∃ j < 4, ({ s0 with clocks := [(0, 1)] } : State).clockOf i j < ({ s0 with clocks := [(0, 1)] } : State).clockOf e0.island j) ∧
    Issues (at' cbusy wall0) (.synWaitc 0 7 7) (env' cbusy wall0) ∧ (0 : BitVec 3).toNat < cbusy.ldc :=
  ⟨issues_of_meets (by decide), ⟨1, by decide, 0, by decide, by decide⟩, issues_of_meets (by decide), by decide⟩


/-- A fragment that has recorded a vector clock, and a store of the island to memory outside the package. -/
def ctot (v : List Nat) : Course := { course0 with frags := [(0, { frag0 with totV := some v })] }
def outside0 : Write := { id := 0, uid := 0, op := 1, cells := [(outLoc 1 0, 7)], efmt := none, origin := 0 }

theorem wit_FencesAndCounterWaits_again : Issues (at' (ctot [0, 0, 0, 0]) wall0) (.synFence .sys .tot) (env' (ctot [0, 0, 0, 0]) wall0) ∧
    (env' (ctot [0, 0, 0, 0]) wall0).f.totV = some [0, 0, 0, 0] ∧ (env' cbusy wall0).f.totV = none ∧
    (∀ i < 4, ∀ j < 4, [0, 0, 0, 0].getD j 0 ≤ (at' (ctot [0, 0, 0, 0]) wall0).clockOf i j) ∧
    (at' (ctot [0, 0, 0, 0]) wall0).outPending 0 = [] ∧
    ({ at' (ctot [0, 0, 0, 0]) wall0 with stores := [outside0] } : State).outPending 0 ≠ [] ∧
    ∃ i < 4, ∃ j < 4, s0.clockOf i j < [0, 0, 0, 1].getD j 0 :=
  ⟨issues_of_meets (by decide), by decide, rfl, by decide, by decide, by decide, 0, by decide, 3, by decide, by decide⟩
theorem wit_MonitorSlots : let ms := (List.range 64).map fun i => (⟨4 * i, sliceOf 0x20000 0x20000, ⟨0, 0⟩, 0, 0⟩ : Monitor)
    let lines := dedup (((ms.filter fun m => m.slice == sliceOf 0x20000 0x20000).map fun m => m.line))
    64 ≤ lines.length ∧ lines.head? = some 0 ∧ lineOf 0x20080 ∉ lines ∧ lineOf 0x2000 ∈ lines := by decide +kernel
theorem wit_MonitorsAndSignals : Issues smem (.synWaitcmp true true 0x47 0x44 0x45) emem ∧
    emem.sb 0x44 ≠ BitVec.allOnes 64 ∧ (emem.sb 0x44).toNat % 8 = 0 ∧ ReadsAt smem emem 0x40020000 8 0x20000 0x20000 31 ∧
    ¬ (BitVec.ofNat 64 (smem.viewNat 0 31 0x20000 8)).toInt ≤ (emem.sb 0x45).toInt ∧ Quiet emem :=
  ⟨issues_of_meets (by decide), by decide, by decide,
    ⟨[(0x4002, leaf0)], leaf0, ⟨by decide, by decide⟩, by decide, by decide, by decide, by decide, by decide, by decide⟩, by decide,
    ⟨rfl, rfl, rfl⟩⟩
theorem wit_MonitorsAndSignals_absent : Issues s0 (.synSigwait .dev 0 0x44 0x45) e0 ∧ e0.sb 0x44 = BitVec.allOnes 64 :=
  ⟨issues_of_meets (by decide), by decide⟩
theorem wit_MonitorsAndSignals_misaligned :
    Issues (at' (withSs 0x40020004 0 0) wall0) (.synWaitcmp true false 0x47 0x44 0x45) (env' (withSs 0x40020004 0 0) wall0) ∧
    Issues (at' (withSs 0x40020004 0 0) wall0) (.synSigadd .dev 0 0x44 0x45) (env' (withSs 0x40020004 0 0) wall0) ∧
    ((env' (withSs 0x40020004 0 0) wall0).sb 0x44).toNat % 8 ≠ 0 ∧ ¬ Quiet (env' cbusy wall0) :=
  ⟨issues_of_meets (by decide), issues_of_meets (by decide), by decide, fun h => absurd h.1 (by decide)⟩
theorem wit_MonitorsAndSignals_sigadd : Issues smem (.synSigadd .dev 0 0x44 0x45) emem ∧
    Reaches smem emem [⟨lowestLane emem.f.active, 0x40020000, 8⟩] true [(0x4002, leaf0)] :=
  ⟨issues_of_meets (by decide), by decide, by decide⟩

/-- A region that binds the window's last page, with a load of its last word outstanding, an entry of the side log there, a mark,
and a window that is gone. -/
def wbound : Wall := { wall0 with regions := [(7, { off := 0xF000, len := 4096, va := 0x40020000, units := [(0x4002, 0x20000, 31)] })] }
def wlost : Wall := { wall0 with regions := [(7, { off := 0xF000, len := 4096, va := 0x40020000, units := [(0x4002, 2 ^ 41, 31)] })] }
def sbound : State := at' cst wbound
def ebound : Env := env' cst wbound
def loadB : Op :=
  { uid := 0, ctx := 0, core := 0, work := .load (.vector 4 4) 1 [⟨0, 0x40020FF8, .mem 0x20FF8 31, 4, 0⟩] [] false }

theorem wit_StashLoads_bound : Issues sbound (.ldS .b32 4 0x44 0) ebound ∧ ebound.f.active ≠ 0 ∧
    StashOpen sbound ebound (offsetsOf ebound 4 (stashOf ebound 0x44 0 4)) (sbound.updWall 0 fun w =>
      w.touch (offsetsOf ebound 4 (stashOf ebound 0x44 0 4))) :=
  ⟨issues_of_meets (by decide), by decide, .inr ⟨by decide, by decide, by decide, by decide, by decide, rfl⟩⟩
theorem wit_BoundAccesses : ebound.w.regions ≠ [] ∧
    ebound.w.boundVas (offsetsOf ebound 4 (stashOf ebound 0x44 0 4)) = (List.range 8).map (fun i => (0x40020FF8 + i, 0x20FF8 + i)) ∧
    { sbound with cores := [(0, { side := [entryB] })] }.sideAt ebound (fun va => va == 0x40020FF8) = some 3 ∧
    { sbound with ops := [(1, loadB)] }.courseBusy 0 [0x20FF8] = [1] ∧
    { sbound with marks := [0x20FF8 / 128] }.markedIn [0x20FF8] = some (0x20FF8 / 128) ∧
    ((env' cst wlost).w.boundVas [0xFFF8]).map (fun p => (p.1, sbound.mapped p.2)) = [(0x40020FF8, false)] := by decide

/-! Queues, tiles and copies. -/

theorem alone {e : Env} (h : (e.c.frags.all fun p => p.1 == e.r.serial) = true) (d : e.f.diverged = none) : Alone e := by
  simpa [Alone, d] using h
theorem inside {e : Env} {rs : List (Int × Nat)}
    (h : (rs.all fun r => r.2 == 0 || (decide (0 ≤ r.1) && decide (r.1 + r.2 ≤ e.w.window))) = true) : Inside e rs := by
  intro r hr n
  have := List.all_eq_true.1 h r hr
  simp_all

/-- Queue 5 of context 0: a work queue of 16 entries, or a launch queue; its ring lies in the mapped page. -/
def queue0 (work : Bool) (es : List (List Byte)) : Queue :=
  { ctx := 0, work := work, cap := 16, succ := 5, ring := 0x40050000, units := [(0x4005, 0x50000, 31)], entries := es }
def zeros : List Byte := List.replicate 64 0
def cq : Course := withSs 5 0xFFC0 0
def eqq : Env := env' cq wall0
def sq (es : List (List Byte)) : State := { at' cq wall0 with queues := [(5, queue0 true es)] }

theorem wit_QueuePushes : Issues (sq []) (.wqPush 0x47 0x44 0x45) eqq ∧ (eqq.sb 0x45).toNat % 64 = 0 ∧
    (eqq.sb 0x45).toNat + 64 ≤ eqq.w.window ∧ Quiet eqq ∧ ((sq []).flush 0).ownQueue 0 5 true = some (queue0 true []) ∧
    (queue0 true (List.replicate 15 zeros)).entries.length < 16 ∧ 16 ≤ (queue0 true (List.replicate 16 zeros)).entries.length ∧
    ((sq []).flush 0).ownQueue 0 5 false = none ∧
    StashOpen ((sq []).flush 0) eqq ((List.range 64).map fun i => 0xFFC0 + i) ((sq []).flush 0) :=
  ⟨issues_of_meets (by decide), by decide, by decide, ⟨rfl, rfl, rfl⟩, by decide, by decide, by decide, by decide, .inl ⟨rfl, rfl⟩⟩
theorem wit_QueuePushes_misaligned : ((env' (withSs 5 0xFFE0 0) wall0).sb 0x45).toNat % 64 ≠ 0 ∧
    ((env' (withSs 5 0x10000 0) wall0).sb 0x45).toNat % 64 = 0 ∧
    wall0.window < ((env' (withSs 5 0x10000 0) wall0).sb 0x45).toNat + 64 ∧ ¬ Quiet (env' { cq with stc := 1 } wall0) :=
  ⟨by decide, by decide, by decide, fun h => absurd h.2.1 (by decide)⟩
theorem wit_QueuePushes_slot : let q := queue0 true []
    (sq []).unmappedIn q.units ((List.range 64).map fun i => q.ring + i) = none ∧
    (sq []).unmappedIn [(0x4005, 2 ^ 41, 31)] ((List.range 64).map fun i => q.ring + i) = some q.ring ∧
    (sq []).markedIn (((List.range 64).map fun i => q.ring + i).map fun va => (unitLoc q.units va).1) = none ∧
    { sq [] with marks := [0x50000 / 128] }.markedIn (((List.range 64).map fun i => q.ring + i).map fun va => (unitLoc q.units va).1) =
      some (0x50000 / 128) := by decide +kernel
theorem wit_QueuePops : Issues (sq [zeros]) (.wqPop 0x47 0x44 0x45) eqq ∧ (sq [zeros]).stealRing 0 64 [] 5 = [5] ∧
    ([5] : List Nat)[0]? = some 5 ∧ (sq [zeros]).queue? 5 = some (queue0 true [zeros]) ∧
    (sq []).stealRing 0 64 [] 5 = [5] ∧ (∀ q, (sq []).queue? 5 = some q → q.entries = []) ∧ (sq []).stealRing 0 64 [] 6 = [] ∧
    StashOpen (sq [zeros]) eqq ((List.range 64).map fun i => 0xFFC0 + i) (sq [zeros]) :=
  ⟨issues_of_meets (by decide), by decide, rfl, by decide, by decide, fun q h => by cases h; rfl, by decide, .inl ⟨rfl, rfl⟩⟩

/-- The mapped page is pinned 65,535 times. -/
def fullPins (s : State) : State := { s with islands := [(0, { pins := [⟨0, 0x40000000, 2 ^ 30, 0, 65535⟩] })] }
def noPage (va : Nat) : XFail := ⟨0x20, 2, va⟩

/-- The course runs alone; s4 names global data, s6 and s7 are a drain word to stash at s4. -/
theorem wit_TileInstructions : Issues smem (.tlLoad 7 0x44) emem ∧ Alone emem ∧ emem.sb 0x44 ≠ BitVec.allOnes 64 ∧
    (emem.sb 0x44).toNat % 128 = 0 ∧
    (smem.xlateUnits 0 0 false (rangeUnits [(0x40020000, 16384)])).toOption.isSome = true ∧
    (tileFmt 0).isSome = true ∧ tileFmt 0xFFF = none :=
  ⟨issues_of_meets (by decide), alone rfl rfl, by decide, by decide, by decide, by decide, by decide⟩

def gload : Rng :=
  { units := [(0x4002, 0x20000, 31)], pages := [(0x40000000, 2 ^ 30, 0)], leaves := [{ leaf0 with level := 2 }] }
/-- The island's pin of that page, and what its L2 TLB then keeps. -/
def pinned0 (s : State) : State := s.setIsland 0 { l2 := [tlb0], pins := [⟨0, 0x40000000, 2 ^ 30, 0, 1⟩] }

theorem wit_TileInstructions_pinned : Pinned smem emem false [(0x40020000, 16384)] gload
    (pinned0 smem) := ⟨ok_of (by decide +kernel), by decide⟩
theorem wit_TileInstructions_misaligned : (0x40020040 : Dword).toNat % 128 ≠ 0 := by decide

/-- A drain of f32 with rows 256 bytes apart, to the end of the stash window; the same to global memory. -/
def cdrain : Course := withSs 0xC000 0x801007F00 0
def cdrainG : Course := withSs 0x40020000 0x001007F00 0

theorem wit_TileInstructions_drain : Issues (at' cdrain wall0) (.tlDrain 7 0x44) (env' cdrain wall0) ∧
    (drainWord ((env' cdrain wall0).sb2 0x44).toNat).valid false = true ∧
    (drainWord ((env' cdrain wall0).sb2 0x44).toNat).stash = true ∧ ((env' cdrain wall0).sb 0x44).toNat % 16 = 0 ∧
    Inside (env' cdrain wall0) ((List.range 64).map fun i => (((0xC000 + i * 256 : Nat) : Int), tgtRow 0)) :=
  ⟨issues_of_meets (by decide), by decide, by decide, by decide, inside (by decide +kernel)⟩
theorem wit_TileInstructions_drain_global : Issues (at' cdrainG wall0) (.tlDrain 7 0x44) (env' cdrainG wall0) ∧
    (drainWord ((env' cdrainG wall0).sb2 0x44).toNat).valid false = true ∧
    (drainWord ((env' cdrainG wall0).sb2 0x44).toNat).stash = false ∧
    (drainWord ((env' cdrainG wall0).sb2 0x44).toNat).amax = false ∧
    Pinned (at' cdrainG wall0) (env' cdrainG wall0) true [(0x40020000, 63 * 256 + tgtRow 0)] gload
      (pinned0 (at' cdrainG wall0)) :=
  ⟨issues_of_meets (by decide), by decide, by decide, by decide, ok_of (by decide +kernel), by decide⟩

/-- One K-step of f32 with B in the last 2,048 bytes of the window. -/
def cmma : Course := withSs 0xF800 0x100000 0
def emma : Env := env' cmma wall0

theorem wit_MatrixMultiply : Issues (at' cmma wall0) (.tlMma false false 0 7 8 0x44) emma ∧ Alone emma ∧
    (emma.sb 0x44).toNat % 16 = 0 ∧ emma.fmtInfo.k = 8 ∧
    (mmaWord (emma.sb2 0x44).toNat).pitch = 256 ∧
    Inside emma (((List.range 8).map fun k => (((0xF800 + k * 256 : Nat) : Int), 256)) ++ [(0, 0), (0, 0)]) ∧
    64 * emma.fmtInfo.b.bits / 8 ≤ (mmaWord (emma.sb2 0x44).toNat).pitch ∧ (mmaWord (emma.sb2 0x44).toNat).reserved = 0 ∧
    scaleBytes emma.fmtInfo.a emma.fmtInfo.group 8 = 0 ∧
    ∀ p ∈ pagesOfAll ((List.range 8).map fun k => (0xF800 + k * 256, 256)), emma.w.tagOf p = (mmaWord (emma.sb2 0x44).toNat).span :=
  ⟨issues_of_meets (by decide), alone rfl rfl, by decide, by decide, by decide, inside (by decide +kernel), by decide, by decide, by decide, by decide⟩
/-- A global drain with an absolute maximum 8 bytes on; and the page outside the package, in a PCIe window that lacks max.f32. -/
def cdrainM : Course := withSs 0x40020000 0x11001007F00 0
def tfar : State := { at' cdrainM wall0 with
  portMode := [1, 1], windows := [(3, ⟨0, 1, 0, false, false, 0, 1, 16⟩)], islands := [(0, { l2 := [{ tlb0 with loc := 2 ^ 40 }] })] }
theorem wit_TileInstructions_max : (drainWord ((env' cdrainM wall0).sb2 0x44).toNat).valid false = true ∧
    (drainWord ((env' cdrainM wall0).sb2 0x44).toNat).stash = false ∧ (drainWord ((env' cdrainM wall0).sb2 0x44).toNat).amax = true ∧
    Translates (at' cdrainM wall0) (env' cdrainM wall0) true [(0x40020000, 63 * 256 + tgtRow 0), (0x40020008, 4)] gload
      ((at' cdrainM wall0).learn 0 0 gload.leaves) ∧
    ((at' cdrainM wall0).learn 0 0 gload.leaves).windowAt 0 0 0x40020008 = none ∧
    ((at' cdrainM wall0).learn 0 0 gload.leaves).pinAll 0 0 gload.pages = some (pinned0 (at' cdrainM wall0)) :=
  ⟨by decide, by decide, by decide, ⟨ok_of (by decide +kernel), rfl⟩, by decide +kernel, by decide⟩
/-- A drain to stash that is misaligned, leaves the window, has its absolute maximum before it, or has a pitch of 0xF8; a load and a drain
of pages that nothing maps, and of one that is pinned 65,535 times. -/
def edr (x y : Dword) : Env := env' (withSs x y 0) wall0
theorem wit_TileTraps : Issues (at' (withSs 0xC008 0x801007F00 0) wall0) (.tlDrain 7 0x44) (edr 0xC008 0x801007F00) ∧
    Alone (edr 0xC008 0x801007F00) ∧ ((edr 0xC008 0x801007F00).sb 0x44).toNat % 2 ^ 32 % 16 ≠ 0 ∧ (0x40020008 : Dword).toNat % 16 ≠ 0 ∧
    wall0.window < 0xC010 + 63 * 256 + tgtRow 0 ∧ max (0xC010 + 63 * 256) wall0.window = 0x10000 ∧
    (drainWord (0xFFFFFF1801007F00 : Dword).toNat).amax = true ∧ (drainWord (0xFFFFFF1801007F00 : Dword).toNat).stash = true ∧
    (0 : Int) + (drainWord (0xFFFFFF1801007F00 : Dword).toNat).amOff * 8 = -8 :=
  ⟨issues_of_meets (by decide), alone rfl rfl, by decide, by decide, by decide, by decide, by decide, by decide, by decide⟩
theorem wit_TileTraps_word : (edr 0xC000 0x800F87F00).fmtInfo.acc32 = false ∧
    (drainWord ((edr 0xC000 0x800F87F00).sb2 0x44).toNat).valid false = false ∧
    Inside (edr 0xC000 0x800F87F00) ((List.range 64).map fun i => (((0xC000 + i * 0xF8 : Nat) : Int), tgtRow 0)) :=
  ⟨by decide, by decide, inside (by decide +kernel)⟩
theorem wit_TileTraps_faults : let s := at' (withSs 0x80000000 0x001007F00 0) wall0
    s.xlateUnits 0 0 false (rangeUnits [(0x80000000, 16384)]) = .error (noPage 0x80000000) ∧
    s.xlateUnits 0 0 true (rangeUnits [(0x80000000, 63 * 256 + tgtRow 0)]) = .error (noPage 0x80000000) ∧ s.heldFull 0 1 = false ∧
    (0x20 : Nat) ≠ eccCode ∧ (drainWord (0x001007F00 : Dword).toNat).valid false = true :=
  ⟨error_of (by decide +kernel), error_of (by decide +kernel), by decide, by decide, by decide⟩
theorem wit_TileTraps_room : let s := fullPins smem
    Translates s emem false [(0x40020000, 16384)] gload (s.learn 0 0 gload.leaves) ∧ (s.learn 0 0 gload.leaves).pinAll 0 0 gload.pages = none :=
  ⟨⟨ok_of (by decide +kernel), rfl⟩, by decide +kernel⟩
theorem wit_MmaTraps : Issues (at' cmma wall0) (.tlMma false false 0 7 8 0x44) emma ∧ Alone emma ∧
    ((env' (withSs 0xF808 0x100000 0) wall0).sb 0x44).toNat % 16 ≠ 0 ∧
    Beyond emma (((List.range 8).map fun k => (((0xF810 + k * 256 : Nat) : Int), 256)) ++ [(0, 0), (0, 0)]) 0x10000 ∧
    (mmaWord (0xF0000 : Dword).toNat).pitch < 256 ∧ (mmaWord (0x100008 : Dword).toNat).reserved ≠ 0 ∧
    ∃ p ∈ pagesOfAll ((List.range 8).map fun k => (0xF800 + k * 256, 256)), emma.w.tagOf p ≠ (mmaWord (0x100001 : Dword).toNat).span :=
  ⟨issues_of_meets (by decide), alone rfl rfl, by decide, ⟨(0xFF10, 256), by decide, by decide, by decide, by decide⟩, by decide, by decide, by decide⟩
theorem wit_TileInstructions_route : tfar.windowAt 0 0 0x40020008 = some (3, ⟨0, 1, 0, false, false, 0, 1, 16⟩) ∧
    carries ⟨0, 1, 0, false, false, 0, 1, 16⟩ (.max .f32) 4 = false ∧ tfar.heldFull 0 1 = false := by decide +kernel
theorem wit_DrainConversion : Fmt.e2m1 ∈ [Fmt.f32, .f16, .bf16, .e5m2, .e4m3, .e2m1] ∧ ratOf false 6 0 ≤ topOf .e2m1 ∧
    topOf .e2m1 < ratOf false 13 (-1) ∧ ratOf false 13 (-1) < topOf .e2m1 + 1 ∧ topOf .e2m1 + 1 ≤ ratOf false 7 0 ∧
    Fmt.i4 ∈ [Fmt.i8, .i4] ∧ 2 * ((2 : Int) : Rat) - 1 ≤ 2 * ratOf false 5 (-1) ∧ (Fmt.ofCode 17).isSome = true := by decide +kernel

/-- A drain of f32 to global memory with the absolute maximum before its rows, and a tile word of −2. -/
def dmax : Drain := { dst := 0x40020000, absentDst := false, stash := false, span := 0, pitch := 256, scale := 0x7F, tgt := 0, amax := true, amOff := -4, acc32 := false }
def wmax : Wall := { wall0 with z := [(0, 0xC0000000)] }
theorem wit_DrainResults : Fmt.ofCode dmax.tgt = some .f32 ∧ dmax.amax = true ∧ dmax.absentDst = false ∧ s0.ageOf 0 = some 0 ∧
    s0.wall? 0 = some wall0 ∧ wmax.z.getD 0 (BitVec.allOnes 32) = 0xC0000000 ∧
    Fmt.f32.valF (0xC0000000 : Word).toNat ≠ .absent ∧ Fmt.f32.valF (0xC0000000 : Word).toNat ≠ .nan ∧
    (0xC0000000 : Word).toNat % 2 ^ 31 = 0x40000000 ∧ Fmt.f32.valF (BitVec.allOnes 32 : Word).toNat = .absent := by decide +kernel
/-- One K-step of one product in row 0 of A and column 0 of B; its element of an i32 tile counts one more. -/
def kstep0 : KStep := ⟨[[.fin false 3 0]], [[.fin false 5 0]]⟩
theorem wit_TileContents : wall0.z.sorted = true ∧ (0 : Nat) ≤ 63 ∧ 63 ≤ 64 ∧ (kstep0.a.getD 0 []).length = kstep0.b.length ∧
    kstep0.prods 0 0 = [.fin false 15 0] ∧ kstep0.prods 0 1 = [] ∧
    (mmaElem true (wall0.z.getD 0 (BitVec.allOnes 32)) (kstep0.prods 0 0)).isSome = true := by decide +kernel
theorem wit_MatrixElement : ([5] : List Int) ≠ [] := by decide

def zero0 : Op := { uid := 0, ctx := 0, core := 0, work := .tlZero 7 0xFFFFFFFF }

theorem wit_TileCompletion : (withOp zero0).op? 1 = some zero0 ∧ (withOp zero0).course? 0 = some course0 ∧
    (withOp zero0).wall? course0.age = some wall0 ∧ (withOp zero0).tileReady 1 zero0 = true ∧
    Unhindered (withOp zero0) zero0 wall0 0 zero0.work.size := by unfold Unhindered; decide

/-- Operations that an engine has begun: two K-steps, a load and a drain with 48 of 64 rows left. -/
def mma0 : Op := { uid := 0, ctx := 0, core := 0, work := .tlMma 7 false false [⟨[], []⟩, ⟨[], []⟩] }
def tload0 : Op := { uid := 0, ctx := 0, core := 0, work := .tlLoad 7 (some 0x40020000) [(0x4002, 0x20000, 31)], done := 16 }
def drain0 : Op :=
  { uid := 0, ctx := 0, core := 0, done := 16, work := .tlDrain 7 ⟨0xC000, false, true, 0, 256, 0, 0, false, 0, false⟩ [] }

theorem wit_EngineSteps : (withOp mma0).op? 1 = some mma0 ∧ (withOp mma0).tileReady 1 mma0 = true ∧ mma0.done + 1 < 2 ∧
    Unhindered (withOp mma0) mma0 wall0 0 mma0.nextStop ∧ (withOp drain0).tileReady 1 drain0 = true ∧ drain0.done < 56 ∧
    Unhindered (withOp drain0) drain0 wall0 16 drain0.nextStop := by unfold Unhindered; decide +kernel
theorem wit_EngineSteps_load : (withOp tload0).tileReady 1 tload0 = true ∧ tload0.done < 56 ∧
    Unhindered (withOp tload0) tload0 wall0 16 tload0.nextStop := by unfold Unhindered; decide +kernel

/-- A copy of 192 bytes to 0xFF40 of the window, and a load of an absent source; the operation that its next step ends. -/
def copy1 : Op := { uid := 0, ctx := 0, core := 0, work := .copy true false 0xFF40 0x40020000 0 192 1 192 [(0x4002, 0x20000, 31)] }
def tloadN : Op := { uid := 0, ctx := 0, core := 0, work := .tlLoad 7 none [], done := 16 }
theorem wit_EngineSteps_copy : (withOp copy1).op? 1 = some copy1 ∧ copy1.done < 192 * 1 ∧ copy1.nextStop = 64 ∧
    swz (0xFF40 + 64) 0 / 128 ≠ swz (0xFF40 + 0) 0 / 128 ∧ course0.resident = true ∧
    Unhindered (withOp copy1) copy1 wall0 0 copy1.nextStop := by unfold Unhindered; decide +kernel
theorem wit_EngineSteps_absent : (withOp tloadN).tileReady 1 tloadN = true ∧ tloadN.done < 56 ∧
    Unhindered (withOp tloadN) tloadN wall0 16 tloadN.nextStop ∧ ({ tloadN with done := 56 } : Op).work.size ≤
      ({ tloadN with done := 56 } : Op).nextStop ∧ tloadN.work.engineKind = 0 ∧ tloadN.work.isCopy = false := by unfold Unhindered; decide +kernel

/-- A copy of two rows of 32 bytes: s4 is global, s5 is the end of the stash window, s6 the shape. -/
def ccpy : Course := withSs 0x40020000 0xFFC0 0x2000020
def ecpy : Env := env' ccpy wall0

theorem wit_Copies : Issues (at' ccpy wall0) (.cpyG2s 0x45 0x44 0x46) ecpy ∧ ecpy.sb 0x45 ≠ BitVec.allOnes 64 ∧
    ecpy.sb 0x44 ≠ BitVec.allOnes 64 ∧ shapeOk (ecpy.sb 0x46) ∧ (ecpy.sb 0x45).toNat % 2 ^ 32 % 16 = 0 ∧
    (ecpy.sb 0x45).toNat / 2 ^ 35 = 0 ∧ (ecpy.sb 0x45).toNat % 2 ^ 32 + 2 * 32 ≤ ecpy.w.window ∧
    (ecpy.sb 0x44).toNat % 16 = 0 ∧
    (at' ccpy wall0).xlateUnits 0 0 false (rangeUnits (copyRows 0x40020000 (ecpy.sb 0x46))) = .ok gload ∧
    (at' ccpy wall0).xlateUnits 0 0 true (rangeUnits (copyRows 0x40020000 (ecpy.sb 0x46))) = .ok gload ∧
    (((at' ccpy wall0).learn 0 0 gload.leaves).pinAll 0 0 (bothSides gload {}).pages).isSome = true ∧
    ∀ p ∈ pagesOf 0xFFC0 64, ecpy.w.tagOf p = 0 :=
  ⟨issues_of_meets (by decide), by decide, by decide, ⟨by decide, by decide, by decide⟩, by decide, by decide, by decide, by decide,
    ok_of (by decide +kernel), ok_of (by decide +kernel), by decide, by decide⟩
theorem wit_Copies_absent : e0.sb 0x44 = BitVec.allOnes 64 := by decide

/-- A copy's traps and faults: s4 to s6 with one thing wrong; the two sides of cpy.g2g in two unmapped pages. -/
def ecp (x y z : Dword) : Env := env' (withSs x y z) wall0
def scp (x y z : Dword) : State := at' (withSs x y z) wall0
def twoRows (base : Nat) : List (Nat × Nat) := copyRows base 0x2000020

theorem wit_CopyTraps_words : Issues (scp 0x40020008 0xFFC0 0x2000020) (.cpyG2s 0x45 0x44 0x46) (ecp 0x40020008 0xFFC0 0x2000020) ∧
    (0x40020008 : Dword).toNat % 16 ≠ 0 ∧ (0xFFC0 : Dword).toNat % 2 ^ 32 % 16 = 0 ∧ (0x40020008 : Dword) ≠ BitVec.allOnes 64 ∧
    ¬ shapeOk 0x2000021 ∧ ¬ shapeOk 0x20 ∧ shapeOk 0x2000020 ∧ wall0.window < 0xFFD0 + 2 * 32 ∧ 0xFFC0 + 2 * 32 ≤ wall0.window ∧
    (0x80000FFC0 : Dword).toNat / 2 ^ 35 ≠ 0 ∧ (0x80000FFC0 : Dword).toNat % 2 ^ 32 = 0xFFC0 ∧
    (∃ q ∈ pagesOf 0xFFC0 (2 * 32), wall0.tagOf q ≠ (0x10000FFC0 : Dword).toNat / 2 ^ 32 % 8) ∧
    ∀ q ∈ pagesOf 0xFFC0 (2 * 32), wall0.tagOf q = (0xFFC0 : Dword).toNat / 2 ^ 32 % 8 := by
  refine ⟨issues_of_meets (by decide), ?_⟩
  unfold shapeOk
  decide +kernel
theorem wit_CopyTraps_one :
    (scp 0x80000000 0xFFC0 0x2000020).xlateUnits 0 0 false (rangeUnits (twoRows 0x80000000)) = .error (noPage 0x80000000) ∧
    (scp 0x80000000 0xFFC0 0x2000020).xlateUnits 0 0 true (rangeUnits []) = .ok {} ∧
    (scp 0x40020000 0x80000000 0x2000020).xlateUnits 0 0 false (rangeUnits (twoRows 0x40020000)) = .ok gload ∧
    (scp 0x40020000 0x80000000 0x2000020).xlateUnits 0 0 true (rangeUnits (twoRows 0x80000000)) = .error (noPage 0x80000000) ∧
    (scp 0x80000000 0xFFC0 0x2000020).heldFull 0 1 = false ∧ (0x20 : Nat) ≠ eccCode :=
  ⟨error_of (by decide +kernel), ok_of (by decide +kernel), ok_of (by decide +kernel), error_of (by decide +kernel), by decide, by decide⟩
theorem wit_CopyTraps_two : let s := scp 0x80000000 0x90000000 0x2000020
    s.xlateUnits 0 0 false (rangeUnits (twoRows 0x80000000)) = .error (noPage 0x80000000) ∧
    s.xlateUnits 0 0 true (rangeUnits (twoRows 0x90000000)) = .error (noPage 0x90000000) ∧
    s.xlateUnits 0 0 true (rangeUnits (twoRows 0x100000000000000)) = .error ⟨0x0C, 0, 0x100000000000000⟩ ∧
    s.xlateUnits 0 0 false (rangeUnits (twoRows 0x100000000000000)) = .error ⟨0x0C, 0, 0x100000000000000⟩ ∧ (0x0C : Nat) ≠ eccCode :=
  ⟨error_of (by decide +kernel), error_of (by decide +kernel), error_of (by decide +kernel), error_of (by decide +kernel), by decide⟩
theorem wit_CopyTraps_error : let s : State := { scp 0x80000000 0x90000000 0x2000020 with marks := [lineOf 0x20000] }
    s.xlateUnits 0 0 false (rangeUnits (twoRows 0x80000000)) = .error ⟨eccCode, 0, 0x400⟩ ∧
    s.xlateUnits 0 0 true (rangeUnits (twoRows 0x100000000000000)) = .error ⟨0x0C, 0, 0x100000000000000⟩ :=
  ⟨error_of (by decide +kernel), error_of (by decide +kernel)⟩
theorem wit_CopyTraps_room : let s := fullPins (scp 0x40020000 0xFFC0 0x2000020)
    s.xlateUnits 0 0 false (rangeUnits (twoRows 0x40020000)) = .ok gload ∧ s.xlateUnits 0 0 true (rangeUnits []) = .ok {} ∧
    (s.learn 0 0 gload.leaves).pinAll 0 0 (dedup (gload.pages ++ [])) = none :=
  ⟨ok_of (by decide +kernel), ok_of (by decide +kernel), by decide +kernel⟩

/-- A region of one page: its last page of the window, its base, and its number 7. -/
def cbind : Course := withSs 0x10000000F000 0x40020000 7
def region0 : Region := { off := 0xF000, len := 4096, va := 0x40020000, units := [(0x4002, 0x20000, 31)] }

theorem wit_BatchesAndRegions : Issues s0 (.cpyBatch 0x44 0) e0 ∧ e0.c.batches.length < 64 ∧ (∀ x ∈ e0.c.batches, 0 < x.n) ∧
    64 ≤ (env' { course0 with batches := List.replicate 64 ⟨1, [], none⟩ } wall0).c.batches.length ∧
    ∃ x ∈ (env' { course0 with batches := List.replicate 64 ⟨1, [], none⟩ } wall0).c.batches, x.n ≤ 1 :=
  ⟨issues_of_meets (by decide), by decide, by decide, by decide, ⟨⟨1, [], none⟩, by decide, by decide⟩⟩
/-- The last object of the window; one that is misaligned; one beyond the window. -/
theorem wit_BatchesAndRegions_object : Issues (at' (withSs 0xFFF0 0 0) wall0) (.cpyBatch 0x45 0x44) (env' (withSs 0xFFF0 0 0) wall0) ∧
    (0xFFF0 : Dword).toNat % 16 = 0 ∧ (0xFFF0 : Dword).toNat + 16 ≤ wall0.window ∧ (0xFFF8 : Dword).toNat % 16 ≠ 0 ∧
    wall0.window < (0x10000 : Dword).toNat + 16 ∧ (env' (withSs 0xFFF0 0 0) wall0).c.batches.length < 64 :=
  ⟨issues_of_meets (by decide), by decide, by decide, by decide, by decide, by decide⟩
theorem wit_BatchesAndRegions_bind :
    let e := env' cbind wall0
    Issues (at' cbind wall0) (.cpyBind 0x44 0x45 0x46) e ∧ (e.sb 0x45).toNat % 4096 = 0 ∧ (e.sb 0x46).toNat ≤ 7 ∧
    e.w.regions.get? 7 = none ∧ (e.sb 0x44).toNat % 2 ^ 32 = 0xF000 ∧ (e.sb 0x44).toNat / 2 ^ 32 = 4096 ∧
    (∀ p ∈ e.w.regions, p.2.off + p.2.len ≤ 0xF000) := by
  refine ⟨issues_of_meets (by decide), by decide, by decide, by decide, by decide, by decide, by decide⟩
theorem wit_BindTraps : Issues (scp 0x10000000F000 0x40020800 7) (.cpyBind 0x44 0x45 0x46) (ecp 0x10000000F000 0x40020800 7) ∧
    (0x40020800 : Dword).toNat % 4096 ≠ 0 ∧ (0x40020000 : Dword).toNat % 4096 = 0 ∧ 7 < (8 : Dword).toNat ∧
    ({ wall0 with regions := [(7, region0)] } : Wall).regions.get? 7 = some region0 ∧ region0.off < 0xF000 + 4096 ∧
    0xF000 < region0.off + region0.len ∧ wall0.window < 0xF000 + 8192 ∧ (0xF000 : Nat) % 4096 = 0 ∧ ¬ wall0.window < 0xF000 + 4096 ∧
    (wall0.regions.get? 7).isSome = false ∧ (∀ p ∈ wall0.regions, ¬ (0xF000 < p.2.off + p.2.len ∧ p.2.off < 0xF000 + 4096)) ∧
    (fullPins (scp 0x10000000F000 0x40020000 7)).pinAll 0 0 gload.pages = none := by
  refine ⟨issues_of_meets (by decide), ?_⟩
  decide +kernel
theorem wit_BindTraps_pages : (scp 0x10000000F000 0x80000000 7).xlateUnits 0 0 true (rangeUnits [(0x80000000, 4096)]) =
      .error (noPage 0x80000000) ∧
    (fullPins (scp 0x10000000F000 0x40020000 7)).xlateUnits 0 0 true (rangeUnits [(0x40020000, 4096)]) = .ok gload ∧
    ((fullPins (scp 0x10000000F000 0x40020000 7)).learn 0 0 gload.leaves).pinAll 0 0 gload.pages = none :=
  ⟨error_of (by decide +kernel), ok_of (by decide +kernel), by decide +kernel⟩
theorem wit_BatchesAndRegions_unbind : Issues (at' (withSs 7 0 0) { wall0 with regions := [(7, region0)] }) (.cpyUnbind 0x44)
      (env' (withSs 7 0 0) { wall0 with regions := [(7, region0)] }) ∧
    (env' (withSs 7 0 0) { wall0 with regions := [(7, region0)] }).w.regions.get? 7 = some region0 ∧
    (at' (withSs 7 0 0) { wall0 with regions := [(7, region0)] }).wall? 0 = some { wall0 with regions := [(7, region0)] } ∧
    wall0.regions.get? 7 = none ∧ (0x40020800 : Dword).toNat % 4096 ≠ 0 :=
  ⟨issues_of_meets (by decide), by decide, by decide, by decide, by decide⟩

def copy0 : Op := { uid := 0, ctx := 0, core := 0, work := .copy true false 0xFFC0 0x40020000 0 32 2 32 [(0x4002, 0x20000, 31)] }

theorem wit_CopyCompletion : (withOp copy0).op? 1 = some copy0 ∧ (withOp copy0).course? 0 = some course0 ∧
    (withOp copy0).wall? 0 = some wall0 ∧ course0.resident = true ∧ copy0.done < 32 * 2 ∧
    Unhindered (withOp copy0) copy0 wall0 0 copy0.work.size := by unfold Unhindered; decide +kernel

/-! The kv class and the engines. -/

/-- In the mapped page: a block map of two entries at 0x3_0000 with LEN 1 and the block 3, its pool of four blocks of 16-byte
rows at 0x3_0040, their counts at 0x3_0100, and an empty map of two entries at 0x3_0200 (R378 to R381). -/
def kvMem : Tab Byte := retireMem tables
  (cellsAt 0x30000 (natLe 8 0x40030040 ++ natLe 8 0x40030080 ++ natLe 8 1 ++ natLe 8 2) ++
    cellsAt 0x30040 (natLe 8 0x40034000 ++ natLe 8 0x40030100 ++ natLe 8 0 ++ natLe 8 (5 * 2 ^ 14 + 2 ^ 31 + 4 * 2 ^ 40)) ++
    cellsAt 0x30080 (natLe 8 0xFFFFFFFF00000003) ++ cellsAt 0x30106 [1] ++
    cellsAt 0x30200 (natLe 8 0 ++ natLe 8 0x40030280 ++ natLe 8 0 ++ natLe 8 2))

def map0 : KvMap := ⟨0x40030000, 0x40030040, 0x40030080, 1, 2, false⟩
def map1 : KvMap := ⟨0x40030200, 0, 0x40030280, 0, 2, false⟩
def pool0 : KvPool := ⟨0x40030040, 0x40034000, 0x40030100, 5, 0, 16, 4, false⟩

/-- s4 names the map, s5 the empty map, s6 the stash destination 0xFC00 with no object. -/
def ckv : Course := withSs 0x40030000 0x40030200 (0xFFFF00000000FC00 : Dword)
def skv : State := { at' ckv wall0 with mem := kvMem }
def ekv : Env := env' ckv wall0
def gkv : Rng :=
  { units := [(0x4003, 0x30000, 31)], pages := [(0x40000000, 2 ^ 30, 0)], leaves := [{ leaf0 with level := 2 }] }
/-- The same from the island's L2 TLB, which keeps the translation from then on. -/
def gkv' : Rng := { gkv with leaves := [leaf0] }
def learned (s : State) : State := s.learn 0 0 gkv.leaves

theorem clear_of {s : State} {e : Env} {us : Tab (Nat × Nat)} {rs : List (Nat × Nat)}
    (h : (let vas := rs.flatMap fun r => (List.range r.2).map fun i => (r.1 + i) % 2 ^ 64
      let locs := vas.map fun va => s.place (unitLoc us va).1
      (s.sideAt e vas.contains).isNone && (s.courseBusy e.r.uid locs).isEmpty && (s.markedIn locs).isNone) = true) :
    Clear s e us rs := by
  simp only [Bool.and_eq_true, List.isEmpty_iff, Option.isNone_iff_eq_none] at h
  exact ⟨h.1.1, h.1.2, h.2⟩

theorem reads0 : ReadsRecord skv ekv 0x40030000 64 ((learned skv).readUnits 0 gkv.units 0x40030000 64) (learned skv) :=
  ⟨gkv, ⟨ok_of (by decide +kernel), rfl⟩, clear_of (by decide +kernel), rfl⟩
theorem learned_again : learned skv = (learned skv).learn 0 0 gkv'.leaves := by decide +kernel
theorem reads1 (va : Nat) (h : ((learned skv).xlateUnits 0 0 false (rangeUnits [(va, 64)])).toOption = some gkv')
    (c : Clear (learned skv) ekv gkv'.units [(va, 64)]) :
    ReadsRecord (learned skv) ekv va 64 ((learned skv).readUnits 0 gkv'.units va 64) (learned skv) :=
  ⟨gkv', ⟨ok_of h, learned_again⟩, c, rfl⟩
theorem readsMap : ReadsMap skv ekv 0x40030000 map0 pool0 (learned skv) :=
  ⟨_, _, _, reads0, by decide +kernel, rfl, by decide,
    reads1 0x40030040 (by decide +kernel) (clear_of (by decide +kernel)), by decide +kernel, rfl⟩

theorem wit_KvGather : Issues skv (.kvGather 0x46 0x44 0x45) ekv ∧ ekv.sb 0x44 ≠ BitVec.allOnes 64 ∧
    (ekv.sb 0x44).toNat % 64 = 0 ∧ ReadsMap skv ekv (ekv.sb 0x44).toNat map0 pool0 (learned skv) ∧
    (ekv.sb 0x46).toNat % 2 ^ 32 % 16 = 0 ∧
    (ekv.sb 0x46).toNat / 2 ^ 35 % 2 ^ 13 = 0 ∧ (ekv.sb 0x46).toNat / 2 ^ 48 = 0xFFFF ∧ Inside ekv [(0xFC00, 64 * 16)] ∧
    ∀ q ∈ pagesOf 0xFC00 (64 * 16), ekv.w.tagOf q = 0 :=
  ⟨issues_of_meets (by decide +kernel), by decide, by decide, readsMap, by decide, by decide, by decide,
    inside (by decide), by decide⟩

/-- The same with other bytes at one physical address; records with one thing wrong; and stash words. -/
def skvWith (pa : Nat) (bs : List Byte) : State := { skv with mem := retireMem kvMem (cellsAt pa bs) }
def mapBytes (s : State) : List Byte := (learned s).readUnits 0 gkv.units 0x40030000 64
theorem readsFirst {s : State} (h : (s.xlateUnits 0 0 false (rangeUnits [(0x40030000, 64)])).toOption = some gkv)
    (c : Clear (learned s) ekv gkv.units [(0x40030000, 64)]) : ReadsRecord s ekv 0x40030000 64 (mapBytes s) (learned s) :=
  ⟨gkv, ⟨ok_of h, rfl⟩, c, rfl⟩

theorem wit_KvGatherTraps_words : Issues skv (.kvGather 0x46 0x44 0x45) ekv ∧ (env' (withSs (BitVec.allOnes 64) 0 0) wall0).sb 0x44 = BitVec.allOnes 64 ∧
    (0xFFFF00000000FC08 : Dword).toNat % 2 ^ 32 % 16 ≠ 0 ∧ Beyond ekv [(((16 * 0x1000 : Nat) : Int), 16)] 0x10000 ∧
    (0x40030020 : Dword).toNat % 64 ≠ 0 ∧
    skv.xlateUnits 0 0 false (rangeUnits [(0x80000000, 64)]) = .error (noPage 0x80000000) :=
  ⟨issues_of_meets (by decide +kernel), by decide, by decide, ⟨_, .head _, by decide, by decide, by decide⟩, by decide, error_of (by decide +kernel)⟩
theorem wit_KvGatherTraps_map : let s := skvWith 0x30000 (natLe 8 0x40030048)
    ReadsRecord s ekv 0x40030000 64 (mapBytes s) (learned s) ∧ (KvMap.ofBytes 0x40030000 (mapBytes s)).pool % 64 ≠ 0 ∧
    (let s := skvWith 0x30000 (natLe 8 0x80000000)
     ReadsRecord s ekv 0x40030000 64 (mapBytes s) (learned s) ∧ (KvMap.ofBytes 0x40030000 (mapBytes s)).pool = 0x80000000 ∧
       (learned s).xlateUnits 0 0 false (rangeUnits [(0x80000000, 64)]) = .error (noPage 0x80000000)) ∧
    let s := skvWith 0x30018 (natLe 8 0)
    ReadsRecord s ekv 0x40030000 64 (mapBytes s) (learned s) ∧ (KvMap.ofBytes 0x40030000 (mapBytes s)).bad = true :=
  ⟨readsFirst (by decide +kernel) (clear_of (by decide +kernel)), by decide +kernel,
    ⟨readsFirst (by decide +kernel) (clear_of (by decide +kernel)), by decide +kernel, error_of (by decide +kernel)⟩,
    readsFirst (by decide +kernel) (clear_of (by decide +kernel)), by decide +kernel⟩
theorem wit_KvGatherTraps_pool : ReadsRecord (learned skv) ekv 0x40030040 64 ((learned skv).readUnits 0 gkv'.units 0x40030040 64) (learned skv) ∧
    KvPool.ofBytes 0x40030040 ((learned skv).readUnits 0 gkv'.units 0x40030040 64) = pool0 ∧ map0.bad = false ∧ pool0.bad = false ∧
    Beyond ekv [((0xFC10 : Int), 64 * pool0.rowBytes)] 0x10000 ∧ (∀ y, ¬ Beyond ekv [((0xFC00 : Int), 64 * pool0.rowBytes)] y) ∧
    (0xFFFF00080000FC00 : Dword).toNat / 2 ^ 35 % 2 ^ 13 ≠ 0 ∧
    (∃ q ∈ pagesOf 0xFC00 (64 * pool0.rowBytes), ekv.w.tagOf q ≠ (0xFFFF00010000FC00 : Dword).toNat / 2 ^ 32 % 8) ∧
    (KvPool.ofBytes 0x40030040 (List.replicate 64 0)).bad = true := by
  refine ⟨reads1 0x40030040 (by decide +kernel) (clear_of (by decide +kernel)), by decide +kernel, rfl, rfl,
    ⟨_, .head _, by decide, by decide, by decide⟩, ?_, by decide, by decide +kernel, by decide +kernel⟩
  rintro y ⟨r, hr, -, hw, -⟩
  cases List.mem_singleton.1 hr
  exact absurd hw (by decide)

/-- The gather of the map from position b, at one of its rows. -/
def gat (start : Option Nat) (row : Nat) (ids : Tab Nat) : Gather :=
  { off := 0xFC00, span := 0, start := start, len := 1, entries := 0x40030080, nblk := 4, rowBytes := 16, elem := 0,
    data := 0x40034000, row := row, ids := ids }

theorem wit_KvGather_ids : (gat (some 0) 0 []).start = some 0 ∧ 0 + 0 < (gat (some 0) 0 []).len ∧
    skv.reach 0 0 [((gat (some 0) 0 []).entries + 4 * ((0 + 0) / 16), 4)] = .ok gkv ∧ (skv.pinAll 0 0 gkv.pages).isSome = true ∧
    leNat (skv.readUnits 0 gkv.units 0x40030080 4) = 3 ∧ skv.boundFail ekv.w [] = none :=
  ⟨rfl, by decide, ok_of (by decide +kernel), by decide +kernel, by decide +kernel, rfl⟩
theorem wit_GatherRows : (gat (some 0) 1 []).len ≤ 0 + (gat (some 0) 1 []).row ∧ 0 + (gat (some 0) 0 []).row < map0.len ∧
    (gat (some 0) 0 [(0, 3)]).ids.get? 0 = some 3 ∧ (gat (some 0) 0 []).ids.get? 0 = none ∧
    skv.reach 0 0 [(0x40030080, 4)] = .ok gkv ∧ leNat [3, 0, 0, 0] = 3 ∧ 3 < pool0.nblk ∧ ¬ 4 < pool0.nblk ∧
    skv.vread 0 0 (0x40034000 + (16 * 3 + 0 % 16) * 16) 16 = .ok (List.replicate 16 0) ∧
    (skv.gatherRow 0 0 (gat (some 0) 0 [(0, 3)])).toOption.isSome = true :=
  ⟨by decide, by decide, rfl, rfl, ok_of (by decide +kernel), by decide, by decide, by decide, ok_of (by decide +kernel),
    by decide +kernel⟩

/-- Lane 0 appends the row at stash offset 0xFFF0, the last of the window, to the map; lane 1 has no map. -/
def capp : Course := { ckv with vec := [(64 * 8, 0x40030000), (64 * 9, 0), (64 * 10, 0xFFF0)] }
def eapp : Env := env' capp wall0
def sapp : State := { skv with courses := [(0, capp)] }

theorem wit_KvAppend : Issues sapp (.kvAppend 8 10) eapp ∧ sapp.heldFull 0 0 = false ∧ Quiet eapp ∧
    (eapp.lanes.filter fun l => eapp.vpb 8 l ≠ BitVec.allOnes 64) = [0] ∧ (eapp.vpb 8 0).toNat % 64 = 0 ∧
    (eapp.v .n32 10 0).toNat % 16 = 0 ∧ sapp.flushAll.kvLoad 0 0 (eapp.vpb 8 0).toNat = .record map0 pool0 none ∧
    (eapp.v .n32 10 0).toNat + pool0.rowBytes ≤ eapp.w.window ∧
    (KvAcc.serve { s := sapp.flushAll, out := [(1, BitVec.allOnes 32)] } eapp (encode (.kvAppend 8 10)).toNat
      (some (.record map0 pool0 none)) (eapp.v .n32 10) 1 [0]).dead = none ∧
    (KvAcc.serve { s := sapp.flushAll, out := [(1, BitVec.allOnes 32)] } eapp (encode (.kvAppend 8 10)).toNat
      (some (.record map0 pool0 none)) (eapp.v .n32 10) 1 [0]).parks = [] :=
  ⟨issues_of_meets (by decide +kernel), by decide, ⟨rfl, rfl, rfl⟩, by decide, by decide, by decide, by decide +kernel, by decide,
    by decide +kernel, by decide +kernel⟩
theorem wit_KvAppend_waits : ¬ Quiet (env' { capp with ldc := 1 } wall0) ∧ 0 ∈ eapp.lanes ∧ eapp.vpb 8 0 ≠ BitVec.allOnes 64 ∧
    eapp.v .n32 10 0 ≠ BitVec.allOnes 32 := ⟨fun h => absurd h.1 (by decide), by decide, by decide, by decide⟩
theorem wit_KvAppend_lane : (skv.laneMeets 0 0 map0 pool0 1).2 matches .go _ _ _ _ _ _ ∧ 16 * map0.cap ≤ 32 ∧ (0 : Word) ≠ BitVec.allOnes 32 := by
  decide +kernel
theorem wit_KvAppend_badId : (skv.laneMeets 0 0 map0 { pool0 with nblk := 3 } 1) = (skv, .badId) ∧
    ((skvWith 0x30106 [2]).laneMeets 0 0 map0 pool0 1).2 = .parks 0x21 7 0x40030080 ∧ (skv.laneMeets 0 0 map0 pool0 16).2 = .parks 0x23 0x40030040 0x40030000 ∧
    (skv.laneMeets 0 0 { map0 with entries := 0x80000000 } pool0 1).2 = .fails (noPage 0x80000000) ∧
    (skv.laneMeets 0 0 { map0 with entries := 0x100000000000000 } pool0 1).2 = .fails ⟨0x0C, 0, 0x100000000000000⟩ := by decide +kernel
/-- FREEQ holds two ids: 9, beyond the pool of four blocks, and 2. -/
def entryOf (id : Nat) : List Byte := natLe 4 id ++ List.replicate 60 0
def freeq : Queue := queue0 true [entryOf 9, entryOf 2]
def sfree : State := { skvWith 0x50000 (entryOf 9 ++ entryOf 2) with queues := [(5, freeq)] }
theorem wit_KvAppendLane : map0.cap ≤ 32 / 16 ∧ 1 / 16 < map0.cap ∧ skv.vread 0 0 0x40030080 4 = .ok (natLe 4 3) ∧
    skv.vread 0 0 0x40030084 4 = .ok (natLe 4 (2 ^ 32 - 1)) ∧ skv.xlateRange 0 0 0x40030080 4 false = .ok gkv ∧
    skv.xlateRange 0 0 (pool0.refs + 2 * 3) 2 false = .ok gkv ∧ skv.vread 0 0 (pool0.refs + 2 * 3) 2 = .ok [1, 0] ∧
    (skvWith 0x30106 [2]).vread 0 0 (pool0.refs + 2 * 3) 2 = .ok [2, 0] ∧
    skv.xlateRange 0 0 (pool0.data + (16 * 3 + 1 % 16) * pool0.rowBytes) pool0.rowBytes true = .ok gkv ∧
    skv.xlateRange 0 0 (map0.va + 16) 4 true = .ok gkv ∧
    skv.vread 0 0 0x80000000 4 = .error (noPage 0x80000000) :=
  ⟨by decide, by decide, ok_of (by decide +kernel), ok_of (by decide +kernel), ok_of (by decide +kernel), ok_of (by decide +kernel),
    ok_of (by decide +kernel), ok_of (by decide +kernel), ok_of (by decide +kernel), ok_of (by decide +kernel), error_of (by decide +kernel)⟩
theorem wit_KvAppendLane_free : sfree.ownQueue 0 5 true = some freeq ∧ skv.ownQueue 0 5 true = none ∧
    leNat ((sfree.headBytes freeq (entryOf 9)).take 4) = 9 ∧ (sfree.freeHead 0 5 4).2 = some 2 ∧
    ((sfree.freeHead 0 5 4).1.laneMeets 0 0 map0 pool0 16).2 matches .go 2 true _ _ _ _ := by decide +kernel
theorem wit_KvForkAndDrop : Issues skv (.kvFork 0x45 0x44) ekv ∧ ekv.sb 0x45 ≠ BitVec.allOnes 64 ∧
    (ekv.sb 0x45).toNat % 64 = 0 ∧ (ekv.sb 0x44).toNat ≠ (ekv.sb 0x45).toNat ∧
    ReadsMap skv ekv (ekv.sb 0x44).toNat map0 pool0 (learned skv) ∧
    ReadsRecord (learned skv) ekv 0x40030200 64 ((learned skv).readUnits 0 gkv'.units 0x40030200 64) (learned skv) ∧
    KvMap.ofBytes 0x40030200 ((learned skv).readUnits 0 gkv'.units 0x40030200 64) = map1 ∧ (map0.len + 15) / 16 ≤ map1.cap ∧
    Translates (learned skv) ekv false [(map0.entries, 4)] gkv' (learned skv) ∧
    Translates (learned skv) ekv true [(map1.entries, 8), (0x40030200, 64)] gkv' (learned skv) ∧
    Clear (learned skv) ekv gkv'.units [(map0.entries, 4)] ∧ Clear (learned skv) ekv gkv'.units [(map1.entries, 8)] ∧ Quiet ekv :=
  ⟨issues_of_meets (by decide +kernel), by decide, by decide, by decide, readsMap,
    reads1 0x40030200 (by decide +kernel) (clear_of (by decide +kernel)), by decide +kernel, by decide,
    ⟨ok_of (by decide +kernel), learned_again⟩, ⟨ok_of (by decide +kernel), learned_again⟩, clear_of (by decide +kernel), clear_of (by decide +kernel),
    ⟨rfl, rfl, rfl⟩⟩

/-- The state in which kv.fork and kv.drop read the counts. -/
def fkv : State := ((learned skv).flush 0).flushAll

theorem wit_KvForkAndDrop_counts : namedIds (idsOf (fkv.readUnits 0 gkv'.units map0.entries 4)) pool0 = [3] ∧
    Translates fkv ekv true [(pool0.refAddr 3, 2)] gkv' (fkv.learn 0 0 gkv'.leaves) ∧
    Clear (fkv.learn 0 0 gkv'.leaves) ekv gkv'.units [(pool0.refAddr 3, 2)] ∧
    (fkv.learn 0 0 gkv'.leaves).refOf 0 gkv'.units pool0 3 ≠ 65535 :=
  ⟨by decide +kernel, ⟨ok_of (by decide +kernel), rfl⟩, clear_of (by decide +kernel), by decide +kernel⟩
theorem wit_KvForkAndDrop_drop : Issues skv (.kvDrop 0x44) ekv ∧
    Translates (learned skv) ekv false [(map0.entries, 8)] gkv' (learned skv) ∧
    Clear (learned skv) ekv gkv'.units [(map0.entries, 8)] ∧ e0.sb 0x44 = BitVec.allOnes 64 ∧
    ¬ Quiet (env' { ckv with tlc := 1 } wall0) :=
  ⟨issues_of_meets (by decide +kernel), ⟨ok_of (by decide +kernel), learned_again⟩, clear_of (by decide +kernel), by decide,
    fun h => absurd h.2.2 (by decide)⟩

/-- The state in which kv.drop lowers the count of block 3, with a queue of free blocks. -/
def wkv : State := fkv.learn 0 0 gkv'.leaves
def freed (es : List (List Byte)) : State :=
  { wkv with queues := [(pool0.freeq, queue0 true es)] }.performUnits 0 gkv'.units (vcells (pool0.refAddr 3) (natLe 2 0))

theorem wkv_again : wkv = wkv.learn 0 0 gkv'.leaves := by decide +kernel
theorem wit_KvForkAndDrop_dropped : idsOf (fkv.readUnits 0 gkv'.units map0.entries 8) = [3, 2 ^ 32 - 1] ∧
    Translates fkv ekv true [(map0.entries, 4), (0x40030010, 4)] gkv' wkv ∧
    Translates wkv ekv false [(pool0.refAddr 3, 2)] gkv' wkv ∧ Clear wkv ekv gkv'.units [(pool0.refAddr 3, 2)] ∧
    wkv.refOf 0 gkv'.units pool0 3 = 1 ∧ Translates wkv ekv true [(pool0.refAddr 3, 2)] gkv' wkv :=
  ⟨by decide +kernel, ⟨ok_of (by decide +kernel), rfl⟩, ⟨ok_of (by decide +kernel), wkv_again⟩, clear_of (by decide +kernel),
    by decide +kernel, ⟨ok_of (by decide +kernel), wkv_again⟩⟩
theorem wit_KvForkAndDrop_blocks : pool0.nblk ≤ 5 ∧ 3 < pool0.nblk ∧ wkv.refOf 0 gkv'.units pool0 0 = 0 ∧
    ({ wkv with mem := [(0x30100 + 6, 2)] } : State).refOf 0 gkv'.units pool0 3 = 2 ∧
    (freed []).ownQueue 0 pool0.freeq true = some (queue0 true []) ∧ (queue0 true []).entries.length < (queue0 true []).cap ∧
    (freed (List.replicate 16 zeros)).ownQueue 0 pool0.freeq true = some (queue0 true (List.replicate 16 zeros)) ∧
    (queue0 true (List.replicate 16 zeros)).cap ≤ (queue0 true (List.replicate 16 zeros)).entries.length := by decide +kernel

/-- A fork to itself or to a misaligned record; a destination of no capacity; a map with a reserved bit; and a count of 65,535. -/
theorem wit_KvForkTraps : (env' (withSs 0x40030000 0x40030000 0) wall0).sb 0x44 = (env' (withSs 0x40030000 0x40030000 0) wall0).sb 0x45 ∧
    (0x40030000 : Dword).toNat % 64 = 0 ∧ (0x40030220 : Dword).toNat % 64 ≠ 0 ∧
    skv.xlateUnits 0 0 false (rangeUnits [(0x80000000, 64)]) = .error (noPage 0x80000000) :=
  ⟨by decide, by decide, by decide, error_of (by decide +kernel)⟩
theorem wit_KvForkTraps_records :
    ReadsRecord skv ekv 0x40030000 64 ((learned skv).readUnits 0 gkv.units 0x40030000 64) (learned skv) ∧
    map0.pool % 64 = 0 ∧ map0.bad = false ∧ pool0.bad = false ∧ (KvMap.ofBytes 0x40030200 (List.replicate 64 0)).bad = true ∧
    map1.cap < (({ map0 with len := 33 } : KvMap).len + 15) / 16 ∧
    ReadsRecord (learned skv) ekv 0x40030200 64 ((learned skv).readUnits 0 gkv'.units 0x40030200 64) (learned skv) :=
  ⟨reads0, by decide, by decide, by decide, by decide, by decide, reads1 0x40030200 (by decide +kernel) (clear_of (by decide +kernel))⟩
/-- Block 3's count at its highest. -/
def wfull3 : State := { wkv with mem := retireMem kvMem (cellsAt 0x30106 [0xFF, 0xFF]) }
theorem wit_KvForkTraps_count : namedIds (idsOf (fkv.readUnits 0 gkv'.units map0.entries 4)) pool0 = [] ++ 3 :: [] ∧
    wfull3.refOf 0 gkv'.units pool0 3 = 65535 ∧ wfull3.heldFull 0 1 = false := by decide +kernel

/-- Two layout records of 4 by 4 f32 elements at 0x3_0000, good for a transposition. -/
def record0 : List Byte := natLe 8 0x40050000 ++ List.replicate 16 0 ++ natLe 8 0x400000004 ++ natLe 8 16 ++ List.replicate 24 0
def sxf : State := { at' (withSs 0x40030000 0xFFF0 0) wall0 with mem := retireMem tables (cellsAt 0x30000 (record0 ++ record0)) }
def exf : Env := env' (withSs 0x40030000 0xFFF0 0) wall0
def layout0 : Layout := ⟨0x40050000, 0, 0, 4, 4, 16, 0, 0, 0⟩

theorem wit_TransformRuns : Issues sxf (.xfRunTranspose 0x44 0x45) exf ∧ (exf.sb 0x44).toNat % 64 = 0 ∧
    ((exf.sb 0x45).toNat % 2 ^ 32 % 16 = 0 ∧ (exf.sb 0x45).toNat % 2 ^ 32 + 16 ≤ exf.w.window) ∧
    ReadsRecord sxf exf 0x40030000 128 ((learned sxf).readUnits 0 gkv.units 0x40030000 128) (learned sxf) ∧
    recordsOk 0 (Layout.ofBytes (((learned sxf).readUnits 0 gkv.units 0x40030000 128).take 64))
      (Layout.ofBytes (((learned sxf).readUnits 0 gkv.units 0x40030000 128).drop 64)) = true :=
  ⟨issues_of_meets (by decide +kernel), by decide, by decide,
    ⟨gkv, ⟨ok_of (by decide +kernel), rfl⟩, clear_of (by decide +kernel), rfl⟩, by decide +kernel⟩
theorem wit_TransformRecords : recordsOk 2 layout0 layout0 = true ∧ layout0.elem ≤ 18 ∧
    ¬ headerOk layout0 0 = true ∧ headerOk layout0 (2 ^ 64 * 4 + 2 ^ 96) = true := by decide
theorem wit_ScaledElements : ({ layout0 with group := 1, elem := 4 } : Layout).groupSize = 32 ∧ (0xFF : Nat) ≠ 0x7F ∧
    Fmt.e2m1.valF 3 = .fin false 3 (-1) ∧ Fmt.q8.isAbsent 7 = false ∧ Fmt.i8.int? 3 = some 3 ∧
    Fmt.f16.valF 0x3C00 ≠ .absent ∧ Fmt.i8.int? 0x80 = none := by decide
theorem wit_RequantCodes : Fmt.q4 ∈ [Fmt.q8, .q4] ∧ Fmt.i8.int? 3 = some 3 ∧ (0x7F : Nat) ≠ 0xFF ∧ (1 : Nat) ≠ 0 ∧
    2 * ((2 : Int) : Rat) - 1 ≤ 2 * (ratOf false 5 0 / ratOf false 1 1) ∧
    2 * (ratOf false 5 0 / ratOf false 1 1) ≤ 2 * ((2 : Int) : Rat) + 1 := by decide +kernel
/-- The records of sxf's pages, with their elements in the mapped page; a compressed buffer of one block at the page's line 0x40031000. -/
def layoutX : Layout := { layout0 with base := 0x40030000 }
def packed : Layout := { layout0 with base := 0x40031000 }
def itemOf (xop : Nat) (src dst : Layout) (pos : Nat) : Run := { xop := xop, src := src, dst := dst, pos := pos }

theorem wit_DenseItems : (itemPlace layoutX 6).2 = [2] ∧ (sxf.reach 0 0 [elementRange layoutX 2 1]).toOption.isSome = true ∧
    (sxf.reach 0 0 ([2].map (elementRange layoutX 1) ++ scaleRanges none layoutX 1 2)).toOption.isSome = true ∧
    elemVal .f32 (elementCode sxf 0 [] layoutX 1 2) .one ≠ .nan := by decide +kernel
theorem wit_CompactItems : (itemOf 2 layoutX packed 3).src.elem = packed.elem ∧ (itemOf 2 layoutX packed 3).pos < 4 * 1 ∧
    (sxf.reach 0 0 (([0, 1, 2, 3].map (elementRange layoutX 3)) ++ scaleRanges none layoutX 3 0)).toOption.isSome = true ∧
    elemVal .f32 0 .one ≠ .absent ∧ (itemOf 2 layoutX packed 4).pos = 4 ∧ (itemOf 2 layoutX packed 5).pos = 4 + 1 + 0 ∧
    (sxf.reach 0 0 [(packed.base, 64)]).toOption.isSome = true ∧
    (0 : Nat) < ({ layoutX with group := 1 } : Layout).groups * 4 ∧
    (sxf.reach 0 0 [((sidePlace { layoutX with group := 1, scales := 0x40032000 } packed 0).1, 1)]).toOption.isSome = true := by
  decide +kernel
theorem wit_ExpandItems : (itemOf 3 packed layoutX 3).src.elem = layoutX.elem ∧ (itemOf 3 packed layoutX 3).pos < 4 * 1 ∧
    (sxf.reach 0 0 [(0x40031080, 1)]).toOption.isSome = true ∧ (sxf.reach 0 0 []).toOption.isSome = true ∧
    (sxf.reach 0 0 [(dataOf packed, blockOf packed)]).toOption.isSome = true := by decide +kernel
theorem wit_RunSteps : (itemOf 0 layoutX layoutX 16).items ≤ 16 ∧ 3 < (itemOf 0 layoutX layoutX 3).items ∧
    ({ itemOf 0 layoutX layoutX 16 with part := [(7, 1)] } : Run).closed = [(7, 1)] ∧ (itemOf 0 layoutX layoutX 3).closed = [] ∧
    (sxf.runItem 0 0 (itemOf 0 layoutX layoutX 3)).toOption.isSome = true ∧
    (sxf.runItem 0 0 (itemOf 0 { layout0 with base := 0x90000000 } layoutX 3)).toOption.isSome = false := by decide +kernel
theorem wit_TransformRuns_misaligned : (0x40030020 : Dword) ≠ BitVec.allOnes 64 ∧ (0x40030020 : Dword).toNat % 64 ≠ 0 := by decide
theorem wit_TransformRuns_traps : Issues (at' (withSs 0x40030020 0xFFF8 0) wall0) (.xfRunExpand 0x44 0x45) (env' (withSs 0x40030020 0xFFF8 0) wall0) ∧
    (0xFFF8 : Dword).toNat % 2 ^ 32 % 16 ≠ 0 ∧ (0xFFF8 : Nat) ≤ 0x40030020 ∧ (0x10000 : Dword).toNat % 2 ^ 32 % 16 = 0 ∧
    wall0.window < 0x10000 + 16 ∧ sxf.xlateUnits 0 0 false (rangeUnits [(0x80000000, 128)]) = .error (noPage 0x80000000) :=
  ⟨issues_of_meets (by decide), by decide, by decide, by decide, by decide, error_of (by decide +kernel)⟩
theorem wit_TransformRuns_bad : recordsOk 0 layout0 { layout0 with rows := 5 } = false ∧
    recordsOk 3 { layout0 with base := 0x40050000 } layout0 = true ∧
    headerOk layout0 (leNat (natLe 8 0 ++ natLe 4 layout0.rows ++ natLe 4 layout0.bpr ++ natLe 8 0)) = true := by decide

def gather0 (start : Option Nat) : Op :=
  { uid := 0, ctx := 0, core := 0, seq := 1, work := .gather none { gat start 63 [] with len := 64 } }
def run0 : Op := { uid := 0, ctx := 0, core := 0, work := .run 0x40030000 none { xop := 0, src := layout0, dst := layout0, pos := 16 } }

theorem wit_EngineCompletions : (withOp (gather0 none)).op? 1 = some (gather0 none) ∧
    (withOp (gather0 none)).engineReady 1 (gather0 none) = true ∧ (gather0 none).work.engineKind = 1 ∧
    ((withOp (gather0 none)).engineGo (gather0 none) false).fail = none ∧
    (withOp (gather0 none)).behind 1 (gather0 none) = false := by decide +kernel
theorem wit_EngineCompletions_run : (withOp run0).engineReady 1 run0 = true ∧ run0.work.engineKind = 2 ∧
    ((withOp run0).engineGo run0 false).fail = none ∧ ({ s0 with ops := [(0, run0), (1, run0)] } : State).behind 1 run0 = true := by
  decide +kernel

/-- A gather whose ENTRIES page has no mapping, and an island that cannot count another pin of the page of one. -/
def gatherOut : Op := { gather0 (some 0) with work := .gather none { gat (some 0) 0 [] with len := 64, entries := 0x80000000 } }
def noRoom (o : Op) : State :=
  { withOp o with islands := [(0, { pins := [⟨0, 0x40000000, 2 ^ 30, 0, 65535⟩] })] }

theorem wit_EngineCompletions_fault : (withOp gatherOut).engineHead 1 gatherOut = true ∧
    ((withOp gatherOut).engineGo gatherOut false).fail.map (fun p => (p.1.code, p.1.va, p.2)) = some (0x20, 0x80000000, false) ∧
    (withOp gatherOut).course? gatherOut.uid = some course0 ∧ gatherOut.pinWait = false ∧ (withOp gatherOut).heldFull 0 1 = false := by decide +kernel
theorem wit_EngineCompletions_room : (noRoom (gather0 (some 0))).engineHead 1 (gather0 (some 0)) = true ∧
    ((noRoom (gather0 (some 0))).engineGo (gather0 (some 0)) false).fail = some (⟨0x101, 0, 0⟩, false) := by decide +kernel

/-! Locks and experts. -/

def withLocks (ls : List Lock) (c : Course) : State := { at' c wall0 with locks := ls }

theorem wit_LockModes : ({ age := 0, counts := [0, 1, 1, 0, 0, 0] } : Hold).counts.length = 6 ∧
    ({ age := 0, counts := [0, 1, 1, 0, 0, 0] } : Hold).eff = some .six := by decide
theorem wit_LockRequests_parent : s0.folderOf 0 .tile (canonName .tile 5) .x = none ∧
    (parentOf .tile (canonName .tile 5)).isSome = true ∧
    (∀ p, parentOf .tile (canonName .tile 5) = some p → parentAllows .x (s0.effOn 0 p.1 p.2) = false) :=
  ⟨by decide, by decide, fun p h => by cases h; decide⟩

def lockOf (ages : List Nat) (m : LMode) : Lock :=
  { lvl := .tensor, name := canonName .tensor (5 * 2 ^ 40), holds := ages.map fun n => { age := n, counts := (List.range 6).map fun i => if i = modeCode m then 1 else 0 } }

theorem wit_LockRequests : parentOf .tensor (canonName .tensor (5 * 2 ^ 40)) = none ∧
    (withLocks [lockOf [1] .is] course0).lock? .tensor (canonName .tensor (5 * 2 ^ 40)) = some (lockOf [1] .is) ∧
    (lockOf [1] .is).hold? 0 = none ∧ (withLocks [lockOf [1] .is] course0).lockEntries (lockIsland (canonName .tensor (5 * 2 ^ 40))) < 65536 ∧
    (withLocks [lockOf [1] .is] course0).okWith (lockOf [1] .is) 0 .ix = true ∧ (∀ r ∈ (lockOf [1] .is).queue, 0 < r.age) ∧
    (withLocks [lockOf [1] .is] course0).okWith (lockOf [1] .is) 0 .x = false ∧
    (withLocks [lockOf [1] .is] course0).folderOf 0 .tensor (canonName .tensor (5 * 2 ^ 40)) .ix = none ∧
    (withLocks [lockOf [1] .is] course0).effOn 0 .tensor (canonName .tensor (5 * 2 ^ 40)) = none := by decide
theorem wit_LockRequests_folded :
    let k := { lockOf [0] .x with holds := [{ age := 0, counts := [0, 0, 0, 0, 0, 1], folds := [(.x, 1)] }] }
    (withLocks [k] course0).folderOf 0 .tile (canonName .tile (5 * 2 ^ 40)) .s = some (.tensor, canonName .tensor (5 * 2 ^ 40), .x) := by
  decide

theorem wit_LockRequests_held : -- a conversion: the wall holds the lock in IS, at the greatest count
    (withLocks [lockOf [0, 1] .is] course0).effOn 0 .tensor (canonName .tensor (5 * 2 ^ 40)) = some .is ∧
    (withLocks [lockOf [0, 1] .is] course0).okWith (lockOf [0, 1] .is) 0 .ix = true ∧
    (withLocks [lockOf [0, 1] .is] course0).okWith (lockOf [0, 1] .is) 0 .x = false ∧
    (∀ k ∈ (withLocks [lockOf [0, 1] .is] course0).locks, k.queue = []) ∧
    (∀ i < 4, ((withLocks [lockOf [0, 1] .is] course0).island i).overflow = []) ∧
    ¬ ({ age := 0, counts := [65535, 0, 0, 0, 0, 0] } : Hold).counts.getD (modeCode .is) 0 < 65535 ∧
    (withLocks [lockOf [0] .is, { lockOf [1] .x with name := canonName .tensor (6 * 2 ^ 40) }] course0).wounded .tensor
      (canonName .tensor (6 * 2 ^ 40)) 0 .ix = [] := by decide
theorem wit_LockRequests_wounds :
    ({ withLocks [lockOf [1] .x] course0 with walls := [(0, wall0), (1, wall0)] } : State).wounded .tensor
      (canonName .tensor (5 * 2 ^ 40)) 0 .ix = [1] := by decide

/-- Two younger walls that both hold X's lock; and a wall with an IX lock on the tile and one line under it, at the threshold 1. -/
theorem wit_LockRequests_several :
    let s : State := { withLocks [lockOf [1, 2] .is] course0 with walls := [(0, wall0), (1, wall0), (2, wall0)] }
    s.wounded .tensor (canonName .tensor (5 * 2 ^ 40)) 0 .x = [1, 2] ∧ (∀ k ∈ s.locks, ∀ r ∈ k.queue, r.age ≠ 2) ∧
      ∀ i < 4, (s.island i).overflow = [] := by decide
def oneLine (t : Nat) (m : LMode) : State :=
  { withLocks [{ lockOf [0] m with lvl := .tile, name := canonName .tile 5 }, { lockOf [0] .ix with lvl := .line, name := 6 }] course0 with
    policy := { s0.policy with escalation := t } }
theorem wit_LockRequests_escalates : (oneLine 1 .ix).folderOf 0 .line 7 .x = none ∧ (oneLine 1 .ix).effOn 0 .line 7 = none ∧
    (∀ p, parentOf .line 7 = some p → parentAllows .x ((oneLine 1 .ix).effOn 0 p.1 p.2) = true) ∧
    ((oneLine 1 .ix).wall? 0).map (fun w => w.ctx) = some 0 ∧
    (let up := (oneLine 1 .ix).raiseHold 0 .line 7 .x
     up.lineCount 0 (canonName .tile 7) = 2 ∧ up.escMode 0 (canonName .tile 7) = some .x ∧ up.skips = [] ∧
      up.effOn 0 .tile (canonName .tile 7) = some .ix ∧
      (∃ k, up.lock? .tile (canonName .tile 7) = some k ∧ up.okWith k 0 .x = true) ∧ up.holdFull 0 .tile (canonName .tile 7) .x = false) ∧
    ((oneLine 2 .ix).raiseHold 0 .line 7 .x).lineCount 0 (canonName .tile 7) ≤ 2 :=
  ⟨by decide, by decide, fun p h => by cases h; decide, by decide,
    ⟨by decide, by decide, by decide, by decide, ⟨_, by rfl, by decide⟩, by decide⟩, by decide⟩
theorem wit_AutomaticEscalation : (oneLine 1 .ix).escMode 0 (canonName .tile 6) = some .x := by decide

/-- A table of 65,536 entries, all of one lock. -/
def sfullTable : State := withLocks (List.replicate 65536 (lockOf [1] .is)) course0

theorem entries_replicate (n m : Nat) : (List.replicate n (lockOf [1] .is)).foldl (fun n k => if lockIsland k.name == 1
    then n + (dedup (k.holds.map (·.age) ++ k.queue.map (·.age))).length else n) m = m + n := by
  induction n generalizing m with
  | zero => rfl
  | succ n ih =>
    have h : (if lockIsland (lockOf [1] .is).name == 1 then m + (dedup ((lockOf [1] .is).holds.map (·.age) ++
      (lockOf [1] .is).queue.map (·.age))).length else m) = m + 1 := rfl
    rw [List.replicate_succ, List.foldl_cons, h, ih]; omega
theorem wit_LockRequests_full : 65536 ≤ sfullTable.lockEntries (lockIsland (canonName .tensor (9 * 2 ^ 40))) ∧
    sfullTable.effOn 0 .tensor (canonName .tensor (9 * 2 ^ 40)) = none := by
  constructor
  · exact Nat.le_of_eq ((entries_replicate 65536 0).trans (Nat.zero_add _)).symm
  · have h : sfullTable.lock? .tensor (canonName .tensor (9 * 2 ^ 40)) = none := by
      refine List.find?_eq_none.2 fun k hk => ?_
      rw [List.eq_of_mem_replicate hk]; decide
    simp only [State.effOn, h, Option.bind_none]
theorem wit_LockQueues : -- the tensor's wall 0 holds the tile 5, whose line is under it
    { lockOf [0] .ix with lvl := .tile, name := canonName .tile 5 } ∈
      (withLocks [{ lockOf [0] .ix with lvl := .tile, name := canonName .tile 5 }] course0).locksUnder 0 .tensor (canonName .tensor 5) ∧
    (withLocks [lockOf [1] .is] course0).lock? .tensor (canonName .tensor (5 * 2 ^ 40)) = some (lockOf [1] .is) ∧
    s0.wall? 0 = some wall0 ∧ s0.course? 0 = some course0 ∧ course0.age = 0 := by decide

/-- s4 names tensor 5; a lane asks for it in IX, and the wall 1 holds nothing or X. -/
def clk : Course := { withSs (5 * 2 ^ 40) 0 0 with frags := [(0, { frag0 with lanes := 1 })] }
def elk : Env := env' clk wall0

theorem wit_LockAcquires : Issues (withLocks [] clk) (.lkAcq 5 0x44 false .tensor .ix) elk ∧
    ((withLocks [] clk).lockLanes elk 0x44 .tensor .ix false false).2 = elk.lanes.map fun l => (l, LaneAns.trit .t) :=
  ⟨issues_of_meets (by decide), by decide⟩
theorem wit_LockAcquires_parks : Issues (withLocks [lockOf [1] .x] clk) (.lkAcq 5 0x44 false .tensor .ix) elk ∧ elk.lanes ≠ [] ∧
    ((withLocks [lockOf [1] .x] clk).lockLanes elk 0x44 .tensor .ix false false).2 =
      elk.lanes.map (fun l => (l, LaneAns.parks (5 * 2 ^ 40))) ∧
    (((withLocks [lockOf [1] .x] clk).lockLanes elk 0x44 .tensor .ix false false).1.frag? elk.r).map (fun f => f.granted &&& elk.f.active) =
      some 0 ∧
    (((withLocks [lockOf [1] .x] clk).lockLanes elk 0x44 .tensor .ix false false).1.frag? elk.r).map (fun f => f.denied) = some 0 :=
  ⟨issues_of_meets (by decide), by decide, by decide, by decide, by decide⟩
theorem wit_LockReleases : Issues (withLocks [lockOf [0] .ix] clk) (.lkRel 0x44 .tensor .ix) elk ∧ Quiet elk ∧
    Issues (at' cbusy wall0) .lkRelall (env' cbusy wall0) ∧ ¬ Quiet (env' cbusy wall0) ∧ s0.lock? .tensor 0 = none :=
  ⟨issues_of_meets (by decide), ⟨rfl, rfl, rfl⟩, issues_of_meets (by decide), fun h => absurd h.1 (by decide), rfl⟩
theorem wit_WallLeavesMortar : (withLocks [lockOf [0] .ix] clk).courses.sorted = true ∧
    (∀ p ∈ (withLocks [lockOf [0] .ix] clk).courses, p.2.frags.sorted = true) ∧ OffMortar 7 (withLocks [lockOf [0] .ix] clk) ∧
    ¬ OffMortar 0 (withLocks [lockOf [0] .ix] clk) := by
  unfold OffMortar; decide
theorem wit_LockReleases_count :
    (((withLocks [lockOf [0] .ix] clk).lock? .tensor (canonName .tensor (5 * 2 ^ 40))).bind fun k => k.hold? 0).map
      (fun h => h.counts.getD (modeCode .ix) 0) = some (0 + 1) ∧
    (withLocks [lockOf [0] .ix] clk).folderBy 0 .tensor (canonName .tensor (5 * 2 ^ 40)) (fun _ => true) = none ∧
    (∃ h ∈ (lockOf [0, 1] .is).holds, h.age ≠ 0 ∧ h.eff = some .is) ∧
    (∀ k ∈ (withLocks [lockOf [0] .ix] clk).locks, k.queue = []) ∧
    ∀ i < 4, ((withLocks [lockOf [0] .ix] clk).island i).overflow = [] := by decide

/-- A context of two expert entries, one page each, and two frames of 64 KiB: entry 0 in a state with a number of pins. -/
def expert0 (st pin : Nat) : Expert :=
  { sizeq := 1, cls := 0, kind := 2, nsid := 1, src := 0, st := st, pin := pin, frame := if st = 2 ∨ st = 3 then some 1 else none
    pins := if pin = 0 ∧ st ≠ 2 then [] else [(0x40000000, 2 ^ 30, 0)] }
def ctxEx (st pin : Nat) : Ctx :=
  { placedCtx with root := 0x20000, nexp := 1, nframe := 2, arena := 0x40080000, ert := [(0, expert0 st pin)] }
def sex (st pin : Nat) : State :=
  { at' { course0 with vec := [(64 * 8, 0), (64 * 8 + 1, 1)] } wall0 with ctxs := [(0, ctxEx st pin)], flash := [(1, 0, 0, 4096)] }
def eex : Env := env' { course0 with vec := [(64 * 8, 0), (64 * 8 + 1, 1)] } wall0

theorem wit_ExpertLanes : (sex 3 1).ctx? 0 = some (ctxEx 3 1) ∧ (ctxEx 3 1).entry? 1 = none ∧
    (ctxEx 3 1).entry? 0 = some (expert0 3 1) ∧ (expert0 3 1).st = 3 ∧ 0 < (expert0 3 1).pin ∧ (expert0 3 65534).pin < 65535 ∧
    (ctxEx 1 0).entry? 0 = some (expert0 1 0) ∧ (ctxEx 2 0).entry? 0 = some (expert0 2 0) ∧ (ctxEx 4 0).entry? 0 = some (expert0 4 0) ∧
    frag0.pinned.contains (0, 0) = false := by decide
/-- A RESIDENT entry without pins takes the frame pins of its pages; they have no room, or the frame has no mapping. -/
def gframe : Rng := { units := [(0x4009, 0x90000, 31)], pages := [(0x40000000, 2 ^ 30, 0)], leaves := gkv.leaves }
theorem wit_ExpertLanes_pins : (ctxEx 3 65535).entry? 0 = some (expert0 3 65535) ∧ (expert0 3 65535).pin = 65535 ∧
    (expert0 3 0).pin = 0 ∧ (sex 3 0).xlateRange 0 0 0x40090000 (2 ^ (16 + 0)) true = .ok gframe ∧
    ((sex 3 0).pinAll 0 0 gframe.pages).isSome = true ∧ (fullPins (sex 3 0)).pinAll 0 0 gframe.pages = none ∧
    ({ sex 3 0 with ctxs := [(0, { ctxEx 3 0 with arena := 0x80000000 })] } : State).xlateRange 0 0 0x80010000 (2 ^ (16 + 0)) true =
      .error (noPage 0x80010000) :=
  ⟨by decide, rfl, rfl, ok_of (by decide +kernel), by decide, by decide +kernel, error_of (by decide +kernel)⟩
theorem wit_ExpertInstructions : Issues (sex 3 1) (.exAcq 4 8 false) eex ∧
    (∀ x ∈ ((sex 3 1).acqLanes eex 8 false).2, x.2.2 ≠ .parks) ∧ Issues (sex 3 1) (.exRel 8) eex ∧ eex.f.totV = none ∧
    (sex 3 1).engineOps 0 = [] ∧ eex.c.ldc = 0 ∧ eex.c.tlc = 0 :=
  ⟨issues_of_meets (by decide), by decide, issues_of_meets (by decide), rfl, by decide, rfl, rfl⟩
theorem wit_ExpertInstructions_waits : ({ sex 3 1 with ops := [(0, copy0)] } : State).engineOps 0 = [0] ∧
    copy0.work.isCopy = true ∧ ((some [0] : Option (List Nat)).getD []).filter (fun id => ((sex 3 1).op? id).isSome) = [] ∧
    ({ eex with c := { eex.c with ldc := 1 } } : Env).c.ldc ≠ 0 := by decide
theorem wit_ExpertInstructions_parks : -- the entry is being fetched: lane 0 parks; id 1 is outside the table
    (((sex 2 0).acqLanes eex 8 false).2.filter fun x => x.2.2 = .parks) = [(0, 0, .parks)] := by decide
theorem wit_ExpertPins : (sex 3 2).expert? 0 0 = some (expert0 3 2) ∧ 1 < (expert0 3 2).pin ∧ (sex 3 2).expert? 0 1 = none ∧
    (expert0 3 0).pin = 0 ∧ (expert0 1 0).st = 1 ∧ (expert0 4 0).st = 4 ∧ (sex 3 1).expert? 0 0 = some (expert0 3 1) ∧
    (expert0 3 1).pin = 1 ∧ (expert0 3 65535).pin = 65535 := by decide

/-- Both frames belong to other entries: one is RESIDENT, without pins or with one. -/
def ctxFull (pin : Nat) : Ctx :=
  { ctxEx 1 0 with nexp := 3, nframe := 1, ert := [(0, expert0 1 0), (1, { expert0 3 pin with frame := some 0 })] }
def fetch0 : Fetch := { ctx := 0, id := 0, demand := true }

theorem wit_ExpertFetches_start : (({ sex 1 0 with islands := [(0, { fetches := [fetch0] })] } : State)).nextFetch (pagerOf 0) =
    some fetch0 ∧ (ctxEx 1 0).freeFrame = some 0 ∧ (expert0 1 0).st = 1 ∧
    ({ sex 1 0 with islands := [(0, { fetches := [{ fetch0 with blocked := true }] })] } : State).nextFetch (pagerOf 0) = none := by decide
theorem wit_ExpertFetches_victim : (ctxFull 0).freeFrame = none ∧
    s0.victim (ctxFull 0) = some (1, { expert0 3 0 with frame := some 0 }) ∧ s0.victim (ctxFull 1) = none := by decide
/-- Two entries of equal scores, and one younger. -/
def ctxTie : Ctx :=
  { ctxEx 1 0 with
    nframe := 3
    ert := [(1, { expert0 3 0 with frame := some 0 }), (4, { expert0 3 0 with frame := some 1 }),
      (8, { expert0 3 1 with frame := some 2 })] }
theorem wit_ExpertFetches_tie : ctxTie.freeFrame = none ∧ (s0.victim ctxTie).map (fun p => p.1) = some 1 ∧
    ctxTie.ert.sorted = true := by decide
theorem wit_ExpertFetches_complete : (sex 2 0).ctx? 0 = some (ctxEx 2 0) ∧ (sex 2 0).expert? 0 0 = some (expert0 2 0) ∧
    (expert0 2 0).st = 2 ∧ ((sex 2 0).fetchBytes (expert0 2 0)).isSome = true ∧ (expert0 2 0).pins ≠ [] ∧
    (sex 2 0).xlateRange 0 0 ((ctxEx 2 0).frameVa 1) (2 ^ (16 + (ctxEx 2 0).framelog)) true =
      .ok { units := [(0x4009, 0x90000, 31)], pages := [(0x40000000, 2 ^ 30, 0)], leaves := gkv.leaves } :=
  ⟨by decide, by decide, by decide, rfl, by decide, ok_of (by decide +kernel)⟩

/-! Traps in place of an instruction, fragments, walks and records. -/

def wounded : Course := { course0 with frags := [(0, { frag0 with mark := some 5 })] }
/-- The fragment's page is not mapped: a walk found a missing entry. -/
def unmapped : Course :=
  { course0 with frags := [(0, { frag0 with pc := 0x80000000, outcomes := [⟨0x8000, 0x20, 2, false, true⟩] })] }
def wild : Course := { course0 with frags := [(0, { frag0 with pc := 0x8000000000000000 })] }

theorem wit_TrapsInPlace : s0.issuer? = some e0 ∧ (env' wounded wall0).f.mark = some 5 ∧
    (env' wounded wall0).f.handler = false ∧ (decode 0).toOption = none ∧
    (at' wild wall0).fetchLookup wild (env' wild wall0).f = .violation ∧
    (at' unmapped wall0).fetchLookup unmapped (env' unmapped wall0).f = .fault 0x20 2 ∧ s0.heldFull 0 1 = false ∧
    ({ s0 with cores := [(0, { held := List.replicate 64 ⟨0, 0, 0, 0, 0, false, 0, 2, 0, 0, 0⟩ })] } : State).heldFull 0 1 = true := by decide

def two : Course := { course0 with frags := [(0, frag0), (1, { frag0 with lanes := 4, reserved := false })] }
def spilled : Course := { course0 with frags := [(1, { frag0 with reserved := false, spilled := true })] }

theorem wit_FragmentSteps : (at' two wall0).frag? ⟨0, 0⟩ = some frag0 ∧
    (at' two wall0).frag? ⟨0, 1⟩ = some { frag0 with lanes := 4, reserved := false } ∧ (0 : Nat) ≠ 1 ∧
    (at' two wall0).ownPending ⟨0, 0⟩ = false ∧ (at' two wall0).ownPending ⟨0, 1⟩ = false ∧
    (at' spilled wall0).coursesByAge 0 = [(0, spilled)] ∧
    spilled.spilledReady = some (1, { frag0 with reserved := false, spilled := true }) ∧
    ∀ p ∈ spilled.frags, p.2.reserved = false := by decide
/-- A course whose reserved entry is held by a parked fragment beside a spilled READY one; and 208 shared entries in use. -/
def exchanging : Course :=
  { course0 with frags := [(0, { frag0 with state := .parked 2 .service }), (1, { frag0 with lanes := 4, reserved := false, spilled := true })] }
def shared208 : Course :=
  { course0 with frags := (List.range 208).map fun i => (i, { frag0 with reserved := false }) }

theorem wit_FragmentSteps_exchange : exchanging.spilledReady = some (1, { frag0 with lanes := 4, reserved := false, spilled := true }) ∧
    (∃ p ∈ exchanging.frags, p.2.reserved = true) ∧ (at' exchanging wall0).sharedUsed 0 < 208 ∧
    exchanging.exchange = some (0, { frag0 with state := .parked 2 .service }) ∧
    208 ≤ ({ s0 with courses := [(0, exchanging), (1, shared208)] } : State).sharedUsed 0 :=
  ⟨by decide, ⟨_, .head _, rfl⟩, by decide, by decide, by decide +kernel⟩

def merge0 (walking : Bool) : Merge := { ctx := 0, unit := 0x4003, walking := walking, waiters := [(⟨0, 0⟩, false, false)] }
def swalk (walking : Bool) : State := { s0 with islands := [(0, { merge := [merge0 walking] })] }

theorem wit_PageWalks : ((swalk false).island 0).merge.find? (fun m => !m.walking) = some (merge0 false) ∧
    (((swalk false).island 0).merge.filter fun m => m.walking).length < 512 ∧
    (∃ m ∈ ((swalk true).island 0).merge, m.ctx = 0 ∧ m.unit = 0x4003 ∧ m.walking = true) ∧
    (swalk true).course? 0 = some course0 :=
  ⟨by decide, by decide, ⟨merge0 true, by decide, rfl, rfl, rfl⟩, by decide⟩

/-- A fault-queue descriptor at 0x3_0000: BASE 0x4003_1000, CAP 2^n, HEAD 0 (R362). -/
def rec0 : FaultRec := ⟨0, 2, 0, 1, 0, false, 0, 0x20, 0x80000000, 0, 0⟩
def ctxFq (tail : Nat) : Ctx := { placedCtx with root := 0x20000, fqdesc := 0x40030000, tail := tail }
def sfq (tail : Nat) : State :=
  { s0 with ctxs := [(0, ctxFq tail)], cores := [(0, { held := [rec0] })]
            mem := retireMem tables (cellsAt 0x30000 (natLe 8 0x40031000 ++ natLe 8 64)) }

theorem wit_FaultRecords : ((sfq 0).core 0).held = [rec0] ∧ (sfq 0).ctx? rec0.ctx = some (ctxFq 0) ∧
    (sfq 0).xlateRange 0 0 0x40030000 64 true = .ok gkv ∧ faultqOk (leNat ((sfq 0).readUnits 0 gkv.units 0x40030000 64)) = true ∧
    field (leNat ((sfq 0).readUnits 0 gkv.units 0x40030000 64)) 95 64 = 64 ∧ (ctxFq 63).tail < 0 + 64 ∧ 0 + 64 ≤ (ctxFq 64).tail ∧
    (sfq 0).xlateRange 0 0 0x40031000 64 true = .ok gkv ∧
    (sfq 0).markedIn ((List.range 64).map fun i => (unitLoc gkv.units (0x40030000 + i)).1) = none :=
  ⟨by decide, by decide, ok_of (by decide +kernel), by decide +kernel, by decide +kernel, by decide, by decide,
    ok_of (by decide +kernel), by decide +kernel⟩
theorem wit_FaultRecords_signal : 0x40032000 ≠ 0 ∧ (sfq 0).xlateRange 0 0 0x40032000 8 true = .ok gkv ∧
    (sfq 0).markedIn ((List.range 8).map fun i => (unitLoc gkv.units (0x40032000 + i)).1) = none :=
  ⟨by decide, ok_of (by decide +kernel), by decide +kernel⟩

def posted0 : Op := { uid := 0, ctx := 0, core := 0, work := .posted (.add .b32) 4 [⟨0, outLoc 4 0, 31, 1, 0⟩] }

theorem wit_PeriodicFireAndPostedAck : isUnder (128 * (outLoc 4 0 / 128)) = false ∧
    (∃ m ∈ ({ s0 with clock := 1024, monitors := [⟨outLoc 4 0 / 128, (0, 0), ⟨0, 0⟩, 0, 0⟩] } : State).monitors,
      m.line = outLoc 4 0 / 128 ∧ m.setAt + 1024 ≤ 1024) ∧ (withOp posted0).op? 1 = some posted0 ∧
    (withOp posted0).earlierAccess 1 0 posted0.work.touches = false :=
  ⟨by decide, ⟨_, .head _, rfl, by decide⟩, by decide, by decide⟩

/-! The dispatcher. -/

/-- A launch record of 5 walls with priority p at 0x4003_1000's kernel, and that kernel's descriptor (R74, R163). -/
def launch0 (pred p : Nat) : List Byte :=
  natLe 8 0x40031000 ++ natLe 8 0 ++ natLe 8 5 ++ natLe 8 pred ++ List.replicate 24 0 ++ natLe 8 (4 * p)
def kernel0 : List Byte :=
  natLe 8 0x40010000 ++ natLe 4 0 ++ natLe 2 16 ++ natLe 2 (32 + 64 * 512) ++ natLe 2 2177 ++ List.replicate 46 0
def slq (entry : List Byte) : State :=
  { s0 with queues := [(5, queue0 false [entry])], mem := retireMem tables (cellsAt 0x31000 kernel0 ++ cellsAt 0x32000 (natLe 8 1) ++ cellsAt 0x50000 entry) }

theorem wit_PredecessorReads : (slq (launch0 0 7)).queue? 5 = some (queue0 false [launch0 0 7]) ∧
    (slq (launch0 0 7)).ctx? 0 = some { placedCtx with root := 0x20000 } ∧
    (Launch.ofBytes ((slq (launch0 0 7)).headBytes (queue0 false [launch0 0 7]) (launch0 0 7))).valid 1 = true ∧
    (Launch.ofBytes (launch0 0 7)).grid = 5 ∧ (Launch.ofBytes (launch0 0 7)).prio = 7 ∧ (Launch.ofBytes (launch0 0 7)).pred0 = 0 ∧
    (slq (launch0 0 7)).dispRead 0 0 0x40031000 64 = .ok (leNat kernel0) ∧
    (Kernel.ofBytes (natLe 64 (leNat kernel0))).valid = true :=
  ⟨by decide +kernel, by decide +kernel, by decide +kernel, by decide +kernel, by decide +kernel, by decide +kernel,
    ok_of (by decide +kernel), by decide +kernel⟩
theorem wit_PredecessorReads_slot :
    (slq (launch0 0 7)).markedIn (((List.range 64).map fun i => 0x40050000 + i).map fun va => (unitLoc [(0x4005, 0x50000, 31)] va).1) = none ∧
    (slq (launch0 0 7)).unmappedIn [(0x4005, 0x50000, 31)] ((List.range 64).map fun i => 0x40050000 + i) = none ∧
    (slq (launch0 0 7)).xlateRange 0 0 0x40032000 8 true = .ok { gkv with units := [(0x4003, 0x30000, 31)] } ∧
    (noRoom run0).pinAll 0 0 gkv.pages = none ∧ ((slq (launch0 0 7)).pinAll 0 0 gkv.pages).isSome = true ∧
    (Launch.ofBytes (natLe 8 0x40031000 ++ List.replicate 56 0)).grid = 0 :=
  ⟨by decide +kernel, by decide +kernel, ok_of (by decide +kernel), by decide +kernel, by decide +kernel, by decide +kernel⟩
theorem wit_PredecessorReads_done : -- the word at 0x3_2008 is 0
    (Launch.ofBytes (launch0 0x40032008 7)).valid 1 = true ∧ (Launch.ofBytes (launch0 0x40032008 7)).pred1 = 0 ∧
    (slq (launch0 0 7)).dispRead 0 0 0x40032008 8 = .ok 0 ∧ (BitVec.ofNat 64 0).toInt ≤ 0 ∧
    (slq (launch0 0 7)).xlateRange 0 0 0x40032008 1 false = .ok gkv :=
  ⟨by decide +kernel, by decide +kernel, ok_of (by decide +kernel), by decide, ok_of (by decide +kernel)⟩
theorem wit_PredecessorReads_other : (Launch.ofBytes (launch0 4 7)).valid 1 = false ∧
    (Launch.ofBytes (launch0 0x40032000 7)).valid 1 = true ∧ (Launch.ofBytes (launch0 0x40032000 7)).pred0 ≠ 0 ∧
    (slq (launch0 0 7)).dispRead 0 0 0x40032000 8 = .ok 1 ∧ 0 < (BitVec.ofNat 64 1).toInt :=
  ⟨by decide +kernel, by decide +kernel, by decide +kernel, ok_of (by decide +kernel), by decide⟩

/-- Queue 5 has the grid of `grid0` at its head; the partition 0 has the first twin, whose cores have a split. -/
def head0 (prio : Nat) : Head := { record := { grid0.record with prio := prio }, todo := [], chain := 0, grid := some 0 }
def gridAt (ctx prio : Nat) : Grid := { grid0 with ctx := ctx, record := { grid0.record with prio := prio } }
def sgrid (split : Nat) : State :=
  { State.reset with
    ready := true, ctxs := [(0, { placedCtx with root := 0x20000 })], queues := [(5, { queue0 false [] with head := some (head0 7) })]
    grids := [(0, gridAt 0 7)], parts := [(0, { twins := [0] })], cores := [(0, { split := split }), (1, { split := split })] }
def cand0 : Cand := ⟨5, 0, (head0 7).record, 0, gridAt 0 7, false⟩

theorem wit_Placement : (sgrid 1).queue? 5 = some { queue0 false [] with head := some (head0 7) } ∧ (sgrid 1).chosen 0 = some cand0 ∧
    (sgrid 1).fitsAt ((sgrid 1).part 0) 1 cand0.grid.kernel = true ∧ (sgrid 0).chosen 0 = some cand0 ∧
    (sgrid 0).mayResplit cand0 0 = true ∧ cand0.waits = false ∧ cand0.grid.placed + 1 ≠ cand0.grid.count ∧
    ({ cand0.grid with placed := 4 } : Grid).placed + 1 = ({ cand0.grid with placed := 4 } : Grid).count := by decide +kernel
theorem wit_CourseEntry : grid0.kernel.width ≤ 64 ∧ 63 < grid0.kernel.width := by decide

def drained : Course := { course0 with frags := [] }

theorem wit_CourseDrains : (at' drained wall0).course? 0 = some drained ∧ (at' drained wall0).wall? 0 = some wall0 ∧
    (at' drained wall0).courseQuiet 0 drained = true ∧ wall0.drained + 1 = wall0.courses ∧
    wall0.drained + 1 < ({ wall0 with courses := 2 } : Wall).courses ∧ wall0.regions = [] ∧ grid0.drained + 1 < grid0.count := by decide

/-- Context 1 has a priority-0 record for the partition that context 0 occupies, and the other way about. -/
def spre (p : Part) : State :=
  { s0 with queues := [(5, { queue0 false [] with ctx := 1, head := some (head0 0) })], grids := [(0, gridAt 1 0)], parts := [(0, p)] }

theorem wit_PreemptionAndRestore : (spre { occupant := some 0 }).preempts 0 5 = some (0, 1) ∧
    (spre { occupant := none, saved := some 0 }).restores 0 = some 0 ∧ ((spre { occupant := some 0 }).part 0).occupant = some 0 ∧
    (spre { occupant := some 0 }).ops = [] := by decide
/-- After a save: no context occupies the partition, and only the priority-0 record of the one that pre-empted is chosen; another
context's is blocked. -/
theorem wit_PreemptionAndRestore_saved :
    let p : Part := { saved := some 0, preemptor := some 1 }
    let q : Part := { saved := some 0, preemptor := some 2 }
    ((spre p).chosen 0).map (fun x => x.ctx) = some 1 ∧ (spre p).restores 0 = none ∧ (spre q).chosen 0 = none ∧
      (spre q).restores 0 = some 0 ∧ (spre q).queue? 5 = some { queue0 false [] with ctx := 1, head := some (head0 0) } ∧
      (head0 0).grid.isSome = true ∧ (head0 0).record.part = 0 ∧ (head0 0).record.prio = 0 ∧ (head0 0).blocked = false ∧
      ((spre q).part 0).preemptor ≠ some 1 := by decide
/-- A wall whose wound has outlasted the grace, whatever the schedule names. -/
theorem wit_Timers_grace :
    let s : State := { at' course0 { wall0 with wound := some ⟨5, 100001⟩ } with sched := [.issue 0 0] }
    s.begin.overdue = some (.woundGraceExpiry 0) ∧ s.begin.found = [] ∧
      ∀ q ∈ s.begin.walls, q.2.resident = true → q.2.watchdog < s.begin.policy.watchdog + 1024 := by decide +kernel
theorem wit_Timers : s0.wall? 0 = some wall0 ∧ wall0.resident = true ∧
    s0.policy.watchdog ≤ ({ wall0 with watchdog := 2 ^ 31 } : Wall).watchdog ∧ s0.policy.grace * 1000 < 100001 := by decide

/-! Memory, the host and the device. -/

theorem wit_WriteBacks : isUnder (128 * (2 ^ 33 - 1)) = true ∧ s0.lineTag.getD (2 ^ 33 - 1) 1 < 8 ∧
    8 ≤ ({ s0 with lineTag := [(0, 8)] } : State).lineTag.getD 0 1 ∧ (∀ x ∈ List.replicate 128 (0 : Byte), x = 0) ∧
    tagFor 31 (List.replicate 128 5) = 3 ∧ tagFor 0 (List.replicate 128 0xFF) = 2 := by decide +kernel
theorem wit_MemoryErrors : ({ s0 with errors := [(.row 0 5, 0)] } : State).errorsAt (.row 0 5) ≤ s0.policy.errCount ∧
    s0.policy.errCount < ({ s0 with errors := List.replicate 33 (.row 0 5, 0) } : State).errorsAt (.row 0 5) ∧
    (0, 5) ∉ s0.retired ∧ lineOf (s0.place 5) ∈ ({ s0 with marks := [0] } : State).marks ∧ lineOf (s0.place 5) ∉ s0.marks ∧
    s0.lineTag.getD 0 1 < 8 ∧ (List.replicate 128 (0 : Byte)).length = 128 ∧ isUnder (128 * 0) = true := by decide +kernel
/-- A line with a reserved tag: a write of 2 of its bytes fills it, and then the error is found. -/
def stag : State := { sw with lineTag := [(0x400, 8)] }
theorem wit_MemoryErrors_found : (stag.originate write0).found = [(0x400, 0)] ∧ stag.marks = [] ∧
    (s0.touching 5 ++ [0]).filter (fun c => (s0.ctx? c).isSome) = [0] ∧
    ({ stag with found := [(0x400, 0)] } : State).begin.found = (0x400, 0) :: [] := by decide +kernel
theorem wit_OuterStraits_cas : atForm (BitVec.toNat (0x1C : BitVec 6)) = some (.cas, 4) ∧ AtOp.cas.isAbsent 4 1 = false ∧
    AtOp.cas.isAbsent 4 2 = false ∧
    (let old := (s0.flushAll.fillRead [0x30000]).latestNat s0.farFmt 0x30000 4
     old ≠ 1 ∨ old ≠ 2) ∧ State.reset.ready = false ∧ s0.usable (2 ^ 40) 4 = false :=
  ⟨by decide, by decide, by decide, by dsimp only; omega, rfl, by decide⟩
theorem wit_OuterStraits : atForm (BitVec.toNat (0 : BitVec 6)) = some (.add .i32, 4) ∧ s0.ready = true ∧
    s0.usable 0x30000 4 = true ∧ 0x30000 % 4 = 0 ∧ (AtOp.add .i32).isAbsent 4 1 = false := by decide
theorem wit_HostAccesses : s0.ready = true ∧ s0.usable 0 1 = true ∧ State.reset.ready = false ∧ s0.usable (2 ^ 40) 1 = false ∧
    (∀ l ∈ [5], ¬ (lineOf l ∈ s0.marks ∨ 8 ≤ s0.lineTag.getD (lineOf l) 1)) ∧
    ∃ l ∈ [5], lineOf l ∈ ({ s0 with marks := [0] } : State).marks ∨ 8 ≤ s0.lineTag.getD (lineOf l) 1 :=
  ⟨rfl, by decide, rfl, by decide, by decide, ⟨5, by decide, by decide⟩⟩
theorem wit_QueueWindows : (1 : Nat) ≤ 1 ∧ 4095 ≤ 4095 ∧ s0.queue? 5 = none ∧ (slq zeros).queue? 5 = some (queue0 false [zeros]) ∧
    (queue0 false [zeros]).entries.length < (queue0 false [zeros]).cap ∧
    (queue0 false (List.replicate 16 zeros)).cap ≤ (queue0 false (List.replicate 16 zeros)).entries.length ∧
    ((0, 1) : Nat × Nat) ≠ (0, 2) := by decide +kernel
theorem wit_ControlRegisters : (2 : Dword).getLsbD 1 = true ∧ (1 : Dword).getLsbD 1 = false ∧ s0.running = none ∧
    ({ s0 with running := some [] } : State).running ≠ none ∧ 0x88 ∉ [0x08, 0x40, 0x48, 0x50, 0x58, 0x60, 0x68, 0x70, 0x78, 0x80] ∧
    (∀ m < 6, 0x88 ≠ 0x800 + 8 * m) := by decide
theorem wit_Attestation : State.reset.spdm[1]? = some ({} : SpdmPort) ∧ (0 : Nat) = 0 ∧ 1 ≠ 0 := by decide
theorem wit_Resets : State.reset.started = true ∧ State.reset.ready = false ∧ 1 ≤ 1 := by decide

/-! Commands. -/

/-- The device with a command in CMD. -/
def scmd (ds : List Dword) : State := { s0 with cmd := ds ++ List.replicate (8 - ds.length) 0 }
/-- A context descriptor: ROOT, TVEC and SPILL, whose areas lie from 0x4000_0000 on (R469, R470); and leaves of 1 GiB there. -/
def desc0 : List Byte :=
  natLe 8 0x20000 ++ List.replicate 24 0 ++ natLe 8 0x40000100 ++ natLe 8 (2 ^ 64 + 2 ^ 30 - 768 * 2 ^ 30) ++ List.replicate 16 0
def leaves : List (Nat × Byte) := [2, 3, 4, 5].flatMap fun i => cellsAt (0x22000 + 8 * i) [0x8F, 0x0F]

theorem wit_CommandRules : (scmd [12]).ready = true ∧ 11 < dword (scmd [12]) 0 ∧ dword (scmd [0]) 0 = 0 ∧ State.reset.ready = false ∧
    dword { State.reset with cmd := [1, 0, 0, 0, 0, 0, 0, 0] } 0 = 1 := by decide
theorem wit_ContextCommands_refused : dword (scmd [1, 256]) 0 = 1 ∧ 255 < dword (scmd [1, 256]) 1 ∧
    (scmd [1, 0]).ctx? 0 ≠ none ∧ dword (scmd [2, 1]) 1 ≤ 255 ∧ (scmd [2, 1]).ctx? 1 = none ∧ (scmd [2, 0]).ctx? 0 ≠ none := by decide
theorem wit_ContextForgotten : (s0.ctx? 0).isSome = true ∧ s0.ctxs.sorted = true ∧ s0.wall? 0 = some wall0 ∧ wall0.ctx = 0 ∧
    ContextGone 9 s0 ∧ OffMortar 9 s0 := by
  unfold ContextGone OffMortar; decide
def ctxNew : Ctx := Ctx.ofDesc (leNat desc0)
def snew : State := { scmd [1, 1, 0x30000] with mem := retireMem tables (leaves ++ cellsAt 0x30000 desc0) }
def screate : State := { begun snew with ctxs := snew.ctxs.set 1 ctxNew }

/-- The entries that a walk of the new context reads: one of each table. -/
theorem entry_root : screate.locOf 0x20000 = some 0x20000 ∧ screate.marked (lineOf 0x20000) = false ∧
    leNat (screate.bytesAt 0 0x20000 8) = 0x21001 := by decide +kernel
theorem entry_next : screate.locOf 0x21000 = some 0x21000 ∧ screate.marked (lineOf 0x21000) = false ∧
    leNat (screate.bytesAt 0 0x21000 8) = 0x22001 := by decide +kernel
theorem entry_leaf : ∀ q < 6, q ≠ 0 → screate.locOf (0x22000 + 8 * q) = some (0x22000 + 8 * q) ∧
    screate.marked (lineOf (0x22000 + 8 * q)) = false ∧ leNat (screate.bytesAt 0 (0x22000 + 8 * q) 8) = 0xF8F := by
  decide +kernel

/-- Every address of the five mapped GiB has a leaf of 1 GiB. -/
def leafNew (va : Nat) : Leaf := { leaf0 with va := va / 2 ^ 30 * 2 ^ 30, level := 2 }
theorem walk_new (va : Nat) (lo : 1 ≤ va / 2 ^ 30) (hi : va / 2 ^ 30 < 6) : screate.walk 0 1 va true false = .ok (leafNew va) := by
  have c : canonical va = true := by
    have : va / 2 ^ 56 % 256 = 0 := by omega
    unfold canonical; rw [this]; rfl
  have r : (screate.ctx? 1) = some ctxNew := by decide +kernel
  have root : ctxNew.root = 0x20000 := by decide +kernel
  have i4 : va / 2 ^ levelShift 4 % 2 ^ levelBits 4 = 0 := by simp only [levelShift, levelBits]; omega
  have i3 : va / 2 ^ levelShift 3 % 2 ^ levelBits 3 = 0 := by simp only [levelShift, levelBits]; omega
  have i2 : va / 2 ^ levelShift 2 % 2 ^ levelBits 2 = va / 2 ^ 30 := by simp only [levelShift, levelBits]; omega
  have l := entry_leaf _ hi (by omega)
  have u : screate.usable 0 (2 ^ 30) = true := by decide +kernel
  have e4 : ∀ down, screate.walkEntry 0 va 4 0x20000 down = down 0x21000 := fun down => by
    simp only [State.walkEntry, i4, Nat.mul_zero, Nat.add_zero, entry_root.1, entry_root.2.1, entry_root.2.2]; rfl
  have e3 : ∀ down, screate.walkEntry 0 va 3 0x21000 down = down 0x22000 := fun down => by
    simp only [State.walkEntry, i3, Nat.mul_zero, Nat.add_zero, entry_next.1, entry_next.2.1, entry_next.2.2]; rfl
  have e2 : ∀ down, screate.walkEntry 0 va 2 0x22000 down = .leaf (leafNew va) := fun down => by
    simp only [State.walkEntry, i2, l.1, l.2.1, l.2.2]
    simp only [levelShift, show field 0xF8F 51 12 * 4096 = 0 by decide,
      show field 0xF8F 11 7 = 31 by decide, show isUnder 0 = true by decide, u]; rfl
  simp only [State.walk, c, r, root, Bool.not_true, Bool.false_eq_true, if_false, State.walkFrom, e4, e3, e2]
  rfl

theorem createPages_new : screate.createPages 1 ctxNew =
    some (dedup ((spillPieces ctxNew.spill).map fun va => (va / 2 ^ 30 * 2 ^ 30, 2 ^ 30, 0))) := by
  have range : ∀ va ∈ spillPieces ctxNew.spill, 1 ≤ va / 2 ^ 30 ∧ va / 2 ^ 30 < 6 := by decide +kernel
  have none : ctxNew.counters = 0 := by decide +kernel
  simp only [State.createPages, Ctx.needs, none, if_true, List.append_nil, List.map_map, Function.comp_def]
  rw [List.map_congr_left (g := fun va => some (va / 2 ^ 30 * 2 ^ 30, 2 ^ 30, 0)) ?_]
  · simp [List.all_map, List.filterMap_map, Function.comp_def]
  · intro va h
    rw [walk_new va (range va h).1 (range va h).2]
    rfl

set_option maxRecDepth 100000 in
theorem wit_ContextCommands_created : snew.ctx? 1 = none ∧ (begun snew).sysRead 0x30000 64 = some desc0 ∧
    (begun snew).descBad (leNat desc0) ctxNew = false ∧ ctxNew.counters = 0 ∧
    screate.createPages 1 ctxNew = some (dedup ((spillPieces ctxNew.spill).map fun va => (va / 2 ^ 30 * 2 ^ 30, 2 ^ 30, 0))) ∧
    (screate.pinHomes 1 (dedup ((spillPieces ctxNew.spill).map fun va => (va / 2 ^ 30 * 2 ^ 30, 2 ^ 30, 0)))).isSome = true :=
  ⟨by decide +kernel, by decide +kernel, by decide +kernel, by decide +kernel, createPages_new, by decide +kernel⟩
/-- The same descriptor with COUNTERS in the mapped GiB, and with a table that maps nothing. -/
def descC : List Byte := desc0.take 24 ++ natLe 8 0x40000000 ++ desc0.drop 32
theorem wit_ContextCommands_counters : (Ctx.ofDesc (leNat descC)).counters ≠ 0 ∧
    (({ snew with ctxs := [(1, { Ctx.ofDesc (leNat descC) with root := 0x20000 })] } : State).xlateRange 0 1
      (Ctx.ofDesc (leNat descC)).counters 232 true).toOption.isSome = true ∧
    ({ screate with ctxs := [(1, { ctxNew with root := 0x60000 })] } : State).createPages 1 { ctxNew with root := 0x60000 } = none := by
  decide +kernel
theorem wit_QueueAndTableCommands :
    let s := scmd [3, 5, 0, 0, 16, 5, 0x40050000]
    (s.ctx? 0).isSome = true ∧ dword s 0 = 3 ∧ dword s 2 ≤ 255 ∧ dword s 1 ≤ 4095 ∧ dword s 3 ≤ 1 ∧ dword s 4 = 2 ^ 4 ∧
      dword s 6 % 64 = 0 ∧ s.queue? 5 = none ∧
      (((begun s).xlateRange 0 0 0x40050000 (16 * 64) true).toOption.bind fun g => (begun s).pinHomes 0 g.pages).isSome = true := by
  decide +kernel
/-- The operands of a queue number and a length out of range; a ring that nothing maps, and one behind a table's line with a reserved
tag; and an empty queue that is there. -/
theorem wit_QueueAndTableCommands_refused : 4095 < dword (scmd [3, 4096, 0, 0, 16, 5, 0x40050000]) 1 ∧
    (∀ i, 4 ≤ i → i ≤ 24 → dword (scmd [3, 5, 0, 0, 17, 5, 0x40050000]) 4 ≠ 2 ^ i) ∧
    (begun (scmd [3, 5, 0, 0, 16, 5, 0x90000000])).xlateRange 0 0 0x90000000 (16 * 64) true = .error (noPage 0x90000000) ∧
    (noPage 0).code ≠ eccCode ∧
    (begun { scmd [3, 5, 0, 0, 16, 5, 0x40050000] with lineTag := [(lineOf 0x20000, 8)] }).xlateRange 0 0 0x40050000 (16 * 64) true =
      .error ⟨eccCode, 0, lineOf 0x20000⟩ := by
  refine ⟨by decide, fun i a b => ?_, error_of (by decide +kernel), by decide, error_of (by decide +kernel)⟩
  have : dword (scmd [3, 5, 0, 0, 17, 5, 0x40050000]) 4 = 17 := by decide
  rw [this]
  exact (by decide : ∀ i < 25, 17 ≠ 2 ^ i) i (by omega)
theorem wit_QueueAndTableCommands_again :
    let s := { scmd [3, 5, 0, 0, 16, 5, 0x40050000] with queues := [(5, queue0 true [])] }
    s.queue? 5 = some (queue0 true []) ∧ (queue0 true []).entries = [] ∧
      (((begun s).xlateRange 0 0 0x40050000 (16 * 64) true).toOption.bind fun g =>
        ((begun s).unpinHomes (queue0 true []).ctx (queue0 true []).pins).pinHomes 0 g.pages).isSome = true := by
  decide +kernel
theorem wit_QueueAndTableCommands_busy : (sq [zeros]).queue? 5 = some (queue0 true [zeros]) ∧ (queue0 true [zeros]).entries ≠ [] := by
  decide
theorem wit_QueueAndTableCommands_table :
    let s (n : Dword) (st : Nat) := { scmd [4, 0, n, 0, 2 ^ 32 + 2 ^ 40] with ctxs := [(0, ctxEx st 0)] }
    (s 0 1).ctx? 0 = some (ctxEx 1 0) ∧ (ctxEx 1 0).ert.get? (dword (s 0 1) 2) = some (expert0 1 0) ∧ (expert0 3 0).st = 3 ∧
      field (dword (s 0 1) 4) 36 34 = 0 ∧ (ctxEx 1 0).ert.get? (dword (s 9 1) 2) = none := by decide
theorem wit_QueueAndTableCommands_invalidate : dword (scmd [5, 0, 0x40000000, 4096]) 0 = 5 ∧ (scmd [5]).laneOps 0 = false ∧
    (∀ i ∈ (scmd [5]).islands, ∀ p ∈ i.2.pins, p.ctx = 0 → False) ∧ (withOp load0).laneOps 0 = true ∧
    ∃ i ∈ (pinned0 (scmd [5, 0, 0x40000000, 4096])).islands, ∃ p ∈ i.2.pins, p.ctx = 0 ∧ p.vpage < 0x40000000 + 4096 ∧
      0x40000000 < p.vpage + p.size := by decide
theorem wit_RepairAndBindingCommands :
    let s := scmd [7, 0, 0x40030000, 255]
    dword s 0 = 7 ∧ (s.ctx? 0).isSome = true ∧ dword s 3 ≤ 255 ∧ dword s 3 ≠ 0 ∧ dword s 2 % 8 = 0 ∧ s.irqs.length < 1024 ∧
      (((begun s).xlateRange 0 0 0x40030000 8 true).toOption.bind fun g => (begun s).pinHomes 0 g.pages).isSome = true ∧
      dword (scmd [6, 0, 5]) 0 = 6 := by decide +kernel
theorem wit_RepairAndBindingCommands_held : (scmd [6, 0, 5]).repairHeld ((begun (scmd [6, 0, 5])).repairId 0 5).1 = false ∧
    1024 ≤ ({ scmd [7] with irqs := List.replicate 1024 ⟨0, 1, 0, []⟩ } : State).irqs.length := by decide +kernel
theorem wit_RepairAndBindingCommands_vector0 : dword (scmd [7, 0, 0x40030000, 0]) 3 = 0 ∧
    ({ scmd [7] with irqs := [⟨0x30000, 1, 0, []⟩] } : State).irqs = [] ++ ⟨0x30000, 1, 0, []⟩ :: [] ∧ (scmd [7]).irqs = [] := by decide
theorem wit_RepairAndBindingCommands_c :
    (Window.ofEntry (2 ^ 60) 0).target = 0 ∧ (Window.ofEntry (2 ^ 60) 0).c = true ∧ (Window.ofEntry (2 ^ 62 + 2 ^ 28 + 2 ^ 16) 0).target ≠ 0 ∧
    s0.windowOk (2 ^ 62 + 2 ^ 28 + 2 ^ 16) (Window.ofEntry (2 ^ 62 + 2 ^ 28 + 2 ^ 16) 0) = true := by decide
theorem wit_RepairAndBindingCommands_window : 63 < dword (scmd [8, 64]) 1 ∧ dword (scmd [8, 63]) 1 ≤ 63 ∧
    (Window.ofEntry (dword (scmd [8, 63]) 2) (dword (scmd [8, 63]) 3)).target = 0 ∧
    dword (scmd [10, 1, 5, 7, 4096]) 4 = 4096 ∧ dword (scmd [10, 1, 5, 7, 4096]) 1 ≤ 1 ∧
    ((scmd [10]).flash.filter fun f => f.1 ≠ 7).length < 8 := by decide
theorem wit_PartitionAndPolicyCommands :
    let s := { scmd [9, 7, 0x30000] with mem := retireMem tables (cellsAt 0x30000 [1]) }
    dword s 0 = 9 ∧ dword s 1 ≤ 7 ∧ ((begun s).sysRead (dword s 2) 64).isSome = true ∧ s.busyTwins = [0] ∧
      s.policy.load 6 500 = (some { s.policy with grace := 500 }, none) ∧ s.policy.load 6 501 = (none, none) ∧
      s.policy.load 1 2 = (none, some 4) ∧ (1 : Nat) < 2 ^ 36 ∧ (s.policy.load 1 0x100450CF).1.isSome = true := by decide +kernel

theorem wit_PartitionAndPolicyCommands_same :
    let s := { scmd [9, 0, 0x30000] with mem := retireMem tables (cellsAt 0x30000 [1]), parts := [(0, { twins := [0] })] }
    ((begun s).sysRead (dword s 2) 64).isSome = true ∧ s.busyTwins = [0] ∧ 0 ∈ (s.part (dword s 1)).twins := by decide +kernel

/-! Encodings, steps, invariants and frames. -/

theorem wit_DecodeEncode : (Instr.tlMma false false 0 7 8 0x44).legal = true ∧ decode 0x20600000 = .ok .ctlNop := ⟨by decide, rfl⟩

/-- The quadrant that issues next holds one fragment, at a word that decodes. -/
def sslot : State := State.reset.withFetchWord 32 0x20600000

/-- Two eligible fragments of one quadrant, one of which the other has passed over 3 times. -/
def ready0 (slot passed : Nat) : Ready := ⟨⟨slot, 0⟩, { course0 with slot := slot }, { frag0 with passed := passed }, 7⟩
theorem wit_IssueChoice : (∀ y ∈ [ready0 0 0, ready0 1 3], y.f.passed + 2 ≤ max 64 2) ∧ course0.token = false ∧
    (choose [ready0 0 0, ready0 1 3]).isSome = true ∧ fits [ready0 0 0, ready0 1 3] (ready0 0 0) = true ∧
    fits [ready0 0 0, ready0 1 63] (ready0 0 0) = false ∧ choose [ready0 0 0, ready0 1 63] = some (ready0 1 63) := by decide +kernel

theorem wit_StepRunsDecoded : SlotAt sslot { sslot.begin with sched := [] } 0 0 ∧
    (choose (({ sslot.begin with sched := [] } : State).quadReady 0 0)).isSome = true :=
  ⟨⟨by decide +kernel, .inl ⟨[], rfl, rfl⟩⟩, by decide +kernel⟩
theorem wit_StepRunsDecoded_bytes :
    let t : State := { sslot.begin with sched := [] }
    t.fetchLookup placedCourse placedFrag = .ok placedTlb.leaf ∧ t.markedIn [t.leafLoc placedTlb.leaf 0x40000000] = none ∧
      decodeBytes (t.viewBytes 0 31 (t.leafLoc placedTlb.leaf 0x40000000) 4) = .ok .ctlNop ∧ placedFrag.mark = none :=
  ⟨by decide, by decide, rfl, rfl⟩
theorem wit_StepRunsDecoded_event : ({ State.reset with sched := [.event .firmwareBringUp] } : State).begin.sched =
    [.event .firmwareBringUp] ∧ schedulable .firmwareBringUp = true ∧
    ({ State.reset with sched := [.event .firmwareBringUp] } : State).begin.overdue = none := by decide
theorem wit_StepRunsDecoded_progress : ({ State.reset with sched := [.progress 1] } : State).begin.sched = [.progress 1] ∧
    ({ State.reset with sched := [.progress 1] } : State).begin.overdue = none := by decide
theorem wit_StepKeepsInvariant : State.reset.Inv ∧ ∃ t, step State.reset = .next t :=
  ⟨⟨rfl, rfl, rfl, rfl⟩, ⟨_, rfl⟩⟩
theorem wit_Frames : memWf s0.mem = true ∧ fmtWf s0.efmt = true ∧ Issues s0 (.siMov 0x44 0x45) e0 ∧ scalarDest (.siMov 0x44 0x45) = some 0x44 ∧
    vectorDest (.viMov 4 5) = some (4, 1) ∧ tritDest (.vxQmov 1 2) = some (1, 1) ∧ isS 0x44 = true ∧ s0.writes = [] ∧ s0.usable 0x30000 64 = true :=
  ⟨by decide, by decide, issues_of_meets (by decide), rfl, rfl, rfl, rfl, rfl, by decide⟩

/-! One step each, with results worked out by hand from the rules named. -/

/-- What a state holds after an instruction. -/
def after {α : Type} (i : Instr) (s : State) (g : State → α) : Option α := match exec i s with
  | .next t => some (g t)
  | _ => none
def regS (n : Nat) (s : State) : Option Dword := (s.course? 0).bind fun c => c.scal.get? n
def regV (n l : Nat) (s : State) : Option Word := (s.course? 0).bind fun c => c.v? n l
def regQ (n l : Nat) (s : State) : Option Trit := (s.course? 0).map fun c => c.trit? n l
def fragOf (s : State) : Frag := (s.frag? ⟨0, 0⟩).getD frag0

/-- Scalar registers 4 and 5 (field values 0x44, 0x45), and the vector registers 8 and 9 of lane 0. -/
def onS (x y : Dword) : State := at' (withSs x y 0) wall0
def onV (x y : Word) : State := at' { course0 with vec := [(64 * 8, x), (64 * 9, y)] } wall0

/-- R483: SHA-384 of the three bytes of "abc", as FIPS 180-4 gives it. -/
theorem test_sha384 : sha384 [0x61, 0x62, 0x63] =
    0xCB00753F45A35E8BB5A03D699AC65007272C32AB0EDED1631A8B605A43FF5BED8086072BA1E7CC2358BAECA134C825A7 := by decide +kernel
/-- R448: a line of eight-byte words 0x100 apart by 1 takes tag 4 and is read back from its sectors. -/
theorem test_pack : let bs := (List.range 16).flatMap fun i => natLe 8 (256 + i)
    tagFor 31 bs = 4 ∧ unpackLine 4 31 (packLine 4 bs) = some bs := by decide +kernel
/-- R47, R62: a NaN operand of at.fadd over an absent word is stored as the canonical NaN. -/
theorem test_atomic_nan : AtOp.new (.fadd .f32) 4 0xFFFFFFFF 0x7F800001 0 = 0x7FC00000 := by decide

/-- R53: the largest i64 and 1 saturate; R59: absent propagates; R54: b64 wraps. -/
theorem test_add_saturates : after (.siAdd .i64 0x46 0x44 0x45) (onS 0x7FFFFFFFFFFFFFFF 1) (regS 6) = some (some 0x7FFFFFFFFFFFFFFF) := by
  decide
theorem test_add_absent : after (.siAdd .i64 0x46 0x44 0x45) (onS 0x8000000000000000 1) (regS 6) = some (some 0x8000000000000000) := by
  decide
theorem test_add_wraps : after (.siAdd .b64 0x46 0x44 0x45) (onS 0xFFFFFFFFFFFFFFFF 2) (regS 6) = some (some 1) := by decide
/-- R53: x < 0 divided by 0 is the least value. -/
theorem test_div_zero : after (.siDiv .i64 0x46 0x44 0x45) (onS 0xFFFFFFFFFFFFFFFB 0) (regS 6) = some (some 0x8000000000000001) := by
  decide
/-- R58: an absent operand makes the comparison unknown, in the lanes of F. -/
theorem test_cmp_unknown : after (.siCmp .lt .i64 3 0x44 0x45) (onS 0x8000000000000000 1) (regQ 3 1) = some (some .u) := by decide
/-- R204: −1 as an immediate; R205: slu.hi. -/
theorem test_movi : after (.siiMovi 0x46 0x3FF) s0 (regS 6) = some (some 0xFFFFFFFFFFFFFFFF) := by decide
theorem test_slu_hi : after (.sluHi 0x46 0x40001) s0 (regS 6) = some (some 0xFFFFFFFF80002000) := by decide
/-- R53 on both elements: 32767 + 1 and 1 + 1. -/
theorem test_packed_add : after (.viAdd .i16 4 8 9) (onV 0x7FFF0001 0x00010001) (regV 4 0) = some (some 0x7FFF0002) := by decide
theorem test_clz : after (.viClz 4 8) (onV 0x00010000 0) (regV 4 0) = some (some 15) := by decide
/-- 1.0 + 1.0 = 2.0; 1.0 / 0 = infinity. -/
theorem test_float_add : after (.vfAdd .f32 4 8 9) (onV 0x3F800000 0x3F800000) (regV 4 0) = some (some 0x40000000) := by decide +kernel
theorem test_float_div : after (.vfDiv .f32 4 8 9) (onV 0x3F800000 0) (regV 4 0) = some (some 0x7F800000) := by decide +kernel
/-- R66: 2.5 to i32 is 2 to the nearest even and 3 upward. -/
theorem test_convert : after (.vxCvt .rn 4 8 false .f32 .i32) (onV 0x40200000 0) (regV 4 0) = some (some 2) ∧
    after (.vxCvt .ru 4 8 false .f32 .i32) (onV 0x40200000 0) (regV 4 0) = some (some 3) := by decide +kernel
/-- R234, R243: lane 0 holds 7, lane 1 is absent: the sum is 7, the count 1. -/
theorem test_reduce : after (.vcRedAdd 4 8 .i32 .seg4) (onV 7 0) (fun s => (regV 4 1 s, regV 5 1 s)) = some (some 7, some 1) := by
  decide +kernel
/-- R178: sys.trap with code 77 saves the next pc and goes to TVEC. -/
theorem test_trap : after (.sysTrap 77) s0 (fun s => ((fragOf s).cause, (fragOf s).tpc, (fragOf s).pc, (fragOf s).handler)) =
    some (0x4D0B, 0x40010004, 0x40000100, true) := by decide
theorem test_return : after .sysRft (at' inHandler wall0) (fun s => ((fragOf s).pc, (fragOf s).handler)) = some (0x40010040, false) := by
  decide
/-- R185: lane 0 (TRUE) branches, lane 1 (FALSE) goes on; the group of the next word keeps the fragment. -/
theorem test_branch : after (.brT .w 5 3) (at' withQ wall0) (fun s => ((fragOf s).lanes, (fragOf s).pc, (s.frag? ⟨0, 1⟩).map fun f =>
    (f.lanes, f.pc))) = some (2, 0x40010004, some (1, 0x4001000C)) := by decide
/-- R188: the link is bits [33:2] of the next address. -/
theorem test_call : after (.jmpCall 4 2) s0 (fun s => (regV 4 1 s, (fragOf s).pc)) = some (some 0x10004001, 0x40010008) := by decide
/-- R208: slot 16 of a stack of 16. -/
theorem test_stack_limit : after (.ldStk 4 16) s0 (fun s => ((fragOf s).cause, (fragOf s).faddr)) = some (5, 16) := by decide
/-- R246: a 4-byte atomic at an odd address. -/
theorem test_misaligned : after (.atAdd .n32 4 0x44 .dev .rlx) (at' { cat with scal := [(4, 0x40020002)] } wall0)
    (fun s => ((fragOf s).cause, (fragOf s).faddr, (fragOf s).flanes)) = some (7, 0x40020002, 3) := by decide
/-- R250: the load takes the four bytes at 0x4002_0000. -/
theorem test_load : after (.loadComplete 1) (withOp load0) (regV 4 0) = some (some 0x00021001) := by decide
/-- R265: the sum of the word 0x21001 and 1 is queued as the new value, and the lane has the old one. -/
theorem test_atomic : after (.loadComplete 1) (withOp atomic0) (fun s => (regV 4 0 s, s.byteLatest 0x20000)) =
    some (some 0x00021001, 0x02) := by decide
/-- R464: a host write of the under-stack. -/
theorem test_host_write : after (.hostWrite 0x30000 [5, 6]) s0 (fun s => (s.byteAt 3 0x30001, s.byteAt 0 0x30002)) = some (6, 0) := by
  decide
/-- R286, R84: no such queue. -/
theorem test_trypop : after (.wqTrypop 0x46 0x44 0x45) (onS 5 0) (regS 6) = some (some 0xFFFFFFFFFFFFFFFF) := by decide
/-- R293: no format of the value 0xFFF. -/
theorem test_setfmt : after (.tlSetfmt 0x44) (onS 0xFFF 0) (fun s => ((fragOf s).cause, (fragOf s).faddr)) = some (0x0D, 0xFFF) := by decide
/-- R479: the first step after reset is the firmware's bring-up. -/
theorem test_first_step : (match step State.reset with
    | .next t => t.ready
    | _ => false) = true := rfl
/-- A placed ctl.nop is fetched, runs and goes on at the next word. -/
theorem test_fetch : (match step (State.reset.withFetchWord 32 0x20600000) with
    | .next t => (t.frag? ⟨0, 0⟩).map fun f => f.pc
    | _ => none) = some 0x40000004 := by decide

/-! The tools. The expected values are those of 10_assembler_notes.md and 08_encoding_notes.md. -/

/-- The source of the object notes. -/
def tinySource : Tools.Text :=
  "        .global k\n        .kernel k\n        .width 16\nstart:  ctl.exit                      ; W\n        .endk\n".toList
/-- Its object. -/
def tiny : Option Tools.Object :=
  (Tools.smas (fun p => if p = "tiny.s".toList then some tinySource else none) [] "tiny.s".toList).toOption
/-- The word of a statement in a kernel of width 64 under windows. -/
def asmWord (wv ws : Nat) (m ops : String) : Option Nat :=
  ((Tools.assembleWord {} ⟨wv, ws, none⟩ 0 m.toList ((Tools.lex ops.toList).getD [])).toOption).map fun p => p.1
/-- The value of an absolute expression. -/
def value (e : String) : Option Int :=
  ((Tools.lex e.toList).bind Tools.parseExpr).bind fun e => (Tools.Names.abs {} e).toOption

/-- R166: the header of the object. -/
theorem test_smas_header : tiny.map (fun o => o.bytes.take 32) =
    some [0x4F, 0x4F, 0x46, 0, 1, 0, 1, 0, 0, 0, 0, 0, 0, 0, 0, 0, 0, 0, 5, 0, 0x30, 0, 0x40, 0, 0, 0, 0, 0, 0, 0, 0, 0] := by
  decide +kernel
/-- R169: the relocation of ENTRY. -/
theorem test_smas_entry : tiny.map (fun o => (o.bytes.drop 0x1C8).take 32) =
    some [1, 0, 0, 0, 0, 0, 0, 0, 0, 0, 0, 0, 0, 0, 0, 0, 7, 1, 0, 0, 1, 0, 0, 0, 0, 0, 0, 0, 0, 0, 0, 0] := by decide +kernel
/-- R172: the image at the default base. -/
theorem test_smld : (tiny.bind fun o => (Tools.smld [o]).toOption).map (fun o => o.secs.map fun s => (s.addr, s.bytes.take 16)) =
    some [(0x4000000000, [0, 0, 0x40, 0x20]), (0x4000010000, [0, 0, 0, 0, 0x40, 0, 0, 0, 0, 0, 0, 0, 0, 0, 0x20, 0x20])] := by
  decide +kernel
/-- R122: the fused multiply-add of the encoding notes. -/
theorem test_smas_fma : asmWord 0 0 "vf.fma.f32" "v4, v5, v6" = some 0x51810286 := by decide +kernel
/-- R137: the offset is written in bytes. -/
theorem test_smas_load : asmWord 0 0 "ld.g.b32" "v6, [s4 + 16]" = some 0x70868804 := by decide +kernel
/-- R15, R154: an unknown mnemonic is an error, and so is the groups v8 to v71 under a cap of 71. -/
theorem test_smas_refused : asmWord 0 0 "vd." "v0, v2, v0" = none ∧
    ((Tools.assembleWord {} ⟨0, 0, some (64, 71)⟩ 0 "tl.mma.kn8".toList ((Tools.lex "z0, v8, s4".toList).getD [])).toOption).isNone = true ∧
    ((Tools.assembleWord {} ⟨0, 0, some (64, 72)⟩ 0 "tl.mma.kn8".toList ((Tools.lex "z0, v8, s4".toList).getD [])).toOption).isSome = true := by
  decide +kernel
/-- R119: the same word under another window. -/
theorem test_smas_window : asmWord 64 40 "si.add.i64" "s60, s44, s45" = some 0x28152245 := by decide +kernel
/-- R119: v63 lies below a window that begins at v64. -/
theorem test_smas_outside : asmWord 64 40 "vi.mov.b32" "v63, v64" = none := by decide +kernel
/-- R152: 1 << 63 is -2^63, and its negation is an error. -/
theorem test_smas_shift : (value "1 << 63", value "-(1 << 63)", value "7 - 2 * 3 & 3") = (some (-2 ^ 63), none, some 1) := by
  decide +kernel

end Sys2Proof.Tests
end

/-!
Kleene's strong three-valued logic (R57): each operation by its laws, and from the laws its truth table.
-/
section
namespace Sys2Proof.Machine

/-! Conjunction: false dominates, true is the unit, and two unknowns stay unknown. -/

@[simp] theorem Trit.false_and (b : Trit) : Trit.and .f b = .f := rfl

@[simp] theorem Trit.and_false (a : Trit) : Trit.and a .f = .f := by cases a <;> rfl

@[simp] theorem Trit.true_and (b : Trit) : Trit.and .t b = b := by cases b <;> rfl

@[simp] theorem Trit.and_true (a : Trit) : Trit.and a .t = a := by cases a <;> rfl

@[simp] theorem Trit.unknown_and_unknown : Trit.and .u .u = .u := rfl

/-! Negation swaps true and false and keeps unknown; disjunction is the De Morgan dual of conjunction. -/

@[simp] theorem Trit.not_false : Trit.not .f = .t := rfl

@[simp] theorem Trit.not_true : Trit.not .t = .f := rfl

@[simp] theorem Trit.not_unknown : Trit.not .u = .u := rfl

theorem Trit.or_eq_not_and_not (a b : Trit) : a.or b = (a.not.and b.not).not := by
  cases a <;> cases b <;> rfl

/-! Exclusive or: unknown dominates, and a known operand keeps the other one or negates it. -/

@[simp] theorem Trit.unknown_xor (b : Trit) : Trit.xor .u b = .u := rfl

@[simp] theorem Trit.false_xor (b : Trit) : Trit.xor .f b = b := by cases b <;> rfl

@[simp] theorem Trit.true_xor (b : Trit) : Trit.xor .t b = b.not := by cases b <;> rfl

/-- Settles O7: the rows of each table are instances of the laws, those of `or` through De Morgan's. -/
theorem kleeneLogic : Obligations.KleeneLogic := by
  unfold Obligations.KleeneLogic
  refine ⟨?not, ?and, ?or, ?xor⟩
  case not => exact ⟨Trit.not_false, Trit.not_true, Trit.not_unknown⟩
  case and => simp
  case or => simp [Trit.or_eq_not_and_not]
  case xor => simp

end Sys2Proof.Machine
end

/-!
The words that settle where a fragment goes on: the return from a trap (R180) and the branches on a vote (R186). An
instruction whose first checks pass does what its body does, so each statement is about the body alone.
-/
section
namespace Sys2Proof.Machine

open Sys2Proof.Claims

/-- Once the first checks pass, an instruction that issues `body` changes the state as `body` does. -/
theorem runs_of_exec {s : State} {i : Instr} {e : Env} {body : Env → State → State} {f : State → State}
    (hexec : exec i s = s.issue i body) (hbody : body e s = f s) : Runs s i e f := by
  rintro ⟨hissuer, hwidth, hcap, htile⟩
  calc exec i s = s.issue i body := hexec
    _ = .next (s.settle (body e s)) := issue_next hissuer hwidth hcap htile
    _ = .next (s.settle (f s)) := by rw [hbody]

/-! Traps at the word, as cases of taking a trap (R370). -/

theorem trapAll_eq_trapAt (s : State) (e : Env) (code faddr : Nat) :
    s.trapAll e code faddr = s.trapAt e code 0 e.pc (BitVec.ofNat 64 faddr) e.f.lanes := rfl

theorem trapIllegal_eq_trapAt (s : State) (e : Env) (w : Word) :
    s.trapIllegal e w = s.trapAt e 0x01 0 e.pc (BitVec.ofNat 64 w.toNat) e.f.lanes :=
  trapAll_eq_trapAt s e 0x01 w.toNat

/-! The return from a trap (R180). -/

theorem returnFromTrap_of_handler (s : State) {e : Env} (w : Word) (h : e.f.handler = true) :
    s.returnFromTrap e w = s.updFrag e.r fun f => { f with handler := false, pc := f.tpc } :=
  if_pos h

theorem returnFromTrap_of_no_handler (s : State) {e : Env} (w : Word) (h : e.f.handler = false) :
    s.returnFromTrap e w = s.trapIllegal e w :=
  if_neg (ne_true_of_eq_false h)

/-- Settles O13, by the two branches of the return. -/
theorem returnFromTrap : Obligations.ReturnFromTrap := by
  unfold Obligations.ReturnFromTrap
  refine fun s e => ⟨fun hset => ?returns, fun hclear => ?traps⟩
  case returns => exact runs_of_exec (exec_sysRft s) (returnFromTrap_of_handler s _ hset)
  case traps =>
    have hbody := returnFromTrap_of_no_handler s (encode .sysRft) hclear
    exact runs_of_exec (exec_sysRft s) (hbody.trans (trapIllegal_eq_trapAt s e _))

/-! Combining the trits of a fragment (R57, R186): `or` and `and` are associative and the start value is their unit, so the
lanes may be combined from either end. -/

theorem Trit.not_not (a : Trit) : a.not.not = a := by cases a <;> rfl

theorem Trit.and_assoc (a b c : Trit) : (a.and b).and c = a.and (b.and c) := by
  cases a with
  | f => rfl
  | t => simp only [Trit.true_and]
  | u => cases b <;> cases c <;> rfl

theorem Trit.or_assoc (a b c : Trit) : (a.or b).or c = a.or (b.or c) := by
  simp only [Trit.or_eq_not_and_not, Trit.not_not, Trit.and_assoc]

theorem Trit.false_or (a : Trit) : Trit.or .f a = a := by cases a <;> rfl

theorem Trit.or_false (a : Trit) : Trit.or a .f = a := by cases a <;> rfl

theorem Trit.orAll_eq_foldr (ts : List Trit) : Trit.orAll ts = ts.foldr Trit.or .f :=
  have : Std.Associative Trit.or := ⟨Trit.or_assoc⟩
  have : Std.LawfulRightIdentity Trit.or .f := { right_id := Trit.or_false }
  List.foldl_eq_apply_foldr.trans (Trit.false_or _)

theorem Trit.andAll_eq_foldr (ts : List Trit) : Trit.andAll ts = ts.foldr Trit.and .t :=
  have : Std.Associative Trit.and := ⟨Trit.and_assoc⟩
  have : Std.LawfulRightIdentity Trit.and .t := { right_id := Trit.and_true }
  List.foldl_eq_apply_foldr.trans (Trit.true_and _)

/-! Where a uniform branch sends the fragment (R186). -/

theorem relTarget_eq_branchTarget {n : Nat} (pc : Dword) (off : BitVec n) : relTarget pc off = branchTarget pc off := by
  have hoff : off.signExtend 64 * 4 = BitVec.ofInt 64 (4 * off.toInt) := by
    rw [BitVec.ofInt_mul, BitVec.mul_comm]; rfl
  exact congrArg (pc + ·) hoff

section
variable (s : State) (e : Env) (uk : Uk) (off : BitVec 18)

theorem branchUniform_true : s.branchUniform e .t uk off = s.goTo e (branchTarget e.pc off) := by
  simp only [State.branchUniform, relTarget_eq_branchTarget]

theorem branchUniform_false : s.branchUniform e .f uk off = s.goTo e (e.pc + 4) := rfl

theorem branchUniform_unknown_t : s.branchUniform e .u .t off = s.goTo e (branchTarget e.pc off) := by
  simp only [State.branchUniform, relTarget_eq_branchTarget]

theorem branchUniform_unknown_f : s.branchUniform e .u .f off = s.goTo e (e.pc + 4) := rfl

theorem branchUniform_unknown_w : s.branchUniform e .u .w off = s.goTo e (e.pc + 8) := rfl

theorem branchUniform_unknown_x : s.branchUniform e .u .x off = s.trapAt e 0x06 0 e.pc 0 e.f.lanes :=
  trapAll_eq_trapAt s e 0x06 0

end

/-- A branch on the one trit `c` sends all of F to one address, or traps for all of F. -/
theorem branchUniform_decides {s : State} {e : Env} {i : Uk → Instr} {vote : Env → Trit} {off : BitVec 18} {c : Trit}
    (hexec : ∀ uk, exec (i uk) s = s.issue (i uk) fun e s => s.branchUniform e (vote e) uk off) (hvote : vote e = c) :
    (∀ uk, c = .t → GoesTo s (i uk) e (branchTarget e.pc off)) ∧ (∀ uk, c = .f → GoesTo s (i uk) e (e.pc + 4)) ∧
    (c = .u → GoesTo s (i .t) e (branchTarget e.pc off) ∧ GoesTo s (i .f) e (e.pc + 4) ∧ GoesTo s (i .w) e (e.pc + 8) ∧
      Runs s (i .x) e fun s => s.trapAt e 0x06 0 e.pc 0 e.f.lanes) := by
  have runs {uk : Uk} {f : State → State} (h : s.branchUniform e c uk off = f s) : Runs s (i uk) e f :=
    runs_of_exec (hexec uk) (by rw [hvote, h])
  refine ⟨fun uk htrue => ?true, fun uk hfalse => ?false, fun hunknown => ?unknown⟩
  case true => subst htrue; exact runs (branchUniform_true ..)
  case false => subst hfalse; exact runs (branchUniform_false ..)
  case unknown =>
    subst hunknown
    exact ⟨runs (branchUniform_unknown_t ..), runs (branchUniform_unknown_f ..), runs (branchUniform_unknown_w ..),
      runs (branchUniform_unknown_x ..)⟩

/-- Settles O16: the three branches differ in the vote alone, which combines F's trits in lane order. -/
theorem uniformBranches : Obligations.UniformBranches := by
  unfold Obligations.UniformBranches
  intro s e q off
  refine ⟨?any, ?all, ?none⟩
  case any => exact branchUniform_decides (fun uk => exec_brAny s uk q off) (Trit.orAll_eq_foldr _)
  case all => exact branchUniform_decides (fun uk => exec_brAll s uk q off) (Trit.andAll_eq_foldr _)
  case none =>
    exact branchUniform_decides (fun uk => exec_brNone s uk q off) (congrArg Trit.not (Trit.orAll_eq_foldr _))

end Sys2Proof.Machine
end

/-!
The modes of Mortar's locks (R403, R404): the join makes them a semilattice, so the mode that a holding has in effect is the
least upper bound of the modes it counts.
-/
section
namespace Sys2Proof.Machine

/-! The join of two modes. -/

theorem mem_allModes (m : LMode) : m ∈ allModes := by cases m <;> decide

theorem joinMode_self (a : LMode) : joinMode a a = a := by cases a <;> rfl

theorem joinMode_comm (a b : LMode) : joinMode a b = joinMode b a :=
  have table : ∀ a ∈ allModes, ∀ b ∈ allModes, joinMode a b = joinMode b a := by decide
  table a (mem_allModes a) b (mem_allModes b)

theorem joinMode_assoc (a b c : LMode) : joinMode (joinMode a b) c = joinMode a (joinMode b c) :=
  have table : ∀ a ∈ allModes, ∀ b ∈ allModes, ∀ c ∈ allModes,
      joinMode (joinMode a b) c = joinMode a (joinMode b c) := by decide
  table a (mem_allModes a) b (mem_allModes b) c (mem_allModes c)

/-- In the order of R403, in which `a` lies below `b` exactly if their join is `b`, the join of two modes lies below exactly
the modes that both lie below. -/
theorem joinMode_le_iff {a b u : LMode} : joinMode (joinMode a b) u = u ↔ joinMode a u = u ∧ joinMode b u = u := by
  refine ⟨fun h => ⟨?left, ?right⟩, fun ⟨ha, hb⟩ => ?join⟩
  case left => rw [← h, ← joinMode_assoc, ← joinMode_assoc, joinMode_self]
  case right => rw [← h, ← joinMode_assoc, joinMode_comm a b, ← joinMode_assoc, joinMode_self]
  case join => rw [joinMode_assoc, hb, ha]

theorem le_joinMode (a b : LMode) : joinMode a (joinMode a b) = joinMode a b ∧ joinMode b (joinMode a b) = joinMode a b :=
  joinMode_le_iff.mp (joinMode_self _)

theorem joinMode_i_left {m : LMode} (h : m ≠ .i) : joinMode .i m = .x := by
  cases m with
  | i => contradiction
  | _ => rfl

/-- The join of a list of modes lies below what all of them lie below. -/
theorem foldl_joinMode_le_iff {a u : LMode} {ms : List LMode} :
    joinMode (ms.foldl joinMode a) u = u ↔ ∀ m ∈ a :: ms, joinMode m u = u := by
  induction ms generalizing a with
  | nil => simp
  | cons m ms ih => simp [ih, joinMode_le_iff, and_assoc]

/-! The mode in effect of a holding. -/

/-- The modes that a holding counts, in the order of their codes. -/
def Hold.modes (h : Hold) : List LMode := ((allModes.zip h.counts).filter fun p => p.2 != 0).map Prod.fst

theorem allModes_map_modeCode : allModes.map modeCode = List.range 6 := rfl

theorem allModes_getElem?_eq_some {i : Nat} {m : LMode} : allModes[i]? = some m ↔ i = modeCode m := by
  refine ⟨fun hi => ?code, fun hi => ?mode⟩
  case code =>
    have hcode : (List.range 6)[i]? = some (modeCode m) := by rw [← allModes_map_modeCode, List.getElem?_map, hi]; rfl
    exact (List.getElem_range _).symm.trans (List.getElem?_eq_some_iff.mp hcode).2
  case mode => subst hi; cases m <;> rfl

theorem Hold.mem_modes {h : Hold} {m : LMode} : m ∈ h.modes ↔ h.counts.getD (modeCode m) 0 ≠ 0 := by
  calc m ∈ h.modes ↔ ∃ n, (m, n) ∈ allModes.zip h.counts ∧ n ≠ 0 := by simp [Hold.modes]
    _ ↔ ∃ n, h.counts[modeCode m]? = some n ∧ n ≠ 0 := by
      simp only [List.mem_iff_getElem?, List.getElem?_zip_eq_some, allModes_getElem?_eq_some, exists_eq_left]
    _ ↔ h.counts.getD (modeCode m) 0 ≠ 0 := by
      rw [List.getD_eq_getElem?_getD]
      cases h.counts[modeCode m]? <;> simp

theorem Hold.modes_eq_nil_iff {h : Hold} (hlen : h.counts.length = 6) : h.modes = [] ↔ ∀ n ∈ h.counts, n = 0 := by
  have hsnd : (allModes.zip h.counts).map Prod.snd = h.counts := List.map_snd_zip (by simp [hlen, allModes])
  calc h.modes = [] ↔ ∀ p ∈ allModes.zip h.counts, p.2 = 0 := by simp [Hold.modes, List.filter_eq_nil_iff]
    _ ↔ ∀ n ∈ (allModes.zip h.counts).map Prod.snd, n = 0 := by simp only [List.forall_mem_map]
    _ ↔ ∀ n ∈ h.counts, n = 0 := by rw [hsnd]

theorem foldl_joinOpt_some (a : LMode) (ms : List LMode) :
    ms.foldl (fun e m => some (joinOpt e m)) (some a) = some (ms.foldl joinMode a) := by
  induction ms generalizing a with
  | nil => rfl
  | cons m ms ih => exact ih (joinMode a m)

theorem Hold.eff_eq_foldl (h : Hold) : h.eff = h.modes.foldl (fun e m => some (joinOpt e m)) none := by
  have hstep : (fun (e : Option LMode) (p : LMode × Nat) => some (joinOpt e p.1)) =
      fun e p => match e with | none => some p.1 | some m => some (joinMode m p.1) := by
    funext e p
    cases e <;> rfl
  rw [Hold.modes, List.foldl_map, hstep]
  rfl

theorem Hold.eff_of_modes_nil {h : Hold} (hmodes : h.modes = []) : h.eff = none := by
  rw [h.eff_eq_foldl, hmodes]; rfl

theorem Hold.eff_of_modes_cons {h : Hold} {a : LMode} {ms : List LMode} (hmodes : h.modes = a :: ms) :
    h.eff = some (ms.foldl joinMode a) := by
  rw [h.eff_eq_foldl, hmodes]; exact foldl_joinOpt_some a ms

theorem Hold.eff_eq_none_iff {h : Hold} : h.eff = none ↔ h.modes = [] := by
  cases hmodes : h.modes with
  | nil => simp [Hold.eff_of_modes_nil hmodes]
  | cons a ms => simp [Hold.eff_of_modes_cons hmodes]

/-- The mode in effect lies below what every counted mode lies below: it is their least upper bound. -/
theorem Hold.eff_le_iff {h : Hold} {e u : LMode} (heff : h.eff = some e) :
    joinMode e u = u ↔ ∀ m, h.counts.getD (modeCode m) 0 ≠ 0 → joinMode m u = u := by
  simp only [← Hold.mem_modes]
  cases hmodes : h.modes with
  | nil => simp [Hold.eff_of_modes_nil hmodes] at heff
  | cons a ms =>
    obtain rfl : ms.foldl joinMode a = e := Option.some.inj ((Hold.eff_of_modes_cons hmodes).symm.trans heff)
    exact foldl_joinMode_le_iff

/-! The compatibility matrix. -/

/-- The ticks in the default table of R404. -/
def defaultTicks : List (LMode × LMode) :=
  [(.is, .is), (.is, .ix), (.is, .s), (.is, .six), (.ix, .is), (.ix, .ix), (.s, .is), (.s, .s), (.six, .is), (.i, .i)]

theorem compat_reset_iff (a b : LMode) : State.reset.compat a b = true ↔ (a, b) ∈ defaultTicks :=
  have table : ∀ a ∈ allModes, ∀ b ∈ allModes,
      Policy.default.matrix.getLsbD (6 * modeCode a + modeCode b) = true ↔ (a, b) ∈ defaultTicks := by decide
  table a (mem_allModes a) b (mem_allModes b)

/-- Settles O36: the modes are a semilattice under the join, and the mode in effect folds the counted modes with it. -/
theorem lockModes : Obligations.LockModes := by
  unfold Obligations.LockModes
  refine ⟨rfl, ⟨rfl, rfl, rfl, rfl, rfl, rfl, rfl, fun m => joinMode_i_left, le_joinMode,
    fun a b c ha hb => joinMode_le_iff.mpr ⟨ha, hb⟩, fun h hlen => ⟨?none, fun e heff => ⟨?above, ?least⟩⟩⟩,
    compat_reset_iff, fun s a b => rfl, rfl⟩
  case none => exact Hold.eff_eq_none_iff.trans (Hold.modes_eq_nil_iff hlen)
  case above => exact (Hold.eff_le_iff heff).mp (joinMode_self e)
  case least => exact fun u hu => (Hold.eff_le_iff heff).mpr hu

end Sys2Proof.Machine
end
